-- ==== Sys2Proof/Word.lean ====
section
/-! DEFINITION. The words of the part: link bytes, code keys and code values. -/

namespace Sys2Proof

/-- A byte of a link frame (R187). -/
abbrev Byte := BitVec 8

/-- A 128-bit key of a key slot (R76). -/
abbrev Key := BitVec 128

/-- The 76-bit value of a code (section 4.5). -/
abbrev Code := BitVec 76

/-- A set of notice kinds, kind `k` counting `2^k` (R177). -/
abbrev NoticeSet := BitVec 10

/-- A set of tamper kinds, kind `k` counting `2^k` (R154). -/
abbrev KindSet := BitVec 9

/-- A set of snapshot groups: STATUS counts 1, ACCOUNT 2 and ENERGY 4 (R181). -/
abbrev GroupSet := BitVec 3

end Sys2Proof
end

