-- ==== Sys2Proof/Syntax.lean ====
section
/-! DEFINITION. The commands of the part: one constructor of `Instr` for each row of the opcode table, and
the operands they carry. -/

namespace Sys2Proof

/-- The phases, numbered 1 to 3 (conventions, Phases). -/
inductive Phase where
  | p1 | p2 | p3
  deriving DecidableEq, Repr

/-- The number of a phase. -/
def Phase.number : Phase → Nat
  | .p1 => 1
  | .p2 => 2
  | .p3 => 3

/-- One thing for each phase. -/
structure Phases (α : Type) where
  p1 : α
  p2 : α
  p3 : α
  deriving DecidableEq, Repr

/-- The thing of one phase. -/
def Phases.get {α : Type} (x : Phases α) : Phase → α
  | .p1 => x.p1
  | .p2 => x.p2
  | .p3 => x.p3

/-- The three with that of one phase replaced. -/
def Phases.set {α : Type} (x : Phases α) (n : Phase) (a : α) : Phases α :=
  match n with
  | .p1 => { x with p1 := a }
  | .p2 => { x with p2 := a }
  | .p3 => { x with p3 := a }

/-- The same thing for every phase. -/
def Phases.all {α : Type} (a : α) : Phases α := ⟨a, a, a⟩

/-- The levels of the input lines, true for high (pin list of 00_scope.md). `vdd` is "VDD is good" and
`vbat` is "a coin cell is present" (section 10.1). -/
structure Levels where
  d : Phases Bool
  c : Phases Bool
  v : Phases Bool
  l : Phases Bool
  aux : Bool
  rcb : Bool
  cvs : Bool
  tcs : Bool
  mag : Bool
  ads : Bool
  scl : Bool
  pfw : Bool
  rstn : Bool
  vdd : Bool
  vbat : Bool
  deriving DecidableEq, Repr

/-- The moment at which a command comes: the milliseconds of the part's timebase since the command before
it, and the levels of the input lines. DESIGN CHOICE (log 3), safe. -/
structure Moment where
  elapsed : Nat
  pins : Levels
  deriving DecidableEq, Repr

/-- An event that comes between two symbols of one KEYS request, with its own moment: an event of the acceptor (R84), or
a transaction on the bus that finds the link in WORKING (R190, R191; log 10). The operands of the last three are those of
their commands. -/
inductive KeysEvent where
  | decodeEnd (m : Moment)
  | entryTimeout (m : Moment)
  | secondTick (m : Moment)
  | pfwFall (m : Moment)
  | readTransaction (m : Moment) (addr : BitVec 7) (count : Nat) (duration : Nat)
  | writeAddressed (m : Moment) (addr : BitVec 7)
  | clockLowTimeout (m : Moment) (duration : Nat)
  deriving DecidableEq, Repr

/-- How far the start-up steps run in one START_UP (R203, R72). `pfwFell`: PFW fell while they ran. `stop`: none where
they run to their end; otherwise how many are taken before another command comes, each missed boundary counting as
one. -/
structure StartUpRun where
  pfwFell : Bool
  stop : Option Nat
  deriving DecidableEq, Repr

/-- The commands, one constructor for each row of spec/opcode_table.json, in the table's order. `m` is the
moment of the command; a request carries the payload bytes of its frame, a COMMISSION_WRITE item the bytes
of its value after the item byte. -/
inductive Instr where
  /-- A rising edge on Pn. -/
  | pulseEdge (m : Moment) (n : Phase)
  | secondTick (m : Moment)
  | clockWrap (m : Moment)
  /-- The tick at which phase `n` is found stalled. -/
  | stallDetected (m : Moment) (n : Phase)
  | demandMinuteEnd (m : Moment)
  | dayBoundary (m : Moment)
  | lockoutEnd (m : Moment)
  | penaltyEnd (m : Moment)
  | entryTimeout (m : Moment)
  | decodeEnd (m : Moment)
  /-- `between` lists the events taken inside the request, each with the number of symbols handled before it. -/
  | keys (m : Moment) (payload : List Byte) (between : List (Nat × KeysEvent))
  | restEnd (m : Moment)
  | coilPulseEnd (m : Moment)
  | settleEnd (m : Moment)
  /-- An edge on RCB that has stayed high for `held` milliseconds. -/
  | reconnectPress (m : Moment) (held : Nat)
  | runFilterSample (m : Moment)
  | batteryFilterSample (m : Moment)
  /-- A write transaction that ends with `bytes` written after the address. -/
  | frameError (m : Moment) (bytes : List Byte)
  /-- A read addressed to `addr` in which the host clocks `count` bytes in `duration` milliseconds. -/
  | readTransaction (m : Moment) (addr : BitVec 7) (count : Nat) (duration : Nat)
  /-- SCL held low for 30 ms; `duration` is how long the transaction had run, those 30 ms too, if it was a read. -/
  | clockLowTimeout (m : Moment) (duration : Nat)
  | replyHoldTimeout (m : Moment)
  | identify (m : Moment) (payload : List Byte)
  | status (m : Moment) (payload : List Byte)
  | readAccount (m : Moment) (payload : List Byte)
  | readEnergy (m : Moment) (payload : List Byte)
  | readTariff (m : Moment) (payload : List Byte)
  | readCalendar (m : Moment) (payload : List Byte)
  | readSwitch (m : Moment) (payload : List Byte)
  | readTamper (m : Moment) (payload : List Byte)
  | readLog (m : Moment) (payload : List Byte)
  | readCodeResult (m : Moment) (payload : List Byte)
  | readNotices (m : Moment) (payload : List Byte)
  | setAttentionMask (m : Moment) (payload : List Byte)
  | snapshotLatch (m : Moment) (payload : List Byte)
  | snapshotRead (m : Moment) (payload : List Byte)
  | timeRead (m : Moment) (payload : List Byte)
  | timeTrim (m : Moment) (payload : List Byte)
  | setClock (m : Moment) (payload : List Byte)
  | identity (m : Moment) (value : List Byte)
  | slot0Key (m : Moment) (value : List Byte)
  | otsBurnEnd (m : Moment)
  | groupSlot (m : Moment) (value : List Byte)
  | openingBalance (m : Moment) (value : List Byte)
  | pulseWeight (m : Moment) (value : List Byte)
  | absoluteBilling (m : Moment) (value : List Byte)
  | stallTime (m : Moment) (value : List Byte)
  | reconnectMode (m : Moment) (value : List Byte)
  | accountSettings (m : Moment) (value : List Byte)
  | loadLimits (m : Moment) (value : List Byte)
  | tamperActions (m : Moment) (value : List Byte)
  | activeTariffField (m : Moment) (value : List Byte)
  | calendarField (m : Moment) (value : List Byte)
  | commissionLock (m : Moment) (payload : List Byte)
  | commissionLockBurnEnd (m : Moment)
  | vddGood (m : Moment)
  | vddLost (m : Moment)
  | vbatLost (m : Moment)
  | rstnFall (m : Moment)
  | pfwFall (m : Moment)
  | pfwRise (m : Moment)
  | startUp (m : Moment) (run : StartUpRun)
  | lossMarkBurnEnd (m : Moment)
  /-- A write addressed to `addr`. -/
  | writeAddressed (m : Moment) (addr : BitVec 7)
  | writeWithNoRequest (m : Moment)
  deriving DecidableEq, Repr

end Sys2Proof
end

