-- ==== Sys2Proof/Decode.lean ====
section
/-! DEFINITION. The command that a word spells by the opcode table's bits. The part takes commands from
its pins and its I2C port; no row of spec/opcode_table.json gives bits ("n_rows_with_fixed": 0,
spec/98_reader.md), so no word spells a command. -/

namespace Sys2Proof

/-- The command that the `nbits` bits of `w` spell: none, since no row of the table has bits. -/
def decodeTableWord (_nbits _w : Nat) : Option Instr := none

end Sys2Proof
end

