-- ==== Sys2Proof/Config.lean ====
section
/-! DEFINITION. What the manual fixes for the part (durations, sizes, limits) and the two functions it
takes as given: the scramble and the digest of codes (section 4.5). -/

namespace Sys2Proof.Config

/-- The scramble of a code under a key: "a fixed permutation of the 76-bit values for each key"
(section 4.5). The manual gives no more of it, so no body is given here. DESIGN CHOICE (log 11), safe. -/
opaque scramble : Key → Equiv.Perm Code

/-- The keyed digest of the four fields above the check field: "a fixed function of the key and the 52
bits it covers" (section 4.5). No body is given here. DESIGN CHOICE (log 11), safe. -/
opaque digest : Key → BitVec 52 → BitVec 24

/-- The design revision that IDENTIFY reports (R193). -/
def revision : Nat := 1

/-- The least spacing of two accepted edges of one phase, ms (R3). -/
def pulseSpacing : Nat := 10
/-- The entry timer, ms (R80). -/
def entryTime : Nat := 30000
/-- The time a decode takes for each enabled slot tried, ms (R86). -/
def slotTime : Nat := 10
/-- The rest after a coil pulse, ms (R116). -/
def restTime : Nat := 3000
/-- The coil pulse, ms (R117). -/
def pulseTime : Nat := 60
/-- The settle after a coil pulse, ms (R117). -/
def settleTime : Nat := 500
/-- The time RCB stays high for a press, ms (R122). -/
def pressTime : Nat := 50
/-- The run filter's sample interval, ms (R140). -/
def runInterval : Nat := 20
/-- The battery filter's sample interval, ms (R141). -/
def batteryInterval : Nat := 500
/-- The reply-hold timer, ms (R190). -/
def holdTime : Nat := 2000
/-- The clock-low timer, ms (R189). -/
def clockLowTime : Nat := 30
/-- The burn of a One-Time Store field or mark, ms (R194, R196, R205). -/
def burnTime : Nat := 5

/-- Seconds in a day (conventions, Time). -/
def daySeconds : Nat := 86400
/-- One past the top value of the clock (R51). -/
def clockTop : Nat := 4294967296
/-- The greatest day number (R52). -/
def maxDay : Nat := 49710
/-- One past the top value of an energy register (R4). -/
def registerTop : Nat := 281474976710656
/-- One past the top value of the billed watt-hours (R5). -/
def billedTop : Nat := 18446744073709551616
/-- The greatest value of the 24-bit amounts (R20, R107). -/
def maxAmount : Nat := 16777215
/-- The greatest energy price, micro-units per Wh (R58). -/
def maxPrice : Nat := 1000000
/-- Micro-units in one hundredth of the currency unit (conventions, Money). -/
def hundredth : Nat := 10000
/-- Micro-units in one currency unit. -/
def unit : Nat := 1000000
/-- Micro-units in one milli-unit. -/
def milli : Nat := 1000
/-- The loss marks of the One-Time Store (R204). -/
def lossMarks : Nat := 16
/-- The failures that begin a lockout (R88). -/
def lockoutStreak : Nat := 5
/-- The records the Evidence Log holds (R165). -/
def logSize : Nat := 32
/-- The top of the log's numbering (R171). -/
def logTop : Nat := 4294967295
/-- The payload bytes one reply frame holds (R190). -/
def framePayload : Nat := 44
/-- The longest request frame (R187). -/
def maxRequest : Nat := 40

end Sys2Proof.Config
end

