-- ==== Sys2Proof/Machine/State.lean ====
section
/-! DEFINITION. The state of the part: every item the chapters' state tables name, block by block, with the
values after a retention start and after a MAIN reset, and `State.reset`. -/

namespace Sys2Proof.Machine

/-! ## Supply Domain Manager and One-Time Store -/

/-- The power state (R199), in the order of R198. -/
inductive PowerState where
  | off | battery | starting | run | holdup
  deriving DecidableEq, Repr

/-- The start-up steps (R203), in the order in which the model takes them. `catchUp` is the Tariff and Calendar
Unit's whole step: the missed boundaries, one at a time, and then the friendly value. The last three take no order
among themselves in the rule. DESIGN CHOICE (log 9). -/
inductive StartStep where
  | check | catchUp | verify | acceptor | pulse | tamper
  deriving DecidableEq, Repr

/-- The state of the Supply Domain Manager (R199). `marker` is true for SET. `stepsBegun` says that the
start-up steps are under way, and `nextStep` is the one to be taken next (R203, R205). -/
structure Sdm where
  power : PowerState
  marker : Bool
  stepsBegun : Bool
  nextStep : StartStep
  deriving DecidableEq, Repr

/-- What a burn of the One-Time Store writes (R194, R196, R205). -/
inductive BurnField where
  | identity (digits : List (Fin 10))
  | slot0Key (key : Key)
  | lockMark
  | lossMark
  deriving DecidableEq, Repr

/-- A burn under way and the time at which its 5 ms end. -/
structure Burn where
  field : BurnField
  ends : Nat
  deriving DecidableEq, Repr

/-- The One-Time Store (R193, R194, R196, R204). -/
structure Ots where
  identity : Option (List (Fin 10))
  key0 : Option Key
  lock : Bool
  lossCount : Nat
  burn : Option Burn
  deriving DecidableEq, Repr

/-- The One-Time Store of a blank part. DEDUCED (log 1). -/
def Ots.blank : Ots := ⟨none, none, false, 0, none⟩

/-! ## Pulse Input Unit -/

/-- The direction of a pulse (R4). -/
inductive Direction where
  | importing | exporting
  deriving DecidableEq, Repr

/-- The pulse weight, 1 dWh or 10 dWh (R1). -/
inductive PulseWeight where
  | one | ten
  deriving DecidableEq, Repr

/-- The demand window (R14). -/
inductive DemandWindow where
  | waiting
  | running (acc : Nat)
  deriving DecidableEq, Repr

/-- A demand in watts with the clock time of its minute end (R1). -/
structure Demand where
  watts : Nat
  time : Nat
  deriving DecidableEq, Repr

/-- The state of the Pulse Input Unit (R1). -/
structure Piu where
  imports : Phases Nat
  exports : Phases Nat
  billedWh : Nat
  residue : Nat
  weight : PulseWeight
  absolute : Bool
  stallTime : Nat
  reverseFlag : Phases Bool
  lastPulse : Phases (Option Nat)
  history : Phases (List Direction)
  stallTimer : Phases Nat
  stallFlag : Phases Bool
  demand : DemandWindow
  lastDemand : Option Demand
  deriving DecidableEq, Repr

/-- The MAIN items after a MAIN reset (R1); the KEEP items are kept. -/
def Piu.mainReset (x : Piu) : Piu :=
  { x with
    lastPulse := .all none
    history := .all []
    stallTimer := .all 0
    stallFlag := .all false
    demand := .waiting
    lastDemand := none }

/-- The KEEP items after a retention start (R1). -/
def Piu.retentionStart (x : Piu) : Piu :=
  { x with
    imports := .all 0
    exports := .all 0
    billedWh := 0
    residue := 0
    weight := .ten
    absolute := true
    stallTime := 900
    reverseFlag := .all false }

/-! ## Account Unit -/

/-- The account state (R22), in the order of R198. -/
inductive AccountState where
  | inCredit | low | emergency | exhausted
  deriving DecidableEq, Repr

/-- The account record (R20): money in micro-units, `limit` and `threshold` in hundredths, `cap` in whole
units. The floor and the state are derived (`Account.floor`, `Account.state`). -/
structure Account where
  balance : Int
  arrears : Nat
  taken : Bool
  limit : Nat
  threshold : Nat
  cap : Nat
  opening : Nat
  credited : Nat
  debited : Nat
  alarm : Bool
  deriving DecidableEq, Repr

/-- The account record after a retention start (R20). -/
def Account.retentionStart : Account := ⟨0, 0, false, 0, 0, 100000, 0, 0, 0, false⟩

/-! ## Tariff and Calendar Unit -/

/-- A schedule point (R58). -/
structure Point where
  minute : Nat
  band : Fin 4
  enabled : Bool
  deriving DecidableEq, Repr

/-- A tariff record (R58). -/
structure Tariff where
  prices : Vector Nat 4
  standing : Nat
  work : Vector Point 8
  rest : Vector Point 8
  deriving DecidableEq, Repr

/-- The tariff records after a retention start (R50). -/
def Tariff.retentionStart : Tariff :=
  ⟨.replicate 4 0, 0, .replicate 8 ⟨0, 0, false⟩, .replicate 8 ⟨0, 0, false⟩⟩

/-- A friendly window (R66). -/
structure Window where
  start : Nat
  stop : Nat
  enabled : Bool
  deriving DecidableEq, Repr

/-- The calendar (R50): the set of rest weekdays, weekday `w` counting `2^w`; the holiday list; the friendly
windows; rest days friendly. -/
structure Calendar where
  restDays : BitVec 7
  holidays : Vector (Option Nat) 12
  windows : Vector Window 4
  restFriendly : Bool
  deriving DecidableEq, Repr

/-- The calendar after a retention start (R50): Saturday and Sunday are the value 96 (R65). -/
def Calendar.retentionStart : Calendar :=
  ⟨96, .replicate 12 none, .replicate 4 ⟨0, 0, false⟩, true⟩

/-- The state of the Tariff and Calendar Unit (R50). -/
structure Tcu where
  clock : Nat
  valid : Bool
  lastDay : Nat
  trimUsed : Int
  active : Tariff
  passive : Tariff
  actPending : Bool
  actDay : Nat
  cal : Calendar
  untilDay : Option Nat
  lastFriendly : Option Bool
  deriving DecidableEq, Repr

/-- The MAIN item after a MAIN reset (R50). -/
def Tcu.mainReset (x : Tcu) : Tcu := { x with lastFriendly := none }

/-- The KEEP items after a retention start (R50). -/
def Tcu.retentionStart (x : Tcu) : Tcu :=
  { x with
    clock := 0
    valid := false
    lastDay := 0
    trimUsed := 0
    active := .retentionStart
    passive := .retentionStart
    actPending := false
    actDay := 0
    cal := .retentionStart
    untilDay := none }

/-! ## Code Acceptor -/

/-- The acceptor state (R75), in the order of R198. -/
inductive AcceptorState where
  | idle | entry | decoding | lockout | retired
  deriving DecidableEq, Repr

/-- A sequence window (R76, R92): the top, or none, and the seen set in rising order. -/
structure SeqWindow where
  top : Option Nat
  seen : List Nat
  deriving DecidableEq, Repr

/-- The empty window. -/
def SeqWindow.empty : SeqWindow := ⟨none, []⟩

/-- The record of a group slot (R76); the class mask is a set of sixteen classes. -/
structure GroupSlot where
  enabled : Bool
  key : Option Key
  groupId : Nat
  mask : BitVec 16
  window : SeqWindow
  deriving DecidableEq, Repr

/-- A group slot after a retention start (R75). -/
def GroupSlot.retentionStart : GroupSlot := ⟨false, none, 0, 0, .empty⟩

/-- The key slots. -/
inductive Slot where
  | slot0 | slot1 | slot2 | slot3
  deriving DecidableEq, Repr

/-- The records of the group slots, key slots 1 to 3. -/
structure GroupSlots where
  g1 : GroupSlot
  g2 : GroupSlot
  g3 : GroupSlot
  deriving DecidableEq, Repr

/-- The outcome of a code (R101), in the order of that rule. -/
inductive CodeOutcome where
  | accepted | format | checkFailed | reinstateRequired | classRefused | authority | duplicate | stale
  | argument | cap | notRequired | entryTimeout | localCommand
  deriving DecidableEq, Repr

/-- The Account Unit's answer to a local command (R82), in the order of R198. -/
inductive LocalAnswer where
  | granted | alreadyTaken | notOffered | notNeeded
  deriving DecidableEq, Repr

/-- The two local commands (R82). -/
inductive LocalCommand where
  | emergencyCredit | alarmAcknowledge
  deriving DecidableEq, Repr

/-- The detail of a code result (R101). -/
inductive Detail where
  | credit (toBalance toArrears : Nat)
  | clear (cleared refused : KindSet)
  | localCommand (command : LocalCommand) (answer : LocalAnswer)
  | failure (streak lockout : Nat)
  deriving DecidableEq, Repr

/-- The class, slot and sequence of a code that matched a slot (R101). -/
structure CodeRef where
  cls : Nat
  slot : Slot
  seq : Nat
  deriving DecidableEq, Repr

/-- The last code result record (R101). -/
structure CodeResult where
  outcome : CodeOutcome
  code : Option CodeRef
  time : Nat
  detail : Option Detail
  deriving DecidableEq, Repr

/-- The state of the Code Acceptor (R75). Slot 0's key is in the One-Time Store; `decodeSince` is the time at
which DECODING began (R86). -/
structure Cda where
  acceptor : AcceptorState
  buffer : List (Fin 10)
  entryTimer : Option Nat
  groups : GroupSlots
  window0 : SeqWindow
  streak : Nat
  lockoutsToday : Nat
  lockoutLeft : Nat
  reinstate : Bool
  retired : Bool
  lastResult : Option CodeResult
  resultNumber : Nat
  decodeSince : Nat
  deriving DecidableEq, Repr

/-- The MAIN items after a MAIN reset (R75). The acceptor state is set at the start-up step (R105); until
then it stands at IDLE. DESIGN CHOICE (log 5). -/
def Cda.mainReset (x : Cda) : Cda :=
  { x with
    acceptor := .idle
    buffer := []
    entryTimer := none
    lastResult := none
    resultNumber := 0
    decodeSince := 0 }

/-- The KEEP items after a retention start (R75). -/
def Cda.retentionStart (x : Cda) : Cda :=
  { x with
    groups := ⟨.retentionStart, .retentionStart, .retentionStart⟩
    window0 := .empty
    streak := 0
    lockoutsToday := 0
    lockoutLeft := 0
    reinstate := false
    retired := false }

/-! ## Switch Controller -/

/-- The switch state (R107), in the order of R198. -/
inductive SwitchState where
  | verify | closed | opening | opened | armed | closing | fault
  deriving DecidableEq, Repr

/-- A contactor position (R107), in the order of R198. -/
inductive Position where
  | opened | armed | closed
  deriving DecidableEq, Repr

/-- The target of an operation (R116). -/
inductive Target where
  | opened | closed
  deriving DecidableEq, Repr

/-- The phase of an operation (R116). -/
inductive OpPhase where
  | rest | pulse | settle
  deriving DecidableEq, Repr

/-- A cause of the open-cause table (R108), in the order of R198. -/
inductive Cause where
  | credit | loadLimit | tamper | order | commission
  deriving DecidableEq, Repr

/-- An operation (R116). `ends` is the time at which the PULSE or SETTLE phase ends (R117). -/
structure Operation where
  target : Target
  attempt : Nat
  phase : OpPhase
  releasedBy : Option Cause
  ends : Nat
  deriving DecidableEq, Repr

/-- What a verification found (R118). -/
inductive Found where
  | opened | closed | mixed
  deriving DecidableEq, Repr

/-- The last verification (R107): what was found, and the first phase out of place. -/
structure Verification where
  found : Found
  phase : Option Phase
  deriving DecidableEq, Repr

/-- The penalty of a LOAD_LIMIT entry (R108). -/
inductive Penalty where
  | seconds (n : Nat)
  | untilBoundary
  deriving DecidableEq, Repr

/-- An entry of the open-cause table (R108): ACTIVE or DEFERRED, since, and for LOAD_LIMIT the penalty. -/
structure Entry where
  deferred : Bool
  since : Nat
  penalty : Option Penalty
  deriving DecidableEq, Repr

/-- The open-cause table, a map keyed by cause (R108). -/
structure CauseTable where
  credit : Option Entry
  loadLimit : Option Entry
  tamper : Option Entry
  order : Option Entry
  commission : Option Entry
  deriving DecidableEq, Repr

/-- The state of the Switch Controller (R107). `op` is none between operations; `auto` is the reconnect mode
AUTO; `pressLatch` is the reconnect-press latch and `lastPress` the time of the last press, or of the MAIN
reset, at which the line may still have been high (R122; log 42). -/
structure Swc where
  switch : SwitchState
  op : Option Operation
  lastPulseEnd : Nat
  lastVerification : Option Verification
  table : CauseTable
  held : AccountState
  intended : Position
  auto : Bool
  normalLimit : Nat
  reducedLimit : Nat
  overCount : Nat
  tripsToday : Nat
  pressLatch : Bool
  lastPress : Nat
  deriving DecidableEq, Repr

/-- The MAIN items after a MAIN reset taken at time `now` (R107). -/
def Swc.mainReset (now : Nat) (x : Swc) : Swc :=
  { x with
    switch := .verify
    op := none
    lastPulseEnd := now
    lastVerification := none
    overCount := 0
    pressLatch := false
    lastPress := now }

/-- The open-cause table after a retention start at clock 0 (R107). -/
def CauseTable.retentionStart (lock : Bool) : CauseTable :=
  ⟨some ⟨false, 0, none⟩, none, none, none, if lock then none else some ⟨false, 0, none⟩⟩

/-- The KEEP items after a retention start on a part whose lock mark is `lock` (R107). -/
def Swc.retentionStart (lock : Bool) (x : Swc) : Swc :=
  { x with
    table := .retentionStart lock
    held := .exhausted
    intended := .opened
    auto := false
    normalLimit := 0
    reducedLimit := 0
    tripsToday := 0 }

/-! ## Tamper Monitor -/

/-- A tamper kind (section 6.1), in kind order. -/
inductive Kind where
  | cv | tc | mg | rv | ms | so | pw | ca | rl
  deriving DecidableEq, Repr

/-- An action of a kind (R139), in the order of R198. -/
inductive Action where
  | off | record | disconnect
  deriving DecidableEq, Repr

/-- One thing for each tamper kind. -/
structure Kinds (α : Type) where
  cv : α
  tc : α
  mg : α
  rv : α
  ms : α
  so : α
  pw : α
  ca : α
  rl : α
  deriving DecidableEq, Repr

/-- The fields that a latch record has while set (R138). -/
structure LatchSet where
  time : Nat
  phase : Option Phase
  record : Nat
  deriving DecidableEq, Repr

/-- A latch record (R138): the condition (true for ACTIVE), the fields of a set latch, the repeat count. -/
structure Latch where
  condition : Bool
  set : Option LatchSet
  repeats : Nat
  deriving DecidableEq, Repr

/-- A clear latch with an inactive condition (R137). -/
def Latch.clear : Latch := ⟨false, none, 0⟩

/-- The state of the Tamper Monitor (R137). Samples are true for HIGH, seconds true for ACTIVE. `runDue` and
`batteryDue` are the times of the next samples (R140, R141); `pwAt` is the time of the last protected-write attempt
since the MAIN reset, with which a clear may come together (R156; log 41). -/
structure Tmp where
  latches : Kinds Latch
  actions : Kinds Action
  batteryCvs : List Bool
  batteryTcs : List Bool
  runCvs : List Bool
  runTcs : List Bool
  runMag : List Bool
  soHistory : List Bool
  lastHanded : Option SwitchState
  runDue : Nat
  batteryDue : Nat
  pwAt : Option Nat
  deriving DecidableEq, Repr

/-- The MAIN items after a MAIN reset (R137). -/
def Tmp.mainReset (x : Tmp) : Tmp :=
  { x with
    runCvs := []
    runTcs := []
    runMag := []
    soHistory := []
    lastHanded := none
    runDue := 0
    pwAt := none }

/-- The default actions (section 6.1). -/
def defaultActions : Kinds Action :=
  ⟨.disconnect, .record, .disconnect, .record, .record, .record, .record, .record, .disconnect⟩

/-- The KEEP items after a retention start (R137). -/
def Tmp.retentionStart (x : Tmp) : Tmp :=
  { x with
    latches := ⟨.clear, .clear, .clear, .clear, .clear, .clear, .clear, .clear, .clear⟩
    actions := defaultActions
    batteryCvs := []
    batteryTcs := []
    batteryDue := 0 }

/-! ## Evidence Log -/

/-- The type of a log record (R166), in the order of R198. -/
inductive RecordType where
  | tamperSet | tamperCleared | switchFault | lockoutStart | reinstated
  deriving DecidableEq, Repr

/-- The key slot and sequence of a code, as a record carries them (R166). -/
structure RecordCode where
  slot : Slot
  seq : Nat
  deriving DecidableEq, Repr

/-- A record of the Evidence Log (R166). -/
structure LogRecord where
  seq : Nat
  time : Nat
  timeValid : Bool
  type : RecordType
  kind : Option Kind
  phase : Option Phase
  code : Option RecordCode
  balance : Int
  billedWh : Nat
  guarded : Bool
  deriving DecidableEq, Repr

/-- The state of the Evidence Log (R165). -/
structure Elg where
  records : List LogRecord
  nextSeq : Nat
  deriving DecidableEq, Repr

/-- The log after a retention start and after the lock (R165, R172). -/
def Elg.restart : Elg := ⟨[], 1⟩

/-! ## Report Unit -/

/-- A notice kind (R177), by number. -/
inductive Notice where
  | account | lowAlarm | codeResult | switch | switchFault | tamper | tariff | day | replyDropped | restart
  deriving DecidableEq, Repr

/-- The state of a cause as reported (R198). -/
inductive CauseState where
  | absent | active | deferred
  deriving DecidableEq, Repr

/-- The values of the STATUS group (R182); the causes are in the order of R108. -/
structure StatusValues where
  account : AccountState
  switch : SwitchState
  causes : List CauseState
  latches : KindSet
  acceptor : AcceptorState
  power : PowerState
  deriving DecidableEq, Repr

/-- The values of the ENERGY group (R182). -/
structure EnergyValues where
  imports : Phases Nat
  exports : Phases Nat
  billed : Nat
  band : Fin 4
  deriving DecidableEq, Repr

/-- A latched group: the clock and clock valid at the latch, and the values (R176). -/
structure Latched (α : Type) where
  time : Nat
  valid : Bool
  values : α
  deriving DecidableEq, Repr

/-- The state of the Report Unit (R176). The ACCOUNT group holds the account record as it stood (R46). -/
structure Rpu where
  notices : NoticeSet
  mask : NoticeSet
  status : Option (Latched StatusValues)
  account : Option (Latched Account)
  energy : Option (Latched EnergyValues)
  deriving DecidableEq, Repr

/-- The Report Unit after a MAIN reset (R176): the set {RESTART} is 2^9, all ten kinds 1,023. -/
def Rpu.mainReset : Rpu := ⟨512, 1023, none, none, none⟩

/-! ## Message Link -/

/-- The link state (R185). -/
inductive LinkState where
  | idle | receiving | working | replyReady
  deriving DecidableEq, Repr

/-- The state of the Message Link (R185). An empty slot or remainder is the empty list. `returnReady` is true
when the return state is REPLY_READY. `addressAcked`, `bytesAcked` and `sent` are what SDA showed in the last
transaction (log 24). -/
structure Lnk where
  state : LinkState
  returnReady : Bool
  request : List Byte
  remainder : List Byte
  slot : List Byte
  readPos : Nat
  holdTimer : Option Nat
  clockLow : Option Nat
  addressAcked : Bool
  bytesAcked : Nat
  sent : List Byte
  deriving DecidableEq, Repr

/-- The link after a MAIN reset (R185). -/
def Lnk.mainReset : Lnk := ⟨.idle, false, [], [], [], 0, none, none, false, 0, []⟩

/-! ## The whole part -/

/-- The state of the part: its blocks, the timebase, the input levels and the queue of waiting commands. `pins` are the
levels at the last command, and `rcbLow` is the last moment before it at which RCB was seen low (R122; log 42). -/
structure State where
  now : Nat
  pins : Levels
  rcbLow : Nat
  sdm : Sdm
  ots : Ots
  piu : Piu
  acu : Account
  tcu : Tcu
  cda : Cda
  swc : Swc
  tmp : Tmp
  elg : Elg
  rpu : Rpu
  lnk : Lnk
  pending : List Instr
  deriving DecidableEq, Repr

/-- The reasons for which the part stops: none. Every refusal of the spec is an answer, and each command has a
next state. -/
inductive Fault where
  deriving DecidableEq, Repr

/-- The reasons for which a command is refused by the model. -/
inductive Refusal where
  /-- A command that has no meaning yet; raised by no arm of `exec`. Safe: nothing can be proved of it. -/
  | notModelled (mnemonic : String)
  deriving DecidableEq, Repr

/-- The input levels at reset: supply, coin cell, PFW and RSTN high, every other line low.
DESIGN CHOICE (log 2). -/
def levelsAtReset : Levels :=
  { d := .all false, c := .all false, v := .all false, l := .all false
    aux := false, rcb := false, cvs := false, tcs := false, mag := false, ads := false, scl := true
    pfw := true, rstn := true, vdd := true, vbat := true }

/-- A blank part right after its first KEEP power-up (R201) and the MAIN reset of its entry into STARTING
(R200). DEDUCED (log 1). -/
def State.reset : State where
  now := 0
  pins := levelsAtReset
  rcbLow := 0
  sdm := ⟨.starting, false, false, .check⟩
  ots := .blank
  piu :=
    { imports := .all 0, exports := .all 0, billedWh := 0, residue := 0, weight := .ten, absolute := true
      stallTime := 900, reverseFlag := .all false, lastPulse := .all none, history := .all []
      stallTimer := .all 0, stallFlag := .all false, demand := .waiting, lastDemand := none }
  acu := .retentionStart
  tcu :=
    { clock := 0, valid := false, lastDay := 0, trimUsed := 0, active := .retentionStart
      passive := .retentionStart, actPending := false, actDay := 0, cal := .retentionStart
      untilDay := none, lastFriendly := none }
  cda :=
    { acceptor := .idle, buffer := [], entryTimer := none
      groups := ⟨.retentionStart, .retentionStart, .retentionStart⟩, window0 := .empty, streak := 0
      lockoutsToday := 0, lockoutLeft := 0, reinstate := false, retired := false, lastResult := none
      resultNumber := 0, decodeSince := 0 }
  swc :=
    { switch := .verify, op := none, lastPulseEnd := 0, lastVerification := none
      table := .retentionStart false, held := .exhausted, intended := .opened, auto := false
      normalLimit := 0, reducedLimit := 0, overCount := 0, tripsToday := 0, pressLatch := false
      lastPress := 0 }
  tmp :=
    { latches := ⟨.clear, .clear, .clear, .clear, .clear, .clear, .clear, .clear, .clear⟩
      actions := defaultActions, batteryCvs := [], batteryTcs := [], runCvs := [], runTcs := [], runMag := []
      soHistory := [], lastHanded := none, runDue := 0, batteryDue := 0
      pwAt := none }
  elg := .restart
  rpu := .mainReset
  lnk := .mainReset
  pending := []

end Sys2Proof.Machine
end

