-- ==== Sys2Proof/Machine/Flags.lean ====
section
/-! DEFINITION. The flags, conditions and derived values of the part: what each chapter says is "derived at
every moment" or decided from a history, as functions of the data it is derived from. -/

namespace Sys2Proof.Machine

/-! ## Fixed rows -/

/-- Whether any of three flags is set. -/
def anyPhase (x : Phases Bool) : Bool := x.p1 || x.p2 || x.p3

/-- The lowest-numbered set phase. -/
def firstPhase (x : Phases Bool) : Option Phase :=
  if x.p1 then some .p1 else if x.p2 then some .p2 else if x.p3 then some .p3 else none

/-- The thing of each phase, in phase order. -/
def phaseList {α : Type} (x : Phases α) : List α := [x.p1, x.p2, x.p3]

/-- The thing of one kind. -/
def Kinds.get {α : Type} (x : Kinds α) : Kind → α
  | .cv => x.cv
  | .tc => x.tc
  | .mg => x.mg
  | .rv => x.rv
  | .ms => x.ms
  | .so => x.so
  | .pw => x.pw
  | .ca => x.ca
  | .rl => x.rl

/-- The nine with that of one kind replaced. -/
def Kinds.set {α : Type} (x : Kinds α) (k : Kind) (a : α) : Kinds α :=
  match k with
  | .cv => { x with cv := a }
  | .tc => { x with tc := a }
  | .mg => { x with mg := a }
  | .rv => { x with rv := a }
  | .ms => { x with ms := a }
  | .so => { x with so := a }
  | .pw => { x with pw := a }
  | .ca => { x with ca := a }
  | .rl => { x with rl := a }

/-- The nine kinds in rising order of kind number (section 6.1). -/
def kindList : List Kind := [.cv, .tc, .mg, .rv, .ms, .so, .pw, .ca, .rl]

/-- The number of a kind (section 6.1). -/
def kindNumber : Kind → Nat
  | .cv => 0
  | .tc => 1
  | .mg => 2
  | .rv => 3
  | .ms => 4
  | .so => 5
  | .pw => 6
  | .ca => 7
  | .rl => 8

/-- The kind of a number. -/
def kindOfNumber (n : Nat) : Option Kind := kindList[n]?

/-- The entry of one cause. -/
def CauseTable.get (t : CauseTable) : Cause → Option Entry
  | .credit => t.credit
  | .loadLimit => t.loadLimit
  | .tamper => t.tamper
  | .order => t.order
  | .commission => t.commission

/-- The table with the entry of one cause replaced. -/
def CauseTable.set (t : CauseTable) (c : Cause) (e : Option Entry) : CauseTable :=
  match c with
  | .credit => { t with credit := e }
  | .loadLimit => { t with loadLimit := e }
  | .tamper => { t with tamper := e }
  | .order => { t with order := e }
  | .commission => { t with commission := e }

/-- The five causes in the order of R108. -/
def causeList : List Cause := [.credit, .loadLimit, .tamper, .order, .commission]

/-- The number of a slot. -/
def slotNumber : Slot → Nat
  | .slot0 => 0
  | .slot1 => 1
  | .slot2 => 2
  | .slot3 => 3

/-- A set made of the numbers counted `2^k` (R198). -/
def setOfNumbers (w : Nat) (ks : List Nat) : BitVec w :=
  ks.foldl (fun acc k => acc ||| BitVec.ofNat w (2 ^ k)) 0

/-! ## Pulse Input Unit -/

/-- The dWh that one pulse stands for (R1). -/
def weightDwh : PulseWeight → Nat
  | .one => 1
  | .ten => 10

/-- Appends the newest entry and, when the list then holds more than `size`, removes the oldest (R8, R140,
R141, R143). -/
def pushBounded {α : Type} (size : Nat) (xs : List α) (x : α) : List α :=
  let ys := xs ++ [x]
  if ys.length > size then ys.tail else ys

/-- The EXPORT entries of a reverse history (R9). -/
def exportCount (h : List Direction) : Nat := h.countP (· == .exporting)

/-- The reverse flag after the pulse that left the history `h` (table of R9). -/
def reverseFlagAfter (flag : Bool) (h : List Direction) : Bool :=
  if flag then !(h.length == 16 && decide (exportCount h ≤ 2)) else decide (12 ≤ exportCount h)

/-- The billed energy total in dWh (R1). -/
def billedTotal (x : Piu) : Nat := 10 * x.billedWh + x.residue

/-! ## Account Unit -/

/-- The floor (R21). -/
def Account.floor (a : Account) : Int := if a.taken then -((a.limit * Config.hundredth : Nat) : Int) else 0

/-- The account state, by the first line of the table of R22 that holds. -/
def Account.state (a : Account) : AccountState :=
  if a.balance = a.floor then .exhausted
  else if a.taken then .emergency
  else if a.balance ≤ ((a.threshold * Config.hundredth : Nat) : Int) then .low
  else .inCredit

/-! ## Tariff and Calendar Unit -/

/-- The day number (R52). -/
def dayOf (clock : Nat) : Nat := clock / Config.daySeconds

/-- The weekday of a day number, 0 for Monday (R52). -/
def weekdayOf (day : Nat) : Nat := day % 7

/-- The minute of day (R52). -/
def minuteOf (clock : Nat) : Nat := clock % Config.daySeconds / 60

/-- Whether the day type of a day number is REST (R60). -/
def restDay (c : Calendar) (day : Nat) : Bool :=
  c.restDays.getLsbD (weekdayOf day) || c.holidays.toList.contains (some day)

/-- Of the points of a list, the first that holds the greatest minute. -/
def latestPoint : List Point → Option Point
  | [] => none
  | p :: ps =>
    match latestPoint ps with
    | none => some p
    | some q => if p.minute < q.minute then some q else some p

/-- The band that a schedule gives at a minute (lines 2 to 4 of the table of R59). -/
def scheduleBand (points : List Point) (minute : Nat) : Fin 4 :=
  let on := points.filter (·.enabled)
  match latestPoint (on.filter fun p => decide (p.minute ≤ minute)) with
  | some p => p.band
  | none =>
    match latestPoint on with
    | some p => p.band
    | none => 0

/-- The current band (R59). -/
def currentBand (x : Tcu) : Fin 4 :=
  if x.valid then
    let sched := if restDay x.cal (dayOf x.clock) then x.active.rest else x.active.work
    scheduleBand sched.toList (minuteOf x.clock)
  else 0

/-- The price of a debit issued now (R6, R59). -/
def currentPrice (x : Tcu) : Nat := x.active.prices.get (currentBand x)

/-- Whether an enabled window covers a minute (table of R66). -/
def windowCovers (w : Window) (minute : Nat) : Bool :=
  w.enabled &&
    if w.start < w.stop then decide (w.start ≤ minute) && decide (minute < w.stop)
    else if w.stop < w.start then decide (w.start ≤ minute) || decide (minute < w.stop)
    else true

/-- Whether the friendly period holds (R66, R52). -/
def friendlyNow (x : Tcu) : Bool :=
  x.valid &&
    (x.cal.windows.toList.any (fun w => windowCovers w (minuteOf x.clock)) ||
      (restDay x.cal (dayOf x.clock) && x.cal.restFriendly))

/-! ## Switch Controller -/

/-- Whether an entry is ACTIVE (R108). -/
def entryActive : Option Entry → Bool
  | some e => !e.deferred
  | none => false

/-- Whether the table holds an ACTIVE entry (R108). -/
def CauseTable.anyActive (t : CauseTable) : Bool :=
  entryActive t.credit || entryActive t.loadLimit || entryActive t.tamper || entryActive t.order ||
    entryActive t.commission

/-- The state of an entry as reported (R198). -/
def causeState : Option Entry → CauseState
  | none => .absent
  | some e => if e.deferred then .deferred else .active

/-- The contactor as found from AUX, Vn and Ln (table of R118). -/
def foundOf (p : Levels) : Found :=
  let agrees (load : Bool) : Bool :=
    (!p.v.p1 || p.l.p1 == load) && (!p.v.p2 || p.l.p2 == load) && (!p.v.p3 || p.l.p3 == load)
  if p.aux && agrees false then .opened
  else if !p.aux && agrees true then .closed
  else .mixed

/-- The lowest-numbered phase with Vn high whose Ln is not `load` (R118, R131). -/
def outOfPlace (p : Levels) (load : Bool) : Option Phase :=
  firstPhase ⟨p.v.p1 && p.l.p1 != load, p.v.p2 && p.l.p2 != load, p.v.p3 && p.l.p3 != load⟩

/-- The finding that passes an operation (R118). -/
def targetFound : Target → Found
  | .opened => .opened
  | .closed => .closed

/-- The effective load limit (R124). -/
def effectiveLimit (x : Swc) : Nat :=
  if (x.held == .emergency || x.held == .exhausted) && x.reducedLimit != 0 then x.reducedLimit
  else x.normalLimit

/-- Whether the switch closes without a press when a cause lifts the last ACTIVE entry (R123). -/
def reconnects (x : Swc) (departing : Option Cause) : Bool :=
  x.auto && (departing == some .credit || departing == some .order)

/-- Whether an operation runs in a phase (R116, R117). -/
def inPhase (x : Swc) (ph : OpPhase) : Bool :=
  (x.switch == .opening || x.switch == .closing) &&
    match x.op with
    | some o => o.phase == ph
    | none => false

/-! ## Tamper Monitor -/

/-- The condition of a line after a run filter sample (table of R140). -/
def runCondition (before : Bool) (h : List Bool) : Bool :=
  if before then !(h.length == 16 && h.all (!·)) else decide (14 ≤ h.countP id)

/-- The condition of a line after a battery filter sample (R141). -/
def batteryCondition (before : Bool) (h : List Bool) : Bool :=
  if before then !(h.length == 4 && h.all (!·)) else h.length == 4 && h.all id

/-- The SO condition after a second (table of R143). -/
def soCondition (before : Bool) (h : List Bool) : Bool :=
  if before then !(h.length == 10 && h.all (!·)) else decide (8 ≤ h.countP id)

/-- Whether the TAMPER cause is required (R153). -/
def tamperRequired (x : Tmp) : Bool :=
  kindList.any fun k => (x.latches.get k).set.isSome && x.actions.get k == .disconnect

/-- The kinds whose latches are set (R164). -/
def setKinds (x : Tmp) : KindSet :=
  setOfNumbers 9 ((kindList.filter fun k => (x.latches.get k).set.isSome).map kindNumber)

/-! ## Report Unit -/

/-- The number of a notice kind (R177). -/
def noticeNumber : Notice → Nat
  | .account => 0
  | .lowAlarm => 1
  | .codeResult => 2
  | .switch => 3
  | .switchFault => 4
  | .tamper => 5
  | .tariff => 6
  | .day => 7
  | .replyDropped => 8
  | .restart => 9

/-- The set that holds one notice kind. -/
def noticeBit (n : Notice) : NoticeSet := BitVec.ofNat 10 (2 ^ noticeNumber n)

/-! ## Power and outputs -/

/-- Whether the MAIN domain is powered (section 10.1). -/
def mainPowered : PowerState → Bool
  | .off | .battery => false
  | .starting | .run | .holdup => true

/-- Whether the power state is RUN or HOLDUP. -/
def working : PowerState → Bool
  | .run | .holdup => true
  | .off | .battery | .starting => false

/-- Whether a start-up step comes after the Tariff and Calendar Unit's. -/
def StartStep.afterCalendar : StartStep → Bool
  | .check | .catchUp => false
  | .verify | .acceptor | .pulse | .tamper => true

/-- Whether the Tariff and Calendar Unit handles ticks: in RUN and HOLDUP, and in STARTING once its start-up step has
been taken (R51). -/
def calendarRuns (x : Sdm) : Bool := working x.power || x.power == .starting && x.nextStep.afterCalendar

/-- Whether the Switch Controller takes its operations on: with the MAIN domain powered, but not in HOLDUP (R132). -/
def operates (p : PowerState) : Bool := mainPowered p && p != .holdup

/-- BZ is driven (R42). -/
def State.bz (s : State) : Bool := s.acu.alarm && s.sdm.power == .run

/-- ATN is held low (R180). -/
def State.atnLow (s : State) : Bool := working s.sdm.power && (s.rpu.notices &&& s.rpu.mask) != 0

/-- A coil is driven: the PULSE phase of an operation toward `t` (R117, section 5.3). -/
def coilDriven (x : Swc) (t : Target) : Bool :=
  inPhase x .pulse &&
    match x.op with
    | some o => o.target == t
    | none => false

/-- CO is driven (R117). -/
def State.coDriven (s : State) : Bool := mainPowered s.sdm.power && coilDriven s.swc .opened

/-- CC is driven (R117). -/
def State.ccDriven (s : State) : Bool := mainPowered s.sdm.power && coilDriven s.swc .closed

end Sys2Proof.Machine
end

