-- ==== Sys2Proof/Machine/Operands.lean ====
section
/-! DEFINITION. The operand forms of the commands: numbers, enumerations and optional fields as bytes (R198),
the frame format and its CRC-8 (R187, section 9.7.1), key symbols (section 9.7.3), the fields of a code
(section 9.7.4), and the fields inside a code value. -/

namespace Sys2Proof.Machine

/-! ## Numbers and fields as bytes (R198) -/

/-- The number that bytes spell, most significant first. -/
def natOfBytes (bs : List Byte) : Nat := bs.foldl (fun acc b => acc * 256 + b.toNat) 0

/-- The `n` low bytes of a number, most significant first. -/
def bytesOfNat : Nat → Nat → List Byte
  | 0, _ => []
  | n + 1, x => BitVec.ofNat 8 (x / 256 ^ n) :: bytesOfNat n x

/-- A signed number in two's complement, in `n` bytes. -/
def bytesOfInt (n : Nat) (x : Int) : List Byte := bytesOfNat n (x % ((256 ^ n : Nat) : Int)).toNat

/-- The signed number that `n` bytes spell. -/
def intOfBytes (bs : List Byte) : Int :=
  let x := natOfBytes bs
  if 2 * x < 256 ^ bs.length then (x : Int) else (x : Int) - ((256 ^ bs.length : Nat) : Int)

/-- A boolean as one byte. -/
def byteOfBool (b : Bool) : List Byte := [if b then 1 else 0]

/-- An optional field of `n` bytes: a presence byte, then its bytes, sent as 0 when absent. -/
def optionalBytes (n : Nat) : Option (List Byte) → List Byte
  | some bs => 1 :: bs
  | none => List.replicate (n + 1) 0

/-- A number of at most 24 bits in 3 bytes. -/
abbrev amount (x : Nat) : List Byte := bytesOfNat 3 x

/-! ## Enumerations, in the order of the table of R198 -/

def AccountState.code : AccountState → Nat
  | .inCredit => 0
  | .low => 1
  | .emergency => 2
  | .exhausted => 3

def SwitchState.code : SwitchState → Nat
  | .verify => 0
  | .closed => 1
  | .opening => 2
  | .opened => 3
  | .armed => 4
  | .closing => 5
  | .fault => 6

def AcceptorState.code : AcceptorState → Nat
  | .idle => 0
  | .entry => 1
  | .decoding => 2
  | .lockout => 3
  | .retired => 4

def PowerState.code : PowerState → Nat
  | .off => 0
  | .battery => 1
  | .starting => 2
  | .run => 3
  | .holdup => 4

def Cause.code : Cause → Nat
  | .credit => 0
  | .loadLimit => 1
  | .tamper => 2
  | .order => 3
  | .commission => 4

def CauseState.code : CauseState → Nat
  | .absent => 0
  | .active => 1
  | .deferred => 2

def Position.code : Position → Nat
  | .opened => 0
  | .armed => 1
  | .closed => 2

/-- "Position, target" is one enumeration of R198. -/
def Target.code : Target → Nat
  | .opened => 0
  | .closed => 2

def OpPhase.code : OpPhase → Nat
  | .rest => 0
  | .pulse => 1
  | .settle => 2

def Found.code : Found → Nat
  | .opened => 0
  | .closed => 1
  | .mixed => 2

def Action.code : Action → Nat
  | .off => 0
  | .record => 1
  | .disconnect => 2

def CodeOutcome.code : CodeOutcome → Nat
  | .accepted => 0
  | .format => 1
  | .checkFailed => 2
  | .reinstateRequired => 3
  | .classRefused => 4
  | .authority => 5
  | .duplicate => 6
  | .stale => 7
  | .argument => 8
  | .cap => 9
  | .notRequired => 10
  | .entryTimeout => 11
  | .localCommand => 12

def LocalAnswer.code : LocalAnswer → Nat
  | .granted => 0
  | .alreadyTaken => 1
  | .notOffered => 2
  | .notNeeded => 3

/-- The three digits of a local command, as a number (R82). -/
def LocalCommand.number : LocalCommand → Nat
  | .emergencyCredit => 110
  | .alarmAcknowledge => 120

def RecordType.code : RecordType → Nat
  | .tamperSet => 0
  | .tamperCleared => 1
  | .switchFault => 2
  | .lockoutStart => 3
  | .reinstated => 4

/-- The refusal of a key symbol (R77, R78), in the order of R198 after "none". -/
inductive SymbolRefusal where
  | notCommissioned | retired | lockedOut | busy | overlong
  deriving DecidableEq, Repr

/-- The code of an optional refusal (R198). -/
def refusalCode : Option SymbolRefusal → Nat
  | none => 0
  | some .notCommissioned => 1
  | some .retired => 2
  | some .lockedOut => 3
  | some .busy => 4
  | some .overlong => 5

/-- A snapshot group as SNAPSHOT_READ names it (R198). -/
inductive Group where
  | status | account | energy | live
  deriving DecidableEq, Repr

def Group.code : Group → Nat
  | .status => 0
  | .account => 1
  | .energy => 2
  | .live => 3

/-- One enumerated value as a byte. -/
abbrev enumByte (n : Nat) : List Byte := bytesOfNat 1 n

/-! ## Requests, statuses and frames -/

/-- The requests of the catalogue (section 9.3). -/
inductive Request where
  | identify | status | readAccount | readEnergy | readTariff | readCalendar | readSwitch | readTamper
  | readLog | readCodeResult | readNotices | setAttentionMask | snapshotLatch | snapshotRead | keys
  | timeRead | timeTrim | setClock | commissionWrite | commissionLock
  deriving DecidableEq, Repr

/-- The catalogue in the order of its kind codes, the first being 0x01 (section 9.3). -/
def catalogue : List Request :=
  [.identify, .status, .readAccount, .readEnergy, .readTariff, .readCalendar, .readSwitch, .readTamper,
   .readLog, .readCodeResult, .readNotices, .setAttentionMask, .snapshotLatch, .snapshotRead, .keys,
   .timeRead, .timeTrim, .setClock, .commissionWrite, .commissionLock]

/-- The kind code of a request (section 9.3). -/
def Request.kind : Request → Nat
  | .identify => 0x01
  | .status => 0x02
  | .readAccount => 0x03
  | .readEnergy => 0x04
  | .readTariff => 0x05
  | .readCalendar => 0x06
  | .readSwitch => 0x07
  | .readTamper => 0x08
  | .readLog => 0x09
  | .readCodeResult => 0x0A
  | .readNotices => 0x0B
  | .setAttentionMask => 0x0C
  | .snapshotLatch => 0x0D
  | .snapshotRead => 0x0E
  | .keys => 0x0F
  | .timeRead => 0x10
  | .timeTrim => 0x11
  | .setClock => 0x12
  | .commissionWrite => 0x13
  | .commissionLock => 0x14

/-- The request that a kind byte names, if any. -/
def requestOfKind (k : Nat) : Option Request := if k = 0 then none else catalogue[k - 1]?

/-- The payload lengths that a request takes (section 9.7.2, last paragraph of the payload table). -/
def Request.takes (r : Request) (n : Nat) : Bool :=
  match r with
  | .identify | .status | .readAccount | .readEnergy | .readCalendar | .readSwitch | .readNotices
  | .snapshotRead | .timeRead | .commissionLock => n == 0
  | .readTamper | .readCodeResult | .snapshotLatch | .timeTrim => n == 1
  | .readTariff | .setAttentionMask => n == 2
  | .setClock => n == 4
  | .readLog => n == 5
  | .keys => decide (1 ≤ n) && decide (n ≤ 26)
  | .commissionWrite => decide (2 ≤ n) && decide (n ≤ 21)

/-- Whether a request is a commissioning request (R188 check 3). -/
def Request.commissioning : Request → Bool
  | .commissionWrite | .commissionLock => true
  | _ => false

/-- The status of a reply (section 9.7.1). -/
inductive Status where
  | ok | frameError | unknownKind | argument | locked | incomplete | written | budget | notReady | busy
  | none | pending
  deriving DecidableEq, Repr

def Status.code : Status → Nat
  | .ok => 0
  | .frameError => 1
  | .unknownKind => 2
  | .argument => 3
  | .locked => 4
  | .incomplete => 5
  | .written => 6
  | .budget => 7
  | .notReady => 8
  | .busy => 9
  | .none => 10
  | .pending => 11

/-- One bit of the CRC-8 with the polynomial x^8 + x^2 + x + 1 (R187). -/
def crcBit (c : Byte) : Byte := if c.msb then (c <<< 1) ^^^ 0x07 else c <<< 1

/-- The CRC-8 over one more byte, its most significant bit first (R187). -/
def crcByte (c b : Byte) : Byte :=
  crcBit (crcBit (crcBit (crcBit (crcBit (crcBit (crcBit (crcBit (c ^^^ b))))))))

/-- The CRC-8 of bytes in the order sent, from 0 (R187). -/
def crc8 (bs : List Byte) : Byte := bs.foldl crcByte 0

/-- A frame: the bytes after the length byte, with the length before them and the CRC after (section 9.7.1). -/
def frameOf (body : List Byte) : List Byte :=
  let bs := BitVec.ofNat 8 (body.length + 2) :: body
  bs ++ [crc8 bs]

/-- A request frame. -/
def requestFrame (kind : Nat) (payload : List Byte) : List Byte := frameOf (BitVec.ofNat 8 kind :: payload)

/-- A reply frame. -/
def replyFrame (kind : Nat) (st : Nat) (payload : List Byte) : List Byte :=
  frameOf (BitVec.ofNat 8 kind :: BitVec.ofNat 8 st :: payload)

/-- The NONE frame (R191). -/
def noneFrame : List Byte := replyFrame 0x80 Status.none.code []

/-- The PENDING frame (R191). -/
def pendingFrame : List Byte := replyFrame 0x80 Status.pending.code []

/-! ## Key symbols (section 9.7.3) -/

/-- A key symbol (section 4.2). -/
inductive Symbol where
  | digit (d : Fin 10)
  | enter | cancel | back
  deriving DecidableEq, Repr

/-- The symbol of a symbol code. -/
def symbolOfByte (b : Byte) : Option Symbol :=
  if h : 0x30 ≤ b.toNat ∧ b.toNat ≤ 0x39 then some (.digit ⟨b.toNat - 0x30, by omega⟩)
  else if b = 0x08 then some .back
  else if b = 0x0D then some .enter
  else if b = 0x18 then some .cancel
  else none

/-- The symbols of a payload, none when any byte is not a symbol code (R83). -/
def symbolsOfBytes : List Byte → Option (List Symbol)
  | [] => some []
  | b :: bs =>
    match symbolOfByte b, symbolsOfBytes bs with
    | some x, some xs => some (x :: xs)
    | _, _ => none

/-- The decimal number that digits spell, the first the most significant (section 4.5). -/
def natOfDigits (ds : List (Fin 10)) : Nat := ds.foldl (fun acc d => acc * 10 + d.val) 0

/-- The digits of an identity (R194): bytes 0 to 9. DEDUCED (log 18). -/
def digitsOfBytes : List Byte → Option (List (Fin 10))
  | [] => some []
  | b :: bs =>
    if h : b.toNat < 10 then
      match digitsOfBytes bs with
      | some ds => some (⟨b.toNat, h⟩ :: ds)
      | none => none
    else none

/-! ## The fields of a code (section 9.7.4) -/

/-- The fields that a slot yields (section 4.5): class 4 bits, sequence 16, value 24, selector 8. -/
structure Fields where
  cls : Nat
  seq : Nat
  value : Nat
  selector : Nat
  deriving DecidableEq, Repr

/-- The fields of an unscrambled code. -/
def fieldsOf (w : Code) : Fields :=
  ⟨(w.extractLsb' 72 4).toNat, (w.extractLsb' 56 16).toNat, (w.extractLsb' 32 24).toNat,
    (w.extractLsb' 24 8).toNat⟩

/-- The check field of an unscrambled code. -/
def checkOf (w : Code) : BitVec 24 := w.extractLsb' 0 24

/-- The 52 bits that the digest covers. -/
def coveredOf (w : Code) : BitVec 52 := w.extractLsb' 24 52

/-- A 24-bit value read as a signed number (section 4.5). -/
def signedValue (v : Nat) : Int := if v < 8388608 then (v : Int) else (v : Int) - 16777216

/-- The point that a TARIFF_SCHEDULE value holds, none when it is out of range (R62, section 9.7.4). -/
def pointOfValue (v : Nat) : Option Point :=
  let minute := v % 2048
  if v < 16384 ∧ minute ≤ 1439 then
    some ⟨minute, Fin.ofNat 4 (v / 2048), v / 8192 % 2 == 1⟩
  else none

/-- The friendly window that a value holds, none when it is out of range (R66, section 9.7.4). -/
def windowOfValue (v : Nat) : Option Window :=
  let start := v % 2048
  let stop := v / 2048 % 2048
  if v < 8388608 ∧ start ≤ 1439 ∧ stop ≤ 1439 then some ⟨start, stop, v / 4194304 == 1⟩ else none

/-- The tariff written by a TARIFF_PRICE field, none when selector or value is out of range (R61). -/
def writePrice (selector value : Nat) (t : Tariff) : Option Tariff :=
  if selector ≤ 3 then
    if value ≤ Config.maxPrice then some { t with prices := t.prices.setIfInBounds selector value } else none
  else if selector = 4 then
    if value ≤ Config.maxAmount then some { t with standing := value } else none
  else none

/-- The tariff written by a TARIFF_SCHEDULE field, none when selector or value is out of range (R62). -/
def writePoint (selector value : Nat) (t : Tariff) : Option Tariff :=
  match pointOfValue value with
  | none => none
  | some p =>
    if selector ≤ 7 then some { t with work := t.work.setIfInBounds selector p }
    else if selector ≤ 15 then some { t with rest := t.rest.setIfInBounds (selector - 8) p }
    else none

/-- The calendar written by a CALENDAR field, none when selector or value is out of range (R65, R66). -/
def writeCalendar (selector value : Nat) (c : Calendar) : Option Calendar :=
  if selector ≤ 11 then
    if value ≤ Config.maxDay then
      some { c with holidays := c.holidays.setIfInBounds selector (if value = 0 then none else some value) }
    else none
  else if selector = 12 then
    if value ≤ 127 then some { c with restDays := BitVec.ofNat 7 value } else none
  else if 16 ≤ selector ∧ selector ≤ 19 then
    match windowOfValue value with
    | some w => some { c with windows := c.windows.setIfInBounds (selector - 16) w }
    | none => none
  else if selector = 20 then
    if value ≤ 1 then some { c with restFriendly := value == 1 } else none
  else none

/-- The action of a number (R157). -/
def actionOfNumber : Nat → Option Action
  | 0 => some .off
  | 1 => some .record
  | 2 => some .disconnect
  | _ => none

/-- Whether a kind takes an action (R139). -/
def actionAllowed (k : Kind) (a : Action) : Bool :=
  match k with
  | .rl => a == .disconnect
  | .pw => a != .off
  | _ => true

/-- The group slot of a number 1 to 3 (R76, R97). -/
def groupSlotOfNumber : Nat → Option Slot
  | 1 => some .slot1
  | 2 => some .slot2
  | 3 => some .slot3
  | _ => none

end Sys2Proof.Machine
end

