-- ==== Sys2Proof/Machine/Account.lean ====
section
/-! DEFINITION. The claims on the account record, as functions of the record alone (chapter 2). What a claim
does to the rest of the part is `claim` of Machine/Ops.lean. -/

namespace Sys2Proof.Machine

/-- A charge of `x` micro-units (R26): the smaller of `x` and the balance minus the floor is taken, the rest
becomes arrears. -/
def Account.charge (x : Nat) (a : Account) : Account :=
  let taken := min x (a.balance - a.floor).toNat
  { a with
    balance := a.balance - (taken : Int)
    arrears := a.arrears + (x - taken)
    debited := a.debited + x }

/-- What a credit of `x` would pay to the arrears (R29). -/
def Account.payment (x : Nat) (a : Account) : Nat := min x a.arrears

/-- Whether a credit of `x` passes the cap (R29). -/
def Account.capAllows (x : Nat) (a : Account) : Bool :=
  decide (a.balance + ((x - a.payment x : Nat) : Int) ≤ ((a.cap * Config.unit : Nat) : Int))

/-- A credit of `x` applied (R29), and the end of emergency credit it may bring (R30). -/
def Account.credit (x : Nat) (a : Account) : Account :=
  let paid := a.payment x
  let balance := a.balance + ((x - paid : Nat) : Int)
  { a with
    balance := balance
    arrears := a.arrears - paid
    credited := a.credited + x
    taken := a.taken && !decide (0 < balance) }

/-- Moves arrears into the balance as far as the floor allows (R33, R36). -/
def Account.moveArrears (a : Account) : Account :=
  let moved := min a.arrears (a.balance - a.floor).toNat
  { a with balance := a.balance - (moved : Int), arrears := a.arrears - moved }

/-- Raises the balance to the floor when it stands below it; the raise becomes arrears (R35, R37). -/
def Account.raiseToFloor (a : Account) : Account :=
  let raise := (a.floor - a.balance).toNat
  { a with balance := a.balance + (raise : Int), arrears := a.arrears + raise }

/-- The answer to the local command 110 (R32). -/
def Account.emergencyAnswer (a : Account) : LocalAnswer :=
  if a.taken then .alreadyTaken
  else if a.limit = 0 then .notOffered
  else if a.state = .inCredit then .notNeeded
  else .granted

/-- A granted command 110 (R33). -/
def Account.takeEmergency (a : Account) : Account := { a with taken := true }.moveArrears

/-- A new emergency limit (R34 to R37). -/
def Account.setLimit (v : Nat) (a : Account) : Account :=
  if !a.taken || v = a.limit then { a with limit := v }
  else if v = 0 then { a with limit := 0, taken := false }.raiseToFloor
  else if a.limit < v then { a with limit := v }.moveArrears
  else { a with limit := v }.raiseToFloor

/-- The account restarted by the opening balance item (R47). -/
def Account.reopen (amount : Nat) (a : Account) : Account :=
  { a with
    balance := (amount : Int)
    arrears := 0
    taken := false
    opening := amount
    credited := 0
    debited := 0 }

/-- The three settings replaced together (R48); the limit as R34 gives. -/
def Account.setSettings (limit threshold cap : Nat) (a : Account) : Account :=
  { a.setLimit limit with threshold := threshold, cap := cap }

/-- The alarm as a claim leaves it, `a` before and `b` after (R40). -/
def Account.alarmAfter (a b : Account) : Account :=
  if b.state = a.state then b else { b with alarm := b.state != .inCredit }

end Sys2Proof.Machine
end

