-- ==== Sys2Proof/Machine/Ops.lean ====
section
/-! DEFINITION. The shared operations of the blocks on the state: the moment of a command, notices, the
Evidence Log, the switch and its open-cause table, tamper conditions and latches, account claims, the friendly
period, day boundaries, changes of the clock, and the two resets. -/

namespace Sys2Proof.Machine

/-! ## Setters, one per block -/

def State.setSdm (s : State) (x : Sdm) : State := { s with sdm := x }
def State.setOts (s : State) (x : Ots) : State := { s with ots := x }
def State.setPiu (s : State) (x : Piu) : State := { s with piu := x }
def State.setAcu (s : State) (x : Account) : State := { s with acu := x }
def State.setTcu (s : State) (x : Tcu) : State := { s with tcu := x }
def State.setCda (s : State) (x : Cda) : State := { s with cda := x }
def State.setSwc (s : State) (x : Swc) : State := { s with swc := x }
def State.setTmp (s : State) (x : Tmp) : State := { s with tmp := x }
def State.setElg (s : State) (x : Elg) : State := { s with elg := x }
def State.setRpu (s : State) (x : Rpu) : State := { s with rpu := x }
def State.setLnk (s : State) (x : Lnk) : State := { s with lnk := x }
def State.setPins (s : State) (x : Levels) : State := { s with pins := x }
def State.setRcbLow (s : State) (x : Nat) : State := { s with rcbLow := x }
def State.setNow (s : State) (x : Nat) : State := { s with now := x }

/-! ## Resets -/

/-- A MAIN reset: every MAIN item of every block (R200; R1, R50, R75, R107, R137, R176, R185). -/
def mainReset (s : State) : State :=
  let s := s.setPiu s.piu.mainReset
  let s := s.setTcu s.tcu.mainReset
  let s := s.setCda s.cda.mainReset
  let s := s.setSwc (s.swc.mainReset s.now)
  let s := s.setTmp s.tmp.mainReset
  let s := s.setRpu .mainReset
  let s := s.setLnk .mainReset
  s.setSdm { s.sdm with stepsBegun := false, nextStep := .check }

/-- A retention start: every KEEP item of every block, and the marker ABSENT (R201). -/
def retentionStart (s : State) : State :=
  let s := s.setPiu s.piu.retentionStart
  let s := s.setAcu .retentionStart
  let s := s.setTcu s.tcu.retentionStart
  let s := s.setCda s.cda.retentionStart
  let s := s.setSwc (s.swc.retentionStart s.ots.lock)
  let s := s.setTmp s.tmp.retentionStart
  let s := s.setElg .restart
  s.setSdm { s.sdm with marker := false }

/-! ## The moment of a command -/

/-- The clock-low timer after the moment's time: it runs while SCL is low in a write transaction (R189). A fall of
SCL between two commands is taken to have come right after the first. In a read, which is one command, the timer
starts and stops inside it (READ_TRANSACTION, CLOCK_LOW_TIMEOUT). DESIGN CHOICE (log 16). -/
def clockLowAfter (m : Moment) (x : Lnk) : Option Nat :=
  if x.state = .receiving ∧ m.pins.scl = false then
    match x.clockLow with
    | some left => some (left - m.elapsed)
    | none => some (Config.clockLowTime - m.elapsed)
  else none

/-- Whether the MAIN domain is held at its reset: STARTING with RSTN or PFW low before the steps begin (R203). -/
def resetHeld (s : State) : Bool :=
  s.sdm.power == .starting && !s.sdm.stepsBegun && (!s.pins.rstn || !s.pins.pfw)

/-- The command comes: time passes on the timebase and on the running timers, and the input levels are those
of its moment; where the level before was low, RCB has been seen low (R122). `paused` is the time in which the
reply-hold timer stood still (R191). A MAIN reset that was held up to now is still the MAIN reset (R200, R203;
log 34). -/
def observe (m : Moment) (paused : Nat) (s : State) : State :=
  let held := resetHeld s
  let s := s.setRcbLow (if s.pins.rcb then s.rcbLow else s.now)
  let s := s.setNow (s.now + m.elapsed)
  let s := s.setPins m.pins
  if held then mainReset s
  else
    let s := s.setCda { s.cda with entryTimer := s.cda.entryTimer.map (· - m.elapsed) }
    s.setLnk
      { s.lnk with
        holdTimer := s.lnk.holdTimer.map (· - (m.elapsed - paused))
        clockLow := clockLowAfter m s.lnk }

/-! ## Notices -/

/-- A notice kind joins the set (R177); none is set while the MAIN domain is unpowered. One that is set while MAIN is
held at its reset (R203) joins at its command, and the reset takes it away at the next. DESIGN CHOICE (log 34). -/
def notify (n : Notice) (s : State) : State :=
  if mainPowered s.sdm.power then s.setRpu { s.rpu with notices := s.rpu.notices ||| noticeBit n } else s

/-! ## The Evidence Log -/

/-- The list without its oldest record whose protected mark is no (R168). -/
def dropUnguarded : List LogRecord → List LogRecord
  | [] => []
  | r :: rs => if r.guarded then r :: dropUnguarded rs else rs

/-- The next sequence after one is given (R168, R171). -/
def seqAfter (n : Nat) : Nat := if n < Config.logTop then n + 1 else n

/-- The record that an append makes now (R166, R168). -/
def makeRecord (type : RecordType) (kind : Option Kind) (phase : Option Phase) (code : Option RecordCode)
    (s : State) : LogRecord :=
  { seq := s.elg.nextSeq, time := s.tcu.clock, timeValid := s.tcu.valid, type := type, kind := kind
    phase := phase, code := code, balance := s.acu.balance, billedWh := s.piu.billedWh
    guarded := type == .tamperSet }

/-- A record joins the list (table of R168). -/
def Elg.join (r : LogRecord) (x : Elg) : Elg :=
  { records := (if x.records.length < Config.logSize then x.records else dropUnguarded x.records) ++ [r]
    nextSeq := seqAfter x.nextSeq }

/-- An append (R168). The sequence given is the next sequence before it. -/
def append (type : RecordType) (kind : Option Kind) (phase : Option Phase) (code : Option RecordCode)
    (s : State) : State :=
  s.setElg (s.elg.join (makeRecord type kind phase code s))

/-- The log releases the TAMPER_SET record of a kind that has a given sequence (R169). -/
def releaseRecord (k : Kind) (seq : Nat) (s : State) : State :=
  s.setElg
    { s.elg with
      records := s.elg.records.map fun r =>
        if r.type = .tamperSet ∧ r.kind = some k ∧ r.seq = seq then { r with guarded := false } else r }

/-! ## Tamper conditions that fall, and the switch state handed on -/

/-- Replaces the latch record of a kind. -/
def setLatch (k : Kind) (l : Latch) (s : State) : State :=
  s.setTmp { s.tmp with latches := s.tmp.latches.set k l }

/-- A falling condition (R151): the condition field, and nothing else. -/
def fall (k : Kind) (s : State) : State := setLatch k { s.tmp.latches.get k with condition := false } s

/-- What the Pulse Input Unit does when the switch goes from `old` to `new` (R12, R134). -/
def piuSwitch (old new : SwitchState) (s : State) : State :=
  if old = .closed ∧ new ≠ .closed then
    let stalled := anyPhase s.piu.stallFlag
    let s := s.setPiu { s.piu with stallFlag := .all false, stallTimer := .all 0 }
    if stalled then fall .ms s else s
  else s

/-- Whether a switch state is OPEN or ARMED (R144). -/
def openPair : SwitchState → Bool
  | .opened | .armed => true
  | _ => false

/-- What the Tamper Monitor does when a switch state is handed (R144, R160). -/
def tmpSwitch (new : SwitchState) (s : State) : State :=
  let stays := openPair new && (s.tmp.lastHanded.map openPair).getD false
  let s' := s.setTmp
    { s.tmp with
      lastHanded := some new
      soHistory := if stays then s.tmp.soHistory else [] }
  if openPair new then s' else fall .so s'

/-! ## The switch -/

/-- The intended position at the entry into a switch state (R115). -/
def intendedAfter (new : SwitchState) (x : Swc) : Position :=
  match new with
  | .closed | .closing => .closed
  | .opening | .opened => .opened
  | .armed => .armed
  | .fault =>
    match x.op with
    | some o => match o.target with
      | .opened => .opened
      | .closed => .closed
    | none => x.intended
  | .verify => x.intended

/-- The operation record at the entry into a switch state: it ends in CLOSED, OPEN and ARMED (R116, R119). -/
def opAfter (new : SwitchState) (x : Swc) : Option Operation :=
  match new with
  | .closed | .opened | .armed => none
  | .verify | .opening | .closing | .fault => x.op

/-- The switch enters a state (R115, R125, R134, R135). -/
def enterSwitch (new : SwitchState) (s : State) : State :=
  if s.swc.switch = new then s
  else
    let old := s.swc.switch
    let s := s.setSwc
      { s.swc with
        switch := new
        intended := intendedAfter new s.swc
        op := opAfter new s.swc
        overCount := if old = .closed then 0 else s.swc.overCount }
    tmpSwitch new (piuSwitch old new (notify .switch s))

/-- The REST phase is entered; it ends at once when 3 s have passed since the last coil pulse end (R116), and
the PULSE phase begins (R117). -/
def enterRest (o : Operation) (s : State) : State :=
  if s.swc.lastPulseEnd + Config.restTime ≤ s.now then
    s.setSwc { s.swc with op := some { o with phase := .pulse, ends := s.now + Config.pulseTime } }
  else s.setSwc { s.swc with op := some { o with phase := .rest } }

/-- The switch state of an operation toward a target. -/
def movingState : Target → SwitchState
  | .opened => .opening
  | .closed => .closing

/-- An operation begins (R116). -/
def beginOperation (t : Target) (s : State) : State :=
  let o : Operation := ⟨t, 1, .rest, none, 0⟩
  enterRest o (enterSwitch (movingState t) (s.setSwc { s.swc with op := some o }))

/-- Replaces the released-by field of the operation record. -/
def setReleasedBy (c : Option Cause) (s : State) : State :=
  s.setSwc { s.swc with op := s.swc.op.map fun o => { o with releasedBy := c } }

/-- An ACTIVE entry has appeared in a table that held none (R114); no operation begins in HOLDUP (R132). -/
def activeAppeared (s : State) : State :=
  match s.swc.switch with
  | .closed => if s.sdm.power = .holdup then s else beginOperation .opened s
  | .opening => setReleasedBy none s
  | .armed => enterSwitch .opened s
  | .verify | .opened | .closing | .fault => s

/-- The last ACTIVE entry has left, with cause `c` departing (R114); no operation begins in HOLDUP (R132). -/
def lastActiveLeft (c : Cause) (s : State) : State :=
  match s.swc.switch with
  | .opening => setReleasedBy (some c) s
  | .opened =>
    if reconnects s.swc (some c) then
      if s.sdm.power = .holdup then s else beginOperation .closed s
    else enterSwitch .armed s
  | .verify | .closed | .armed | .closing | .fault => s

/-- An entry of the open-cause table is added, removed or changed (R108): the SWITCH notice at each addition,
removal and change of state (R135), then R114. -/
def changeEntry (c : Cause) (e : Option Entry) (s : State) : State :=
  let old := s.swc.table
  let s1 := s.setSwc { s.swc with table := old.set c e }
  let s2 := if causeState (old.get c) = causeState e then s1 else notify .switch s1
  match old.anyActive, (old.set c e).anyActive with
  | false, true => activeAppeared s2
  | true, false => lastActiveLeft c s2
  | _, _ => s2

/-- The CREDIT cause is evaluated (table of R109). -/
def evaluateCredit (s : State) : State :=
  match s.swc.held == .exhausted && s.tcu.untilDay.isNone, s.swc.table.credit with
  | true, none => changeEntry .credit (some ⟨friendlyNow s.tcu, s.tcu.clock, none⟩) s
  | false, some _ => changeEntry .credit none s
  | _, _ => s

/-- The Tamper Monitor tells whether the TAMPER cause is required (R111, R153). -/
def evaluateTamper (s : State) : State :=
  match tamperRequired s.tmp, s.swc.table.tamper with
  | true, none => changeEntry .tamper (some ⟨false, s.tcu.clock, none⟩) s
  | false, some _ => changeEntry .tamper none s
  | _, _ => s

/-! ## Tamper conditions that rise -/

/-- A latch is set with its record (R150). -/
def latchRecord (k : Kind) (phase : Option Phase) (s : State) : State :=
  let seq := s.elg.nextSeq
  let s := append .tamperSet (some k) phase none s
  setLatch k { s.tmp.latches.get k with set := some ⟨s.tcu.clock, phase, seq⟩, repeats := 0 } s

/-- A rising condition is taken (R149, R150); the PW condition is left INACTIVE (R147). -/
def rise (k : Kind) (phase : Option Phase) (s : State) : State :=
  let s := setLatch k { s.tmp.latches.get k with condition := k != .pw } s
  let l := s.tmp.latches.get k
  if s.tmp.actions.get k = .off then s
  else if l.set.isSome then notify .tamper (setLatch k { l with repeats := min 255 (l.repeats + 1) } s)
  else
    let s := notify .tamper (latchRecord k phase s)
    if s.tmp.actions.get k = .disconnect then evaluateTamper s else s

/-- A condition is handed; one handed with the value already held is no change (R145). -/
def hand (k : Kind) (value : Bool) (phase : Option Phase) (s : State) : State :=
  if (s.tmp.latches.get k).condition = value then s
  else if value then rise k phase s
  else fall k s

/-- A protected-write attempt (R147), and when it came (R156; log 41). -/
def pwAttempt (s : State) : State :=
  let s := rise .pw none s
  s.setTmp { s.tmp with pwAt := some s.now }

/-! ## Claims on the account -/

/-- A claim is taken whole, and the change of state it brings is handled (R25, R40, R43, R44). -/
def claim (f : Account → Account) (s : State) : State :=
  let a := s.acu
  let b := f a
  let s := s.setAcu (a.alarmAfter b)
  if b.state = a.state then
    if b.taken = a.taken then s else notify .account s
  else
    let s := notify .account s
    let s := if b.state = .inCredit then s else notify .lowAlarm s
    evaluateCredit (s.setSwc { s.swc with held := b.state })

/-! ## The friendly period -/

/-- FRIENDLY_START or FRIENDLY_END reaches the Switch Controller (R110). -/
def handFriendly (friendly : Bool) (s : State) : State :=
  match s.swc.table.credit with
  | some e => if e.deferred = friendly then s else changeEntry .credit (some { e with deferred := friendly }) s
  | none => s

/-- The friendly period is evaluated and handed when it differs from the last handed value (R67). -/
def evaluateFriendly (s : State) : State :=
  let v := friendlyNow s.tcu
  if s.tcu.lastFriendly = some v then s
  else handFriendly v (s.setTcu { s.tcu with lastFriendly := some v })

/-! ## Day boundaries -/

/-- The Switch Controller's part of a boundary (R127). -/
def boundarySwitch (s : State) : State :=
  let s := s.setSwc { s.swc with tripsToday := 0 }
  match s.swc.table.loadLimit with
  | some e => if e.penalty = some .untilBoundary then changeEntry .loadLimit none s else s
  | none => s

/-- The end of an override whose last day lies before `day` (R71). -/
def boundaryOverride (day : Nat) (s : State) : State :=
  match s.tcu.untilDay with
  | some u => if u < day then evaluateCredit (s.setTcu { s.tcu with untilDay := none }) else s
  | none => s

/-- The activation of a pending tariff whose day has come (R70). -/
def boundaryActivation (day : Nat) (s : State) : State :=
  if s.tcu.actPending = true ∧ s.tcu.actDay ≤ day then
    notify .tariff (s.setTcu { s.tcu with active := s.tcu.passive, actPending := false })
  else s

/-- The boundary of the day after the last processed day is delivered (R69). -/
def deliverBoundary (s : State) : State :=
  let day := s.tcu.lastDay + 1
  let s := claim (Account.charge (s.tcu.active.standing * Config.milli)) s
  let s := s.setCda { s.cda with lockoutsToday := 0 }
  let s := boundarySwitch s
  let s := s.setTcu { s.tcu with trimUsed := 0 }
  let s := boundaryOverride day s
  let s := boundaryActivation day s
  notify .day (s.setTcu { s.tcu with lastDay := day })

/-- The next `n` boundaries are delivered, one after the other. -/
def deliverBoundaries : Nat → State → State
  | 0, s => s
  | n + 1, s => deliverBoundaries n (deliverBoundary s)

/-- Every boundary that is due is delivered (R68). -/
def deliverDue (s : State) : State :=
  if s.tcu.valid then deliverBoundaries (dayOf s.tcu.clock - s.tcu.lastDay) s else s

/-! ## Changes of the clock -/

/-- The demand window is discarded (R15). -/
def discardDemand (s : State) : State := s.setPiu { s.piu with demand := .waiting }

/-- A change of a valid clock (R57). -/
def changeClock (clock : Nat) (s : State) : State :=
  evaluateFriendly (deliverDue (discardDemand (s.setTcu { s.tcu with clock := clock })))

/-- An override moved with the last processed day, within 0 to 49,710 (R53). -/
def moveOverride (oldDay newDay : Nat) (u : Option Nat) : Option Nat :=
  u.map fun d => min Config.maxDay (d + newDay - oldDay)

/-- The clock becomes valid (R53). -/
def validateClock (clock : Nat) (s : State) : State :=
  let s := s.setTcu
    { s.tcu with
      clock := clock
      valid := true
      lastDay := dayOf clock
      trimUsed := 0
      untilDay := moveOverride s.tcu.lastDay (dayOf clock) s.tcu.untilDay }
  evaluateFriendly (discardDemand s)

/-- The power state changes (R199). -/
def setPower (p : PowerState) (s : State) : State := s.setSdm { s.sdm with power := p }

end Sys2Proof.Machine
end

