-- ==== Sys2Proof/Machine/Pulse.lean ====
section
/-! DEFINITION. The Pulse Input Unit (chapter 1): an accepted pulse, the stall step of a tick, the end of a
demand minute, the start-up step, and the command PULSE_EDGE. -/

namespace Sys2Proof.Machine

/-- Whether a rising edge on a phase is accepted (R2, R3). -/
def acceptsEdge (n : Phase) (s : State) : Bool :=
  working s.sdm.power &&
    match s.piu.lastPulse.get n with
    | none => true
    | some t => decide (t + Config.pulseSpacing ≤ s.now)

/-- The direction of a pulse on a phase (R4). -/
def directionOf (n : Phase) (p : Levels) : Direction := if p.d.get n then .exporting else .importing

/-- Whether a pulse is billed (R5). -/
def billable (d : Direction) (x : Piu) : Bool := d == .importing || x.absolute

/-- Whether a pulse completes a watt-hour (R5). -/
def completesWh (d : Direction) (x : Piu) : Bool :=
  billable d x && decide (10 ≤ x.residue + weightDwh x.weight)

/-- The registers after a pulse (R4). -/
def registersAfter (n : Phase) (d : Direction) (x : Piu) : Piu :=
  let w := weightDwh x.weight
  match d with
  | .exporting => { x with exports := x.exports.set n ((x.exports.get n + w) % Config.registerTop) }
  | .importing => { x with imports := x.imports.set n ((x.imports.get n + w) % Config.registerTop) }

/-- The billing counts after a pulse (R5). -/
def billingAfter (d : Direction) (x : Piu) : Piu :=
  if completesWh d x then
    { x with
      residue := x.residue + weightDwh x.weight - 10
      billedWh := (x.billedWh + 1) % Config.billedTop }
  else if billable d x then { x with residue := x.residue + weightDwh x.weight }
  else x

/-- The history and the reverse flag after a pulse (R8, R9). -/
def historyAfter (n : Phase) (d : Direction) (x : Piu) : Piu :=
  let h := pushBounded 16 (x.history.get n) d
  { x with
    history := x.history.set n h
    reverseFlag := x.reverseFlag.set n (reverseFlagAfter (x.reverseFlag.get n) h) }

/-- The demand window after a pulse (R14). -/
def demandAfter (x : Piu) : DemandWindow :=
  match x.demand with
  | .waiting => .waiting
  | .running acc => .running (acc + weightDwh x.weight)

/-- The unit's own state after an accepted pulse at time `now` (R3 to R5, R8, R9, R11, R12, R14). -/
def piuAfterPulse (n : Phase) (d : Direction) (now : Nat) (x : Piu) : Piu :=
  let y := historyAfter n d (billingAfter d (registersAfter n d x))
  { y with
    lastPulse := y.lastPulse.set n (some now)
    stallTimer := y.stallTimer.set n 0
    stallFlag := y.stallFlag.set n false
    demand := demandAfter y }

/-- The RV condition is handed when the flags change it (R10). -/
def handReverse (before : Bool) (n : Phase) (s : State) : State :=
  let after := anyPhase s.piu.reverseFlag
  if before = after then s else hand .rv after (if after then some n else none) s

/-- An accepted pulse, taken whole: the unit's own state, the debit (R6), then the conditions (R10, R12). -/
def acceptPulse (n : Phase) (d : Direction) (s : State) : State :=
  let x := s.piu
  let s := s.setPiu (piuAfterPulse n d s.now x)
  let unstalled := anyPhase x.stallFlag && !anyPhase s.piu.stallFlag
  let s := if completesWh d x then claim (Account.charge (currentPrice s.tcu)) s else s
  let s := handReverse (anyPhase x.reverseFlag) n s
  if unstalled then hand .ms false none s else s

/-- PULSE_EDGE (R3). -/
def execPulseEdge (m : Moment) (n : Phase) (s : State) : Host.Outcome State Fault Refusal :=
  let s := observe m 0 s
  if acceptsEdge n s then .next (acceptPulse n (directionOf n s.pins) s) else .next s

/-! ## The unit's part of a second tick -/

/-- The stall timer of a phase after a tick (table of R11). -/
def stallTimerAfter (n : Phase) (closed : Bool) (p : Levels) (x : Piu) : Nat :=
  if x.stallFlag.get n then x.stallTimer.get n
  else if closed && p.c.get n then x.stallTimer.get n + 1
  else 0

/-- Whether a phase whose flag was clear is stalled after its step (R11). -/
def stallsAt (n : Phase) (closed : Bool) (p : Levels) (x : Piu) : Bool :=
  !x.stallFlag.get n && decide (x.stallTime ≤ stallTimerAfter n closed p x)

/-- The phases in rising order, but for `first`, which comes first. -/
def phasesFrom : Phase → List Phase
  | .p1 => [.p1, .p2, .p3]
  | .p2 => [.p2, .p1, .p3]
  | .p3 => [.p3, .p1, .p2]

/-- The stall step of a tick in RUN or HOLDUP (R11, R12); of phases found stalled together, the first in the
order of `phasesFrom first` is the one handed. DESIGN CHOICE (log 8), safe. -/
def stallStep (first : Phase) (s : State) : State :=
  if working s.sdm.power then
    let x := s.piu
    let closed := s.swc.switch == .closed
    let timer := fun n => stallTimerAfter n closed s.pins x
    let flag := fun n => x.stallFlag.get n || stallsAt n closed s.pins x
    let s' := s.setPiu
      { x with
        stallTimer := ⟨timer .p1, timer .p2, timer .p3⟩
        stallFlag := ⟨flag .p1, flag .p2, flag .p3⟩ }
    if !anyPhase x.stallFlag && anyPhase s'.piu.stallFlag then
      hand .ms true ((phasesFrom first).find? fun n => stallsAt n closed s.pins x) s'
    else s'
  else s

/-- The unit's start-up step (R13): MS inactive, and RV as the kept flags give it. -/
def pulseStartUp (s : State) : State :=
  let s := hand .ms false none s
  hand .rv (anyPhase s.piu.reverseFlag) (firstPhase s.piu.reverseFlag) s

end Sys2Proof.Machine
end

