-- ==== Sys2Proof/Machine/Switch.lean ====
section
/-! DEFINITION. The Switch Controller (chapter 5): penalties, the load limit, verification, the start-up step,
and the commands REST_END, COIL_PULSE_END, SETTLE_END and RECONNECT_PRESS. -/

namespace Sys2Proof.Machine

/-! ## Penalties and the load limit -/

/-- The penalty of a trip that leaves `trips` trips today (R126). -/
def tripPenalty (trips : Nat) : Penalty := if trips ≤ 3 then .seconds 300 else .untilBoundary

/-- A trip (R126). -/
def trip (s : State) : State :=
  let trips := min 255 (s.swc.tripsToday + 1)
  let s := s.setSwc { s.swc with overCount := 0, tripsToday := trips }
  match s.swc.table.loadLimit with
  | some e =>
    s.setSwc
      { s.swc with table := s.swc.table.set .loadLimit (some { e with penalty := some (tripPenalty trips) }) }
  | none => changeEntry .loadLimit (some ⟨false, s.tcu.clock, some (tripPenalty trips)⟩) s

/-- A demand minute is handed (R125). -/
def demandMinute (watts : Nat) (s : State) : State :=
  let limit := effectiveLimit s.swc
  if s.swc.switch = .closed ∧ limit ≠ 0 ∧ limit < watts then
    if 2 ≤ s.swc.overCount + 1 then trip s
    else s.setSwc { s.swc with overCount := s.swc.overCount + 1 }
  else s.setSwc { s.swc with overCount := 0 }

/-- The penalty seconds of the table (R113). -/
def penaltySeconds (t : CauseTable) : Option Nat :=
  match t.loadLimit with
  | some e =>
    match e.penalty with
    | some (.seconds n) => some n
    | _ => none
  | none => none

/-- The penalty counts one second down (R113). -/
def countPenalty (t : CauseTable) : CauseTable :=
  match t.loadLimit with
  | some e =>
    match e.penalty with
    | some (.seconds n) => t.set .loadLimit (some { e with penalty := some (.seconds (n - 1)) })
    | _ => t
  | none => t

/-! ## Verification -/

/-- The verification of an operation (R118). -/
def verification (t : Target) (p : Levels) : Verification := ⟨foundOf p, outOfPlace p (t == .closed)⟩

/-- The pass of an open operation (R120). -/
def passOpen (o : Operation) (s : State) : State :=
  if s.swc.table.anyActive then enterSwitch .opened s
  else if reconnects s.swc o.releasedBy then beginOperation .closed s
  else enterSwitch .armed s

/-- The pass of a close operation (R121). -/
def passClose (s : State) : State :=
  if s.swc.table.anyActive then beginOperation .opened s else enterSwitch .closed s

/-- The third failure of an operation (R119). -/
def operationFault (phase : Option Phase) (s : State) : State :=
  notify .switchFault (append .switchFault none phase none (enterSwitch .fault s))

/-- The end of a SETTLE phase in a verification (R118 to R121). -/
def verify (o : Operation) (s : State) : State :=
  let v := verification o.target s.pins
  let s := s.setSwc { s.swc with lastVerification := some v }
  if v.found = targetFound o.target then
    match o.target with
    | .opened => passOpen o s
    | .closed => passClose s
  else if o.attempt < 3 then enterRest { o with attempt := o.attempt + 1 } s
  else operationFault v.phase s

/-! ## Start-up -/

/-- The switch state that VERIFY gives (table of R131). -/
def verifyChoice (active : Bool) (intended : Position) (found : Found) : SwitchState :=
  match active, intended, found with
  | true, _, .opened => .opened
  | true, _, _ => .opening
  | false, .closed, .closed => .closed
  | false, .closed, _ => .closing
  | false, _, .opened => .armed
  | false, _, .closed => .closed
  | false, _, .mixed => .opening

/-- The controller's start-up step (R131). The first phase out of place is judged against AUX. -/
def switchStartUp (s : State) : State :=
  let v : Verification := ⟨foundOf s.pins, outOfPlace s.pins (!s.pins.aux)⟩
  let s := s.setSwc { s.swc with lastVerification := some v }
  match verifyChoice s.swc.table.anyActive s.swc.intended v.found with
  | .opening => beginOperation .opened s
  | .closing => beginOperation .closed s
  | st => enterSwitch st s

/-! ## Commands -/

/-- REST_END (R116): the PULSE phase begins; not in HOLDUP (R132). -/
def execRestEnd (m : Moment) (s : State) : Host.Outcome State Fault Refusal :=
  let s := observe m 0 s
  match s.swc.op with
  | some o =>
    if inPhase s.swc .rest ∧ operates s.sdm.power = true then .next (enterRest o s) else .next s
  | none => .next s

/-- COIL_PULSE_END (R117): the drive ends, the time is kept, SETTLE begins; in HOLDUP as in RUN (R132). -/
def execCoilPulseEnd (m : Moment) (s : State) : Host.Outcome State Fault Refusal :=
  let s := observe m 0 s
  match s.swc.op with
  | some o =>
    if inPhase s.swc .pulse ∧ mainPowered s.sdm.power = true ∧ o.ends ≤ s.now then
      .next (s.setSwc
        { s.swc with
          lastPulseEnd := s.now
          op := some { o with phase := .settle, ends := s.now + Config.settleTime } })
    else .next s
  | none => .next s

/-- SETTLE_END (R118): a verification; in HOLDUP the settle runs out without one (R132). -/
def execSettleEnd (m : Moment) (s : State) : Host.Outcome State Fault Refusal :=
  let s := observe m 0 s
  match s.swc.op with
  | some o =>
    if inPhase s.swc .settle ∧ operates s.sdm.power = true ∧ o.ends ≤ s.now then .next (verify o s) else .next s
  | none => .next s

/-- The press latch is sampled and cleared (R122). -/
def samplePress (s : State) : State :=
  let pressed := s.swc.pressLatch
  let s := s.setSwc { s.swc with pressLatch := false }
  if pressed = true ∧ s.sdm.power = .run ∧ s.swc.switch = .armed ∧ s.swc.table.anyActive = false then
    beginOperation .closed s
  else s

/-- Whether RCB has had a rising edge `held` ms ago and has stood high since (R122): the line is high now, and the edge
is not older than the last low level seen before and is younger than the last press, at which the line was high: until
it has fallen and risen again there is no second press (log 42). -/
def freshEdge (held : Nat) (s : State) : Bool :=
  s.pins.rcb && decide (s.rcbLow + held ≤ s.now) && decide (s.swc.lastPress + held < s.now)

/-- RECONNECT_PRESS (R122): an edge held for 50 ms sets the latch, which is sampled in the same event. -/
def execReconnectPress (m : Moment) (held : Nat) (s : State) : Host.Outcome State Fault Refusal :=
  let s := observe m 0 s
  if Config.pressTime ≤ held ∧ mainPowered s.sdm.power = true ∧ freshEdge held s = true then
    .next (samplePress (s.setSwc { s.swc with pressLatch := true, lastPress := s.now }))
  else .next s

end Sys2Proof.Machine
end

