-- ==== Sys2Proof/Machine/Tamper.lean ====
section
/-! DEFINITION. The Tamper Monitor (chapter 6): the run and battery filters, the SO filter, the lock step, the
start-up step, and the commands RUN_FILTER_SAMPLE and BATTERY_FILTER_SAMPLE. -/

namespace Sys2Proof.Machine

/-- The histories after a run filter sample (R140); the next sample is due 20 ms after this one was. -/
def runSamples (p : Levels) (x : Tmp) : Tmp :=
  { x with
    runCvs := pushBounded 16 x.runCvs p.cvs
    runTcs := pushBounded 16 x.runTcs p.tcs
    runMag := pushBounded 16 x.runMag p.mag
    runDue := x.runDue + Config.runInterval }

/-- One line's condition is tested after a run filter sample (table of R140). -/
def testRun (k : Kind) (h : List Bool) (s : State) : State :=
  hand k (runCondition (s.tmp.latches.get k).condition h) none s

/-- A run filter sample of the three lines (R140). Where conditions rise together either may be taken first (R152,
R170); the model takes CV, then TC, then MG. DESIGN CHOICE (log 37). -/
def runSample (s : State) : State :=
  let s := s.setTmp (runSamples s.pins s.tmp)
  let s := testRun .cv s.tmp.runCvs s
  let s := testRun .tc s.tmp.runTcs s
  testRun .mg s.tmp.runMag s

/-- RUN_FILTER_SAMPLE (R140). -/
def execRunFilterSample (m : Moment) (s : State) : Host.Outcome State Fault Refusal :=
  let s := observe m 0 s
  if working s.sdm.power = true ∧ s.tmp.runDue ≤ s.now then .next (runSample s) else .next s

/-- The histories after a battery filter sample (R141); the next is due 500 ms after this one was. -/
def batterySamples (p : Levels) (x : Tmp) : Tmp :=
  { x with
    batteryCvs := pushBounded 4 x.batteryCvs p.cvs
    batteryTcs := pushBounded 4 x.batteryTcs p.tcs
    batteryDue := x.batteryDue + Config.batteryInterval }

/-- One cover's condition is tested after a battery filter sample (R141). -/
def testBattery (k : Kind) (h : List Bool) (s : State) : State :=
  hand k (batteryCondition (s.tmp.latches.get k).condition h) none s

/-- A battery filter sample of the two covers (R141). Where both conditions rise either may be taken first (R152,
R170); the model takes CV, then TC. DESIGN CHOICE (log 37). -/
def batterySample (s : State) : State :=
  let s := s.setTmp (batterySamples s.pins s.tmp)
  let s := testBattery .cv s.tmp.batteryCvs s
  testBattery .tc s.tmp.batteryTcs s

/-- BATTERY_FILTER_SAMPLE (R141). -/
def execBatteryFilterSample (m : Moment) (s : State) : Host.Outcome State Fault Refusal :=
  let s := observe m 0 s
  if s.sdm.power = .battery ∧ s.tmp.batteryDue ≤ s.now then .next (batterySample s) else .next s

/-! ## The monitor's part of a second tick -/

/-- Whether the SO filter takes a second at a tick (R143). -/
def takesSecond (s : State) : Bool :=
  working s.sdm.power && (s.tmp.lastHanded.map openPair).getD false

/-- The lowest-numbered phase with Cn or Ln high (R143). -/
def livePhase (p : Levels) : Option Phase :=
  firstPhase ⟨p.c.p1 || p.l.p1, p.c.p2 || p.l.p2, p.c.p3 || p.l.p3⟩

/-- The SO second of a tick (R143). -/
def supplySecond (s : State) : State :=
  if takesSecond s then
    let s := s.setTmp { s.tmp with soHistory := pushBounded 10 s.tmp.soHistory (livePhase s.pins).isSome }
    hand .so (soCondition (s.tmp.latches.get .so).condition s.tmp.soHistory) (livePhase s.pins) s
  else s

/-! ## The commissioning lock and the start-up step -/

/-- Whether a kind hands a phase (R138). -/
def kindHasPhase : Kind → Bool
  | .rv | .ms | .so => true
  | .cv | .tc | .mg | .pw | .ca | .rl => false

/-- Whether the lock sets the latch of a kind afresh (table of R159). -/
def relatches (k : Kind) (x : Tmp) : Bool := (x.latches.get k).condition && x.actions.get k != .off

/-- The lock step of one kind (table of R159). -/
def lockKind (k : Kind) (s : State) : State :=
  let l := s.tmp.latches.get k
  if relatches k s.tmp then
    latchRecord k (if kindHasPhase k then l.set.bind (·.phase) else none) s
  else setLatch k { l with set := none, repeats := 0 } s

/-- The Tamper Monitor's lock step (R159). -/
def tamperLockStep (s : State) : State :=
  let again := kindList.any fun k => relatches k s.tmp
  let s := kindList.foldl (fun s k => lockKind k s) s
  let s := evaluateTamper s
  if again then notify .tamper s else s

/-- The Tamper Monitor's start-up step (R160). The first run filter sample is due at the step itself, of which R140
says only "from the Tamper Monitor's start-up step onwards". DESIGN CHOICE (log 38). -/
def tamperStartUp (s : State) : State :=
  let s := s.setTmp { s.tmp with runDue := s.now }
  let s := evaluateTamper s
  if kindList.any fun k => (s.tmp.latches.get k).set.isSome then notify .tamper s else s

end Sys2Proof.Machine
end

