-- ==== Sys2Proof/Machine/Clock.lean ====
section
/-! DEFINITION. The second tick (R51) with everything that the rules tie to it, and the commands that are a tick:
SECOND_TICK, CLOCK_WRAP, STALL_DETECTED, DEMAND_MINUTE_END, DAY_BOUNDARY, LOCKOUT_END, PENALTY_END. Each of the
six named rows is the tick at which its event comes about, with that event's part of the tick taken first; where
the next tick would not bring it about, the event has not come. DESIGN CHOICE (log 6, log 7). -/

namespace Sys2Proof.Machine

/-- The clock value after a tick (R51). -/
def clockAfterTick (clock : Nat) : Nat := if clock + 1 < Config.clockTop then clock + 1 else 0

/-- The tick's counting: the clock (R51), lockout remaining (R89) and the penalty seconds (R113). -/
def countTick (s : State) : State :=
  let s := s.setTcu
    { s.tcu with
      clock := clockAfterTick s.tcu.clock
      valid := s.tcu.valid && decide (s.tcu.clock + 1 < Config.clockTop) }
  let s := s.setCda { s.cda with lockoutLeft := s.cda.lockoutLeft - 1 }
  s.setSwc { s.swc with table := countPenalty s.swc.table }

/-- The parts of a tick that follow its counting. -/
inductive TickPart where
  | lockout
  | penalty
  | stall (first : Phase)
  | supply
  | demand
  | calendar
  deriving DecidableEq, Repr

/-- Lockout remaining has reached 0 (R89). -/
def lockoutEnds (s : State) : State :=
  let s := hand .ca false none s
  if mainPowered s.sdm.power = true ∧ s.cda.acceptor = .lockout then
    s.setCda { s.cda with acceptor := .idle, buffer := [], entryTimer := none }
  else s

/-- A penalty that has reached 0 removes its entry (R113). -/
def penaltyEnds (s : State) : State :=
  if penaltySeconds s.swc.table = some 0 then changeEntry .loadLimit none s else s

/-- Whether a tick has left the clock at a whole multiple of 60. -/
def wholeMinute (s : State) : Bool := s.tcu.clock % 60 == 0

/-- The demand window at a tick (R14). -/
def minuteEnds (s : State) : State :=
  if working s.sdm.power && wholeMinute s then
    match s.piu.demand with
    | .waiting => s.setPiu { s.piu with demand := .running 0 }
    | .running acc =>
      demandMinute (6 * acc)
        (s.setPiu { s.piu with demand := .running 0, lastDemand := some ⟨6 * acc, s.tcu.clock⟩ })
  else s

/-- The Tariff and Calendar Unit's handling of a tick (R51, R67, R68): at a midnight the friendly evaluation comes
first, then the boundaries. DESIGN CHOICE (log 44). -/
def calendarTick (s : State) : State :=
  if calendarRuns s.sdm then deliverDue (if wholeMinute s then evaluateFriendly s else s) else s

/-- One part of a tick. `lockout` and `penalty` say that the counting brought these to 0. -/
def tickPart (lockout penalty : Bool) (p : TickPart) (s : State) : State :=
  match p with
  | .lockout => if lockout then lockoutEnds s else s
  | .penalty => if penalty then penaltyEnds s else s
  | .stall first => stallStep first s
  | .supply => supplySecond s
  | .demand => minuteEnds s
  | .calendar => calendarTick s

/-- Whether a tick ends the lockout. -/
def lockoutDue (s : State) : Bool := s.cda.lockoutLeft == 1

/-- Whether a tick ends a penalty. -/
def penaltyDue (s : State) : Bool := penaltySeconds s.swc.table == some 1

/-- A second tick with its parts in a given order; in OFF there is none (R51). -/
def tick (order : List TickPart) (s : State) : State :=
  if s.sdm.power = .off then s
  else order.foldl (fun t p => tickPart (lockoutDue s) (penaltyDue s) p t) (countTick s)

/-- The order of the parts at an ordinary tick. DESIGN CHOICE (log 7). -/
def tickOrder : List TickPart := [.lockout, .penalty, .stall .p1, .supply, .demand, .calendar]

/-- The tick of a SECOND_TICK (R51). -/
def secondTick (m : Moment) (s : State) : State := tick tickOrder (observe m 0 s)

/-- SECOND_TICK (R51). -/
def execSecondTick (m : Moment) (s : State) : Host.Outcome State Fault Refusal := .next (secondTick m s)

/-- CLOCK_WRAP (R51): the tick from the top clock value. -/
def execClockWrap (m : Moment) (s : State) : Host.Outcome State Fault Refusal :=
  let s := observe m 0 s
  if s.tcu.clock + 1 = Config.clockTop then
    .next (tick [.calendar, .lockout, .penalty, .stall .p1, .supply, .demand] s)
  else .next s

/-- STALL_DETECTED (R11, R12): the tick at which the stall timer of phase `n` reaches the stall time. -/
def execStallDetected (m : Moment) (n : Phase) (s : State) : Host.Outcome State Fault Refusal :=
  let s := observe m 0 s
  if working s.sdm.power = true ∧ stallsAt n (s.swc.switch == .closed) s.pins s.piu = true then
    .next (tick [.stall n, .lockout, .penalty, .supply, .demand, .calendar] s)
  else .next s

/-- DEMAND_MINUTE_END (R14): the tick that makes the clock a whole multiple of 60. -/
def execDemandMinuteEnd (m : Moment) (s : State) : Host.Outcome State Fault Refusal :=
  let s := observe m 0 s
  if working s.sdm.power = true ∧ clockAfterTick s.tcu.clock % 60 = 0 then
    .next (tick [.demand, .lockout, .penalty, .stall .p1, .supply, .calendar] s)
  else .next s

/-- DAY_BOUNDARY (R68, R69): the tick after which the day number exceeds the last processed day. -/
def execDayBoundary (m : Moment) (s : State) : Host.Outcome State Fault Refusal :=
  let s := observe m 0 s
  if calendarRuns s.sdm = true ∧ s.tcu.valid = true ∧ s.tcu.clock + 1 < Config.clockTop ∧
      s.tcu.lastDay < dayOf (s.tcu.clock + 1) then
    .next (tick [.calendar, .lockout, .penalty, .stall .p1, .supply, .demand] s)
  else .next s

/-- LOCKOUT_END (R89): the tick at which lockout remaining reaches 0. -/
def execLockoutEnd (m : Moment) (s : State) : Host.Outcome State Fault Refusal :=
  let s := observe m 0 s
  if lockoutDue s then .next (tick [.lockout, .penalty, .stall .p1, .supply, .demand, .calendar] s)
  else .next s

/-- PENALTY_END (R113): the tick at which a penalty counted in seconds reaches 0. -/
def execPenaltyEnd (m : Moment) (s : State) : Host.Outcome State Fault Refusal :=
  let s := observe m 0 s
  if penaltyDue s then .next (tick [.penalty, .lockout, .stall .p1, .supply, .demand, .calendar] s)
  else .next s

end Sys2Proof.Machine
end

