-- ==== Sys2Proof/Machine/Codes.lean ====
section
/-! DEFINITION. The Code Acceptor (chapter 4): code results, the entry buffer and its symbols, local commands,
the sequence windows, the checks after a match, the effects of the code classes, failures and the lockout, and
the commands ENTRY_TIMEOUT and DECODE_END. KEYS is in Machine/Keys.lean. -/

namespace Sys2Proof.Machine

/-! ## Results and entries -/

/-- The result number after a result is written (R102). -/
def numberAfter (n : Nat) : Nat := if n < 255 then n + 1 else 1

/-- A code result is written (R101, R102). -/
def writeResult (o : CodeOutcome) (code : Option CodeRef) (detail : Option Detail) (s : State) : State :=
  notify .codeResult
    (s.setCda
      { s.cda with
        lastResult := some ⟨o, code, s.tcu.clock, detail⟩
        resultNumber := numberAfter s.cda.resultNumber })

/-- The entry ends: the buffer is emptied, the timer stops and the acceptor goes to IDLE. -/
def endEntry (s : State) : State :=
  s.setCda { s.cda with acceptor := .idle, buffer := [], entryTimer := none }

/-! ## Sequence windows -/

/-- The window test (table of R92): none when the sequence passes. -/
def windowTest (w : SeqWindow) (seq : Nat) : Option CodeOutcome :=
  match w.top with
  | none => none
  | some t =>
    if t < seq then none
    else if seq = t ∨ seq ∈ w.seen then some .duplicate
    else if seq + 32 < t then some .stale
    else none

/-- A number joins a rising list without repeats. -/
def insertSorted (x : Nat) : List Nat → List Nat
  | [] => [x]
  | y :: ys => if x < y then x :: y :: ys else if x = y then y :: ys else y :: insertSorted x ys

/-- The window at the acceptance of a sequence (table of R93). -/
def windowAccept (w : SeqWindow) (seq : Nat) : SeqWindow :=
  match w.top with
  | none => ⟨some seq, []⟩
  | some t =>
    if t < seq then ⟨some seq, (insertSorted t w.seen).filter fun x => decide (seq ≤ x + 32)⟩
    else if seq < t then ⟨some t, insertSorted seq w.seen⟩
    else w

/-- The numbers from `top - n` up to `top - 1` that are 0 or above. -/
def numbersBelow (top : Nat) : Nat → List Nat
  | 0 => []
  | n + 1 => if n < top then (top - (n + 1)) :: numbersBelow top n else numbersBelow top n

/-- The slot-0 window that a REINSTATE code leaves (R100). -/
def windowReinstate (floor seq : Nat) : SeqWindow := ⟨some (max floor seq), numbersBelow (max floor seq) 32⟩

/-! ## Key slots -/

/-- The record of a group slot; slot 0 has none. -/
def GroupSlots.get (g : GroupSlots) : Slot → Option GroupSlot
  | .slot0 => none
  | .slot1 => some g.g1
  | .slot2 => some g.g2
  | .slot3 => some g.g3

/-- The group slots with the record of one replaced; slot 0 has no record here. -/
def GroupSlots.set (g : GroupSlots) (i : Slot) (x : GroupSlot) : GroupSlots :=
  match i with
  | .slot0 => g
  | .slot1 => { g with g1 := x }
  | .slot2 => { g with g2 := x }
  | .slot3 => { g with g3 := x }

/-- The key of an enabled slot (R76). -/
def slotKey (s : State) (i : Slot) : Option Key :=
  match s.cda.groups.get i with
  | none => s.ots.key0
  | some g => if g.enabled then g.key else none

/-- Whether a slot's class mask holds a class; slot 0 holds all sixteen (R76). -/
def maskHolds (s : State) (i : Slot) (cls : Nat) : Bool :=
  match s.cda.groups.get i with
  | none => true
  | some g => g.mask.getLsbD cls

/-- The sequence window of a slot (R76). -/
def slotWindow (s : State) (i : Slot) : SeqWindow :=
  match s.cda.groups.get i with
  | none => s.cda.window0
  | some g => g.window

/-- Replaces the sequence window of a slot. -/
def setWindow (i : Slot) (w : SeqWindow) (s : State) : State :=
  match s.cda.groups.get i with
  | none => s.setCda { s.cda with window0 := w }
  | some g => s.setCda { s.cda with groups := s.cda.groups.set i { g with window := w } }

/-- The enabled slots with their keys, in the order of trial (R86). -/
def enabledSlots (s : State) : List (Slot × Key) :=
  [Slot.slot3, .slot2, .slot1, .slot0].filterMap fun i => (slotKey s i).map fun k => (i, k)

/-- Whether a code matches under a key, with the value its slot yields (section 4.5). -/
def unscramble (k : Key) (v : Code) : Option Fields :=
  let w := (Config.scramble k).symm v
  if checkOf w = Config.digest k (coveredOf w) then some (fieldsOf w) else none

/-- The first slot that matches, with the fields it yields, and the number of slots tried (R86). -/
def trySlots (v : Code) : List (Slot × Key) → Option (Slot × Fields) × Nat
  | [] => (none, 0)
  | (i, k) :: rest =>
    match unscramble k v with
    | some f => (some (i, f), 1)
    | none => ((trySlots v rest).1, (trySlots v rest).2 + 1)

/-- The code that the entry buffer holds (R85). -/
def bufferCode (s : State) : Code := BitVec.ofNat 76 (natOfDigits s.cda.buffer)

/-! ## Checks after a match -/

/-- The argument rules of the classes (R96, R97). -/
def argumentOk (f : Fields) (s : State) : Bool :=
  match f.cls with
  | 0 => f.selector == 0 && decide (1 ≤ f.value)
  | 1 => f.selector == 0 && decide (1 ≤ f.value)
  | 2 => f.selector == 0 || f.selector == 1 || (f.selector == 2 && decide (1 ≤ f.value))
  | 3 => decide (f.selector ≤ 1)
  | 4 => (writePrice f.selector f.value s.tcu.passive).isSome
  | 5 => (writePoint f.selector f.value s.tcu.passive).isSome
  | 6 => f.selector == 0 && decide (f.value ≤ Config.maxDay)
  | 7 => (writeCalendar f.selector f.value s.tcu.cal).isSome
  | 8 => f.selector == 0 && decide (1 ≤ f.value) && decide (f.value ≤ 511)
  | 9 =>
    match kindOfNumber f.selector, actionOfNumber f.value with
    | some k, some a => actionAllowed k a
    | _, _ => false
  | 10 =>
    if f.selector = 2 then decide (1 ≤ f.value) && decide (f.value ≤ 365)
    else decide (f.selector ≤ 4) && f.value == 0
  | 11 => f.selector == 0
  | 12 => (groupSlotOfNumber f.selector).isSome && f.value == 0
  | 13 => f.selector == s.ots.lossCount && decide (f.value ≤ 65535)
  | _ => false

/-- The class condition (table of R95): none when it holds. -/
def classCondition (f : Fields) (s : State) : Option CodeOutcome :=
  match f.cls with
  | 0 => if s.acu.capAllows (f.value * Config.hundredth) then none else some .cap
  | 11 =>
    let t := (s.tcu.clock : Int) + signedValue f.value
    if 0 ≤ t ∧ t < (Config.clockTop : Int) then none else some .argument
  | 13 => if s.cda.reinstate then none else some .notRequired
  | _ => none

/-- The checks after a match in the order of the table of R91. -/
def verdict (i : Slot) (f : Fields) (s : State) : CodeOutcome :=
  if s.cda.reinstate && f.cls != 13 then .reinstateRequired
  else if f.cls == 14 || f.cls == 15 then .classRefused
  else if !maskHolds s i f.cls || ((f.cls == 12 || f.cls == 13) && i != .slot0) then .authority
  else
    match windowTest (slotWindow s i) f.seq with
    | some o => o
    | none =>
      if argumentOk f s then
        match classCondition f s with
        | some o => o
        | none => .accepted
      else .argument

/-! ## Effects of the classes -/

/-- CREDIT (R31): the claim and its detail. -/
def effectCredit (f : Fields) (s : State) : State × Option Detail :=
  let x := f.value * Config.hundredth
  let paid := s.acu.payment x
  (claim (Account.credit x) s, some (.credit (x - paid) paid))

/-- DEBT (R28). -/
def effectDebt (f : Fields) (s : State) : State := claim (Account.charge (f.value * Config.hundredth)) s

/-- ACCOUNT_SETTING (R34 to R39). -/
def effectSetting (f : Fields) (s : State) : State :=
  match f.selector with
  | 0 => claim (Account.setLimit f.value) s
  | 1 => claim (fun a => { a with threshold := f.value }) s
  | _ => claim (fun a => { a with cap := f.value }) s

/-- LOAD_LIMIT (R124). -/
def effectLoadLimit (f : Fields) (s : State) : State :=
  if f.selector = 0 then s.setSwc { s.swc with normalLimit := f.value }
  else s.setSwc { s.swc with reducedLimit := f.value }

/-- TARIFF_PRICE (R61). -/
def effectPrice (f : Fields) (s : State) : State :=
  match writePrice f.selector f.value s.tcu.passive with
  | some t => s.setTcu { s.tcu with passive := t }
  | none => s

/-- TARIFF_SCHEDULE (R62). -/
def effectSchedule (f : Fields) (s : State) : State :=
  match writePoint f.selector f.value s.tcu.passive with
  | some t => s.setTcu { s.tcu with passive := t }
  | none => s

/-- TARIFF_ACTIVATE (R63). -/
def effectActivate (f : Fields) (s : State) : State :=
  s.setTcu { s.tcu with actPending := true, actDay := f.value }

/-- CALENDAR (R65, R66); the friendly period is evaluated (R67). -/
def effectCalendar (f : Fields) (s : State) : State :=
  match writeCalendar f.selector f.value s.tcu.cal with
  | some c => evaluateFriendly (s.setTcu { s.tcu with cal := c })
  | none => s

/-- Whether a clear of a kind finds its condition ACTIVE (R155). For a clear that comes together with a
protected-write attempt, at the same time of the timebase, the attempt taken first counts as a rising condition
(R156, where R147 would have it INACTIVE; log 41). -/
def clearRefused (k : Kind) (s : State) : Bool :=
  (s.tmp.latches.get k).condition || k == .pw && s.tmp.pwAt == some s.now

/-- Clears one named kind (table of R155), or refuses it. -/
def clearKind (code : RecordCode) (k : Kind) (s : State) : State :=
  let l := s.tmp.latches.get k
  match l.set with
  | some x =>
    if clearRefused k s then s
    else
      let s := append .tamperCleared (some k) none (some code) s
      let s := releaseRecord k x.record s
      setLatch k { l with set := none, repeats := 0 } s
  | none => s

/-- The kinds that a TAMPER_CLEAR value names, in rising order (R154). -/
def namedKinds (value : Nat) : List Kind := kindList.filter fun k => value / 2 ^ kindNumber k % 2 == 1

/-- The named kinds that a clear would clear, or refuse (R155). -/
def clearable (refused : Bool) (value : Nat) (s : State) : List Kind :=
  (namedKinds value).filter fun k => (s.tmp.latches.get k).set.isSome && clearRefused k s == refused

/-- TAMPER_CLEAR (R155): each named kind in rising order, then the TAMPER cause once, the notice, the detail. -/
def effectClear (i : Slot) (f : Fields) (s : State) : State × Option Detail :=
  let cleared := clearable false f.value s
  let refused := clearable true f.value s
  let s := (namedKinds f.value).foldl (fun s k => clearKind ⟨i, f.seq⟩ k s) s
  let s := evaluateTamper s
  let s := if cleared = [] then s else notify .tamper s
  (s, some (.clear (setOfNumbers 9 (cleared.map kindNumber)) (setOfNumbers 9 (refused.map kindNumber))))

/-- TAMPER_ACTION (R157). -/
def effectAction (f : Fields) (s : State) : State :=
  match kindOfNumber f.selector, actionOfNumber f.value with
  | some k, some a => evaluateTamper (s.setTmp { s.tmp with actions := s.tmp.actions.set k a })
  | _, _ => s

/-- SUPPLY_ORDER release (R128). -/
def orderRelease (s : State) : State := changeEntry .order none s

/-- SUPPLY_ORDER hold open (R128); an entry present is kept. -/
def orderHoldOpen (s : State) : State :=
  if s.swc.table.order.isSome then s else changeEntry .order (some ⟨false, s.tcu.clock, none⟩) s

/-- SUPPLY_ORDER override of `n` days (R71, R129). -/
def orderOverride (n : Nat) (s : State) : State :=
  evaluateCredit (s.setTcu { s.tcu with untilDay := some (min Config.maxDay (s.tcu.lastDay + n - 1)) })

/-- SUPPLY_ORDER cancel override (R71, R129). -/
def orderCancel (s : State) : State := evaluateCredit (s.setTcu { s.tcu with untilDay := none })

/-- SUPPLY_ORDER retry (R130). -/
def orderRetry (s : State) : State :=
  if s.swc.switch = .fault then beginOperation (if s.swc.table.anyActive then .opened else .closed) s else s

/-- SUPPLY_ORDER (section 5.7). -/
def effectOrder (f : Fields) (s : State) : State :=
  match f.selector with
  | 0 => orderRelease s
  | 1 => orderHoldOpen s
  | 2 => orderOverride f.value s
  | 3 => orderCancel s
  | _ => orderRetry s

/-- TIME_SET (R56). -/
def effectTimeSet (f : Fields) (s : State) : State :=
  let t := ((s.tcu.clock : Int) + signedValue f.value).toNat
  if s.tcu.valid then if signedValue f.value = 0 then s else changeClock t s
  else validateClock t s

/-- KEY_SLOT_DISABLE (R98). -/
def effectDisable (f : Fields) (s : State) : State :=
  match groupSlotOfNumber f.selector with
  | none => s
  | some i =>
    match s.cda.groups.get i with
    | some g => s.setCda { s.cda with groups := s.cda.groups.set i { g with enabled := false } }
    | none => s

/-- REINSTATE (R100); the RL condition of a retired part does not fall (R148). -/
def effectReinstate (f : Fields) (s : State) : State :=
  let s := s.setCda { s.cda with window0 := windowReinstate f.value f.seq, reinstate := false }
  let s := append .reinstated none none (some ⟨.slot0, f.seq⟩) s
  if s.cda.retired then s else hand .rl false none s

/-- The effect of an accepted code and its detail (R94, R101). -/
def applyEffect (i : Slot) (f : Fields) (s : State) : State × Option Detail :=
  match f.cls with
  | 0 => effectCredit f s
  | 1 => (effectDebt f s, none)
  | 2 => (effectSetting f s, none)
  | 3 => (effectLoadLimit f s, none)
  | 4 => (effectPrice f s, none)
  | 5 => (effectSchedule f s, none)
  | 6 => (effectActivate f s, none)
  | 7 => (effectCalendar f s, none)
  | 8 => effectClear i f s
  | 9 => (effectAction f s, none)
  | 10 => (effectOrder f s, none)
  | 11 => (effectTimeSet f s, none)
  | 12 => (effectDisable f s, none)
  | 13 => (effectReinstate f s, none)
  | _ => (s, none)

/-- A code that passes every check is accepted (R94): the window, the streak, the effect, the result. -/
def acceptCode (i : Slot) (f : Fields) (s : State) : State :=
  let s := setWindow i (windowAccept (slotWindow s i) f.seq) s
  let s := s.setCda { s.cda with streak := 0 }
  let r := applyEffect i f s
  endEntry (writeResult .accepted (some ⟨f.cls, i, f.seq⟩) r.2 r.1)

/-! ## Failures and the lockout -/

/-- The length of a lockout (table of R88). -/
def lockoutLength (lockoutsToday : Nat) : Nat := if lockoutsToday < 4 then 600 * 2 ^ lockoutsToday else 9600

/-- A lockout begins (R88). -/
def beginLockout (s : State) : State :=
  let len := lockoutLength s.cda.lockoutsToday
  let s := s.setCda
    { s.cda with
      lockoutLeft := len
      lockoutsToday := min 255 (s.cda.lockoutsToday + 1)
      streak := 0
      buffer := []
      entryTimer := none
      acceptor := .lockout }
  let s := writeResult .checkFailed none (some (.failure Config.lockoutStreak len)) s
  hand .ca true none (append .lockoutStart none none none s)

/-- A decode that no slot matched (R87). -/
def checkFailed (s : State) : State :=
  let n := s.cda.streak + 1
  if n < Config.lockoutStreak then
    endEntry (writeResult .checkFailed none (some (.failure n 0)) (s.setCda { s.cda with streak := n }))
  else beginLockout s

/-- The end of a decode, with the slot that matched and its fields, or none (R86, R87, R91, R94). -/
def finishDecode (r : Option (Slot × Fields)) (s : State) : State :=
  match r with
  | none => checkFailed s
  | some (i, f) =>
    match verdict i f s with
    | .accepted => acceptCode i f s
    | o => endEntry (writeResult o (some ⟨f.cls, i, f.seq⟩) none s)

/-! ## Symbols -/

/-- A command read from three digits (R82). -/
def localCommandOf (ds : List (Fin 10)) : Option LocalCommand :=
  if ds = [1, 1, 0] then some .emergencyCredit
  else if ds = [1, 2, 0] then some .alarmAcknowledge
  else none

/-- The Account Unit takes a local command (R32, R33, R41). -/
def takeLocal (c : LocalCommand) (s : State) : State × LocalAnswer :=
  match c with
  | .emergencyCredit =>
    match s.acu.emergencyAnswer with
    | .granted => (claim Account.takeEmergency s, .granted)
    | a => (s, a)
  | .alarmAcknowledge => (claim (fun a => { a with alarm := false }) s, .granted)

/-- FORMAT (R81, R85). -/
def formatResult (s : State) : State := endEntry (writeResult .format none none s)

/-- ENTER on three digits (R82). -/
def enterLocal (s : State) : State :=
  match localCommandOf s.cda.buffer with
  | none => formatResult s
  | some c =>
    let r := takeLocal c s
    endEntry (writeResult .localCommand none (some (.localCommand c r.2)) r.1)

/-- ENTER on 24 digits (R85). -/
def enterCode (s : State) : State :=
  if natOfDigits s.cda.buffer < 2 ^ 76 then
    s.setCda { s.cda with acceptor := .decoding, entryTimer := none, decodeSince := s.now }
  else formatResult s

/-- ENTER taken in ENTRY or IDLE (R81). -/
def takeEnter (s : State) : State :=
  if s.cda.buffer.length = 24 then enterCode s
  else if s.cda.buffer.length = 3 then enterLocal s
  else formatResult s

/-- A digit that fits (R78): the newest entry, and the timer restarts. -/
def takeDigit (d : Fin 10) (s : State) : State :=
  s.setCda
    { s.cda with
      acceptor := .entry
      buffer := s.cda.buffer ++ [d]
      entryTimer := some Config.entryTime }

/-- BACK (R79). -/
def takeBack (s : State) : State :=
  if s.cda.acceptor = .entry then
    if s.cda.buffer.dropLast = [] then endEntry s
    else s.setCda { s.cda with buffer := s.cda.buffer.dropLast, entryTimer := some Config.entryTime }
  else s

/-- CANCEL (R79). -/
def takeCancel (s : State) : State := if s.cda.acceptor = .entry then endEntry s else s

/-- The first line of the table of R77 that holds. -/
def symbolRefusal (s : State) : Option SymbolRefusal :=
  if !s.ots.lock then some .notCommissioned
  else
    match s.cda.acceptor with
    | .retired => some .retired
    | .lockout => some .lockedOut
    | .decoding => some .busy
    | .idle | .entry => if s.sdm.power = .holdup then some .busy else none

/-- A symbol is refused, or taken with the state it leaves (R77 to R82). -/
def takeSymbol (x : Symbol) (s : State) : Option SymbolRefusal × State :=
  match symbolRefusal s with
  | some r => (some r, s)
  | none =>
    match x with
    | .digit d => if s.cda.buffer.length < 24 then (none, takeDigit d s) else (some .overlong, s)
    | .back => (none, takeBack s)
    | .cancel => (none, takeCancel s)
    | .enter => (none, takeEnter s)

/-! ## Power and start-up -/

/-- The acceptor's step at the entry into HOLDUP (R104). -/
def acceptorHoldup (s : State) : State :=
  match s.cda.acceptor with
  | .idle | .entry | .decoding => endEntry s
  | .lockout | .retired => s.setCda { s.cda with buffer := [], entryTimer := none }

/-- The acceptor's start-up step (R105). -/
def acceptorStartUp (s : State) : State :=
  let st : AcceptorState :=
    if s.cda.retired then .retired else if 0 < s.cda.lockoutLeft then .lockout else .idle
  let s := s.setCda { s.cda with acceptor := st }
  hand .ca (decide (0 < s.cda.lockoutLeft)) none s

/-! ## Commands -/

/-- The entry timer runs out (R80). -/
def entryTimeout (m : Moment) (s : State) : State :=
  let s := observe m 0 s
  if s.cda.entryTimer = some 0 then endEntry (writeResult .entryTimeout none none s) else s

/-- ENTRY_TIMEOUT (R80). -/
def execEntryTimeout (m : Moment) (s : State) : Host.Outcome State Fault Refusal := .next (entryTimeout m s)

/-- Whether the decode under way has tried the slots it must try (R86). -/
def decodeDone (s : State) : Bool :=
  s.cda.acceptor == .decoding &&
    decide (s.cda.decodeSince + Config.slotTime * (trySlots (bufferCode s) (enabledSlots s)).2 ≤ s.now)

/-- The decode under way ends (R86). -/
def decodeEnd (m : Moment) (s : State) : State :=
  let s := observe m 0 s
  if decodeDone s then finishDecode (trySlots (bufferCode s) (enabledSlots s)).1 s else s

/-- DECODE_END (R86). -/
def execDecodeEnd (m : Moment) (s : State) : Host.Outcome State Fault Refusal := .next (decodeEnd m s)

end Sys2Proof.Machine
end

