-- ==== Sys2Proof/Machine/Link.lean ====
section
/-! DEFINITION. The Message Link: replies, the checks on a completed frame, and the commands that are the
link's own (WRITE_ADDRESSED, WRITE_WITH_NO_REQUEST, READ_TRANSACTION, CLOCK_LOW_TIMEOUT, REPLY_HOLD_TIMEOUT). -/

namespace Sys2Proof.Machine

/-- An owner's answer: a status and a reply payload (R190). -/
structure Answer where
  status : Status
  payload : List Byte
  deriving DecidableEq, Repr

/-- An answer with no payload. DEDUCED (log 17). -/
def Answer.bare (st : Status) : Answer := ⟨st, []⟩

/-- An answer OK with a payload. -/
def Answer.ok (payload : List Byte) : Answer := ⟨.ok, payload⟩

/-- What an owner does with a request: an answer, or none while a burn runs, and the state it leaves. -/
abbrev Owner := List Byte → State → Option Answer × State

/-- A frame goes into the reply slot, with the rest of a long reply as the remainder (R190). -/
def placeFrame (frame remainder : List Byte) (s : State) : State :=
  s.setLnk
    { s.lnk with
      state := .replyReady
      request := []
      slot := frame
      remainder := remainder
      readPos := 0
      holdTimer := some Config.holdTime }

/-- The reply to a request is built and placed (R190): a long reply goes out in two frames. -/
def placeReply (kind : Nat) (a : Answer) (s : State) : State :=
  if a.payload.length ≤ Config.framePayload then
    placeFrame (replyFrame (kind + 0x80) a.status.code a.payload) [] s
  else
    placeFrame (replyFrame (kind + 0xC0) a.status.code (a.payload.take Config.framePayload))
      (a.payload.drop Config.framePayload) s

/-- A reply kept from before the write is discarded at the completion of a frame (R188). The read position is made 0
with it. DESIGN CHOICE (log 43). -/
def discardKept (s : State) : State :=
  if s.lnk.slot = [] then s
  else
    notify .replyDropped
      (s.setLnk { s.lnk with slot := [], remainder := [], readPos := 0, holdTimer := none })

/-- A write transaction ends with `stored` bytes in the request buffer; the kept reply is discarded (R188). -/
def completeWrite (stored : List Byte) (s : State) : State :=
  let s := discardKept s
  s.setLnk { s.lnk with request := stored, bytesAcked := stored.length, clockLow := none }

/-- The FRAME_ERROR reply (R188 check 1). -/
def frameErrorReply (s : State) : State := placeFrame (replyFrame 0xFF Status.frameError.code []) [] s

/-- The UNKNOWN_KIND reply (R188 check 2). -/
def unknownKindReply (s : State) : State := placeFrame (replyFrame 0x80 Status.unknownKind.code []) [] s

/-- The link enters WORKING with a good request handed to its owner (R188). The write has ended, and the rules give
its return state no value from here on: the model makes it IDLE, and leaves it as it stood where the link answers by
itself. DESIGN CHOICE (log 39). -/
def enterWorking (s : State) : State := s.setLnk { s.lnk with state := .working, returnReady := false }

/-- What comes about when a request with a payload is handed. -/
abbrev Handler := List Byte → State → State

/-- The owner takes the request and its answer is placed; with no answer yet the link stays in WORKING. -/
def serve (r : Request) (owner : Owner) : Handler := fun payload s =>
  match owner payload (enterWorking s) with
  | (some a, s') => placeReply r.kind a s'
  | (none, s') => s'

/-- Checks 3 and 4 of R188 on a frame whose length, CRC and kind are good, and the handing of a frame that
passes; in HOLDUP such a frame is answered BUSY (R197). A LOCKED refusal hands a PW attempt (R195). -/
def handRequest (r : Request) (handler : Handler) (payload : List Byte) (s : State) : State :=
  if r.commissioning && s.ots.lock then placeReply r.kind (.bare .locked) (pwAttempt s)
  else if r.takes payload.length then
    if s.sdm.power = .holdup then placeReply r.kind (.bare .busy) s
    else handler payload s
  else placeReply r.kind (.bare .argument) s

/-- A request whose frame has completed (R187, R188). Only a link that is RECEIVING takes it; a payload too
long for a frame makes the length byte out of range. -/
def request (r : Request) (handler : Handler) (payload : List Byte) (s : State) : State :=
  if s.lnk.state = .receiving then
    if payload.length + 3 ≤ Config.maxRequest then
      handRequest r handler payload (completeWrite (requestFrame r.kind payload) s)
    else frameErrorReply (completeWrite ((requestFrame r.kind payload).take 1) s)
  else s

/-! ## Commands of the link -/

/-- The link's address (R186). -/
def linkAddress (p : Levels) : BitVec 7 := if p.ads then 0x2D else 0x2C

/-- The state to which a write that gives no request returns (R187, R189). -/
def returnState (x : Lnk) : LinkState := if x.returnReady then .replyReady else .idle

/-- The link leaves RECEIVING with no request; a kept reply stays in the slot (R187, R189). -/
def leaveReceiving (s : State) : State :=
  s.setLnk { s.lnk with state := returnState s.lnk, request := [], clockLow := none }

/-- A START that finds a write under way is a repeated START: it ends the write as a STOP would (R187). The bytes of a
write come with the command that ends it, so this write carried none. DESIGN CHOICE (log 40). -/
def restart (s : State) : State := if s.lnk.state = .receiving then leaveReceiving s else s

/-- A write addressed to `addr` (R186): acknowledged in RUN with the link IDLE or REPLY_READY. -/
def writeAddressed (m : Moment) (addr : BitVec 7) (s : State) : State :=
  let s := restart (observe m 0 s)
  if addr = linkAddress s.pins then
    if s.sdm.power = .run ∧ (s.lnk.state = .idle ∨ s.lnk.state = .replyReady) then
      s.setLnk
        { s.lnk with
          state := .receiving
          returnReady := s.lnk.state == .replyReady
          request := []
          clockLow := if s.pins.scl then none else some Config.clockLowTime
          addressAcked := true
          bytesAcked := 0
          sent := [] }
    else s.setLnk { s.lnk with addressAcked := false, bytesAcked := 0, sent := [] }
  else s

/-- WRITE_ADDRESSED (R186). -/
def execWriteAddressed (m : Moment) (addr : BitVec 7) (s : State) : Host.Outcome State Fault Refusal :=
  .next (writeAddressed m addr s)

/-- WRITE_WITH_NO_REQUEST (R187, first line of the table). -/
def execWriteWithNoRequest (m : Moment) (s : State) : Host.Outcome State Fault Refusal :=
  let s := observe m 0 s
  if s.lnk.state = .receiving then .next (leaveReceiving s) else .next s

/-- The clock-low timer runs out (R189). A write whose SCL has been low for 30 ms returns the link to its return state.
Elsewhere it is a read of `duration` ms, SCL low for the last 30 of them, that is abandoned: the slot and the read
position stay, and in REPLY_READY the hold timer stood still while the read ran (R191); a read that has not run for
30 ms, or finds SCL high, has not come to a timeout, and only the time passes. -/
def clockLowTimeout (m : Moment) (duration : Nat) (s : State) : State :=
  let abandoned := working s.sdm.power && s.lnk.state == .replyReady && !m.pins.scl &&
    decide (Config.clockLowTime ≤ duration)
  let s := observe m (if abandoned then duration else 0) s
  if s.lnk.state = .receiving ∧ s.lnk.clockLow = some 0 then leaveReceiving s else s

/-- CLOCK_LOW_TIMEOUT (R189). -/
def execClockLowTimeout (m : Moment) (duration : Nat) (s : State) : Host.Outcome State Fault Refusal :=
  .next (clockLowTimeout m duration s)

/-- The second frame of a long reply, from the first frame's kind and status and the remainder (R191). -/
def secondFrame (x : Lnk) : List Byte :=
  replyFrame ((x.slot.getD 1 0).toNat - 0x40) (x.slot.getD 2 0).toNat x.remainder

/-- The bytes sent when the host clocks `count` bytes against a frame: past its end SDA is released (R191). -/
def bytesSent (frame : List Byte) (count : Nat) : List Byte :=
  frame.take count ++ List.replicate (count - frame.length) 0xFF

/-- A read of the reply slot in REPLY_READY (R191). The last frame takes the read position to 0 as it leaves the slot.
DESIGN CHOICE (log 43). -/
def readReply (count : Nat) (s : State) : State :=
  let x := { s.lnk with addressAcked := true, sent := bytesSent s.lnk.slot count }
  if count < x.slot.length then s.setLnk { x with readPos := count }
  else if x.remainder = [] then
    s.setLnk { x with state := .idle, slot := [], readPos := 0, holdTimer := none }
  else
    s.setLnk
      { x with
        slot := secondFrame x
        remainder := []
        readPos := 0
        holdTimer := some Config.holdTime }

/-- How long the reply-hold timer stands still in a read of `duration` ms: in a read of the reply alone (R191); a
read that is not acknowledged, or goes to another address, leaves the timer running (R186). A read that ends a write
finds the link as that write leaves it (R187). -/
def holdPause (m : Moment) (addr : BitVec 7) (duration : Nat) (s : State) : Nat :=
  if addr = linkAddress m.pins ∧ s.sdm.power = .run ∧ (restart s).lnk.state = .replyReady then duration else 0

/-- A read addressed to `addr` (R186, R191): `count` bytes clocked in `duration` ms. -/
def readTransaction (m : Moment) (addr : BitVec 7) (count duration : Nat) (s : State) : State :=
  let s := restart (observe m (holdPause m addr duration s) s)
  if addr = linkAddress s.pins then
    if s.sdm.power = .run then
      match s.lnk.state with
      | .working => s.setLnk { s.lnk with addressAcked := true, sent := bytesSent pendingFrame count }
      | .replyReady => readReply count s
      | .idle | .receiving => s.setLnk { s.lnk with addressAcked := true, sent := bytesSent noneFrame count }
    else s.setLnk { s.lnk with addressAcked := false, sent := [] }
  else s

/-- READ_TRANSACTION (R186, R191). -/
def execReadTransaction (m : Moment) (addr : BitVec 7) (count duration : Nat) (s : State) :
    Host.Outcome State Fault Refusal :=
  .next (readTransaction m addr count duration s)

/-- REPLY_HOLD_TIMEOUT (R192). The read position is made 0 as the slot is emptied. DESIGN CHOICE (log 43). -/
def execReplyHoldTimeout (m : Moment) (s : State) : Host.Outcome State Fault Refusal :=
  let s := observe m 0 s
  if s.lnk.holdTimer = some 0 then
    .next (notify .replyDropped
      (s.setLnk
        { s.lnk with
          state := if s.lnk.state = .replyReady then .idle else s.lnk.state
          returnReady := false
          slot := []
          remainder := []
          readPos := 0
          holdTimer := none }))
  else .next s

end Sys2Proof.Machine
end

