-- ==== Sys2Proof/Machine/Replies.lean ====
section
/-! DEFINITION. The reply payloads of the reading requests (R16, R45, R73, R74, R103, R136, R163, R173, R174,
R193), the values of the snapshot groups (R182), and their bytes (R198, section 9.7.2). -/

namespace Sys2Proof.Machine

/-! ## Small forms -/

/-- A boolean for each phase, in phase order. -/
def phaseFlags (x : Phases Bool) : List Byte := byteOfBool x.p1 ++ byteOfBool x.p2 ++ byteOfBool x.p3

/-- A value of `n` bytes for each phase, in phase order. -/
def phaseNats (n : Nat) (x : Phases Nat) : List Byte :=
  bytesOfNat n x.p1 ++ bytesOfNat n x.p2 ++ bytesOfNat n x.p3

/-- An optional phase. -/
def optionalPhase (p : Option Phase) : List Byte := optionalBytes 1 (p.map fun n => bytesOfNat 1 n.number)

/-- An optional kind. -/
def optionalKind (k : Option Kind) : List Byte := optionalBytes 1 (k.map fun k => bytesOfNat 1 (kindNumber k))

/-- A set of tamper kinds in 2 bytes. -/
def kindSetBytes (k : KindSet) : List Byte := bytesOfNat 2 k.toNat

/-- A set of notice kinds in 2 bytes. -/
def noticeSetBytes (n : NoticeSet) : List Byte := bytesOfNat 2 n.toNat

/-- A set of groups in 1 byte. -/
def groupSetBytes (g : GroupSet) : List Byte := bytesOfNat 1 g.toNat

/-- An optional day number. -/
def optionalDay (d : Option Nat) : List Byte := optionalBytes 2 (d.map (bytesOfNat 2))

/-! ## Values of the blocks -/

/-- The values of IDENTIFY (R193). -/
def identifyBytes (s : State) : List Byte :=
  optionalBytes 12 (s.ots.identity.map fun ds => ds.map fun d => BitVec.ofNat 8 d.val) ++
    byteOfBool s.ots.key0.isSome ++ byteOfBool s.ots.lock ++ bytesOfNat 1 s.ots.lossCount ++
    bytesOfNat 1 Config.revision ++ byteOfBool s.pins.ads

/-- The values of the STATUS group (R182). -/
def statusValues (s : State) : StatusValues :=
  { account := s.acu.state, switch := s.swc.switch
    causes := causeList.map fun c => causeState (s.swc.table.get c)
    latches := setKinds s.tmp, acceptor := s.cda.acceptor, power := s.sdm.power }

/-- The values of the ENERGY group (R17, R182). -/
def energyValues (s : State) : EnergyValues :=
  ⟨s.piu.imports, s.piu.exports, billedTotal s.piu, currentBand s.tcu⟩

/-- The STATUS values as bytes, in the order of R182. -/
def statusGroupBytes (v : StatusValues) : List Byte :=
  enumByte v.account.code ++ enumByte v.switch.code ++ v.causes.flatMap (fun c => enumByte c.code) ++
    kindSetBytes v.latches ++ enumByte v.acceptor.code ++ enumByte v.power.code

/-- The values of STATUS (R193). -/
def statusBytes (s : State) : List Byte :=
  statusGroupBytes (statusValues s) ++ byteOfBool s.tcu.valid ++ byteOfBool s.ots.lock ++
    byteOfBool s.cda.reinstate ++ byteOfBool s.cda.retired ++ noticeSetBytes s.rpu.notices

/-- The values of READ_ACCOUNT (R45). -/
def accountBytes (a : Account) : List Byte :=
  bytesOfInt 8 a.balance ++ bytesOfNat 8 a.arrears ++ bytesOfInt 8 a.floor ++ byteOfBool a.taken ++
    enumByte a.state.code ++ amount a.limit ++ amount a.threshold ++ amount a.cap ++
    bytesOfNat 8 a.opening ++ bytesOfNat 8 a.credited ++ bytesOfNat 8 a.debited ++ byteOfBool a.alarm

/-- The values of READ_ENERGY (R16). -/
def energyBytes (s : State) : List Byte :=
  phaseNats 6 s.piu.imports ++ phaseNats 6 s.piu.exports ++ bytesOfNat 8 (billedTotal s.piu) ++
    bytesOfNat 1 s.piu.residue ++ bytesOfNat 1 (currentBand s.tcu).val ++
    bytesOfNat 1 (weightDwh s.piu.weight) ++ byteOfBool s.piu.absolute ++ bytesOfNat 2 s.piu.stallTime ++
    phaseFlags s.piu.reverseFlag ++ phaseFlags s.piu.stallFlag ++
    optionalBytes 8 (s.piu.lastDemand.map fun d => bytesOfNat 4 d.watts ++ bytesOfNat 4 d.time)

/-- The ENERGY values as bytes, in the order of R182. -/
def energyGroupBytes (v : EnergyValues) : List Byte :=
  phaseNats 6 v.imports ++ phaseNats 6 v.exports ++ bytesOfNat 8 v.billed ++ bytesOfNat 1 v.band.val

/-- One schedule point (R74). -/
def pointBytes (p : Point) : List Byte := bytesOfNat 2 p.minute ++ bytesOfNat 1 p.band.val ++ byteOfBool p.enabled

/-- The prices and the standing charge of a tariff (R74). -/
def priceBytes (t : Tariff) : List Byte := t.prices.toList.flatMap amount ++ amount t.standing

/-- The values of READ_TARIFF: part 0, 1 or 2 of the active or the passive tariff (R74). -/
def tariffBytes (passive : Bool) (part : Nat) (x : Tcu) : List Byte :=
  let t := if passive then x.passive else x.active
  match part with
  | 0 => priceBytes t ++ if passive then byteOfBool x.actPending ++ bytesOfNat 2 x.actDay else []
  | 1 => t.work.toList.flatMap pointBytes
  | _ => t.rest.toList.flatMap pointBytes

/-- One friendly window (section 9.7.2). -/
def windowBytes (w : Window) : List Byte := bytesOfNat 2 w.start ++ bytesOfNat 2 w.stop ++ byteOfBool w.enabled

/-- The values of READ_CALENDAR (R74). -/
def calendarBytes (x : Tcu) : List Byte :=
  x.cal.holidays.toList.flatMap (fun d => bytesOfNat 2 (d.getD 0)) ++ bytesOfNat 1 x.cal.restDays.toNat ++
    x.cal.windows.toList.flatMap windowBytes ++ byteOfBool x.cal.restFriendly ++ optionalDay x.untilDay

/-- The operation (section 9.7.2). -/
def operationBytes (o : Option Operation) : List Byte :=
  optionalBytes 5 (o.map fun o =>
    enumByte o.target.code ++ bytesOfNat 1 o.attempt ++ enumByte o.phase.code ++
      optionalBytes 1 (o.releasedBy.map fun c => enumByte c.code))

/-- The last verification (section 9.7.2). -/
def verificationBytes (v : Option Verification) : List Byte :=
  optionalBytes 3 (v.map fun v => enumByte v.found.code ++ optionalPhase v.phase)

/-- The penalty of a LOAD_LIMIT entry in seconds, 0xFFFF for UNTIL_BOUNDARY (R198). -/
def penaltyNumber : Option Penalty → Nat
  | some (.seconds n) => n
  | some .untilBoundary => 0xFFFF
  | none => 0

/-- One cause: its state, its since time and, for LOAD_LIMIT, its penalty (section 9.7.2). -/
def causeBytes (c : Cause) (e : Option Entry) : List Byte :=
  enumByte (causeState e).code ++ bytesOfNat 4 ((e.map (·.since)).getD 0) ++
    if c = .loadLimit then bytesOfNat 2 (penaltyNumber (e.bind (·.penalty))) else []

/-- The values of READ_SWITCH (R136). -/
def switchBytes (s : State) : List Byte :=
  enumByte s.swc.switch.code ++ enumByte s.swc.intended.code ++ operationBytes s.swc.op ++
    verificationBytes s.swc.lastVerification ++ causeList.flatMap (fun c => causeBytes c (s.swc.table.get c)) ++
    enumByte s.swc.held.code ++ optionalDay s.tcu.untilDay ++ byteOfBool s.swc.auto ++
    amount s.swc.normalLimit ++ amount s.swc.reducedLimit ++ amount (effectiveLimit s.swc) ++
    bytesOfNat 1 s.swc.overCount ++ bytesOfNat 1 s.swc.tripsToday ++ byteOfBool s.pins.aux ++
    phaseFlags s.pins.v ++ phaseFlags s.pins.l

/-- The values of READ_TAMPER with the argument of one kind (R163). -/
def latchBytes (k : Kind) (x : Tmp) : List Byte :=
  let l := x.latches.get k
  bytesOfNat 1 (kindNumber k) ++ enumByte (x.actions.get k).code ++ byteOfBool l.condition ++
    byteOfBool l.set.isSome ++ optionalBytes 4 (l.set.map fun x => bytesOfNat 4 x.time) ++
    optionalPhase (l.set.bind (·.phase)) ++ bytesOfNat 1 l.repeats ++
    optionalBytes 4 (l.set.map fun x => bytesOfNat 4 x.record)

/-- The values of READ_TAMPER with argument 9 (R163). -/
def tamperSummaryBytes (s : State) : List Byte :=
  kindList.flatMap (fun k =>
      enumByte (s.tmp.actions.get k).code ++ byteOfBool (s.tmp.latches.get k).condition ++
        byteOfBool (s.tmp.latches.get k).set.isSome ++ bytesOfNat 1 (s.tmp.latches.get k).repeats) ++
    byteOfBool (tamperRequired s.tmp) ++ byteOfBool s.pins.cvs ++ byteOfBool s.pins.tcs ++
    byteOfBool s.pins.mag

/-! ## The Evidence Log -/

/-- The flags of a heading (section 9.7.5). -/
def headingFlags (r : LogRecord) : Nat := (if r.timeValid then 1 else 0) + (if r.guarded then 2 else 0)

/-- The heading of a record (section 9.7.5). -/
def headingBytes (r : LogRecord) : List Byte :=
  bytesOfNat 4 r.seq ++ enumByte r.type.code ++ bytesOfNat 4 r.time ++ bytesOfNat 1 (headingFlags r) ++
    optionalKind r.kind ++ optionalPhase r.phase

/-- A record with every field (section 9.7.5). -/
def recordBytes (r : LogRecord) : List Byte :=
  bytesOfNat 4 r.seq ++ enumByte r.type.code ++ bytesOfNat 4 r.time ++ byteOfBool r.timeValid ++
    optionalKind r.kind ++ optionalPhase r.phase ++
    optionalBytes 3 (r.code.map fun c => bytesOfNat 1 (slotNumber c.slot) ++ bytesOfNat 2 c.seq) ++
    bytesOfInt 8 r.balance ++ bytesOfNat 8 r.billedWh ++ byteOfBool r.guarded

/-- The number held, the oldest held and the next sequence (R173). -/
def logCounts (x : Elg) : List Byte :=
  bytesOfNat 1 x.records.length ++ optionalBytes 4 (x.records.head?.map fun r => bytesOfNat 4 r.seq) ++
    bytesOfNat 4 x.nextSeq

/-- The records held from a sequence on, oldest first (R173). -/
def recordsFrom (seq : Nat) (x : Elg) : List LogRecord := x.records.filter fun r => decide (seq ≤ r.seq)

/-- The values of READ_LOG with part 0 (R173). -/
def logHeadings (seq : Nat) (x : Elg) : List Byte :=
  let rs := (recordsFrom seq x).take 3
  bytesOfNat 1 rs.length ++ rs.flatMap headingBytes ++ logCounts x

/-- The values of READ_LOG with part 1 (R174). -/
def logRecord (seq : Nat) (x : Elg) : List Byte :=
  optionalBytes 35 ((recordsFrom seq x).head?.map recordBytes) ++ logCounts x

/-! ## The Code Acceptor -/

/-- The detail of a code result, its 16 bytes before padding (section 9.7.2). -/
def detailBytes : Detail → List Byte
  | .credit b a => bytesOfNat 8 b ++ bytesOfNat 8 a
  | .clear c r => kindSetBytes c ++ kindSetBytes r
  | .localCommand c a => bytesOfNat 2 c.number ++ enumByte a.code
  | .failure n l => bytesOfNat 1 n ++ bytesOfNat 2 l

/-- Bytes padded with 0 to `n` (section 9.7.2). -/
def padTo (n : Nat) (bs : List Byte) : List Byte := bs ++ List.replicate (n - bs.length) 0

/-- The fields of the last code result record (R101, R103). -/
def resultBytes (r : CodeResult) : List Byte :=
  enumByte r.outcome.code ++ optionalBytes 1 (r.code.map fun c => bytesOfNat 1 c.cls) ++
    optionalBytes 1 (r.code.map fun c => bytesOfNat 1 (slotNumber c.slot)) ++
    optionalBytes 2 (r.code.map fun c => bytesOfNat 2 c.seq) ++ bytesOfNat 4 r.time ++
    optionalBytes 16 (r.detail.map fun d => padTo 16 (detailBytes d))

/-- The values of READ_CODE_RESULT with part 0 (R103). -/
def codeResultBytes (x : Cda) : List Byte :=
  bytesOfNat 1 x.resultNumber ++
    match x.lastResult with
    | some r => resultBytes r
    | none => []

/-- One key slot as READ_CODE_RESULT part 1 gives it (R103): enabled, group id, class mask, window top. -/
def slotBytes (enabled : Bool) (groupId : Nat) (mask : BitVec 16) (w : SeqWindow) : List Byte :=
  byteOfBool enabled ++ bytesOfNat 1 groupId ++ bytesOfNat 2 mask.toNat ++
    optionalBytes 2 (w.top.map (bytesOfNat 2))

/-- A group slot as READ_CODE_RESULT part 1 gives it. -/
def groupSlotBytes (g : GroupSlot) : List Byte := slotBytes g.enabled g.groupId g.mask g.window

/-- The values of READ_CODE_RESULT with part 1 (R103). -/
def acceptorBytes (s : State) : List Byte :=
  enumByte s.cda.acceptor.code ++ bytesOfNat 1 s.cda.buffer.length ++ bytesOfNat 1 s.cda.streak ++
    bytesOfNat 1 s.cda.lockoutsToday ++ bytesOfNat 2 s.cda.lockoutLeft ++ byteOfBool s.cda.reinstate ++
    byteOfBool s.cda.retired ++ slotBytes s.ots.key0.isSome 0 0xFFFF s.cda.window0 ++
    groupSlotBytes s.cda.groups.g1 ++ groupSlotBytes s.cda.groups.g2 ++ groupSlotBytes s.cda.groups.g3

/-- The values of KEYS (R83), as they stand at the answer (log 20). -/
def keysBytes (taken : Nat) (r : Option SymbolRefusal) (s : State) : List Byte :=
  bytesOfNat 1 taken ++ enumByte (refusalCode r) ++ enumByte s.cda.acceptor.code ++
    bytesOfNat 1 s.cda.buffer.length ++ bytesOfNat 2 s.cda.lockoutLeft

/-! ## The clock -/

/-- The values of TIME_READ (R73). -/
def timeBytes (x : Tcu) : List Byte :=
  bytesOfNat 4 x.clock ++ byteOfBool x.valid ++ bytesOfNat 2 (dayOf x.clock) ++
    bytesOfNat 1 (weekdayOf (dayOf x.clock)) ++ bytesOfNat 2 (minuteOf x.clock) ++
    byteOfBool (restDay x.cal (dayOf x.clock)) ++ bytesOfNat 1 (currentBand x).val ++
    byteOfBool (friendlyNow x) ++ bytesOfNat 2 x.lastDay ++ bytesOfInt 1 x.trimUsed

/-! ## Snapshots -/

/-- The groups that are latched (R181). -/
def latchedGroups (x : Rpu) : GroupSet :=
  (if x.status.isSome then 1 else 0) ||| (if x.account.isSome then 2 else 0) |||
    (if x.energy.isSome then 4 else 0)

/-- A SNAPSHOT_READ reply (section 9.7.2). -/
def snapshotBytes (g : Group) (time : Nat) (valid : Bool) (still : GroupSet) (values : List Byte) : List Byte :=
  enumByte g.code ++ bytesOfNat 4 time ++ byteOfBool valid ++ groupSetBytes still ++ values

end Sys2Proof.Machine
end

