-- ==== Sys2Proof/Machine/Reads.lean ====
section
/-! DEFINITION. The requests that read the part, and the Report Unit's requests on the notice set, the attention
mask and the snapshot groups (chapters 8 and 9). Each owner answers a payload whose length check 4 of R188 has
passed. -/

namespace Sys2Proof.Machine

/-- An owner that gives values as they stand and changes nothing. -/
def reader (f : State → List Byte) : Owner := fun _ s => (some (.ok (f s)), s)

/-- The owner's answer ARGUMENT, with nothing changed. -/
def refuseArgument (s : State) : Option Answer × State := (some (.bare .argument), s)

/-- The first byte of a payload, as a number. -/
def argumentOf (p : List Byte) : Nat := (p.headD 0).toNat

/-! ## Owners -/

def identifyOwner : Owner := reader identifyBytes
def statusOwner : Owner := reader statusBytes
def readAccountOwner : Owner := reader fun s => accountBytes s.acu
def readEnergyOwner : Owner := reader energyBytes
def readCalendarOwner : Owner := reader fun s => calendarBytes s.tcu
def readSwitchOwner : Owner := reader switchBytes
def timeReadOwner : Owner := reader fun s => timeBytes s.tcu

/-- READ_TARIFF (R74). -/
def readTariffOwner : Owner := fun p s =>
  let tariff := argumentOf p
  let part := argumentOf p.tail
  if tariff ≤ 1 ∧ part ≤ 2 then (some (.ok (tariffBytes (tariff == 1) part s.tcu)), s) else refuseArgument s

/-- READ_TAMPER (R163). -/
def readTamperOwner : Owner := fun p s =>
  match kindOfNumber (argumentOf p) with
  | some k => (some (.ok (latchBytes k s.tmp)), s)
  | none => if argumentOf p = 9 then (some (.ok (tamperSummaryBytes s)), s) else refuseArgument s

/-- READ_LOG (R173, R174). -/
def readLogOwner : Owner := fun p s =>
  let seq := natOfBytes (p.take 4)
  match argumentOf (p.drop 4) with
  | 0 => (some (.ok (logHeadings seq s.elg)), s)
  | 1 => (some (.ok (logRecord seq s.elg)), s)
  | _ => refuseArgument s

/-- READ_CODE_RESULT (R103). -/
def readCodeResultOwner : Owner := fun p s =>
  match argumentOf p with
  | 0 => (some (.ok (codeResultBytes s.cda)), s)
  | 1 => (some (.ok (acceptorBytes s)), s)
  | _ => refuseArgument s

/-- READ_NOTICES (R178): the set is emptied in the same event. -/
def readNoticesOwner : Owner := fun _ s =>
  (some (.ok (noticeSetBytes s.rpu.notices ++ noticeSetBytes s.rpu.mask)), s.setRpu { s.rpu with notices := 0 })

/-- SET_ATTENTION_MASK (R179). -/
def setMaskOwner : Owner := fun p s =>
  let v := natOfBytes p
  if v ≤ 1023 then
    let mask : NoticeSet := BitVec.ofNat 10 v
    (some (.ok (noticeSetBytes mask ++ noticeSetBytes s.rpu.notices)), s.setRpu { s.rpu with mask := mask })
  else refuseArgument s

/-- The Report Unit after a latch of the groups named (R181, R182). -/
def latchGroups (g : GroupSet) (s : State) : Rpu :=
  { s.rpu with
    status :=
      if g.getLsbD 0 && s.rpu.status.isNone then some ⟨s.tcu.clock, s.tcu.valid, statusValues s⟩
      else s.rpu.status
    account :=
      if g.getLsbD 1 && s.rpu.account.isNone then some ⟨s.tcu.clock, s.tcu.valid, s.acu⟩
      else s.rpu.account
    energy :=
      if g.getLsbD 2 && s.rpu.energy.isNone then some ⟨s.tcu.clock, s.tcu.valid, energyValues s⟩
      else s.rpu.energy }

/-- SNAPSHOT_LATCH (R181). -/
def snapshotLatchOwner : Owner := fun p s =>
  let v := argumentOf p
  if 1 ≤ v ∧ v ≤ 7 then
    let g : GroupSet := BitVec.ofNat 3 v
    let already := g &&& latchedGroups s.rpu
    (some (.ok (groupSetBytes (g &&& ~~~already) ++ groupSetBytes already)), s.setRpu (latchGroups g s))
  else refuseArgument s

/-- SNAPSHOT_READ (R183): the first latched group, which is emptied; the live STATUS when none is latched. -/
def snapshotReadOwner : Owner := fun _ s =>
  match s.rpu.status, s.rpu.account, s.rpu.energy with
  | some x, _, _ =>
    let r := { s.rpu with status := none }
    (some (.ok (snapshotBytes .status x.time x.valid (latchedGroups r) (statusGroupBytes x.values))), s.setRpu r)
  | none, some x, _ =>
    let r := { s.rpu with account := none }
    (some (.ok (snapshotBytes .account x.time x.valid (latchedGroups r) (accountBytes x.values))), s.setRpu r)
  | none, none, some x =>
    let r := { s.rpu with energy := none }
    (some (.ok (snapshotBytes .energy x.time x.valid (latchedGroups r) (energyGroupBytes x.values))), s.setRpu r)
  | none, none, none =>
    (some (.ok (snapshotBytes .live s.tcu.clock s.tcu.valid 0 (statusGroupBytes (statusValues s)))), s)

/-! ## Commands -/

/-- A request row: time passes, then the frame that carries the payload is complete (R187). -/
def requestRow (r : Request) (owner : Owner) (m : Moment) (payload : List Byte) (s : State) :
    Host.Outcome State Fault Refusal :=
  .next (request r (serve r owner) payload (observe m 0 s))

/-- IDENTIFY (R193). -/
def execIdentify (m : Moment) (p : List Byte) (s : State) : Host.Outcome State Fault Refusal :=
  requestRow .identify identifyOwner m p s

/-- STATUS (R193). -/
def execStatus (m : Moment) (p : List Byte) (s : State) : Host.Outcome State Fault Refusal :=
  requestRow .status statusOwner m p s

/-- READ_ACCOUNT (R45). -/
def execReadAccount (m : Moment) (p : List Byte) (s : State) : Host.Outcome State Fault Refusal :=
  requestRow .readAccount readAccountOwner m p s

/-- READ_ENERGY (R16). -/
def execReadEnergy (m : Moment) (p : List Byte) (s : State) : Host.Outcome State Fault Refusal :=
  requestRow .readEnergy readEnergyOwner m p s

/-- READ_TARIFF (R74). -/
def execReadTariff (m : Moment) (p : List Byte) (s : State) : Host.Outcome State Fault Refusal :=
  requestRow .readTariff readTariffOwner m p s

/-- READ_CALENDAR (R74). -/
def execReadCalendar (m : Moment) (p : List Byte) (s : State) : Host.Outcome State Fault Refusal :=
  requestRow .readCalendar readCalendarOwner m p s

/-- READ_SWITCH (R136). -/
def execReadSwitch (m : Moment) (p : List Byte) (s : State) : Host.Outcome State Fault Refusal :=
  requestRow .readSwitch readSwitchOwner m p s

/-- READ_TAMPER (R163). -/
def execReadTamper (m : Moment) (p : List Byte) (s : State) : Host.Outcome State Fault Refusal :=
  requestRow .readTamper readTamperOwner m p s

/-- READ_LOG (R173, R174). -/
def execReadLog (m : Moment) (p : List Byte) (s : State) : Host.Outcome State Fault Refusal :=
  requestRow .readLog readLogOwner m p s

/-- READ_CODE_RESULT (R103). -/
def execReadCodeResult (m : Moment) (p : List Byte) (s : State) : Host.Outcome State Fault Refusal :=
  requestRow .readCodeResult readCodeResultOwner m p s

/-- READ_NOTICES (R178). -/
def execReadNotices (m : Moment) (p : List Byte) (s : State) : Host.Outcome State Fault Refusal :=
  requestRow .readNotices readNoticesOwner m p s

/-- SET_ATTENTION_MASK (R179). -/
def execSetAttentionMask (m : Moment) (p : List Byte) (s : State) : Host.Outcome State Fault Refusal :=
  requestRow .setAttentionMask setMaskOwner m p s

/-- SNAPSHOT_LATCH (R181, R182). -/
def execSnapshotLatch (m : Moment) (p : List Byte) (s : State) : Host.Outcome State Fault Refusal :=
  requestRow .snapshotLatch snapshotLatchOwner m p s

/-- SNAPSHOT_READ (R183). -/
def execSnapshotRead (m : Moment) (p : List Byte) (s : State) : Host.Outcome State Fault Refusal :=
  requestRow .snapshotRead snapshotReadOwner m p s

/-- TIME_READ (R73). -/
def execTimeRead (m : Moment) (p : List Byte) (s : State) : Host.Outcome State Fault Refusal :=
  requestRow .timeRead timeReadOwner m p s

end Sys2Proof.Machine
end

