-- ==== Sys2Proof/Machine/Time.lean ====
section
/-! DEFINITION. The requests that set the clock: TIME_TRIM (R54) and SET_CLOCK (R55). -/

namespace Sys2Proof.Machine

/-- The reply values of TIME_TRIM: the clock and the trim used today (R54). -/
def trimBytes (x : Tcu) : List Byte := bytesOfNat 4 x.clock ++ bytesOfInt 1 x.trimUsed

/-- A trim that is taken: the clock and the trim used today change, then R57. -/
def applyTrim (trim : Int) (s : State) : State :=
  changeClock ((s.tcu.clock : Int) + trim).toNat
    (s.setTcu { s.tcu with trimUsed := s.tcu.trimUsed + trim })

/-- TIME_TRIM, by the first line of the table of R54 that applies. -/
def timeTrimOwner : Owner := fun p s =>
  let trim := intOfBytes p
  let used := s.tcu.trimUsed + trim
  let clock := (s.tcu.clock : Int) + trim
  if trim < -60 ∨ 60 < trim then refuseArgument s
  else if s.tcu.valid = false then (some (.bare .notReady), s)
  else if used < -60 ∨ 60 < used then (some (.bare .budget), s)
  else if clock < 0 ∨ (Config.clockTop : Int) ≤ clock then refuseArgument s
  else if trim = 0 then (some (.ok (trimBytes s.tcu)), s)
  else
    let s' := applyTrim trim s
    (some (.ok (trimBytes s'.tcu)), s')

/-- The clock as SET_CLOCK writes it (R55). -/
def writeClock (clock : Nat) (s : State) : State :=
  if s.tcu.valid then if s.tcu.clock = clock then s else changeClock clock s
  else validateClock clock s

/-- SET_CLOCK (R55): taken while the clock is invalid or the lock is not burned. -/
def setClockOwner : Owner := fun p s =>
  if s.tcu.valid && s.ots.lock then (some (.bare .locked), s)
  else
    let clock := natOfBytes p
    (some (.ok (bytesOfNat 4 clock)), writeClock clock s)

/-- TIME_TRIM (R54). -/
def execTimeTrim (m : Moment) (p : List Byte) (s : State) : Host.Outcome State Fault Refusal :=
  requestRow .timeTrim timeTrimOwner m p s

/-- SET_CLOCK (R55). -/
def execSetClock (m : Moment) (p : List Byte) (s : State) : Host.Outcome State Fault Refusal :=
  requestRow .setClock setClockOwner m p s

end Sys2Proof.Machine
end

