-- ==== Sys2Proof/Machine/Commission.lean ====
section
/-! DEFINITION. Commissioning (section 9.6): the items of COMMISSION_WRITE, COMMISSION_LOCK, the One-Time Store and
the ends of its burns OTS_BURN_END and COMMISSION_LOCK_BURN_END. -/

namespace Sys2Proof.Machine

/-! ## The One-Time Store -/

/-- The One-Time Store at the end of its burn: the field is written (R194, R196, R205). -/
def Ots.burned (x : Ots) : Ots :=
  match x.burn with
  | none => x
  | some b =>
    match b.field with
    | .identity ds => { x with identity := some ds, burn := none }
    | .slot0Key k => { x with key0 := some k, burn := none }
    | .lockMark => { x with lock := true, burn := none }
    | .lossMark => { x with lossCount := x.lossCount + 1, burn := none }

/-- The event at the end of a lock burn (R196): the log restarts (R172), the lock step (R159), COMMISSION goes
(R112). -/
def lockEvent (s : State) : State :=
  let s := s.setOts s.ots.burned
  let s := s.setElg .restart
  let s := tamperLockStep s
  if s.swc.table.commission.isSome then changeEntry .commission none s else s

/-- The event at the end of a loss burn (R205): the marker, reinstate required, and a rising RL condition. -/
def lossEvent (s : State) : State :=
  let s := s.setOts s.ots.burned
  let s := s.setSdm { s.sdm with marker := true }
  let s := s.setCda { s.cda with reinstate := true }
  hand .rl true none s

/-- A burn that a MAIN reset left without a reply is completed before another begins (R202; log 21). -/
def settleBurn (s : State) : State :=
  match s.ots.burn with
  | none => s
  | some b =>
    match b.field with
    | .identity _ | .slot0Key _ => s.setOts s.ots.burned
    | .lockMark => lockEvent s
    | .lossMark => lossEvent s

/-- A burn begins (R194, R196, R205). -/
def beginBurn (field : BurnField) (s : State) : State :=
  s.setOts { s.ots with burn := some ⟨field, s.now + Config.burnTime⟩ }

/-- The link, if it waits in WORKING for a burn, answers OK (R194, R196). -/
def answerBurn (r : Request) (s : State) : State :=
  if s.lnk.state = .working then placeReply r.kind (.ok []) s else s

/-! ## Items -/

/-- An item whose value has `n` bytes; any other length gives ARGUMENT (R194). -/
def itemOf (n : Nat) (owner : Owner) : Owner := fun v s =>
  if v.length = n then owner v s else refuseArgument s

/-- A taken item: OK with no payload (R194). -/
def taken (s : State) : Option Answer × State := (some (.ok []), s)

/-- Item 1, the identity (R194). -/
def identityItem : Owner := itemOf 12 fun v s =>
  let s := settleBurn s
  if s.ots.identity.isSome then (some (.bare .written), s)
  else
    match digitsOfBytes v with
    | some ds => (none, beginBurn (.identity ds) s)
    | none => refuseArgument s

/-- Item 2, the slot-0 key (R194). -/
def slot0KeyItem : Owner := itemOf 16 fun v s =>
  let s := settleBurn s
  if s.ots.key0.isSome then (some (.bare .written), s)
  else (none, beginBurn (.slot0Key (BitVec.ofNat 128 (natOfBytes v))) s)

/-- The record that a group slot item loads (R76): key, group id and mask after the slot byte. -/
def loadedSlot (v : List Byte) : GroupSlot :=
  let mask : BitVec 16 := BitVec.ofNat 16 (natOfBytes (v.drop 18))
  { enabled := mask != 0, key := some (BitVec.ofNat 128 (natOfBytes ((v.drop 1).take 16)))
    groupId := natOfBytes ((v.drop 17).take 1), mask := mask, window := .empty }

/-- Item 3, a group slot (R76). -/
def groupSlotItem : Owner := itemOf 20 fun v s =>
  match groupSlotOfNumber (argumentOf v) with
  | some i => taken (s.setCda { s.cda with groups := s.cda.groups.set i (loadedSlot v) })
  | none => refuseArgument s

/-- Item 4, the opening balance (R47). -/
def openingBalanceItem : Owner := itemOf 3 fun v s =>
  let x := natOfBytes v * Config.hundredth
  if s.acu.cap * Config.unit < x then refuseArgument s else taken (claim (Account.reopen x) s)

/-- Item 5, the pulse weight (R7). -/
def pulseWeightItem : Owner := itemOf 1 fun v s =>
  match natOfBytes v with
  | 1 => taken (s.setPiu { s.piu with weight := .one })
  | 10 => taken (s.setPiu { s.piu with weight := .ten })
  | _ => refuseArgument s

/-- Item 6, absolute billing (R7). -/
def absoluteBillingItem : Owner := itemOf 1 fun v s =>
  if natOfBytes v ≤ 1 then taken (s.setPiu { s.piu with absolute := natOfBytes v == 1 }) else refuseArgument s

/-- Item 7, the stall time (R7). -/
def stallTimeItem : Owner := itemOf 2 fun v s =>
  let t := natOfBytes v
  if 60 ≤ t ∧ t ≤ 3600 then taken (s.setPiu { s.piu with stallTime := t }) else refuseArgument s

/-- Item 8, the reconnect mode (R123): MANUAL 0, AUTO 1. -/
def reconnectModeItem : Owner := itemOf 1 fun v s =>
  if natOfBytes v ≤ 1 then taken (s.setSwc { s.swc with auto := natOfBytes v == 1 }) else refuseArgument s

/-- Item 9, the account settings (R48): limit, threshold and cap, the cap at least 1. -/
def accountSettingsItem : Owner := itemOf 9 fun v s =>
  let cap := natOfBytes (v.drop 6)
  if 1 ≤ cap then
    taken (claim (Account.setSettings (natOfBytes (v.take 3)) (natOfBytes ((v.drop 3).take 3)) cap) s)
  else refuseArgument s

/-- Item 10, the load limits (R124): three bytes hold no value above 16,777,215. -/
def loadLimitsItem : Owner := itemOf 6 fun v s =>
  taken (s.setSwc { s.swc with normalLimit := natOfBytes (v.take 3), reducedLimit := natOfBytes (v.drop 3) })

/-- The action that one byte gives to a kind, none when the kind does not take it (R158). -/
def actionFor (k : Kind) (b : Byte) : Option Action :=
  match actionOfNumber b.toNat with
  | some a => if actionAllowed k a then some a else none
  | none => none

/-- The nine actions that nine bytes give, none when any is refused (R158). -/
def actionsOfBytes : List Byte → Option (Kinds Action)
  | [b0, b1, b2, b3, b4, b5, b6, b7, b8] =>
    match actionFor .cv b0, actionFor .tc b1, actionFor .mg b2, actionFor .rv b3, actionFor .ms b4,
      actionFor .so b5, actionFor .pw b6, actionFor .ca b7, actionFor .rl b8 with
    | some a0, some a1, some a2, some a3, some a4, some a5, some a6, some a7, some a8 =>
      some ⟨a0, a1, a2, a3, a4, a5, a6, a7, a8⟩
    | _, _, _, _, _, _, _, _, _ => none
  | _ => none

/-- Item 11, the tamper actions (R158). -/
def tamperActionsItem : Owner := itemOf 9 fun v s =>
  match actionsOfBytes v with
  | some a => taken (evaluateTamper (s.setTmp { s.tmp with actions := a }))
  | none => refuseArgument s

/-- The field that an active tariff item writes in a tariff (R64): form 0 a price, form 1 a schedule point. -/
def writeTariffField (form selector value : Nat) (t : Tariff) : Option Tariff :=
  match form with
  | 0 => writePrice selector value t
  | 1 => writePoint selector value t
  | _ => none

/-- Item 12, an active tariff field (R64): written in both tariffs. -/
def activeTariffItem : Owner := itemOf 5 fun v s =>
  let form := argumentOf v
  let selector := argumentOf v.tail
  let value := natOfBytes (v.drop 2)
  match writeTariffField form selector value s.tcu.active, writeTariffField form selector value s.tcu.passive with
  | some a, some p => taken (s.setTcu { s.tcu with active := a, passive := p })
  | _, _ => refuseArgument s

/-- Item 13, a calendar field (R64). -/
def calendarItem : Owner := itemOf 4 fun v s =>
  match writeCalendar (argumentOf v) (natOfBytes v.tail) s.tcu.cal with
  | some c => taken (evaluateFriendly (s.setTcu { s.tcu with cal := c }))
  | none => refuseArgument s

/-- The owner of an item number (table of R194), none outside 1 to 13. -/
def ownerOfItem : Nat → Option Owner
  | 1 => some identityItem
  | 2 => some slot0KeyItem
  | 3 => some groupSlotItem
  | 4 => some openingBalanceItem
  | 5 => some pulseWeightItem
  | 6 => some absoluteBillingItem
  | 7 => some stallTimeItem
  | 8 => some reconnectModeItem
  | 9 => some accountSettingsItem
  | 10 => some loadLimitsItem
  | 11 => some tamperActionsItem
  | 12 => some activeTariffItem
  | 13 => some calendarItem
  | _ => none

/-- COMMISSION_WRITE (R194): the owner of its item takes it. -/
def commissionWriteOwner : Owner := fun p s =>
  match ownerOfItem (argumentOf p) with
  | some owner => owner p.tail s
  | none => refuseArgument s

/-- The needs of the commissioning lock that are missing: identity 1, slot-0 key 2, clock 4 (R196). -/
def missingNeeds (s : State) : Nat :=
  (if s.ots.identity.isSome then 0 else 1) + (if s.ots.key0.isSome then 0 else 2) +
    (if s.tcu.valid then 0 else 4)

/-- COMMISSION_LOCK (R196). A burn left over is settled first; if it was the lock's, R195 answers (log 21). -/
def commissionLockOwner : Owner := fun _ s =>
  let s := settleBurn s
  if s.ots.lock then (some (.bare .locked), pwAttempt s)
  else if missingNeeds s = 0 then (none, beginBurn .lockMark s)
  else (some ⟨.incomplete, bytesOfNat 1 (missingNeeds s)⟩, s)

/-! ## Commands -/

/-- The row of one item: a COMMISSION_WRITE frame with that item byte and this value. -/
def itemRow (item : Nat) (owner : Owner) (m : Moment) (value : List Byte) (s : State) :
    Host.Outcome State Fault Refusal :=
  .next (request .commissionWrite (serve .commissionWrite fun p s => owner p.tail s) (BitVec.ofNat 8 item :: value)
    (observe m 0 s))

/-- IDENTITY (R194). -/
def execIdentity (m : Moment) (v : List Byte) (s : State) : Host.Outcome State Fault Refusal :=
  itemRow 1 identityItem m v s

/-- SLOT_0_KEY (R194). -/
def execSlot0Key (m : Moment) (v : List Byte) (s : State) : Host.Outcome State Fault Refusal :=
  itemRow 2 slot0KeyItem m v s

/-- GROUP_SLOT (R76). -/
def execGroupSlot (m : Moment) (v : List Byte) (s : State) : Host.Outcome State Fault Refusal :=
  itemRow 3 groupSlotItem m v s

/-- OPENING_BALANCE (R47). -/
def execOpeningBalance (m : Moment) (v : List Byte) (s : State) : Host.Outcome State Fault Refusal :=
  itemRow 4 openingBalanceItem m v s

/-- PULSE_WEIGHT (R7). -/
def execPulseWeight (m : Moment) (v : List Byte) (s : State) : Host.Outcome State Fault Refusal :=
  itemRow 5 pulseWeightItem m v s

/-- ABSOLUTE_BILLING (R7). -/
def execAbsoluteBilling (m : Moment) (v : List Byte) (s : State) : Host.Outcome State Fault Refusal :=
  itemRow 6 absoluteBillingItem m v s

/-- STALL_TIME (R7). -/
def execStallTime (m : Moment) (v : List Byte) (s : State) : Host.Outcome State Fault Refusal :=
  itemRow 7 stallTimeItem m v s

/-- RECONNECT_MODE (R123). -/
def execReconnectMode (m : Moment) (v : List Byte) (s : State) : Host.Outcome State Fault Refusal :=
  itemRow 8 reconnectModeItem m v s

/-- ACCOUNT_SETTINGS (R48). -/
def execAccountSettings (m : Moment) (v : List Byte) (s : State) : Host.Outcome State Fault Refusal :=
  itemRow 9 accountSettingsItem m v s

/-- LOAD_LIMITS (R124). -/
def execLoadLimits (m : Moment) (v : List Byte) (s : State) : Host.Outcome State Fault Refusal :=
  itemRow 10 loadLimitsItem m v s

/-- TAMPER_ACTIONS (R158). -/
def execTamperActions (m : Moment) (v : List Byte) (s : State) : Host.Outcome State Fault Refusal :=
  itemRow 11 tamperActionsItem m v s

/-- ACTIVE_TARIFF_FIELD (R64). -/
def execActiveTariffField (m : Moment) (v : List Byte) (s : State) : Host.Outcome State Fault Refusal :=
  itemRow 12 activeTariffItem m v s

/-- CALENDAR_FIELD (R64). -/
def execCalendarField (m : Moment) (v : List Byte) (s : State) : Host.Outcome State Fault Refusal :=
  itemRow 13 calendarItem m v s

/-- COMMISSION_LOCK (R196). -/
def execCommissionLock (m : Moment) (p : List Byte) (s : State) : Host.Outcome State Fault Refusal :=
  .next (request .commissionLock (serve .commissionLock commissionLockOwner) p (observe m 0 s))

/-- The end of the burn of an identity or a slot-0 key (R194). -/
def otsBurnEnd (s : State) : State :=
  match s.ots.burn with
  | some b =>
    match b.field with
    | .identity _ | .slot0Key _ =>
      if b.ends ≤ s.now then answerBurn .commissionWrite (s.setOts s.ots.burned) else s
    | .lockMark | .lossMark => s
  | none => s

/-- OTS_BURN_END (R194, R197, R202). -/
def execOtsBurnEnd (m : Moment) (s : State) : Host.Outcome State Fault Refusal := .next (otsBurnEnd (observe m 0 s))

/-- The end of the burn of the lock mark (R196). -/
def lockBurnEnd (s : State) : State :=
  match s.ots.burn with
  | some b =>
    if b.field = .lockMark ∧ b.ends ≤ s.now then answerBurn .commissionLock (lockEvent s) else s
  | none => s

/-- COMMISSION_LOCK_BURN_END (R196, R197, R202). -/
def execCommissionLockBurnEnd (m : Moment) (s : State) : Host.Outcome State Fault Refusal :=
  .next (lockBurnEnd (observe m 0 s))

end Sys2Proof.Machine
end

