-- ==== Sys2Proof/Machine/Power.lean ====
section
/-! DEFINITION. The Supply Domain Manager (chapter 10): the events of the supply pins, the check of the retention
marker and the start-up steps, and the end of the burn of a loss mark. -/

namespace Sys2Proof.Machine

/-! ## Entries into the power states -/

/-- The entry into STARTING is a MAIN reset (R200). -/
def enterStarting (s : State) : State := mainReset (setPower .starting s)

/-- The entry into BATTERY (R202): the MAIN items are lost (log 5), the battery filter begins 500 ms later with
empty histories (R141, R142). -/
def enterBattery (s : State) : State :=
  let s := mainReset (setPower .battery s)
  s.setTmp { s.tmp with batteryCvs := [], batteryTcs := [], batteryDue := s.now + Config.batteryInterval }

/-- The entry into OFF: the KEEP domain is lost (R200, log 5); a burn that has begun still writes the One-Time
Store (R205, log 21). -/
def enterOff (s : State) : State :=
  retentionStart (mainReset (setPower .off (s.setOts s.ots.burned)))

/-- The entry into HOLDUP, with every block's holdup step (R206): the acceptor's is R104; those of the other
blocks change no state. -/
def enterHoldup (s : State) : State := acceptorHoldup (setPower .holdup s)

/-! ## Events of the supply pins -/

/-- VDD_GOOD (R200, R201). -/
def execVddGood (m : Moment) (s : State) : Host.Outcome State Fault Refusal :=
  let s := observe { m with pins := { m.pins with vdd := true } } 0 s
  match s.sdm.power with
  | .off => .next (enterStarting (retentionStart s))
  | .battery => .next (enterStarting s)
  | .starting | .run | .holdup => .next s

/-- VDD_LOST (R200, R202): BATTERY, or OFF where VBAT is absent. -/
def execVddLost (m : Moment) (s : State) : Host.Outcome State Fault Refusal :=
  let s := observe { m with pins := { m.pins with vdd := false } } 0 s
  if mainPowered s.sdm.power then
    if s.pins.vbat then .next (enterBattery s) else .next (enterOff s)
  else .next s

/-- VBAT_LOST (R200): from BATTERY to OFF; no change while VDD is good. -/
def execVbatLost (m : Moment) (s : State) : Host.Outcome State Fault Refusal :=
  let s := observe { m with pins := { m.pins with vbat := false } } 0 s
  if s.sdm.power = .battery then .next (enterOff s) else .next s

/-- RSTN_FALL (R200). -/
def execRstnFall (m : Moment) (s : State) : Host.Outcome State Fault Refusal :=
  let s := observe { m with pins := { m.pins with rstn := false } } 0 s
  if mainPowered s.sdm.power then .next (enterStarting s) else .next s

/-- The fall of PFW: in RUN the part enters HOLDUP (R200, R206). -/
def pfwFall (m : Moment) (s : State) : State :=
  let s := observe { m with pins := { m.pins with pfw := false } } 0 s
  if s.sdm.power = .run then enterHoldup s else s

/-- PFW_FALL (R206). -/
def execPfwFall (m : Moment) (s : State) : Host.Outcome State Fault Refusal := .next (pfwFall m s)

/-- PFW_RISE: in HOLDUP with VDD good the part goes to STARTING (R200, R206). -/
def execPfwRise (m : Moment) (s : State) : Host.Outcome State Fault Refusal :=
  let s := observe { m with pins := { m.pins with pfw := true } } 0 s
  if s.sdm.power = .holdup ∧ s.pins.vdd = true then .next (enterStarting s) else .next s

/-! ## Start-up -/

/-- The start-up kinds (R204). -/
inductive StartUpKind where
  | ordinary | blank | loss | retirement
  deriving DecidableEq, Repr

/-- The check of the retention marker (table of R204). -/
def startUpKind (s : State) : StartUpKind :=
  if s.sdm.marker then .ordinary
  else if s.ots.lock = false then .blank
  else if s.ots.lossCount < Config.lossMarks then .loss
  else .retirement

/-- The effects of a retirement, in one event (R204): the marker, retired, and a rising RL condition. -/
def retire (s : State) : State :=
  let s := s.setSdm { s.sdm with marker := true }
  let s := s.setCda { s.cda with retired := true }
  hand .rl true none s

/-- The steps stand before a given one. -/
def setStep (x : StartStep) (s : State) : State := s.setSdm { s.sdm with stepsBegun := true, nextStep := x }

/-- The check with its action (table of R204); a retention loss begins its burn and stays at the check (R205). -/
def checkStep (s : State) : State :=
  match startUpKind s with
  | .ordinary => setStep .catchUp s
  | .blank => setStep .catchUp (s.setSdm { s.sdm with marker := true })
  | .loss => beginBurn .lossMark (setStep .check s)
  | .retirement => setStep .catchUp (retire s)

/-- The boundaries that the catch-up has still to deliver (R68, R72). -/
def missedDays (x : Tcu) : Nat := if x.valid then dayOf x.clock - x.lastDay else 0

/-- The Tariff and Calendar Unit's step, one boundary at a time; when none is left, the friendly value (R72). -/
def catchUpStep (s : State) : State :=
  if 0 < missedDays s.tcu then deliverBoundary s else setStep .verify (evaluateFriendly s)

/-- The steps end: the part enters RUN, or HOLDUP if PFW is low (R200, R203). -/
def endSteps (s : State) : State :=
  let s := s.setSdm { s.sdm with stepsBegun := false, nextStep := .check }
  if s.pins.pfw then setPower .run s else enterHoldup s

/-- The next start-up step is taken, or the next boundary of the catch-up (table of R203). -/
def takeStep (s : State) : State :=
  match s.sdm.nextStep with
  | .check => checkStep s
  | .catchUp => catchUpStep s
  | .verify => setStep .acceptor (switchStartUp s)
  | .acceptor => setStep .pulse (acceptorStartUp s)
  | .pulse => setStep .tamper (pulseStartUp s)
  | .tamper => endSteps (tamperStartUp s)

/-- Whether a loss mark is burning. -/
def lossBurning (s : State) : Bool :=
  match s.ots.burn with
  | some b => b.field == .lossMark
  | none => false

/-- At most `n` of the steps are taken; they stand still while a loss mark burns (R205), and end by themselves. -/
def takeSteps : Nat → State → State
  | 0, s => s
  | n + 1, s => if s.sdm.power = .starting ∧ lossBurning s = false then takeSteps n (takeStep s) else s

/-- As many steps as there can be: the six of R203, with the catch-up in one more for each missed boundary. -/
def allSteps (s : State) : Nat := missedDays s.tcu + 6

/-- Whether the steps can begin or go on (R203, R205). -/
def stepsReady (s : State) : Bool :=
  s.sdm.power == .starting && s.pins.vdd && s.pins.rstn && (s.pins.pfw || s.sdm.stepsBegun) && !lossBurning s

/-- START_UP (R203, R204, R205): the steps are taken from where they stand, to their end or as far as `run` says.
Another burn that a reset left over is settled first (log 21). A PFW that fell meanwhile is low at their end. -/
def execStartUp (m : Moment) (run : StartUpRun) (s : State) : Host.Outcome State Fault Refusal :=
  let s := observe m 0 s
  if stepsReady s then
    let s := settleBurn s
    let s := if run.pfwFell then s.setPins { s.pins with pfw := false } else s
    .next (takeSteps (run.stop.getD (allSteps s)) s)
  else .next s

/-- LOSS_MARK_BURN_END (R205), also where RSTN has fallen or VDD is lost during the burn. -/
def execLossMarkBurnEnd (m : Moment) (s : State) : Host.Outcome State Fault Refusal :=
  let s := observe m 0 s
  match s.ots.burn with
  | some b => if b.field = .lossMark ∧ b.ends ≤ s.now then .next (lossEvent s) else .next s
  | none => .next s

end Sys2Proof.Machine
end

