-- ==== Sys2Proof/Machine/Keys.lean ====
section
/-! DEFINITION. The KEYS request (R83) with the events that may come between its symbols: those of R84, and the bus
transactions that find the link in WORKING until it is answered (R190). -/

namespace Sys2Proof.Machine

/-- An event that comes between two symbols (R84, R190; log 10): what its command does. -/
def takeEvent (s : State) : KeysEvent → State
  | .decodeEnd m => decodeEnd m s
  | .entryTimeout m => entryTimeout m s
  | .secondTick m => secondTick m s
  | .pfwFall m => pfwFall m s
  | .readTransaction m addr count duration => readTransaction m addr count duration s
  | .writeAddressed m addr => writeAddressed m addr s
  | .clockLowTimeout m duration => clockLowTimeout m duration s

/-- The events of a list in turn. -/
def takeEvents (events : List (Nat × KeysEvent)) (s : State) : State :=
  events.foldl (fun s e => takeEvent s e.2) s

/-- What the handling of symbols leaves: the number taken, the refusal, the state, and the events not yet come. -/
structure Handled where
  taken : Nat
  refusal : Option SymbolRefusal
  state : State
  later : List (Nat × KeysEvent)
  deriving DecidableEq, Repr

/-- Symbols are handled oldest first until one is refused (R83); `i` of the request's have been handled. -/
def takeSymbols (i : Nat) : List Symbol → List (Nat × KeysEvent) → State → Handled
  | [], events, s => ⟨0, none, s, events⟩
  | x :: xs, events, s =>
    let here := events.takeWhile fun e => decide (e.1 ≤ i)
    let later := events.dropWhile fun e => decide (e.1 ≤ i)
    match takeSymbol x (takeEvents here s) with
    | (some r, s') => ⟨0, some r, s', later⟩
    | (none, s') =>
      let h := takeSymbols (i + 1) xs later s'
      { h with taken := h.taken + 1 }

/-- What the acceptor does with a payload (R83): ARGUMENT when a byte is no symbol code, and none of the symbols is
taken; else the values as they stand at the answer. The events placed after the last symbol handled are still to
come. -/
def keysTaken (between : List (Nat × KeysEvent)) (p : List Byte) (s : State) :
    Answer × State × List (Nat × KeysEvent) :=
  match symbolsOfBytes p with
  | none => (.bare .argument, s, between)
  | some xs =>
    let h := takeSymbols 0 xs between s
    (.ok (keysBytes h.taken h.refusal h.state), h.state, h.later)

/-- KEYS with no event between its symbols (R83). -/
def keysOwner : Owner := fun p s => (some (keysTaken [] p s).1, (keysTaken [] p s).2.1)

/-- KEYS handed with the events that come while it is handled: the link is in WORKING, so that a read is sent PENDING,
until the last symbol has been handled and the answer is placed (R190, R191); the events placed later come after it. -/
def serveKeys (between : List (Nat × KeysEvent)) : Handler := fun p s =>
  let r := keysTaken between p (enterWorking s)
  takeEvents r.2.2 (placeReply Request.keys.kind r.1 r.2.1)

/-- KEYS (R83, R84). -/
def execKeys (m : Moment) (p : List Byte) (between : List (Nat × KeysEvent)) (s : State) :
    Host.Outcome State Fault Refusal :=
  .next (request .keys (serveKeys between) p (observe m 0 s))

end Sys2Proof.Machine
end

