-- ==== Sys2Proof/Machine/Frame.lean ====
section
/-! DEFINITION. A write transaction given by its bytes (R187) and the checks on its frame (R188): FRAME_ERROR. -/

namespace Sys2Proof.Machine

/-- The owner of each request (section 9.3). -/
def ownerOf : Request → Owner
  | .identify => identifyOwner
  | .status => statusOwner
  | .readAccount => readAccountOwner
  | .readEnergy => readEnergyOwner
  | .readTariff => readTariffOwner
  | .readCalendar => readCalendarOwner
  | .readSwitch => readSwitchOwner
  | .readTamper => readTamperOwner
  | .readLog => readLogOwner
  | .readCodeResult => readCodeResultOwner
  | .readNotices => readNoticesOwner
  | .setAttentionMask => setMaskOwner
  | .snapshotLatch => snapshotLatchOwner
  | .snapshotRead => snapshotReadOwner
  | .keys => keysOwner
  | .timeRead => timeReadOwner
  | .timeTrim => timeTrimOwner
  | .setClock => setClockOwner
  | .commissionWrite => commissionWriteOwner
  | .commissionLock => commissionLockOwner

/-- The bytes that are stored of those written, the first being the length byte (R187). -/
def storedOf : List Byte → List Byte
  | [] => []
  | b :: bs => if 3 ≤ b.toNat ∧ b.toNat ≤ Config.maxRequest then (b :: bs).take b.toNat else [b]

/-- Check 1 of R188 passes: the length byte is in range, the frame is whole and its CRC is right. -/
def frameGood (stored : List Byte) : Bool :=
  decide (3 ≤ stored.length) && stored.length == (stored.headD 0).toNat &&
    stored.getLast? == some (crc8 stored.dropLast)

/-- The payload of a whole frame. -/
def payloadOf (stored : List Byte) : List Byte := (stored.drop 2).dropLast

/-- A frame is checked by R188 and handed when it is good. -/
def checkFrame (stored : List Byte) (s : State) : State :=
  if frameGood stored then
    match requestOfKind (stored.getD 1 0).toNat with
    | none => unknownKindReply s
    | some r => handRequest r (serve r (ownerOf r)) (payloadOf stored) s
  else frameErrorReply s

/-- The end of a write transaction in which `bytes` were written (table of R187). -/
def endWrite (bytes : List Byte) (s : State) : State :=
  if bytes = [] then leaveReceiving s else checkFrame (storedOf bytes) (completeWrite (storedOf bytes) s)

/-- FRAME_ERROR (R187, R188): a faulty frame is answered FRAME_ERROR or UNKNOWN_KIND. -/
def execFrameError (m : Moment) (bytes : List Byte) (s : State) : Host.Outcome State Fault Refusal :=
  let s := observe m 0 s
  if s.lnk.state = .receiving then .next (endWrite bytes s) else .next s

end Sys2Proof.Machine
end

