-- ==== Sys2Proof/Machine/Dispatch.lean ====
section
/-! DEFINITION. One arm for each command, each one call of its meaning. -/

namespace Sys2Proof.Machine

def exec (i : Instr) (s : State) : Host.Outcome State Fault Refusal :=
  match i with
  | .pulseEdge m n => Sys2Proof.Machine.execPulseEdge m n s
  | .secondTick m => Sys2Proof.Machine.execSecondTick m s
  | .clockWrap m => Sys2Proof.Machine.execClockWrap m s
  | .stallDetected m n => Sys2Proof.Machine.execStallDetected m n s
  | .demandMinuteEnd m => Sys2Proof.Machine.execDemandMinuteEnd m s
  | .dayBoundary m => Sys2Proof.Machine.execDayBoundary m s
  | .lockoutEnd m => Sys2Proof.Machine.execLockoutEnd m s
  | .penaltyEnd m => Sys2Proof.Machine.execPenaltyEnd m s
  | .entryTimeout m => Sys2Proof.Machine.execEntryTimeout m s
  | .decodeEnd m => Sys2Proof.Machine.execDecodeEnd m s
  | .keys m payload between => Sys2Proof.Machine.execKeys m payload between s
  | .restEnd m => Sys2Proof.Machine.execRestEnd m s
  | .coilPulseEnd m => Sys2Proof.Machine.execCoilPulseEnd m s
  | .settleEnd m => Sys2Proof.Machine.execSettleEnd m s
  | .reconnectPress m held => Sys2Proof.Machine.execReconnectPress m held s
  | .runFilterSample m => Sys2Proof.Machine.execRunFilterSample m s
  | .batteryFilterSample m => Sys2Proof.Machine.execBatteryFilterSample m s
  | .frameError m bytes => Sys2Proof.Machine.execFrameError m bytes s
  | .readTransaction m addr count duration => Sys2Proof.Machine.execReadTransaction m addr count duration s
  | .clockLowTimeout m duration => Sys2Proof.Machine.execClockLowTimeout m duration s
  | .replyHoldTimeout m => Sys2Proof.Machine.execReplyHoldTimeout m s
  | .identify m payload => Sys2Proof.Machine.execIdentify m payload s
  | .status m payload => Sys2Proof.Machine.execStatus m payload s
  | .readAccount m payload => Sys2Proof.Machine.execReadAccount m payload s
  | .readEnergy m payload => Sys2Proof.Machine.execReadEnergy m payload s
  | .readTariff m payload => Sys2Proof.Machine.execReadTariff m payload s
  | .readCalendar m payload => Sys2Proof.Machine.execReadCalendar m payload s
  | .readSwitch m payload => Sys2Proof.Machine.execReadSwitch m payload s
  | .readTamper m payload => Sys2Proof.Machine.execReadTamper m payload s
  | .readLog m payload => Sys2Proof.Machine.execReadLog m payload s
  | .readCodeResult m payload => Sys2Proof.Machine.execReadCodeResult m payload s
  | .readNotices m payload => Sys2Proof.Machine.execReadNotices m payload s
  | .setAttentionMask m payload => Sys2Proof.Machine.execSetAttentionMask m payload s
  | .snapshotLatch m payload => Sys2Proof.Machine.execSnapshotLatch m payload s
  | .snapshotRead m payload => Sys2Proof.Machine.execSnapshotRead m payload s
  | .timeRead m payload => Sys2Proof.Machine.execTimeRead m payload s
  | .timeTrim m payload => Sys2Proof.Machine.execTimeTrim m payload s
  | .setClock m payload => Sys2Proof.Machine.execSetClock m payload s
  | .identity m value => Sys2Proof.Machine.execIdentity m value s
  | .slot0Key m value => Sys2Proof.Machine.execSlot0Key m value s
  | .otsBurnEnd m => Sys2Proof.Machine.execOtsBurnEnd m s
  | .groupSlot m value => Sys2Proof.Machine.execGroupSlot m value s
  | .openingBalance m value => Sys2Proof.Machine.execOpeningBalance m value s
  | .pulseWeight m value => Sys2Proof.Machine.execPulseWeight m value s
  | .absoluteBilling m value => Sys2Proof.Machine.execAbsoluteBilling m value s
  | .stallTime m value => Sys2Proof.Machine.execStallTime m value s
  | .reconnectMode m value => Sys2Proof.Machine.execReconnectMode m value s
  | .accountSettings m value => Sys2Proof.Machine.execAccountSettings m value s
  | .loadLimits m value => Sys2Proof.Machine.execLoadLimits m value s
  | .tamperActions m value => Sys2Proof.Machine.execTamperActions m value s
  | .activeTariffField m value => Sys2Proof.Machine.execActiveTariffField m value s
  | .calendarField m value => Sys2Proof.Machine.execCalendarField m value s
  | .commissionLock m payload => Sys2Proof.Machine.execCommissionLock m payload s
  | .commissionLockBurnEnd m => Sys2Proof.Machine.execCommissionLockBurnEnd m s
  | .vddGood m => Sys2Proof.Machine.execVddGood m s
  | .vddLost m => Sys2Proof.Machine.execVddLost m s
  | .vbatLost m => Sys2Proof.Machine.execVbatLost m s
  | .rstnFall m => Sys2Proof.Machine.execRstnFall m s
  | .pfwFall m => Sys2Proof.Machine.execPfwFall m s
  | .pfwRise m => Sys2Proof.Machine.execPfwRise m s
  | .startUp m run => Sys2Proof.Machine.execStartUp m run s
  | .lossMarkBurnEnd m => Sys2Proof.Machine.execLossMarkBurnEnd m s
  | .writeAddressed m addr => Sys2Proof.Machine.execWriteAddressed m addr s
  | .writeWithNoRequest m => Sys2Proof.Machine.execWriteWithNoRequest m s

end Sys2Proof.Machine
end

