-- ==== Sys2Proof/Safety.lean ====
section
/-! DEFINITION. The vocabulary of the statements: the invariants of the part, how a request is answered, and which
request a command's frame carries. -/

namespace Sys2Proof.Machine

/-! ## Invariants -/

/-- The laws of the account record (R21, R23, R24): the balance is never below the floor, arrears stand only beside
a balance at the floor, and the totals keep the history. -/
def Account.Lawful (a : Account) : Prop :=
  a.floor ≤ a.balance ∧ (0 < a.arrears → a.balance = a.floor) ∧
    a.balance - (a.arrears : Int) = (a.opening : Int) + (a.credited : Int) - (a.debited : Int)

/-- The energy counts keep their ranges (table of R1). -/
def Piu.InRange (x : Piu) : Prop :=
  (∀ n, x.imports.get n < 2 ^ 48 ∧ x.exports.get n < 2 ^ 48) ∧ x.billedWh < 2 ^ 64 ∧ x.residue ≤ 9

/-- When the link holds a reply (R185): the slot, the remainder and the hold timer are empty and stopped in IDLE and
WORKING, and in RECEIVING when no reply was kept; the hold timer runs, and the slot is not empty, otherwise. -/
def Lnk.Consistent (x : Lnk) : Prop :=
  if x.state = .replyReady ∨ x.state = .receiving ∧ x.returnReady = true then
    x.slot ≠ [] ∧ x.holdTimer.isSome = true
  else x.slot = [] ∧ x.remainder = [] ∧ x.holdTimer = none

/-- The Evidence Log agrees with the set latches `latch` (R165, R168, R169): 0 to 32 records, their sequences from 1 up
to below the next sequence and strictly rising, the top number of R171 apart; a protected record is the TAMPER_SET
record that the set latch of its kind names; and for every set latch the log holds one such record. -/
def Elg.Agrees (x : Elg) (latch : Kind → Option LatchSet) : Prop :=
  let top : Nat := 4294967295
  x.records.length ≤ 32 ∧ 1 ≤ x.nextSeq ∧ x.nextSeq ≤ top ∧
    (x.records.Pairwise fun a b => a.seq < b.seq ∨ a.seq = top ∧ b.seq = top) ∧
    (∀ r ∈ x.records, 1 ≤ r.seq ∧ (r.seq < x.nextSeq ∨ r.seq = top ∧ x.nextSeq = top)) ∧
    (∀ r ∈ x.records, r.guarded = true → r.type = .tamperSet ∧
      ∃ k l, r.kind = some k ∧ latch k = some l ∧ l.record = r.seq) ∧
    ∀ k l, latch k = some l →
      (x.records.filter fun r => r.guarded && r.kind == some k).map (·.seq) = [l.record]

/-- The Evidence Log agrees with the latches of the Tamper Monitor. -/
def State.LogAgrees (s : State) : Prop := s.elg.Agrees fun k => (s.tmp.latches.get k).set

/-! ## What a claim and a run of boundaries bring -/

/-- What a claim that leaves the account of `t` hands on from `s`: the state, when it has changed, to the Switch
Controller, with the CREDIT entry that it brings (R43, R109). -/
def StateHanded (s t : State) : Prop :=
  (t.acu.state = s.acu.state → t.swc = s.swc) ∧
    (t.acu.state ≠ s.acu.state →
      t.swc.held = t.acu.state ∧
      t.swc.table =
        { s.swc.table with
          credit :=
            if t.acu.state = .exhausted ∧ s.tcu.untilDay = none then
              match s.swc.table.credit with
              | some e => some e
              | none => some ⟨friendlyNow s.tcu, s.tcu.clock, none⟩
            else none })

/-- The notices ACCOUNT and LOW_ALARM that claims from the account of `s` to that of `t` set, with the MAIN domain
powered (R44, R177): ACCOUNT for a changed state or emergency_taken, LOW_ALARM for an entry into LOW, EMERGENCY or
EXHAUSTED. -/
def ClaimNoticed (s t : State) : Prop :=
  (t.rpu.notices.getLsbD 0 = true ↔
    s.rpu.notices.getLsbD 0 = true ∨ t.acu.state ≠ s.acu.state ∨ t.acu.taken ≠ s.acu.taken) ∧
  (t.rpu.notices.getLsbD 1 = true ↔
    s.rpu.notices.getLsbD 1 = true ∨ t.acu.state ≠ s.acu.state ∧ t.acu.state ≠ .inCredit)

/-- The account after the standing charges of `n` boundaries, each that of the tariff which is active when its day
begins, before any activation of that boundary (R69, R70). -/
def chargedDays (x : Tcu) (n : Nat) (a : Account) : Account :=
  (List.range n).foldl
    (fun a i =>
      a.alarmAfter (a.charge
        ((if 0 < i ∧ x.actPending = true ∧ x.actDay ≤ x.lastDay + i then x.passive else x.active).standing * 1000)))
    a

/-- What the boundaries that are due bring when the clock of a valid part stands at day `day` (R68 to R71, R127): none
where that day has been processed, else those of each day up to it. -/
def BoundariesTaken (day : Nat) (s t : State) : Prop :=
  (day ≤ s.tcu.lastDay →
    t.tcu.lastDay = s.tcu.lastDay ∧ t.tcu.trimUsed = s.tcu.trimUsed ∧ t.acu = s.acu ∧
      t.cda.lockoutsToday = s.cda.lockoutsToday ∧ t.tcu.active = s.tcu.active ∧
      t.tcu.actPending = s.tcu.actPending ∧ t.tcu.untilDay = s.tcu.untilDay ∧
      (∀ n ∈ [0, 1, 6, 7], t.rpu.notices.getLsbD n = s.rpu.notices.getLsbD n)) ∧
  (s.tcu.lastDay < day →
    let activated := s.tcu.actPending = true ∧ s.tcu.actDay ≤ day
    t.tcu.lastDay = day ∧ t.tcu.trimUsed = 0 ∧ t.acu = chargedDays s.tcu (day - s.tcu.lastDay) s.acu ∧
      t.cda.lockoutsToday = 0 ∧
      (activated → t.tcu.active = s.tcu.passive ∧ t.tcu.actPending = false) ∧
      (¬activated → t.tcu.active = s.tcu.active ∧ t.tcu.actPending = s.tcu.actPending) ∧
      t.tcu.untilDay = (s.tcu.untilDay.bind fun u => if u < day then none else some u) ∧
      (day = s.tcu.lastDay + 1 → ClaimNoticed s t) ∧
      (t.rpu.notices.getLsbD 6 = true ↔ s.rpu.notices.getLsbD 6 = true ∨ activated) ∧
      t.rpu.notices.getLsbD 7 = true) ∧
  t.tcu.passive = s.tcu.passive ∧ t.tcu.actDay = s.tcu.actDay ∧ t.tcu.cal = s.tcu.cal

/-! ## How a request is answered -/

/-- A write transaction is being received in RUN. -/
abbrev Listening (s : State) : Prop := s.sdm.power = .run ∧ s.lnk.state = .receiving

/-- The link holds the answer to a request of kind code `kind` (R190): one frame, or the first of two. -/
def Answered (kind : Nat) (st : Status) (payload : List Byte) (x : Lnk) : Prop :=
  x.state = .replyReady ∧ x.request = [] ∧ x.readPos = 0 ∧ x.holdTimer = some 2000 ∧
    x.slot =
      (if payload.length ≤ 44 then replyFrame (kind + 0x80) st.code payload
       else replyFrame (kind + 0xC0) st.code (payload.take 44)) ∧
    x.remainder = payload.drop 44

/-- The Report Unit after a frame has completed: a reply kept from before is dropped with its notice (R188). -/
def rpuAfterFrame (s : State) : Rpu :=
  if s.lnk.slot = [] then s.rpu else { s.rpu with notices := s.rpu.notices ||| 256 }

/-- The state after a frame has completed, with the link as `l`: time has passed, a kept reply is dropped, and no
other block has changed. -/
def afterFrame (m : Moment) (s : State) (l : Lnk) : State :=
  { observe m 0 s with lnk := l, rpu := rpuAfterFrame s }

/-- The command is answered, and nothing changes beside the link. -/
def AnswersOnly (c : Instr) (m : Moment) (s : State) (kind : Nat) (st : Status) (payload : List Byte) : Prop :=
  ∃ l, exec c s = .next (afterFrame m s l) ∧ Answered kind st payload l

/-- The command is answered OK with `payload`, and beside the link the part changes as `f` says. -/
def AnswersWith (c : Instr) (m : Moment) (s : State) (kind : Nat) (payload : List Byte) (f : State → State) : Prop :=
  ∃ l, exec c s = .next { f (afterFrame m s l) with lnk := l } ∧ Answered kind .ok payload l

/-- The request, its payload and its moment, for a command whose frame has completed whole. -/
def requestOf : Instr → Option (Moment × Request × List Byte)
  | .keys m p _ => some (m, .keys, p)
  | .identify m p => some (m, .identify, p)
  | .status m p => some (m, .status, p)
  | .readAccount m p => some (m, .readAccount, p)
  | .readEnergy m p => some (m, .readEnergy, p)
  | .readTariff m p => some (m, .readTariff, p)
  | .readCalendar m p => some (m, .readCalendar, p)
  | .readSwitch m p => some (m, .readSwitch, p)
  | .readTamper m p => some (m, .readTamper, p)
  | .readLog m p => some (m, .readLog, p)
  | .readCodeResult m p => some (m, .readCodeResult, p)
  | .readNotices m p => some (m, .readNotices, p)
  | .setAttentionMask m p => some (m, .setAttentionMask, p)
  | .snapshotLatch m p => some (m, .snapshotLatch, p)
  | .snapshotRead m p => some (m, .snapshotRead, p)
  | .timeRead m p => some (m, .timeRead, p)
  | .timeTrim m p => some (m, .timeTrim, p)
  | .setClock m p => some (m, .setClock, p)
  | .identity m v => some (m, .commissionWrite, 1 :: v)
  | .slot0Key m v => some (m, .commissionWrite, 2 :: v)
  | .groupSlot m v => some (m, .commissionWrite, 3 :: v)
  | .openingBalance m v => some (m, .commissionWrite, 4 :: v)
  | .pulseWeight m v => some (m, .commissionWrite, 5 :: v)
  | .absoluteBilling m v => some (m, .commissionWrite, 6 :: v)
  | .stallTime m v => some (m, .commissionWrite, 7 :: v)
  | .reconnectMode m v => some (m, .commissionWrite, 8 :: v)
  | .accountSettings m v => some (m, .commissionWrite, 9 :: v)
  | .loadLimits m v => some (m, .commissionWrite, 10 :: v)
  | .tamperActions m v => some (m, .commissionWrite, 11 :: v)
  | .activeTariffField m v => some (m, .commissionWrite, 12 :: v)
  | .calendarField m v => some (m, .commissionWrite, 13 :: v)
  | .commissionLock m p => some (m, .commissionLock, p)
  | _ => none

end Sys2Proof.Machine
end

