-- ==== Sys2Proof/Certificates/Slice0/Obligations.lean ====
section
/-! DEFINITION. The statements for the provers. -/

open Sys2Proof Sys2Proof.Machine

/-! ## The queue, time and reset -/

/-- A step takes the command at the front of the queue and runs it on the rest; an empty queue idles (log 22). -/
def Obligations.StepRunsTheFrontCommand : Prop :=
  (∀ (c : Instr) (s : State), step { s with pending := c :: s.pending } = exec c s) ∧
    ∀ s : State, s.pending = [] → step s = .next s

/-- No command touches the queue of the commands behind it (the model's own field, log 22). -/
def Obligations.CommandsKeepTheQueue : Prop :=
  ∀ (c : Instr) (s t : State), exec c s = .next t → t.pending = s.pending

/-- What comes with every command: its moment passes on the timebase and the running timers, and its pin levels are
seen, the moment of a low RCB being kept (R122; log 42); while the MAIN domain is held at its reset, that reset stands
instead (R203; logs 3 and 34). -/
def Obligations.AMomentPasses : Prop :=
  ∀ (m : Moment) (s : State),
    let low := if s.pins.rcb then s.rcbLow else s.now
    (resetHeld s = false →
      observe m 0 s =
        { s with
          now := s.now + m.elapsed
          pins := m.pins
          rcbLow := low
          cda := { s.cda with entryTimer := s.cda.entryTimer.map (· - m.elapsed) }
          lnk := { s.lnk with holdTimer := s.lnk.holdTimer.map (· - m.elapsed), clockLow := clockLowAfter m s.lnk } }) ∧
    (resetHeld s = true →
      observe m 0 s = mainReset { s with now := s.now + m.elapsed, pins := m.pins, rcbLow := low })

/-- The part after reset, block by block: a blank part in STARTING (log 1), with the values of a retention start and of
a MAIN reset that the state tables give (R1, R20, R50, R75, R107, R137, R165, R176, R185, R201). The timebase, the input
levels (log 2) and the items without a row in those tables (logs 5, 9, 41, 42) are the model's. -/
def Obligations.ResetIsABlankStartingPart : Prop :=
  let tariff : Tariff := ⟨#v[0, 0, 0, 0], 0, .replicate 8 ⟨0, 0, false⟩, .replicate 8 ⟨0, 0, false⟩⟩
  let slot : GroupSlot := ⟨false, none, 0, 0, ⟨none, []⟩⟩
  let latch : Latch := ⟨false, none, 0⟩
  let s := State.reset
  s.now = 0 ∧ s.rcbLow = 0 ∧ s.sdm = ⟨.starting, false, false, .check⟩ ∧ s.ots = ⟨none, none, false, 0, none⟩ ∧
    s.piu =
      { imports := ⟨0, 0, 0⟩, exports := ⟨0, 0, 0⟩, billedWh := 0, residue := 0, weight := .ten, absolute := true
        stallTime := 900, reverseFlag := ⟨false, false, false⟩, lastPulse := ⟨none, none, none⟩
        history := ⟨[], [], []⟩, stallTimer := ⟨0, 0, 0⟩, stallFlag := ⟨false, false, false⟩
        demand := .waiting, lastDemand := none } ∧
    s.acu =
      { balance := 0, arrears := 0, taken := false, limit := 0, threshold := 0, cap := 100000, opening := 0
        credited := 0, debited := 0, alarm := false } ∧
    s.acu.floor = 0 ∧ s.acu.state = .exhausted ∧
    s.tcu =
      { clock := 0, valid := false, lastDay := 0, trimUsed := 0, active := tariff, passive := tariff
        actPending := false, actDay := 0, cal := ⟨96, .replicate 12 none, .replicate 4 ⟨0, 0, false⟩, true⟩
        untilDay := none, lastFriendly := none } ∧
    s.cda =
      { acceptor := .idle, buffer := [], entryTimer := none, groups := ⟨slot, slot, slot⟩, window0 := ⟨none, []⟩
        streak := 0, lockoutsToday := 0, lockoutLeft := 0, reinstate := false, retired := false
        lastResult := none, resultNumber := 0, decodeSince := 0 } ∧
    s.swc =
      { switch := .verify, op := none, lastPulseEnd := 0, lastVerification := none
        table := ⟨some ⟨false, 0, none⟩, none, none, none, some ⟨false, 0, none⟩⟩
        held := .exhausted, intended := .opened, auto := false, normalLimit := 0, reducedLimit := 0
        overCount := 0, tripsToday := 0, pressLatch := false, lastPress := 0 } ∧
    s.tmp =
      { latches := ⟨latch, latch, latch, latch, latch, latch, latch, latch, latch⟩
        actions :=
          { cv := .disconnect, tc := .record, mg := .disconnect, rv := .record, ms := .record, so := .record
            pw := .record, ca := .record, rl := .disconnect }
        batteryCvs := [], batteryTcs := [], runCvs := [], runTcs := [], runMag := [], soHistory := []
        lastHanded := none, runDue := 0, batteryDue := 0, pwAt := none } ∧
    s.elg = ⟨[], 1⟩ ∧
    s.rpu = { notices := 512, mask := 1023, status := none, account := none, energy := none } ∧
    s.lnk =
      { state := .idle, returnReady := false, request := [], remainder := [], slot := [], readPos := 0
        holdTimer := none, clockLow := none, addressAcked := false, bytesAcked := 0, sent := [] } ∧
    s.pending = []

/-! ## Invariants -/

/-- The account laws, the energy ranges, the consistency of the link and the agreement of the log with the latches hold
at reset. -/
def Obligations.InvariantsHoldAtReset : Prop :=
  (State.reset.acu.Lawful) ∧
  (State.reset.piu.InRange) ∧
  (State.reset.lnk.Consistent) ∧
  (State.reset.LogAgrees)

/-- The account laws are kept by every step (R21, R23, R24). -/
def Obligations.AccountLawfulKept : Prop :=
  ∀ s t : State, s.acu.Lawful → step s = .next t → t.acu.Lawful

/-- The energy counts stay in range in every step (R1). -/
def Obligations.EnergyInRangeKept : Prop :=
  ∀ s t : State, s.piu.InRange → step s = .next t → t.piu.InRange

/-- The link stays consistent in every step (R185). -/
def Obligations.LinkConsistentKept : Prop :=
  ∀ s t : State, s.lnk.Consistent → step s = .next t → t.lnk.Consistent

/-! ## Pulses -/

/-- An accepted pulse: registers, billing, debit, history, reverse flag, stall and demand (R3 to R6, R8, R9, R12,
R14), with its frame; and an edge that is not taken or comes within 10 ms, which changes nothing but what its moment
brings (R2, R3). -/
def Obligations.PulseEdges : Prop :=
  (∀ (m : Moment) (n : Phase) (s : State), (s.sdm.power = .run ∨ s.sdm.power = .holdup) →
      (∀ t0, s.piu.lastPulse.get n = some t0 → t0 + 10 ≤ s.now + m.elapsed) →
      let d : Direction := if m.pins.d.get n then .exporting else .importing
      let w := weightDwh s.piu.weight
      let billed := d = .importing ∨ s.piu.absolute = true
      let whole := billed ∧ 10 ≤ s.piu.residue + w
      let h := pushBounded 16 (s.piu.history.get n) d
      ∃ t, exec (.pulseEdge m n) s = .next t ∧
        t.piu.imports =
          (if d = .importing then s.piu.imports.set n ((s.piu.imports.get n + w) % 2 ^ 48) else s.piu.imports) ∧
        t.piu.exports =
          (if d = .exporting then s.piu.exports.set n ((s.piu.exports.get n + w) % 2 ^ 48) else s.piu.exports) ∧
        (whole → t.piu.residue = s.piu.residue + w - 10 ∧ t.piu.billedWh = (s.piu.billedWh + 1) % 2 ^ 64 ∧
          t.acu = s.acu.alarmAfter (s.acu.charge (s.tcu.active.prices.get (currentBand s.tcu)))) ∧
        (¬whole → t.piu.billedWh = s.piu.billedWh ∧ t.acu = s.acu ∧
          (billed → t.piu.residue = s.piu.residue + w) ∧ (¬billed → t.piu.residue = s.piu.residue)) ∧
        t.piu.lastPulse = s.piu.lastPulse.set n (some (s.now + m.elapsed)) ∧
        t.piu.history = s.piu.history.set n h ∧
        t.piu.reverseFlag.get n =
          (if s.piu.reverseFlag.get n then !(h.length == 16 && decide (h.countP (· == .exporting) ≤ 2))
           else decide (12 ≤ h.countP (· == .exporting))) ∧
        t.piu.stallTimer.get n = 0 ∧ t.piu.stallFlag.get n = false ∧
        (s.piu.demand = .waiting → t.piu.demand = .waiting) ∧
        (∀ acc, s.piu.demand = .running acc → t.piu.demand = .running (acc + w)) ∧
        t.piu.weight = s.piu.weight ∧ t.piu.absolute = s.piu.absolute ∧ t.piu.stallTime = s.piu.stallTime ∧
        t.piu.lastDemand = s.piu.lastDemand ∧ t.tcu = s.tcu ∧ t.ots = s.ots ∧ t.sdm = s.sdm ∧
        t.cda = (observe m 0 s).cda ∧ t.lnk = (observe m 0 s).lnk ∧ t.pending = s.pending) ∧
  (∀ (m : Moment) (n : Phase) (s : State) (t0 : Nat),
      (s.sdm.power = .off ∨ s.sdm.power = .battery ∨ s.sdm.power = .starting ∨
        s.piu.lastPulse.get n = some t0 ∧ s.now + m.elapsed < t0 + 10) →
      exec (.pulseEdge m n) s = .next (observe m 0 s))

/-! ## Ticks -/

/-- A second tick counts the clock, the lockout and a penalty (R51, R89, R113), and leaves what no tick touches; in
OFF there is none; the tick from the top clock value makes the clock 0 and invalid. -/
def Obligations.SecondTicks : Prop :=
  (∀ (m : Moment) (s : State),
      (s.sdm.power = .off → exec (.secondTick m) s = .next (observe m 0 s)) ∧
      (s.sdm.power ≠ .off → ∃ t, exec (.secondTick m) s = .next t ∧
        t.tcu.clock = (if s.tcu.clock + 1 < 2 ^ 32 then s.tcu.clock + 1 else 0) ∧
        t.tcu.valid = (s.tcu.valid && decide (s.tcu.clock + 1 < 2 ^ 32)) ∧
        t.cda.lockoutLeft = s.cda.lockoutLeft - 1 ∧
        (∀ e n, s.swc.table.loadLimit = some e → e.penalty = some (.seconds n) → 2 ≤ n →
          t.tcu.clock % 60 ≠ 0 →
          t.swc.table.loadLimit = some { e with penalty := some (.seconds (n - 1)) }) ∧
        t.piu.imports = s.piu.imports ∧ t.piu.exports = s.piu.exports ∧ t.piu.billedWh = s.piu.billedWh ∧
        t.piu.residue = s.piu.residue ∧ t.ots = s.ots ∧ t.sdm = (observe m 0 s).sdm ∧
        t.lnk = (observe m 0 s).lnk ∧ t.pins = m.pins ∧ t.pending = s.pending)) ∧
  (∀ (m : Moment) (s : State), s.sdm.power ≠ .off → s.tcu.clock = 4294967295 →
      ∃ t, exec (.clockWrap m) s = .next t ∧ t.tcu.clock = 0 ∧ t.tcu.valid = false ∧
        t.tcu.lastDay = s.tcu.lastDay ∧ t.tcu.active = s.tcu.active ∧ t.acu = s.acu ∧ t.ots = s.ots ∧
        t.sdm = (observe m 0 s).sdm ∧ t.pending = s.pending)

/-- A phase that reaches the stall time is found stalled (R11, R12), and the rest of the tick follows (log 7). -/
def Obligations.StallIsDetected : Prop :=
  ∀ (m : Moment) (n : Phase) (s : State), (s.sdm.power = .run ∨ s.sdm.power = .holdup) →
    s.swc.switch = .closed → m.pins.c.get n = true → s.piu.stallFlag.get n = false →
    s.piu.stallTime ≤ s.piu.stallTimer.get n + 1 →
    ∃ u, exec (.stallDetected m n) s =
        .next ([TickPart.lockout, .penalty, .supply, .demand, .calendar].foldl
          (fun x p => tickPart (s.cda.lockoutLeft == 1) (penaltySeconds s.swc.table == some 1) p x) u) ∧
      u.tcu.clock = clockAfterTick s.tcu.clock ∧ u.acu = s.acu ∧ u.ots = s.ots ∧
      u.piu.imports = s.piu.imports ∧ u.piu.exports = s.piu.exports ∧
      (s.tmp.actions.ms ≠ .disconnect →
        u.piu.stallFlag.get n = true ∧ u.piu.stallTimer.get n = s.piu.stallTimer.get n + 1) ∧
      (s.piu.stallFlag = .all false → s.tmp.latches.ms.condition = false → s.tmp.latches.ms.set = none →
        (s.tmp.actions.ms ≠ .off → ∃ x, u.tmp.latches.ms.set = some x ∧ x.phase = some n ∧
          x.time = clockAfterTick s.tcu.clock ∧ x.record = s.elg.nextSeq) ∧
        (s.tmp.actions.ms = .off → u.tmp.latches.ms = ⟨true, none, s.tmp.latches.ms.repeats⟩))

/-- The tick that ends a demand minute (R14): a running window hands six times its count and starts anew; a waiting one
starts. What the Switch Controller does with the minute (table of R125): the over-limit count by switch state, effective
limit (R124) and demand, and at the second minute the trip of R126, in RUN and in HOLDUP (R132); the rest of the tick
follows (log 7). And what a day boundary takes back (R127): the trips of the day and a penalty held until it. -/
def Obligations.DemandMinuteEnds : Prop :=
  (∀ (m : Moment) (s : State), (s.sdm.power = .run ∨ s.sdm.power = .holdup) →
    clockAfterTick s.tcu.clock % 60 = 0 →
    let clock := clockAfterTick s.tcu.clock
    let limit : Nat :=
      if (s.swc.held = .emergency ∨ s.swc.held = .exhausted) ∧ s.swc.reducedLimit ≠ 0 then s.swc.reducedLimit
      else s.swc.normalLimit
    let trips := min 255 (s.swc.tripsToday + 1)
    let penalty : Penalty := if trips ≤ 3 then .seconds 300 else .untilBoundary
    ∃ t u, exec (.demandMinuteEnd m) s = .next t ∧
      t = [TickPart.lockout, .penalty, .stall .p1, .supply, .calendar].foldl
        (fun x p => tickPart (s.cda.lockoutLeft == 1) (penaltySeconds s.swc.table == some 1) p x) u ∧
      t.piu.demand = .running 0 ∧
      (s.piu.demand = .waiting → t.piu.lastDemand = s.piu.lastDemand ∧
        u.swc = { s.swc with table := countPenalty s.swc.table }) ∧
      (∀ acc, s.piu.demand = .running acc →
        t.piu.lastDemand = some ⟨6 * acc, clock⟩ ∧
        (¬(s.swc.switch = .closed ∧ limit ≠ 0 ∧ limit < 6 * acc) →
          u.swc = { s.swc with overCount := 0, table := countPenalty s.swc.table }) ∧
        (s.swc.switch = .closed ∧ limit ≠ 0 ∧ limit < 6 * acc →
          (s.swc.overCount = 0 → u.swc = { s.swc with overCount := 1, table := countPenalty s.swc.table }) ∧
          (1 ≤ s.swc.overCount →
            (∀ e, s.swc.table.loadLimit = some e →
              u.swc =
                { s.swc with
                  overCount := 0
                  tripsToday := trips
                  table := { s.swc.table with loadLimit := some { e with penalty := some penalty } } }) ∧
            (s.swc.table.loadLimit = none →
              u.swc.overCount = 0 ∧ u.swc.tripsToday = trips ∧
              u.swc.table = { s.swc.table with loadLimit := some ⟨false, clock, some penalty⟩ } ∧
              (s.swc.table.anyActive = false → s.sdm.power = .run →
                u.swc.switch = .opening ∧ u.swc.intended = .opened ∧ u.piu.stallFlag = .all false ∧
                  u.piu.stallTimer = .all 0 ∧
                  ∃ o, u.swc.op = some o ∧ o.target = .opened ∧ o.attempt = 1 ∧ o.releasedBy = none) ∧
              (s.swc.table.anyActive = true ∨ s.sdm.power = .holdup →
                u.swc.switch = .closed ∧ u.swc.intended = s.swc.intended ∧ u.swc.op = s.swc.op))))) ∧
      t.tcu.clock = clock ∧ t.piu.imports = s.piu.imports ∧
      t.piu.exports = s.piu.exports ∧ t.ots = s.ots ∧ t.sdm = s.sdm ∧ t.pending = s.pending) ∧
  (∀ (m : Moment) (s : State), (s.sdm.power = .run ∨ s.sdm.power = .holdup) → s.tcu.valid = true →
    s.tcu.clock + 1 < 2 ^ 32 → s.tcu.lastDay < (s.tcu.clock + 1) / 86400 →
    ∃ u, exec (.dayBoundary m) s =
        .next ([TickPart.lockout, .penalty, .stall .p1, .supply, .demand].foldl
          (fun x p => tickPart (s.cda.lockoutLeft == 1) (penaltySeconds s.swc.table == some 1) p x) u) ∧
      u.swc.tripsToday = 0 ∧
      (s.swc.table.loadLimit = none → u.swc.table.loadLimit = none) ∧
      (∀ e, s.swc.table.loadLimit = some e →
        (e.penalty = some .untilBoundary → u.swc.table.loadLimit = none) ∧
        (∀ n, e.penalty = some (.seconds n) →
          u.swc.table.loadLimit = some { e with penalty := some (.seconds (n - 1)) }) ∧
        (e.penalty = some .untilBoundary → e.deferred = false → s.swc.switch = .opened →
          s.swc.table.credit = none → entryActive s.swc.table.tamper = false →
          entryActive s.swc.table.order = false → entryActive s.swc.table.commission = false →
          s.tcu.lastDay + 1 = (s.tcu.clock + 1) / 86400 → s.tcu.active.standing = 0 → s.tcu.untilDay = none →
          u.swc.switch = .armed ∧ u.swc.intended = .armed)))

/-- The tick past midnight delivers each boundary that is due (R68 to R71), with its standing charge (R26), its resets
and the notices DAY, TARIFF (R69, R70), ACCOUNT and LOW_ALARM (R44); for the next day alone, its standing charge is the
one claim. What a boundary takes back of the load limit (R127) stands in `DemandMinuteEnds`. -/
def Obligations.DayBoundaryIsDelivered : Prop :=
  ∀ (m : Moment) (s : State), (s.sdm.power = .run ∨ s.sdm.power = .holdup) → s.tcu.valid = true →
    s.tcu.clock + 1 < 2 ^ 32 → s.tcu.lastDay < (s.tcu.clock + 1) / 86400 →
    ∃ t, exec (.dayBoundary m) s = .next t ∧ t.tcu.clock = s.tcu.clock + 1 ∧
      t.tcu.lastDay = (s.tcu.clock + 1) / 86400 ∧ t.tcu.trimUsed = 0 ∧ t.cda.lockoutsToday = 0 ∧
      BoundariesTaken ((s.tcu.clock + 1) / 86400) s t ∧
      t.rpu.notices.getLsbD 7 = true ∧
      (t.rpu.notices.getLsbD 6 = true ↔
        s.rpu.notices.getLsbD 6 = true ∨ s.tcu.actPending = true ∧ s.tcu.actDay ≤ (s.tcu.clock + 1) / 86400) ∧
      (s.tcu.lastDay + 1 = (s.tcu.clock + 1) / 86400 →
        ClaimNoticed s t ∧
        t.acu = s.acu.alarmAfter (s.acu.charge (s.tcu.active.standing * 1000)) ∧
        (s.tcu.actPending = true ∧ s.tcu.actDay ≤ s.tcu.lastDay + 1 →
          t.tcu.active = s.tcu.passive ∧ t.tcu.actPending = false) ∧
        (¬(s.tcu.actPending = true ∧ s.tcu.actDay ≤ s.tcu.lastDay + 1) → t.tcu.active = s.tcu.active) ∧
        (∀ u, s.tcu.untilDay = some u →
          t.tcu.untilDay = if u < s.tcu.lastDay + 1 then none else some u)) ∧
      t.piu.imports = s.piu.imports ∧ t.piu.exports = s.piu.exports ∧ t.ots = s.ots ∧ t.sdm = s.sdm ∧
      t.cda.groups = s.cda.groups ∧ t.cda.window0 = s.cda.window0 ∧ t.cda.streak = s.cda.streak ∧
      t.pending = s.pending

/-- The tick at which a lockout ends (R89): CA falls, and with MAIN powered the acceptor returns to IDLE. The tick at
which a penalty runs out (R113): the LOAD_LIMIT entry is removed, and an OPEN switch with no other ACTIVE entry
becomes ARMED (R114). The rest of each tick follows (log 7). -/
def Obligations.LockoutAndPenaltyEnd : Prop :=
  (∀ (m : Moment) (s : State), s.sdm.power ≠ .off → resetHeld s = false → s.cda.lockoutLeft = 1 →
      ∃ u, exec (.lockoutEnd m) s =
          .next ([TickPart.penalty, .stall .p1, .supply, .demand, .calendar].foldl
            (fun x p => tickPart true (penaltySeconds s.swc.table == some 1) p x) u) ∧
        u.cda.lockoutLeft = 0 ∧ u.tmp.latches.ca.condition = false ∧
        u.tmp.latches.ca.set = s.tmp.latches.ca.set ∧
        (s.sdm.power ≠ .battery → s.cda.acceptor = .lockout → u.cda.acceptor = .idle ∧ u.cda.buffer = []) ∧
        (s.sdm.power = .battery ∨ s.cda.acceptor ≠ .lockout → u.cda.acceptor = s.cda.acceptor) ∧
        u.cda.streak = s.cda.streak ∧ u.acu = s.acu ∧ u.ots = s.ots ∧ u.piu = s.piu ∧ u.elg = s.elg ∧
        u.rpu = s.rpu) ∧
  (∀ (m : Moment) (s : State) (e : Entry), s.sdm.power ≠ .off → resetHeld s = false →
      s.swc.table.loadLimit = some e → e.penalty = some (.seconds 1) →
      ∃ u, exec (.penaltyEnd m) s =
          .next ([TickPart.lockout, .stall .p1, .supply, .demand, .calendar].foldl
            (fun x p => tickPart (s.cda.lockoutLeft == 1) true p x) u) ∧
        u.swc.table = { s.swc.table with loadLimit := none } ∧
        (s.swc.switch = .opened → e.deferred = false →
          entryActive s.swc.table.credit = false → entryActive s.swc.table.tamper = false →
          entryActive s.swc.table.order = false → entryActive s.swc.table.commission = false →
          u.swc.switch = .armed ∧ u.swc.intended = .armed) ∧
        u.acu = s.acu ∧ u.ots = s.ots ∧ u.elg = s.elg ∧ u.piu.imports = s.piu.imports)

/-! ## The Code Acceptor -/

/-- The entry timer runs out (R80, R102): the entry ends with an ENTRY_TIMEOUT result and nothing else changes. -/
def Obligations.EntryTimesOut : Prop :=
  ∀ (m : Moment) (s : State) (left : Nat), (s.sdm.power = .run ∨ s.sdm.power = .holdup) →
    s.cda.entryTimer = some left → left ≤ m.elapsed →
    exec (.entryTimeout m) s =
      .next
        { observe m 0 s with
          cda :=
            { s.cda with
              acceptor := .idle
              buffer := []
              entryTimer := none
              lastResult := some ⟨.entryTimeout, none, s.tcu.clock, none⟩
              resultNumber := if s.cda.resultNumber < 255 then s.cda.resultNumber + 1 else 1 }
          rpu := { s.rpu with notices := s.rpu.notices ||| 4 } }

/-- The symbols taken (R78, R79, R81, R82, R85): digits, one after the other; BACK and CANCEL, in IDLE too; ENTER on
a buffer that is no code and no command; and ENTER on 24 digits below 2^76, which begins a decode. -/
def Obligations.KeySymbolsAreTaken : Prop :=
  (∀ (m : Moment) (s : State) (ds : List (Fin 10)), Listening s → s.ots.lock = true →
      (s.cda.acceptor = .idle ∨ s.cda.acceptor = .entry) → ds ≠ [] → s.cda.buffer.length + ds.length ≤ 24 →
      AnswersWith (.keys m (ds.map fun d => BitVec.ofNat 8 (0x30 + d.val)) []) m s 0x0F
        ([BitVec.ofNat 8 ds.length, 0, 1, BitVec.ofNat 8 (s.cda.buffer.length + ds.length)] ++
          bytesOfNat 2 s.cda.lockoutLeft)
        fun t => { t with
          cda := { t.cda with acceptor := .entry, buffer := s.cda.buffer ++ ds, entryTimer := some 30000 } }) ∧
  (∀ (m : Moment) (s : State), Listening s → s.ots.lock = true → s.cda.acceptor = .entry →
      let left := bytesOfNat 2 s.cda.lockoutLeft
      let n := s.cda.buffer.length
      (2 ≤ n → n ≤ 24 → AnswersWith (.keys m [0x08] []) m s 0x0F
        ([1, 0, 1, BitVec.ofNat 8 (n - 1)] ++ left)
        fun t => { t with cda := { t.cda with buffer := s.cda.buffer.dropLast, entryTimer := some 30000 } }) ∧
      (n = 1 → AnswersWith (.keys m [0x08] []) m s 0x0F ([1, 0, 0, 0] ++ left)
        fun t => { t with cda := { t.cda with acceptor := .idle, buffer := [], entryTimer := none } }) ∧
      AnswersWith (.keys m [0x18] []) m s 0x0F ([1, 0, 0, 0] ++ left)
        (fun t => { t with cda := { t.cda with acceptor := .idle, buffer := [], entryTimer := none } })) ∧
  (∀ (m : Moment) (s : State), Listening s → s.ots.lock = true → s.cda.acceptor = .idle → s.cda.buffer = [] →
      AnswersOnly (.keys m [0x08] []) m s 0x0F .ok ([1, 0, 0, 0] ++ bytesOfNat 2 s.cda.lockoutLeft) ∧
      AnswersOnly (.keys m [0x18] []) m s 0x0F .ok ([1, 0, 0, 0] ++ bytesOfNat 2 s.cda.lockoutLeft)) ∧
  (∀ (m : Moment) (s : State), Listening s → s.ots.lock = true →
      (s.cda.acceptor = .idle ∨ s.cda.acceptor = .entry) →
      let n := s.cda.buffer.length
      (n ≠ 24 ∧ n ≠ 3 ∨ n = 24 ∧ 2 ^ 76 ≤ natOfDigits s.cda.buffer ∨
          n = 3 ∧ s.cda.buffer ≠ [1, 1, 0] ∧ s.cda.buffer ≠ [1, 2, 0] →
        AnswersWith (.keys m [0x0D] []) m s 0x0F ([1, 0, 0, 0] ++ bytesOfNat 2 s.cda.lockoutLeft)
          fun t => { t with
            cda :=
              { t.cda with
                acceptor := .idle
                buffer := []
                entryTimer := none
                lastResult := some ⟨.format, none, s.tcu.clock, none⟩
                resultNumber := if s.cda.resultNumber < 255 then s.cda.resultNumber + 1 else 1 }
            rpu := { t.rpu with notices := t.rpu.notices ||| 4 } }) ∧
      (n = 24 → natOfDigits s.cda.buffer < 2 ^ 76 →
        AnswersWith (.keys m [0x0D] []) m s 0x0F ([1, 0, 2, 24] ++ bytesOfNat 2 s.cda.lockoutLeft)
          fun t => { t with
            cda := { t.cda with acceptor := .decoding, entryTimer := none, decodeSince := s.now + m.elapsed } }))

/-- The symbols and their codes (section 9.7.3). A symbol that the table of R77 refuses, or a digit that meets 24,
changes nothing and is reported (R77, R78); a request with a byte that is no symbol code is refused whole (R83), with an
empty payload, which is the model's reading (log 17). -/
def Obligations.RefusedSymbolChangesNothing : Prop :=
  (∀ (b : Byte) (x : Symbol), symbolOfByte b = some x ↔
    (∃ d : Fin 10, x = .digit d ∧ b.toNat = 48 + d.val) ∨ x = .back ∧ b.toNat = 8 ∨ x = .enter ∧ b.toNat = 13 ∨
      x = .cancel ∧ b.toNat = 24) ∧
  (∀ (m : Moment) (s : State) (b : Byte) (x : Symbol), Listening s → symbolOfByte b = some x →
    let reply (code acceptor : Byte) : List Byte :=
      [0, code, acceptor, BitVec.ofNat 8 s.cda.buffer.length] ++ bytesOfNat 2 s.cda.lockoutLeft
    let stands (code : Byte) : Prop :=
      AnswersOnly (.keys m [b] []) m s 0x0F .ok (reply code (BitVec.ofNat 8 s.cda.acceptor.code))
    (s.ots.lock = false → stands 1) ∧
      (s.ots.lock = true →
        (s.cda.acceptor = .retired → stands 2) ∧ (s.cda.acceptor = .lockout → stands 3) ∧
        (s.cda.acceptor = .decoding → stands 4) ∧
        (s.cda.acceptor = .idle ∨ s.cda.acceptor = .entry → s.cda.buffer.length = 24 →
          (∃ d, x = .digit d) → stands 5))) ∧
  (∀ (m : Moment) (s : State) (p : List Byte), Listening s → 1 ≤ p.length → p.length ≤ 26 →
    (∃ b ∈ p, symbolOfByte b = none) → AnswersOnly (.keys m p []) m s 0x0F .argument [])

/-- The local commands (R32, R33, R41, R82): 110 granted, with the claim that it makes and what that claim hands on (R43,
R44); 110 answered otherwise, and 120, which ends the alarm. Each ends the entry with its result. -/
def Obligations.LocalCommandsAreTaken : Prop :=
  (∀ (m : Moment) (s : State), Listening s → s.ots.lock = true → s.cda.acceptor = .entry →
    s.cda.buffer = [1, 1, 0] → s.acu.taken = false → s.acu.limit ≠ 0 → s.acu.state ≠ .inCredit →
    let floor : Int := -((s.acu.limit * 10000 : Nat) : Int)
    let moved := min s.acu.arrears (s.acu.balance - floor).toNat
    ∃ t, exec (.keys m [0x0D] []) s = .next t ∧
      Answered 0x0F .ok ([1, 0, 0, 0] ++ bytesOfNat 2 s.cda.lockoutLeft) t.lnk ∧
      t.acu.taken = true ∧ t.acu.balance = s.acu.balance - (moved : Int) ∧
      t.acu.arrears = s.acu.arrears - moved ∧ t.acu.limit = s.acu.limit ∧
      t.acu.threshold = s.acu.threshold ∧ t.acu.cap = s.acu.cap ∧ t.acu.opening = s.acu.opening ∧
      t.acu.credited = s.acu.credited ∧ t.acu.debited = s.acu.debited ∧ StateHanded s t ∧ ClaimNoticed s t ∧
      t.cda.lastResult = some ⟨.localCommand, none, s.tcu.clock, some (.localCommand .emergencyCredit .granted)⟩ ∧
      t.cda.acceptor = .idle ∧ t.cda.buffer = [] ∧ t.cda.streak = s.cda.streak ∧
      t.tcu = s.tcu ∧ t.elg = s.elg ∧ t.ots = s.ots ∧ t.sdm = s.sdm ∧ t.pending = s.pending) ∧
  (∀ (m : Moment) (s : State), Listening s → s.ots.lock = true → s.cda.acceptor = .entry →
    let answered (c : LocalCommand) (a : LocalAnswer) (alarm : Bool) : Prop :=
      AnswersWith (.keys m [0x0D] []) m s 0x0F ([1, 0, 0, 0] ++ bytesOfNat 2 s.cda.lockoutLeft)
        fun t => { t with
          acu := { t.acu with alarm := alarm }
          cda :=
            { t.cda with
              acceptor := .idle
              buffer := []
              entryTimer := none
              lastResult := some ⟨.localCommand, none, s.tcu.clock, some (.localCommand c a)⟩
              resultNumber := if s.cda.resultNumber < 255 then s.cda.resultNumber + 1 else 1 }
          rpu := { t.rpu with notices := t.rpu.notices ||| 4 } }
    (s.cda.buffer = [1, 1, 0] → s.acu.taken = true → answered .emergencyCredit .alreadyTaken s.acu.alarm) ∧
    (s.cda.buffer = [1, 1, 0] → s.acu.taken = false → s.acu.limit = 0 →
      answered .emergencyCredit .notOffered s.acu.alarm) ∧
    (s.cda.buffer = [1, 1, 0] → s.acu.taken = false → s.acu.limit ≠ 0 → s.acu.state = .inCredit →
      answered .emergencyCredit .notNeeded s.acu.alarm) ∧
    (s.cda.buffer = [1, 2, 0] → answered .alarmAcknowledge .granted false))

/-- A decode that no slot matched (R87): the streak and the result; the fifth begins a lockout (R88): its length, the
counts, the result, the record and the CA condition. -/
def Obligations.FailedDecodes : Prop :=
  (∀ (m : Moment) (s : State), (s.sdm.power = .run ∨ s.sdm.power = .holdup) → s.cda.acceptor = .decoding →
      (trySlots (bufferCode s) (enabledSlots s)).1 = none →
      s.cda.decodeSince + 10 * (enabledSlots s).length ≤ s.now + m.elapsed → s.cda.streak + 1 < 5 →
      exec (.decodeEnd m) s =
        .next
          { observe m 0 s with
            cda :=
              { s.cda with
                acceptor := .idle
                buffer := []
                entryTimer := none
                streak := s.cda.streak + 1
                lastResult := some ⟨.checkFailed, none, s.tcu.clock, some (.failure (s.cda.streak + 1) 0)⟩
                resultNumber := if s.cda.resultNumber < 255 then s.cda.resultNumber + 1 else 1 }
            rpu := { s.rpu with notices := s.rpu.notices ||| 4 } }) ∧
  (∀ (m : Moment) (s : State), (s.sdm.power = .run ∨ s.sdm.power = .holdup) → s.cda.acceptor = .decoding →
      (trySlots (bufferCode s) (enabledSlots s)).1 = none →
      s.cda.decodeSince + 10 * (enabledSlots s).length ≤ s.now + m.elapsed → s.cda.streak = 4 →
      let len := if s.cda.lockoutsToday < 4 then 600 * 2 ^ s.cda.lockoutsToday else 9600
      ∃ t, exec (.decodeEnd m) s = .next t ∧ t.cda.lockoutLeft = len ∧
        t.cda.lockoutsToday = min 255 (s.cda.lockoutsToday + 1) ∧ t.cda.streak = 0 ∧ t.cda.buffer = [] ∧
        t.cda.acceptor = .lockout ∧
        t.cda.lastResult = some ⟨.checkFailed, none, s.tcu.clock, some (.failure 5 len)⟩ ∧
        (s.elg.records.length ≤ 30 → ∃ r ∈ t.elg.records, r.type = .lockoutStart ∧ r.seq = s.elg.nextSeq ∧
          r.time = s.tcu.clock ∧ r.kind = none ∧ r.phase = none ∧ r.code = none) ∧
        t.tmp.latches.ca.condition = true ∧
        t.cda.groups = s.cda.groups ∧ t.cda.window0 = s.cda.window0 ∧ t.acu = s.acu ∧ t.tcu = s.tcu ∧
        t.ots = s.ots ∧ t.sdm = s.sdm ∧ t.lnk = (observe m 0 s).lnk ∧ t.pending = s.pending)

/-- An accepted code (R93, R94): the result, an idle acceptor, a streak of 0, and for every class but REINSTATE the
window of its slot alone. -/
def Obligations.AcceptedCodeIsTakenWhole : Prop :=
  ∀ (m : Moment) (s : State) (i : Slot) (f : Fields) (k : Nat),
    (s.sdm.power = .run ∨ s.sdm.power = .holdup) → s.cda.acceptor = .decoding →
    trySlots (bufferCode s) (enabledSlots s) = (some (i, f), k) →
    s.cda.decodeSince + 10 * k ≤ s.now + m.elapsed → verdict i f s = .accepted →
    ∃ t, exec (.decodeEnd m) s = .next t ∧ t.cda.acceptor = .idle ∧ t.cda.buffer = [] ∧ t.cda.streak = 0 ∧
      (∃ time d, t.cda.lastResult = some ⟨.accepted, some ⟨f.cls, i, f.seq⟩, time, d⟩ ∧
        (f.cls ≠ 11 → time = s.tcu.clock)) ∧
      (f.cls ≠ 13 → slotWindow t i = windowAccept (slotWindow s i) f.seq ∧
        ∀ j, j ≠ i → slotWindow t j = slotWindow s j) ∧
      (f.cls = 13 → t.cda.window0 = windowReinstate f.value f.seq ∧ t.cda.reinstate = false) ∧
      t.ots = s.ots ∧ t.sdm = s.sdm ∧ t.lnk = (observe m 0 s).lnk ∧ t.pins = m.pins ∧ t.pending = s.pending

/-- An accepted CREDIT code (R29 to R31): arrears first, the rest to the balance, the totals, the end of emergency
credit, the detail, and what the claim hands on (R43, R44). -/
def Obligations.CreditCodePaysArrearsFirst : Prop :=
  ∀ (m : Moment) (s : State) (i : Slot) (f : Fields) (k : Nat),
    (s.sdm.power = .run ∨ s.sdm.power = .holdup) → s.cda.acceptor = .decoding →
    trySlots (bufferCode s) (enabledSlots s) = (some (i, f), k) →
    s.cda.decodeSince + 10 * k ≤ s.now + m.elapsed → verdict i f s = .accepted → f.cls = 0 →
    let x := f.value * 10000
    let paid := min x s.acu.arrears
    ∃ t, exec (.decodeEnd m) s = .next t ∧ t.acu.balance = s.acu.balance + ((x - paid : Nat) : Int) ∧
      t.acu.balance ≤ ((s.acu.cap * 1000000 : Nat) : Int) ∧
      t.acu.arrears = s.acu.arrears - paid ∧ t.acu.credited = s.acu.credited + x ∧
      t.acu.debited = s.acu.debited ∧ t.acu.opening = s.acu.opening ∧
      t.acu.taken = (s.acu.taken && decide (t.acu.balance ≤ 0)) ∧ t.acu.limit = s.acu.limit ∧
      t.acu.threshold = s.acu.threshold ∧ t.acu.cap = s.acu.cap ∧
      t.cda.lastResult =
        some ⟨.accepted, some ⟨0, i, f.seq⟩, s.tcu.clock, some (.credit (x - paid) paid)⟩ ∧
      StateHanded s t ∧ ClaimNoticed s t ∧ t.tcu = s.tcu ∧ t.elg = s.elg ∧ t.ots = s.ots ∧ t.pending = s.pending

/-- What each class of accepted code but CREDIT does (R28, R34 to R39, R56, R61 to R63, R65, R98, R100, R109, R124, R128
to R130, R154, R155, R157, R169), and what no code touches: with classes 1 and 2 what the claim hands on (R43, R44), and
with class 11 the whole change of the clock (R53, R57). Where a clear comes together with a protected-write attempt,
at the same time of the timebase, the attempt counts as ACTIVE (log 41). `charge`, `setLimit` and `alarmAfter` are spelled
out in `TablesGiveTheirValues`, and so are the tariff and the calendar that `writePrice`, `writePoint` and `writeCalendar`
give. -/
def Obligations.CodesTakeEffect : Prop :=
  ∀ (m : Moment) (s : State) (i : Slot) (f : Fields) (k : Nat),
    (s.sdm.power = .run ∨ s.sdm.power = .holdup) → s.cda.acceptor = .decoding →
    trySlots (bufferCode s) (enabledSlots s) = (some (i, f), k) →
    s.cda.decodeSince + 10 * k ≤ s.now + m.elapsed → verdict i f s = .accepted →
    let latch (k : Kind) : Latch := s.tmp.latches.get k
    let active (k : Kind) : Bool := (latch k).condition || k == .pw && s.tmp.pwAt == some (s.now + m.elapsed)
    let named (k : Kind) : Bool := f.value.testBit (kindNumber k) && (latch k).set.isSome
    let cleared : List Kind := kindList.filter fun k => named k && !active k
    let record (n : Nat) (type : RecordType) (kind : Option Kind) (slot : Slot) : LogRecord :=
      { seq := n, time := s.tcu.clock, timeValid := s.tcu.valid, type := type, kind := kind, phase := none
        code := some ⟨slot, f.seq⟩, balance := s.acu.balance, billedWh := s.piu.billedWh, guarded := false }
    ∃ t, exec (.decodeEnd m) s = .next t ∧
      (f.cls = 1 → t.acu = s.acu.alarmAfter (s.acu.charge (f.value * 10000))) ∧
      (f.cls = 2 →
        (f.selector = 0 → t.acu = s.acu.alarmAfter (s.acu.setLimit f.value)) ∧
        (f.selector = 1 → t.acu = s.acu.alarmAfter { s.acu with threshold := f.value }) ∧
        (f.selector = 2 → t.acu = s.acu.alarmAfter { s.acu with cap := f.value })) ∧
      (f.cls = 1 ∨ f.cls = 2 → StateHanded s t ∧ ClaimNoticed s t) ∧
      (f.cls = 3 →
        (f.selector = 0 → t.swc = { s.swc with normalLimit := f.value }) ∧
        (f.selector = 1 → t.swc = { s.swc with reducedLimit := f.value })) ∧
      (f.cls = 4 → ∃ p, writePrice f.selector f.value s.tcu.passive = some p ∧
        t.tcu = { s.tcu with passive := p }) ∧
      (f.cls = 5 → ∃ p, writePoint f.selector f.value s.tcu.passive = some p ∧
        t.tcu = { s.tcu with passive := p }) ∧
      (f.cls = 6 → t.tcu = { s.tcu with actPending := true, actDay := f.value }) ∧
      (f.cls = 7 → ∃ c, writeCalendar f.selector f.value s.tcu.cal = some c ∧
        t.tcu = { s.tcu with cal := c, lastFriendly := some (friendlyNow { s.tcu with cal := c }) }) ∧
      (f.cls = 8 →
        (∀ k, (t.tmp.latches.get k).set = (if cleared.contains k then none else (latch k).set) ∧
          (t.tmp.latches.get k).repeats = (if cleared.contains k then 0 else (latch k).repeats)) ∧
        t.elg = cleared.foldl
          (fun log k =>
            let joined := log.join (record log.nextSeq .tamperCleared (some k) i)
            { joined with
              records := joined.records.map fun r =>
                if r.type = .tamperSet ∧ r.kind = some k ∧ (latch k).set.map (·.record) = some r.seq then
                  { r with guarded := false }
                else r })
          s.elg ∧
        t.swc.table.tamper.isSome = tamperRequired t.tmp ∧
        (cleared ≠ [] → t.rpu.notices.getLsbD 5 = true) ∧
        ∃ c r, t.cda.lastResult = some ⟨.accepted, some ⟨8, i, f.seq⟩, s.tcu.clock, some (.clear c r)⟩ ∧
          ∀ k, c.getLsbD (kindNumber k) = (named k && !active k) ∧ r.getLsbD (kindNumber k) = (named k && active k)) ∧
      (f.cls = 9 → ∃ k a, kindNumber k = f.selector ∧ Action.code a = f.value ∧
        t.tmp.actions = s.tmp.actions.set k a ∧ t.swc.table.tamper.isSome = tamperRequired t.tmp) ∧
      (f.cls = 10 →
        (f.selector = 0 → t.swc.table = { s.swc.table with order := none } ∧ t.tcu = s.tcu) ∧
        (f.selector = 1 → t.tcu = s.tcu ∧
          t.swc.table =
            { s.swc.table with
              order := match s.swc.table.order with
                | some e => some e
                | none => some ⟨false, s.tcu.clock, none⟩ }) ∧
        (f.selector = 2 →
          t.tcu = { s.tcu with untilDay := some (min 49710 (s.tcu.lastDay + f.value - 1)) } ∧
          t.swc.table = { s.swc.table with credit := none }) ∧
        (f.selector = 3 →
          t.tcu = { s.tcu with untilDay := none } ∧
          t.swc.table =
            { s.swc.table with
              credit :=
                if s.swc.held = .exhausted then
                  match s.swc.table.credit with
                  | some e => some e
                  | none => some ⟨friendlyNow s.tcu, s.tcu.clock, none⟩
                else none }) ∧
        (f.selector = 4 → s.swc.switch = .fault → t.tcu = s.tcu ∧ t.swc.table = s.swc.table ∧
          t.swc.switch = if s.swc.table.anyActive then .opening else .closing) ∧
        (f.selector = 4 → s.swc.switch ≠ .fault → t.tcu = s.tcu ∧ t.swc = s.swc)) ∧
      (f.cls = 11 →
        let offset : Int := if f.value < 8388608 then (f.value : Int) else (f.value : Int) - 16777216
        let day := t.tcu.clock / 86400
        (t.tcu.clock : Int) = (s.tcu.clock : Int) + offset ∧ t.tcu.valid = true ∧
        (s.tcu.valid = true → offset = 0 →
          t.tcu = s.tcu ∧ t.piu = s.piu ∧ t.acu = s.acu ∧ t.swc = s.swc ∧ t.tmp = s.tmp ∧
            t.cda.lockoutsToday = s.cda.lockoutsToday) ∧
        (s.tcu.valid = true → offset ≠ 0 →
          BoundariesTaken day s t ∧ t.tcu.lastFriendly = some (friendlyNow t.tcu) ∧
            (s.tcu.lastDay < day → t.swc.tripsToday = 0 ∧
              (∀ e, s.swc.table.loadLimit = some e → e.penalty = some .untilBoundary →
                t.swc.table.loadLimit = none)) ∧
            (day ≤ s.tcu.lastDay → t.swc.tripsToday = s.swc.tripsToday ∧
              t.swc.table.loadLimit = s.swc.table.loadLimit)) ∧
        (s.tcu.valid = false →
          t.tcu.lastDay = day ∧ t.tcu.trimUsed = 0 ∧ t.tcu.lastFriendly = some (friendlyNow t.tcu) ∧
            (s.tcu.untilDay = none → t.tcu.untilDay = none) ∧
            (∀ u, s.tcu.untilDay = some u → t.tcu.untilDay = some (min 49710 (u + day - s.tcu.lastDay))) ∧
            t.tcu.active = s.tcu.active ∧ t.tcu.passive = s.tcu.passive ∧
            t.tcu.actPending = s.tcu.actPending ∧ t.tcu.actDay = s.tcu.actDay ∧ t.tcu.cal = s.tcu.cal ∧
            t.acu = s.acu ∧ t.cda.lockoutsToday = s.cda.lockoutsToday ∧
            t.swc.tripsToday = s.swc.tripsToday ∧ t.swc.table.loadLimit = s.swc.table.loadLimit ∧
            (∀ n ∈ [0, 1, 6, 7], t.rpu.notices.getLsbD n = s.rpu.notices.getLsbD n)) ∧
        (s.tcu.valid = false ∨ offset ≠ 0 → t.piu.demand = .waiting ∧ t.piu.lastDemand = s.piu.lastDemand)) ∧
      (f.cls = 12 → ∃ j g, slotNumber j = f.selector ∧ s.cda.groups.get j = some g ∧
        t.cda.groups = s.cda.groups.set j { g with enabled := false }) ∧
      (f.cls = 13 → t.elg = s.elg.join (record s.elg.nextSeq .reinstated none .slot0) ∧
        (s.cda.retired = false →
          t.tmp = { s.tmp with latches := { s.tmp.latches with rl := { s.tmp.latches.rl with condition := false } } }) ∧
        (s.cda.retired = true → t.tmp = s.tmp)) ∧
      (1 < f.cls → f.cls ≠ 2 → f.cls ≠ 11 → t.acu = s.acu) ∧
      (f.cls ≠ 8 → f.cls ≠ 13 → t.elg = s.elg) ∧
      (f.cls < 4 ∨ f.cls = 8 ∨ f.cls = 9 ∨ f.cls = 12 ∨ f.cls = 13 → t.tcu = s.tcu) ∧
      (f.cls = 4 ∨ f.cls = 5 ∨ f.cls = 6 ∨ f.cls = 12 ∨ f.cls = 13 → t.swc = s.swc) ∧
      (3 ≤ f.cls → f.cls ≤ 6 ∨ f.cls = 12 → t.tmp = s.tmp) ∧
      (f.cls ≠ 8 → ∀ k, (t.tmp.latches.get k).set = (latch k).set ∧
        (t.tmp.latches.get k).repeats = (latch k).repeats) ∧
      (f.cls ≠ 9 → t.tmp.actions = s.tmp.actions) ∧
      (f.cls ≠ 12 → ∀ j g, s.cda.groups.get j = some g →
        ∃ w, t.cda.groups.get j = some { g with window := w }) ∧
      (f.cls ≠ 11 → t.cda.lockoutsToday = s.cda.lockoutsToday) ∧
      (f.cls ≠ 13 → t.cda.reinstate = s.cda.reinstate) ∧
      t.cda.lockoutLeft = s.cda.lockoutLeft ∧ t.cda.retired = s.cda.retired ∧
      t.piu.imports = s.piu.imports ∧ t.piu.exports = s.piu.exports ∧ t.piu.billedWh = s.piu.billedWh ∧
      t.piu.residue = s.piu.residue ∧ t.piu.weight = s.piu.weight ∧ t.piu.absolute = s.piu.absolute ∧
      t.piu.stallTime = s.piu.stallTime ∧ t.piu.reverseFlag = s.piu.reverseFlag ∧ t.ots = s.ots ∧
      t.sdm = s.sdm ∧ t.pending = s.pending

/-- The values that the other statements name: a charge (R26), a new emergency limit (R34 to R37), the account state
(R22) and the alarm a claim leaves (R40); the current band (R59) and the friendly period (R66); the class conditions
(R95) and the argument rules (R96, R97); the window that a REINSTATE code leaves (R100); and what a price, a schedule
point (R61, R62) and a calendar field (R65, R66) write, with the bits of their values (section 9.7.4). -/
def Obligations.TablesGiveTheirValues : Prop :=
  (∀ (a : Account) (x v : Nat),
    let floor : Int := if a.taken then -((a.limit * 10000 : Nat) : Int) else 0
    let floor' : Int := -((v * 10000 : Nat) : Int)
    let moved := min a.arrears (a.balance - floor').toNat
    ((x : Int) ≤ a.balance - floor →
      a.charge x = { a with balance := a.balance - (x : Int), debited := a.debited + x }) ∧
    (floor ≤ a.balance → a.balance - floor < (x : Int) →
      a.charge x =
        { a with balance := floor, arrears := a.arrears + (x - (a.balance - floor).toNat), debited := a.debited + x }) ∧
    (a.taken = false → a.setLimit v = { a with limit := v }) ∧
    (a.taken = true →
      (v = a.limit → a.setLimit v = a) ∧
      (v ≠ a.limit → v = 0 → 0 ≤ a.balance → a.setLimit v = { a with limit := 0, taken := false }) ∧
      (v ≠ a.limit → v = 0 → a.balance < 0 →
        a.setLimit v =
          { a with limit := 0, taken := false, balance := 0, arrears := a.arrears + (-a.balance).toNat }) ∧
      (0 < v → v < a.limit → floor' ≤ a.balance → a.setLimit v = { a with limit := v }) ∧
      (0 < v → v < a.limit → a.balance < floor' →
        a.setLimit v =
          { a with limit := v, balance := floor', arrears := a.arrears + (floor' - a.balance).toNat }) ∧
      (a.limit < v →
        a.setLimit v =
          { a with limit := v, balance := a.balance - (moved : Int), arrears := a.arrears - moved })) ∧
    a.state =
      (if a.balance = floor then .exhausted
       else if a.taken = true then .emergency
       else if a.balance ≤ ((a.threshold * 10000 : Nat) : Int) then .low
       else .inCredit) ∧
    ∀ b : Account,
      (b.state = a.state → a.alarmAfter b = b) ∧
      (b.state ≠ a.state → b.state = .inCredit → a.alarmAfter b = { b with alarm := false }) ∧
      (b.state ≠ a.state → b.state ≠ .inCredit → a.alarmAfter b = { b with alarm := true })) ∧
  (∀ x : Tcu,
    let day := x.clock / 86400
    let minute := x.clock % 86400 / 60
    let rest : Prop := x.cal.restDays.getLsbD (day % 7) = true ∨ ∃ h ∈ x.cal.holidays.toList, h = some day
    (x.valid = false → currentBand x = 0 ∧ friendlyNow x = false) ∧
    (x.valid = true →
      (∀ points : List Point, (rest → points = x.active.rest.toList) → (¬rest → points = x.active.work.toList) →
        (∀ i p, points[i]? = some p → p.enabled = true → p.minute ≤ minute →
          (∀ (j : Nat) (q : Point), points[j]? = some q → q.enabled = true → q.minute ≤ minute →
            q.minute < p.minute ∨ q.minute = p.minute ∧ i ≤ j) →
          currentBand x = p.band) ∧
        (∀ i p, points[i]? = some p → p.enabled = true →
          (∀ q ∈ points, q.enabled = true → minute < q.minute) →
          (∀ (j : Nat) (q : Point), points[j]? = some q → q.enabled = true →
            q.minute < p.minute ∨ q.minute = p.minute ∧ i ≤ j) →
          currentBand x = p.band) ∧
        ((∀ p ∈ points, p.enabled = false) → currentBand x = 0)) ∧
      (friendlyNow x = true ↔
        (∃ w ∈ x.cal.windows.toList, w.enabled = true ∧
          (w.start < w.stop ∧ w.start ≤ minute ∧ minute < w.stop ∨
            w.stop < w.start ∧ (w.start ≤ minute ∨ minute < w.stop) ∨ w.start = w.stop)) ∨
        rest ∧ x.cal.restFriendly = true))) ∧
  (∀ (f : Fields) (s : State), f.value < 2 ^ 24 →
    let t := (s.tcu.clock : Int) + signedValue f.value
    let x := f.value * 10000
    (f.cls = 0 → classCondition f s =
      if s.acu.balance + ((x - min x s.acu.arrears : Nat) : Int) ≤ ((s.acu.cap * 1000000 : Nat) : Int) then none
      else some .cap) ∧
    (f.cls = 11 → classCondition f s = if 0 ≤ t ∧ t ≤ 4294967295 then none else some .argument) ∧
    (f.cls = 13 → classCondition f s = if s.cda.reinstate = true then none else some .notRequired) ∧
    (f.cls ≠ 0 → f.cls ≠ 11 → f.cls ≠ 13 → classCondition f s = none) ∧
    (argumentOk f s = true ↔
      (f.cls = 0 ∨ f.cls = 1) ∧ f.selector = 0 ∧ 1 ≤ f.value ∨
      f.cls = 2 ∧ (f.selector = 0 ∨ f.selector = 1 ∨ f.selector = 2 ∧ 1 ≤ f.value) ∨
      f.cls = 3 ∧ f.selector ≤ 1 ∨
      f.cls = 4 ∧ (f.selector ≤ 3 ∧ f.value ≤ 1000000 ∨ f.selector = 4) ∨
      f.cls = 5 ∧ f.selector ≤ 15 ∧ f.value < 16384 ∧ f.value % 2048 ≤ 1439 ∨
      f.cls = 6 ∧ f.selector = 0 ∧ f.value ≤ 49710 ∨
      f.cls = 7 ∧
        (f.selector ≤ 11 ∧ f.value ≤ 49710 ∨ f.selector = 12 ∧ f.value ≤ 127 ∨
          16 ≤ f.selector ∧ f.selector ≤ 19 ∧ f.value < 8388608 ∧ f.value % 2048 ≤ 1439 ∧
            f.value / 2048 % 2048 ≤ 1439 ∨
          f.selector = 20 ∧ f.value ≤ 1) ∨
      f.cls = 8 ∧ f.selector = 0 ∧ 1 ≤ f.value ∧ f.value ≤ 511 ∨
      f.cls = 9 ∧ f.selector ≤ 8 ∧ f.value ≤ 2 ∧ (f.selector = 8 → f.value = 2) ∧ (f.selector = 6 → 1 ≤ f.value) ∨
      f.cls = 10 ∧
        (f.selector ≤ 4 ∧ f.selector ≠ 2 ∧ f.value = 0 ∨ f.selector = 2 ∧ 1 ≤ f.value ∧ f.value ≤ 365) ∨
      f.cls = 11 ∧ f.selector = 0 ∨
      f.cls = 12 ∧ 1 ≤ f.selector ∧ f.selector ≤ 3 ∧ f.value = 0 ∨
      f.cls = 13 ∧ f.selector = s.ots.lossCount ∧ f.value ≤ 65535)) ∧
  (∀ v q : Nat,
    let top := max v q
    (windowReinstate v q).top = some top ∧
      ∀ x, x ∈ (windowReinstate v q).seen ↔ x < top ∧ top ≤ x + 32) ∧
  (∀ (sel v : Nat) (x : Tariff), v < 2 ^ 24 →
    (sel ≤ 3 → v ≤ 1000000 → writePrice sel v x = some { x with prices := x.prices.setIfInBounds sel v }) ∧
    (sel = 4 → writePrice sel v x = some { x with standing := v }) ∧
    (4 < sel ∨ sel ≤ 3 ∧ 1000000 < v → writePrice sel v x = none) ∧
    (v < 16384 → v % 2048 ≤ 1439 →
      let point : Point := ⟨v % 2048, Fin.ofNat 4 (v / 2048), v.testBit 13⟩
      pointOfValue v = some point ∧
      (sel ≤ 7 → writePoint sel v x = some { x with work := x.work.setIfInBounds sel point }) ∧
      (8 ≤ sel → sel ≤ 15 → writePoint sel v x = some { x with rest := x.rest.setIfInBounds (sel - 8) point }) ∧
      (15 < sel → writePoint sel v x = none)) ∧
    (16384 ≤ v ∨ 1439 < v % 2048 → pointOfValue v = none ∧ writePoint sel v x = none)) ∧
  (∀ (sel v : Nat) (c : Calendar), v < 2 ^ 24 →
    let window : Window := ⟨v % 2048, v / 2048 % 2048, v.testBit 22⟩
    let fits := v < 8388608 ∧ v % 2048 ≤ 1439 ∧ v / 2048 % 2048 ≤ 1439
    (sel ≤ 11 → v ≤ 49710 →
      writeCalendar sel v c =
        some { c with holidays := c.holidays.setIfInBounds sel (if v = 0 then none else some v) }) ∧
    (sel = 12 → v ≤ 127 → writeCalendar sel v c = some { c with restDays := BitVec.ofNat 7 v }) ∧
    (16 ≤ sel → sel ≤ 19 → fits →
      writeCalendar sel v c = some { c with windows := c.windows.setIfInBounds (sel - 16) window }) ∧
    (sel = 20 → v ≤ 1 → writeCalendar sel v c = some { c with restFriendly := v == 1 }) ∧
    (sel ≤ 11 ∧ 49710 < v ∨ sel = 12 ∧ 127 < v ∨ 12 < sel ∧ sel < 16 ∨ 16 ≤ sel ∧ sel ≤ 19 ∧ ¬fits ∨
        sel = 20 ∧ 1 < v ∨ 20 < sel →
      writeCalendar sel v c = none))

/-- The code that the buffer holds (R85), the slots that are tried and their order, from slot 3 down to slot 0, a
disabled slot being passed over, and the match of a slot with the fields it yields, bit by bit (R76, R86, section 9.7.4;
the scramble and the digest are given functions, log 11). The checks after a match, in the order of the table of R91, and
what a failure leaves at the end of the decode (R86): the result with its number and notice (R101, R102), an idle
acceptor with an empty buffer, and neither window, streak nor any other block. The moment of the command (log 3) and a
decode whose end comes late (log 33) are the model's. -/
def Obligations.ChecksAfterAMatch : Prop :=
  (∀ (ds : List (Fin 10)) (d : Fin 10) (s : State),
      natOfDigits [] = 0 ∧ natOfDigits (ds ++ [d]) = 10 * natOfDigits ds + d.val ∧
      (bufferCode s).toNat = natOfDigits s.cda.buffer % 2 ^ 76) ∧
  (∀ (key : Key) (v : Code) (f : Fields),
      let w := ((Config.scramble key).symm v).toNat
      unscramble key v = some f ↔
        BitVec.ofNat 24 (w % 2 ^ 24) = Config.digest key (BitVec.ofNat 52 (w / 2 ^ 24)) ∧
          f = ⟨w / 2 ^ 72, w / 2 ^ 56 % 2 ^ 16, w / 2 ^ 32 % 2 ^ 24, w / 2 ^ 24 % 2 ^ 8⟩) ∧
  (∀ (s : State) (cls : Nat), cls < 16 →
      let group (g : GroupSlot) : Option Key := if g.enabled = true then g.key else none
      let key : Slot → Option Key
        | .slot0 => s.ots.key0
        | .slot1 => group s.cda.groups.g1
        | .slot2 => group s.cda.groups.g2
        | .slot3 => group s.cda.groups.g3
      let yields (i : Slot) : Option Fields := (key i).bind fun k => unscramble k (bufferCode s)
      let tried (i : Slot) : Nat :=
        match key i with
        | some _ => 1
        | none => 0
      (enabledSlots s).length = tried .slot3 + tried .slot2 + tried .slot1 + tried .slot0 ∧
      trySlots (bufferCode s) (enabledSlots s) =
        (match yields .slot3, yields .slot2, yields .slot1, yields .slot0 with
          | some f, _, _, _ => (some (.slot3, f), 1)
          | none, some f, _, _ => (some (.slot2, f), tried .slot3 + 1)
          | none, none, some f, _ => (some (.slot1, f), tried .slot3 + tried .slot2 + 1)
          | none, none, none, some f => (some (.slot0, f), tried .slot3 + tried .slot2 + tried .slot1 + 1)
          | none, none, none, none =>
            (none, tried .slot3 + tried .slot2 + tried .slot1 + tried .slot0)) ∧
      maskHolds s .slot0 cls = true ∧ maskHolds s .slot1 cls = s.cda.groups.g1.mask.getLsbD cls ∧
      maskHolds s .slot2 cls = s.cda.groups.g2.mask.getLsbD cls ∧
      maskHolds s .slot3 cls = s.cda.groups.g3.mask.getLsbD cls ∧
      slotWindow s .slot0 = s.cda.window0 ∧ slotWindow s .slot1 = s.cda.groups.g1.window ∧
      slotWindow s .slot2 = s.cda.groups.g2.window ∧ slotWindow s .slot3 = s.cda.groups.g3.window) ∧
  (∀ (i : Slot) (f : Fields) (s : State),
      (s.cda.reinstate = true ∧ f.cls ≠ 13 → verdict i f s = .reinstateRequired) ∧
      (¬(s.cda.reinstate = true ∧ f.cls ≠ 13) →
        (f.cls = 14 ∨ f.cls = 15 → verdict i f s = .classRefused) ∧
        (f.cls ≠ 14 → f.cls ≠ 15 →
          (maskHolds s i f.cls = false ∨ (f.cls = 12 ∨ f.cls = 13) ∧ i ≠ .slot0 → verdict i f s = .authority) ∧
          (maskHolds s i f.cls = true → ((f.cls = 12 ∨ f.cls = 13) → i = .slot0) →
            (∀ o, windowTest (slotWindow s i) f.seq = some o → verdict i f s = o) ∧
            (windowTest (slotWindow s i) f.seq = none →
              (argumentOk f s = false → verdict i f s = .argument) ∧
              (argumentOk f s = true →
                (∀ o, classCondition f s = some o → verdict i f s = o) ∧
                (classCondition f s = none → verdict i f s = .accepted))))))) ∧
  (∀ (m : Moment) (s : State) (i : Slot) (f : Fields) (k : Nat),
      (s.sdm.power = .run ∨ s.sdm.power = .holdup) → s.cda.acceptor = .decoding →
      trySlots (bufferCode s) (enabledSlots s) = (some (i, f), k) →
      s.cda.decodeSince + 10 * k ≤ s.now + m.elapsed → verdict i f s ≠ .accepted →
      exec (.decodeEnd m) s =
        .next
          { observe m 0 s with
            cda :=
              { s.cda with
                acceptor := .idle
                buffer := []
                entryTimer := none
                lastResult := some ⟨verdict i f s, some ⟨f.cls, i, f.seq⟩, s.tcu.clock, none⟩
                resultNumber := if s.cda.resultNumber < 255 then s.cda.resultNumber + 1 else 1 }
            rpu := { s.rpu with notices := s.rpu.notices ||| 4 } })

/-- The window test and the update of a window (tables of R92 and R93); and a sequence that has been accepted, or that
is refused, is refused after every later acceptance. -/
def Obligations.NoSequenceIsAcceptedTwice : Prop :=
  (∀ q : Nat, windowTest ⟨none, []⟩ q = none ∧ windowAccept ⟨none, []⟩ q = ⟨some q, []⟩) ∧
  (∀ (t q : Nat) (seen : List Nat),
    (t < q → windowTest ⟨some t, seen⟩ q = none) ∧
    (q = t ∨ q < t ∧ q ∈ seen → windowTest ⟨some t, seen⟩ q = some .duplicate) ∧
    (q + 32 < t → q ∉ seen → windowTest ⟨some t, seen⟩ q = some .stale) ∧
    (q < t → t ≤ q + 32 → q ∉ seen → windowTest ⟨some t, seen⟩ q = none) ∧
    (t < q → (windowAccept ⟨some t, seen⟩ q).top = some q ∧
      ∀ x, x ∈ (windowAccept ⟨some t, seen⟩ q).seen ↔ (x = t ∨ x ∈ seen) ∧ q ≤ x + 32) ∧
    (q < t → (windowAccept ⟨some t, seen⟩ q).top = some t ∧
      ∀ x, x ∈ (windowAccept ⟨some t, seen⟩ q).seen ↔ x = q ∨ x ∈ seen)) ∧
  (∀ (w : SeqWindow) (q r : Nat), windowTest w r = none →
    windowTest (windowAccept w r) r = some .duplicate ∧
      (windowTest w q ≠ none → windowTest (windowAccept w r) q ≠ none))

/-! ## The switch -/

/-- The REST phase ends 3 s after the last coil pulse end, and one coil is driven for the pulse (R116, R117); the
pulse ends, its time is kept and the settle begins, in HOLDUP as in RUN (R117, R132); the coils are never driven
together, nor outside a PULSE phase. The times of an end that comes late are the model's (log 33). REST_END in HOLDUP,
where no PULSE begins (R132), is left out here. -/
def Obligations.CoilPulses : Prop :=
  (∀ (m : Moment) (s : State) (o : Operation), s.sdm.power = .run →
      (s.swc.switch = .opening ∨ s.swc.switch = .closing) → s.swc.op = some o → o.phase = .rest →
      s.swc.lastPulseEnd + 3000 ≤ s.now + m.elapsed →
      ∃ t, exec (.restEnd m) s = .next t ∧
        t = { observe m 0 s with
              swc := { s.swc with op := some { o with phase := .pulse, ends := s.now + m.elapsed + 60 } } } ∧
        t.coDriven = (o.target == .opened) ∧ t.ccDriven = (o.target == .closed)) ∧
  (∀ (m : Moment) (s : State) (o : Operation), (s.sdm.power = .run ∨ s.sdm.power = .holdup) →
      (s.swc.switch = .opening ∨ s.swc.switch = .closing) → s.swc.op = some o → o.phase = .pulse →
      o.ends ≤ s.now + m.elapsed →
      ∃ t, exec (.coilPulseEnd m) s = .next t ∧
        t = { observe m 0 s with
              swc :=
                { s.swc with
                  lastPulseEnd := s.now + m.elapsed
                  op := some { o with phase := .settle, ends := s.now + m.elapsed + 500 } } } ∧
        t.coDriven = false ∧ t.ccDriven = false) ∧
  (∀ s : State, ¬(s.coDriven = true ∧ s.ccDriven = true) ∧
      (s.coDriven = true ∨ s.ccDriven = true → mainPowered s.sdm.power = true ∧
        ∃ o, s.swc.op = some o ∧ o.phase = .pulse))

/-- The settle ends in a verification (R118 to R121): a pass, a further attempt, or FAULT. That FAULT keeps the
operation record is the model's reading (log 35), and so is a settle whose end comes late (log 33). SETTLE_END in
HOLDUP, which makes no verification (R132), is left out here. -/
def Obligations.SettleEndsInAVerification : Prop :=
  ∀ (m : Moment) (s : State) (o : Operation), s.sdm.power = .run →
    s.swc.switch = movingState o.target → s.swc.op = some o → o.phase = .settle →
    o.ends ≤ s.now + m.elapsed →
    let found := foundOf m.pins
    let v : Verification := ⟨found, outOfPlace m.pins (o.target == .closed)⟩
    ∃ t, exec (.settleEnd m) s = .next t ∧ t.swc.lastVerification = some v ∧ t.swc.table = s.swc.table ∧
      (o.target = .opened → found = .opened → s.swc.table.anyActive = true →
        t.swc.switch = .opened ∧ t.swc.op = none ∧ t.swc.intended = .opened ∧ t.elg = s.elg) ∧
      (o.target = .opened → found = .opened → s.swc.table.anyActive = false →
        (s.swc.auto = true ∧ (o.releasedBy = some .credit ∨ o.releasedBy = some .order) →
          t.swc.switch = .closing ∧ t.swc.intended = .closed) ∧
        (¬(s.swc.auto = true ∧ (o.releasedBy = some .credit ∨ o.releasedBy = some .order)) →
          t.swc.switch = .armed ∧ t.swc.intended = .armed)) ∧
      (o.target = .closed → found = .closed →
        (s.swc.table.anyActive = false → t.swc.switch = .closed ∧ t.swc.op = none) ∧
        (s.swc.table.anyActive = true → t.swc.switch = .opening ∧ t.swc.intended = .opened)) ∧
      (found ≠ targetFound o.target → o.attempt < 3 →
        t.swc.switch = s.swc.switch ∧ ∃ o', t.swc.op = some o' ∧ o'.target = o.target ∧
          o'.attempt = o.attempt + 1 ∧ o'.releasedBy = o.releasedBy ∧
          (s.now + m.elapsed < s.swc.lastPulseEnd + 3000 → o'.phase = .rest)) ∧
      (found ≠ targetFound o.target → 3 ≤ o.attempt →
        t.swc.switch = .fault ∧ t.swc.op = some o ∧
          t.swc.intended = (match o.target with | .opened => .opened | .closed => .closed) ∧
          t.elg = s.elg.join
            { seq := s.elg.nextSeq, time := s.tcu.clock, timeValid := s.tcu.valid, type := .switchFault
              kind := none, phase := v.phase, code := none, balance := s.acu.balance
              billedWh := s.piu.billedWh, guarded := false } ∧
          t.rpu.notices.getLsbD 4 = true ∧ t.rpu.notices.getLsbD 3 = true) ∧
      t.acu = s.acu ∧ t.tcu = s.tcu ∧ t.ots = s.ots ∧ t.sdm = s.sdm ∧ t.pending = s.pending

/-- A press is a rising edge on RCB after which the line has stayed high for 50 ms (R122): the line is high, the edge is
not older than the last moment at which the line was seen low, whichever command saw it, and is younger than the last
press (log 42). It is taken in RUN with the switch ARMED and no ACTIVE entry, and discarded otherwise; it is never kept.
An edge held for less than 50 ms, a line that is low or has been low since, a second edge of the same high level, and an
unpowered MAIN domain give no press. -/
def Obligations.ReconnectPressIsTakenOrDiscarded : Prop :=
  ∀ (m : Moment) (s : State) (held : Nat),
    let low := if s.pins.rcb then s.rcbLow else s.now
    (mainPowered s.sdm.power = true → resetHeld s = false → 50 ≤ held → m.pins.rcb = true →
      low + held ≤ s.now + m.elapsed → s.swc.lastPress + held < s.now + m.elapsed →
      (s.sdm.power = .run → s.swc.switch = .armed → s.swc.table.anyActive = false →
        ∃ t o, exec (.reconnectPress m held) s = .next t ∧ t.swc.switch = .closing ∧ t.swc.intended = .closed ∧
          t.swc.op = some o ∧ o.target = .closed ∧ o.attempt = 1 ∧ o.releasedBy = none ∧
          (s.now + m.elapsed < s.swc.lastPulseEnd + 3000 → o.phase = .rest) ∧ t.swc.pressLatch = false ∧
          t.swc.lastPress = s.now + m.elapsed ∧ t.rcbLow = low ∧
          t.swc.table = s.swc.table ∧ t.acu = s.acu ∧ t.tcu = s.tcu ∧ t.ots = s.ots ∧ t.elg = s.elg ∧
          t.pending = s.pending) ∧
      (¬(s.sdm.power = .run ∧ s.swc.switch = .armed ∧ s.swc.table.anyActive = false) →
        exec (.reconnectPress m held) s =
          .next { observe m 0 s with
            swc := { s.swc with pressLatch := false, lastPress := s.now + m.elapsed } })) ∧
    (held < 50 ∨ mainPowered s.sdm.power = false ∨ resetHeld s = true ∨ m.pins.rcb = false ∨
        s.now + m.elapsed < low + held ∨ resetHeld s = false ∧ s.now + m.elapsed ≤ s.swc.lastPress + held →
      exec (.reconnectPress m held) s = .next (observe m 0 s))

/-- What the switch does when a change of an entry makes the set of ACTIVE entries appear or leave (table of R114), in
every switch state, in HOLDUP too (R132), and what it does not do when the set stays as it was; how an account state that
is handed (R43), an override's end, and a friendly start or end (R67) change the CREDIT entry (R109, R110); the record
that a claim leaves (R25, R40) and the notices that it sets (R44), none while the MAIN domain is unpowered. -/
def Obligations.CausesMoveTheSwitch : Prop :=
  (∀ (s : State) (c : Cause) (e : Option Entry),
    let table := s.swc.table.set c e
    let t := changeEntry c e s
    let stands (x : Option Operation) : Prop := t.swc = { s.swc with table := table, op := x }
    let begins (target : Target) : Prop := ∃ o, t.swc.op = some o ∧ o.target = target ∧ o.attempt = 1 ∧
      o.releasedBy = none ∧ (s.now < s.swc.lastPulseEnd + 3000 → o.phase = .rest)
    (∀ d, table.get d = if d = c then e else s.swc.table.get d) ∧
    t.swc.table = table ∧
    (s.swc.table.anyActive = table.anyActive → stands s.swc.op) ∧
    (s.swc.table.anyActive = false → table.anyActive = true →
      (s.swc.switch = .closed → s.sdm.power ≠ .holdup →
        t.swc.switch = .opening ∧ t.swc.intended = .opened ∧ begins .opened) ∧
      (s.swc.switch = .closed → s.sdm.power = .holdup → stands s.swc.op) ∧
      (s.swc.switch = .armed → t.swc.switch = .opened ∧ t.swc.intended = .opened ∧ t.swc.op = none) ∧
      (s.swc.switch = .opening → stands (s.swc.op.map fun o => { o with releasedBy := none })) ∧
      (s.swc.switch = .verify ∨ s.swc.switch = .opened ∨ s.swc.switch = .closing ∨ s.swc.switch = .fault →
        stands s.swc.op)) ∧
    (s.swc.table.anyActive = true → table.anyActive = false →
      let auto := s.swc.auto = true ∧ (c = .credit ∨ c = .order)
      (s.swc.switch = .opened → auto → s.sdm.power ≠ .holdup →
        t.swc.switch = .closing ∧ t.swc.intended = .closed ∧ begins .closed) ∧
      (s.swc.switch = .opened → auto → s.sdm.power = .holdup → stands s.swc.op) ∧
      (s.swc.switch = .opened → ¬auto → t.swc.switch = .armed ∧ t.swc.intended = .armed ∧ t.swc.op = none) ∧
      (s.swc.switch = .opening → stands (s.swc.op.map fun o => { o with releasedBy := some c })) ∧
      (s.swc.switch = .verify ∨ s.swc.switch = .closed ∨ s.swc.switch = .closing ∨ s.swc.switch = .fault →
        stands s.swc.op)) ∧
    (mainPowered s.sdm.power = true → causeState e ≠ causeState (s.swc.table.get c) →
      t.rpu.notices.getLsbD 3 = true) ∧
    t.acu = s.acu ∧ t.tcu = s.tcu ∧ t.cda = s.cda ∧ t.ots = s.ots ∧ t.elg = s.elg ∧ t.sdm = s.sdm ∧
    t.lnk = s.lnk ∧ t.pending = s.pending) ∧
  (∀ s : State,
    let should := s.swc.held = .exhausted ∧ s.tcu.untilDay = none
    (should → s.swc.table.credit = none →
      evaluateCredit s = changeEntry .credit (some ⟨friendlyNow s.tcu, s.tcu.clock, none⟩) s) ∧
    (¬should → s.swc.table.credit ≠ none → evaluateCredit s = changeEntry .credit none s) ∧
    (should ∧ s.swc.table.credit ≠ none ∨ ¬should ∧ s.swc.table.credit = none → evaluateCredit s = s)) ∧
  (∀ (f : Account → Account) (s : State),
    let changed := (f s.acu).state ≠ s.acu.state
    (claim f s).acu = s.acu.alarmAfter (f s.acu) ∧
    (mainPowered s.sdm.power = false → (claim f s).rpu = s.rpu) ∧
    (mainPowered s.sdm.power = true →
      ((claim f s).rpu.notices.getLsbD 0 = true ↔
        s.rpu.notices.getLsbD 0 = true ∨ changed ∨ (f s.acu).taken ≠ s.acu.taken) ∧
      ((claim f s).rpu.notices.getLsbD 1 = true ↔
        s.rpu.notices.getLsbD 1 = true ∨ changed ∧ (f s.acu).state ≠ .inCredit) ∧
      (∀ n < 10, 2 ≤ n → n ≠ 3 → (claim f s).rpu.notices.getLsbD n = s.rpu.notices.getLsbD n)) ∧
    (¬changed → (f s.acu).taken = s.acu.taken → (claim f s).rpu = s.rpu) ∧
    (¬changed → (claim f s).swc = s.swc) ∧
    (changed →
      (claim f s).swc.held = (f s.acu).state ∧
      (claim f s).swc.table =
        { s.swc.table with
          credit :=
            if (f s.acu).state = .exhausted ∧ s.tcu.untilDay = none then
              match s.swc.table.credit with
              | some e => some e
              | none => some ⟨friendlyNow s.tcu, s.tcu.clock, none⟩
            else none })) ∧
  (∀ s : State,
    let v := friendlyNow s.tcu
    let s' := { s with tcu := { s.tcu with lastFriendly := some v } }
    (s.tcu.lastFriendly = some v → evaluateFriendly s = s) ∧
    (s.tcu.lastFriendly ≠ some v →
      (∀ e, s.swc.table.credit = some e →
        (e.deferred ≠ v → evaluateFriendly s = changeEntry .credit (some { e with deferred := v }) s') ∧
        (e.deferred = v → evaluateFriendly s = s')) ∧
      (s.swc.table.credit = none → evaluateFriendly s = s')))

/-- RV is handed at the pulse that changes it (R10); the switch that leaves CLOSED clears the stall flags and timers,
and MS falls (R12); the SO history and condition at a switch state handed (R144) and at a second (R143); the contactor
as found (R118), and the state that VERIFY gives (table of R131), as the start-up step that START_UP takes (log 9). The
order of the parts of a tick (lockout, penalty, stall, supply, demand, calendar; log 7) and the phase that its stall
part takes first (log 8) are the model's. -/
def Obligations.ConditionsAndVerifyByTheirTables : Prop :=
  (∀ (m : Moment) (n : Phase) (s : State), (s.sdm.power = .run ∨ s.sdm.power = .holdup) →
    (∀ t0, s.piu.lastPulse.get n = some t0 → t0 + 10 ≤ s.now + m.elapsed) →
    let any (x : Phases Bool) : Bool := x.p1 || x.p2 || x.p3
    let before := any s.piu.reverseFlag
    ∃ t, exec (.pulseEdge m n) s = .next t ∧
      (any t.piu.reverseFlag = before → t.tmp.latches.rv = s.tmp.latches.rv) ∧
      (any t.piu.reverseFlag ≠ before → t.tmp.latches.rv.condition = any t.piu.reverseFlag) ∧
      (before = false → any t.piu.reverseFlag = true → s.tmp.latches.rv.condition = false →
        s.tmp.actions.rv ≠ .off → s.tmp.latches.rv.set = none →
        t.tmp.latches.rv = ⟨true, some ⟨s.tcu.clock, some n, s.elg.nextSeq⟩, 0⟩) ∧
      (before = true → any t.piu.reverseFlag = false → t.tmp.latches.rv.set = s.tmp.latches.rv.set ∧
        t.tmp.latches.rv.repeats = s.tmp.latches.rv.repeats)) ∧
  (∀ (new : SwitchState) (s : State), s.swc.switch ≠ new →
    let pair (x : SwitchState) : Prop := x = .opened ∨ x = .armed
    let t := enterSwitch new s
    t.swc.switch = new ∧
    (s.swc.switch = .closed →
      t.piu = { s.piu with stallFlag := .all false, stallTimer := .all 0 } ∧ t.swc.overCount = 0 ∧
        t.tmp.latches.ms =
          { s.tmp.latches.ms with
            condition := s.tmp.latches.ms.condition &&
              !(s.piu.stallFlag.p1 || s.piu.stallFlag.p2 || s.piu.stallFlag.p3) }) ∧
    (s.swc.switch ≠ .closed → t.piu = s.piu ∧ t.tmp.latches.ms = s.tmp.latches.ms) ∧
    t.tmp.lastHanded = some new ∧
    (pair new → t.tmp.latches.so = s.tmp.latches.so ∧
      ((∃ old, s.tmp.lastHanded = some old ∧ pair old) → t.tmp.soHistory = s.tmp.soHistory) ∧
      (¬(∃ old, s.tmp.lastHanded = some old ∧ pair old) → t.tmp.soHistory = [])) ∧
    (¬pair new → t.tmp.soHistory = [] ∧ t.tmp.latches.so = { s.tmp.latches.so with condition := false })) ∧
  (∀ s : State,
    let active : Bool := s.pins.c.p1 || s.pins.c.p2 || s.pins.c.p3 || s.pins.l.p1 || s.pins.l.p2 || s.pins.l.p3
    let history := pushBounded 10 s.tmp.soHistory active
    let so := s.tmp.latches.so
    let t := tickPart false false .supply s
    ((s.sdm.power = .run ∨ s.sdm.power = .holdup) → (s.swc.switch = .opened ∨ s.swc.switch = .armed) →
      s.tmp.lastHanded = some s.swc.switch →
      t.tmp.soHistory = history ∧
      (so.condition = false → (t.tmp.latches.so.condition = true ↔ 8 ≤ history.count true)) ∧
      (so.condition = true → (t.tmp.latches.so.condition = false ↔ history.length = 10 ∧ history.count true = 0)) ∧
      (so.condition = false → 8 ≤ history.count true → s.tmp.actions.so ≠ .off → so.set = none →
        ∃ x, t.tmp.latches.so.set = some x ∧ x.time = s.tcu.clock ∧ x.record = s.elg.nextSeq ∧
          (active = true → ∃ n, x.phase = some n ∧ (s.pins.c.get n || s.pins.l.get n) = true ∧
            ∀ k : Phase, k.number < n.number → (s.pins.c.get k || s.pins.l.get k) = false))) ∧
    (s.sdm.power ≠ .run → s.sdm.power ≠ .holdup → t = s) ∧
    ((∀ x, s.tmp.lastHanded = some x → x ≠ .opened ∧ x ≠ .armed) → t = s)) ∧
  (∀ (m : Moment) (s : State), s.sdm.power ≠ .off →
    let part (t : State) (p : TickPart) : State :=
      tickPart (lockoutDue (observe m 0 s)) (penaltyDue (observe m 0 s)) p t
    exec (.secondTick m) s =
      .next (part (part (part
        (part (part (part (countTick (observe m 0 s)) .lockout) .penalty) (.stall .p1)) .supply) .demand) .calendar)) ∧
  (∀ p : Levels,
    (foundOf p = .opened ↔ p.aux = true ∧ ∀ n, p.v.get n = true → p.l.get n = false) ∧
    (foundOf p = .closed ↔ p.aux = false ∧ ∀ n, p.v.get n = true → p.l.get n = true) ∧
    ∀ (load : Bool),
      (∀ n, outOfPlace p load = some n ↔
        (p.v.get n = true ∧ p.l.get n ≠ load) ∧
          ∀ k : Phase, k.number < n.number → ¬(p.v.get k = true ∧ p.l.get k ≠ load))) ∧
  (∀ (m : Moment) (s : State), s.sdm.power = .starting → s.sdm.stepsBegun = true → s.sdm.nextStep = .verify →
    m.pins.vdd = true → m.pins.rstn = true → s.ots.burn = none → s.swc.switch = .verify →
    let found := foundOf m.pins
    let active := s.swc.table.anyActive = true
    ∃ t, exec (.startUp m ⟨false, some 1⟩) s = .next t ∧ t.sdm.nextStep = .acceptor ∧ t.sdm.power = .starting ∧
      t.swc.lastVerification = some ⟨found, outOfPlace m.pins (!m.pins.aux)⟩ ∧ t.swc.table = s.swc.table ∧
      (active → found = .opened → t.swc.switch = .opened ∧ t.swc.intended = .opened) ∧
      (active → found ≠ .opened → t.swc.switch = .opening ∧ t.swc.intended = .opened) ∧
      (¬active → s.swc.intended = .closed → found = .closed → t.swc.switch = .closed ∧ t.swc.intended = .closed) ∧
      (¬active → s.swc.intended = .closed → found ≠ .closed → t.swc.switch = .closing ∧ t.swc.intended = .closed) ∧
      (¬active → s.swc.intended ≠ .closed → found = .opened → t.swc.switch = .armed ∧ t.swc.intended = .armed) ∧
      (¬active → s.swc.intended ≠ .closed → found = .closed → t.swc.switch = .closed ∧ t.swc.intended = .closed) ∧
      (¬active → s.swc.intended ≠ .closed → found = .mixed → t.swc.switch = .opening ∧ t.swc.intended = .opened) ∧
      (t.swc.switch = .opening ∨ t.swc.switch = .closing →
        ∃ o, t.swc.op = some o ∧ o.attempt = 1 ∧ o.releasedBy = none ∧
          (s.now + m.elapsed < s.swc.lastPulseEnd + 3000 → o.phase = .rest)) ∧
      t.acu = s.acu ∧ t.tcu = s.tcu ∧ t.ots = s.ots ∧ t.elg = s.elg ∧ t.pending = s.pending)

/-! ## Tamper, the log, and the outputs -/

/-- A run filter sample and a battery filter sample (R140, R141): the histories, and the condition that each gives;
in BATTERY MG keeps its value and no notice is set. -/
def Obligations.FilterSamples : Prop :=
  (∀ (m : Moment) (s : State), (s.sdm.power = .run ∨ s.sdm.power = .holdup) → s.tmp.runDue ≤ s.now + m.elapsed →
      let cv := pushBounded 16 s.tmp.runCvs m.pins.cvs
      let tc := pushBounded 16 s.tmp.runTcs m.pins.tcs
      let mg := pushBounded 16 s.tmp.runMag m.pins.mag
      let after (before : Bool) (h : List Bool) : Bool :=
        if before then !(h.length == 16 && h.all (!·)) else decide (14 ≤ h.countP id)
      ∃ t, exec (.runFilterSample m) s = .next t ∧ t.tmp.runCvs = cv ∧ t.tmp.runTcs = tc ∧ t.tmp.runMag = mg ∧
        t.tmp.latches.cv.condition = after s.tmp.latches.cv.condition cv ∧
        t.tmp.latches.tc.condition = after s.tmp.latches.tc.condition tc ∧
        t.tmp.latches.mg.condition = after s.tmp.latches.mg.condition mg ∧
        t.tmp.actions = s.tmp.actions ∧ t.acu = s.acu ∧ t.tcu = s.tcu ∧ t.cda = (observe m 0 s).cda ∧
        t.ots = s.ots ∧ t.sdm = s.sdm ∧ t.piu.imports = s.piu.imports ∧ t.pending = s.pending) ∧
  (∀ (m : Moment) (s : State), s.sdm.power = .battery → s.tmp.batteryDue ≤ s.now + m.elapsed →
      let cv := pushBounded 4 s.tmp.batteryCvs m.pins.cvs
      let tc := pushBounded 4 s.tmp.batteryTcs m.pins.tcs
      let after (before : Bool) (h : List Bool) : Bool :=
        if before then !(h.length == 4 && h.all (!·)) else h.length == 4 && h.all id
      ∃ t, exec (.batteryFilterSample m) s = .next t ∧ t.tmp.batteryCvs = cv ∧ t.tmp.batteryTcs = tc ∧
        t.tmp.latches.cv.condition = after s.tmp.latches.cv.condition cv ∧
        t.tmp.latches.tc.condition = after s.tmp.latches.tc.condition tc ∧
        t.tmp.latches.mg = s.tmp.latches.mg ∧ t.tmp.actions = s.tmp.actions ∧ t.rpu = s.rpu ∧ t.acu = s.acu ∧
        t.tcu = s.tcu ∧ t.ots = s.ots ∧ t.sdm = s.sdm ∧ t.pending = s.pending)

/-- A condition that is handed. One that rises (R149, R150), by the action and the latch; one that falls, which writes the
condition and changes nothing else (R151); one handed with the value already held, which is no change (R145). -/
def Obligations.HandedConditionsAreTaken : Prop :=
  (∀ (k : Kind) (p : Option Phase) (s : State), k ≠ .pw →
    (s.tmp.latches.get k).condition = false → mainPowered s.sdm.power = true →
    let l := s.tmp.latches.get k
    let t := hand k true p s
    (s.tmp.actions.get k = .off → t = setLatch k { l with condition := true } s) ∧
    (s.tmp.actions.get k ≠ .off → l.set = none →
      t.elg = s.elg.join
        { seq := s.elg.nextSeq, time := s.tcu.clock, timeValid := s.tcu.valid, type := .tamperSet
          kind := some k, phase := p, code := none, balance := s.acu.balance
          billedWh := s.piu.billedWh, guarded := true } ∧
      (t.tmp.latches.get k).set = some ⟨s.tcu.clock, p, s.elg.nextSeq⟩ ∧
      (t.tmp.latches.get k).repeats = 0 ∧ t.rpu.notices.getLsbD 5 = true ∧
      (s.tmp.actions.get k = .disconnect → t.swc.table.tamper.isSome = true)) ∧
    (s.tmp.actions.get k ≠ .off → l.set ≠ none →
      (t.tmp.latches.get k).set = l.set ∧ (t.tmp.latches.get k).repeats = min 255 (l.repeats + 1) ∧
      t.elg = s.elg ∧ t.swc = s.swc ∧ t.rpu.notices.getLsbD 5 = true)) ∧
  (∀ (k : Kind) (p : Option Phase) (s : State),
    ((s.tmp.latches.get k).condition = true →
      hand k false p s =
        { s with
          tmp :=
            { s.tmp with
              latches := s.tmp.latches.set k { s.tmp.latches.get k with condition := false } } }) ∧
    ∀ v, (s.tmp.latches.get k).condition = v → hand k v p s = s)

/-- Every step keeps the Evidence Log in agreement with the set latches (R165, R168, R169, R171): at most 32 records,
their sequences rising below the top number, every protected record named by the set latch of its kind, and for every set
latch its protected TAMPER_SET record. So at most nine records are protected, and a full list holds an unprotected record
to lose. -/
def Obligations.LogAgreesKept : Prop :=
  (∀ s t : State, s.LogAgrees → step s = .next t → t.LogAgrees) ∧
  ∀ s : State, s.LogAgrees →
    (s.elg.records.filter (·.guarded)).length ≤ 9 ∧
      (s.elg.records.length < 32 ∨
        s.elg.records.length = 32 ∧ ∃ before x after, s.elg.records = before ++ x :: after ∧
          (∀ y ∈ before, y.guarded = true) ∧ x.guarded = false)

/-- An append (R168): the record takes the next sequence and joins at the newest end; a full list loses its oldest
unprotected record. That a list has at most 32 records, and that a full one holds an unprotected record, stands in
`LogAgreesKept`. -/
def Obligations.AppendKeepsTheLog : Prop :=
  ∀ (ty : RecordType) (k : Option Kind) (p : Option Phase) (c : Option RecordCode) (s : State),
    let r : LogRecord :=
      { seq := s.elg.nextSeq, time := s.tcu.clock, timeValid := s.tcu.valid, type := ty, kind := k, phase := p
        code := c, balance := s.acu.balance, billedWh := s.piu.billedWh, guarded := ty == .tamperSet }
    let t := append ty k p c s
    t = { s with elg := t.elg } ∧
      t.elg.nextSeq = (if s.elg.nextSeq < 4294967295 then s.elg.nextSeq + 1 else s.elg.nextSeq) ∧
      (s.elg.records.length < 32 → t.elg.records = s.elg.records ++ [r]) ∧
      (∀ before x after, s.elg.records.length = 32 → s.elg.records = before ++ x :: after →
        (∀ y ∈ before, y.guarded = true) → x.guarded = false →
        t.elg.records = before ++ after ++ [r])

/-- BZ is driven exactly while the alarm is pending in RUN (R42). -/
def Obligations.AlarmOutput : Prop :=
  ∀ s : State, s.bz = true ↔ s.acu.alarm = true ∧ s.sdm.power = .run

/-- ATN is low exactly in RUN or HOLDUP with a masked kind in the notice set (R180). -/
def Obligations.AttentionOutput : Prop :=
  ∀ s : State, s.atnLow = true ↔
    (s.sdm.power = .run ∨ s.sdm.power = .holdup) ∧
      ∃ k < 10, s.rpu.notices.getLsbD k = true ∧ s.rpu.mask.getLsbD k = true

/-- The day type of a day number (R60). -/
def Obligations.DayType : Prop :=
  ∀ (c : Calendar) (d : Nat), restDay c d = true ↔
    c.restDays.getLsbD (d % 7) = true ∨ ∃ h ∈ c.holidays.toList, h = some d

/-! ## The Message Link -/

/-- A write addressed to the part (R186): acknowledged in RUN in IDLE and REPLY_READY, not in WORKING nor outside RUN,
and ignored when it is addressed elsewhere; one that finds a write under way is a repeated START, which ends that write
with no byte (R187; log 40), and so does a read. A whole good frame written byte by byte is the request row that it
spells (R187, R188; log 13). A COMMISSION_WRITE value that is not its item's length, or an item number of no item, is
answered ARGUMENT (R194). In HOLDUP a faulty frame is answered FRAME_ERROR as in RUN (R188). A decode that ends between
the symbols of KEYS (R84; log 10): the symbol after it is handled against what it left, and one handled before it is
refused BUSY; with the fifth CHECK_FAILED the next symbol is refused LOCKED_OUT (logs 17, 20). -/
def Obligations.WritesAndTheirFrames : Prop :=
  (∀ (m : Moment) (s : State) (a : BitVec 7), resetHeld s = false →
    let own : BitVec 7 := if m.pins.ads then 0x2D else 0x2C
    let before := (observe m 0 s).lnk
    let ended : Lnk :=
      { before with state := if s.lnk.returnReady then .replyReady else .idle, request := [], clockLow := none }
    let low : Option Nat := if m.pins.scl then none else some 30
    let refused (l : Lnk) : Lnk := { l with addressAcked := false, bytesAcked := 0, sent := [] }
    let taken (l : Lnk) (ready : Bool) : Lnk :=
      { l with
        state := .receiving, returnReady := ready, request := [], clockLow := low, addressAcked := true
        bytesAcked := 0, sent := [] }
    let gives (l : Lnk) : Prop := exec (.writeAddressed m a) s = .next { observe m 0 s with lnk := l }
    (a = own → s.sdm.power = .run →
      (s.lnk.state = .idle → gives (taken before false)) ∧
      (s.lnk.state = .replyReady → gives (taken before true)) ∧
      (s.lnk.state = .working → gives (refused before)) ∧
      (s.lnk.state = .receiving → gives (taken ended s.lnk.returnReady))) ∧
    (a = own → s.sdm.power ≠ .run →
      (s.lnk.state ≠ .receiving → gives (refused before)) ∧ (s.lnk.state = .receiving → gives (refused ended))) ∧
    (a ≠ own → (s.lnk.state ≠ .receiving → gives before) ∧ (s.lnk.state = .receiving → gives ended)) ∧
    (∀ count, s.sdm.power = .run → s.lnk.state = .receiving → s.lnk.returnReady = false → a = own →
      exec (.readTransaction m a count 0) s =
        .next { observe m 0 s with
          lnk := { ended with
            addressAcked := true
            sent := (replyFrame 0x80 10 []).take count ++ List.replicate (count - 4) 0xFF } })) ∧
  (∀ (c : Instr) (m : Moment) (r : Request) (p : List Byte) (s : State), requestOf c = some (m, r, p) →
    (∀ q between, c = .keys m q between → between = []) → p.length ≤ 37 →
    exec (.frameError m (requestFrame r.kind p)) s = exec c s) ∧
  (∀ (c : Instr) (m : Moment) (item : Byte) (v : List Byte) (s : State), Listening s → s.ots.lock = false →
    1 ≤ v.length → v.length ≤ 20 →
    (requestOf c = some (m, .commissionWrite, item :: v) →
      ([12, 16, 20, 3, 1, 1, 2, 1, 9, 6, 9, 5, 4] : List Nat)[item.toNat - 1]? ≠ some v.length →
      AnswersOnly c m s 0x13 .argument []) ∧
    (item.toNat = 0 ∨ 13 < item.toNat →
      AnswersOnly (.frameError m (requestFrame 0x13 (item :: v))) m s 0x13 .argument [])) ∧
  (∀ (m : Moment) (s : State) (b : Byte) (bs : List Byte), s.sdm.power = .holdup → s.lnk.state = .receiving →
    (b.toNat < 3 ∨ 40 < b.toNat ∨ bs.length + 1 < b.toNat ∨
      (∃ body c, (b :: bs).take b.toNat = body ++ [c] ∧ c ≠ crc8 body)) →
    ∃ l, exec (.frameError m (b :: bs)) s = .next (afterFrame m s l) ∧ l.state = .replyReady ∧
      l.slot = replyFrame 0xFF 1 [] ∧ l.remainder = [] ∧ l.holdTimer = some 2000) ∧
  (∀ (m m' : Moment) (s : State) (d : Fin 10), Listening s → s.ots.lock = true → s.cda.acceptor = .decoding →
    (trySlots (bufferCode s) (enabledSlots s)).1 = none →
    s.cda.decodeSince + 10 * (enabledSlots s).length ≤ s.now + m.elapsed + m'.elapsed →
    let key : Byte := BitVec.ofNat 8 (0x30 + d.val)
    let left := bytesOfNat 2 s.cda.lockoutLeft
    (s.cda.streak + 1 < 5 →
      (∃ t, exec (.keys m [key] [(0, .decodeEnd m')]) s = .next t ∧
        Answered 0x0F .ok ([1, 0, 1, 1] ++ left) t.lnk ∧ t.cda.acceptor = .entry ∧ t.cda.buffer = [d] ∧
        t.cda.entryTimer = some 30000 ∧ t.cda.streak = s.cda.streak + 1 ∧
        t.cda.lastResult = some ⟨.checkFailed, none, s.tcu.clock, some (.failure (s.cda.streak + 1) 0)⟩ ∧
        t.now = s.now + m.elapsed + m'.elapsed ∧ t.pins = m'.pins ∧ t.acu = s.acu ∧ t.elg = s.elg ∧
        t.ots = s.ots ∧ t.sdm = s.sdm ∧ t.pending = s.pending) ∧
      (∃ t, exec (.keys m [key, key] [(1, .decodeEnd m')]) s = .next t ∧
        t.lnk.slot = replyFrame 0x8F 0 ([0, 4, 2, BitVec.ofNat 8 s.cda.buffer.length] ++ left) ∧
        t.lnk.state = .replyReady ∧ t.lnk.holdTimer = some (2000 - m'.elapsed) ∧ t.cda.acceptor = .idle ∧
        t.cda.buffer = [] ∧ t.cda.streak = s.cda.streak + 1 ∧ t.acu = s.acu ∧ t.elg = s.elg ∧ t.ots = s.ots ∧
        t.sdm = s.sdm ∧ t.pending = s.pending)) ∧
    (s.cda.streak = 4 →
      let len := if s.cda.lockoutsToday < 4 then 600 * 2 ^ s.cda.lockoutsToday else 9600
      ∃ t, exec (.keys m [key] [(0, .decodeEnd m')]) s = .next t ∧
        Answered 0x0F .ok ([0, 3, 3, 0] ++ bytesOfNat 2 len) t.lnk ∧ t.cda.acceptor = .lockout ∧
        t.cda.lockoutLeft = len ∧ t.cda.buffer = [] ∧ t.acu = s.acu ∧ t.ots = s.ots ∧ t.sdm = s.sdm ∧
        t.pending = s.pending))

/-- A write that carried no byte, and one whose clock is held low for 30 ms, return to the return state with a kept
reply in place (R187, R189). A read of `duration` ms that is abandoned, its clock low for the last 30, leaves the reply
and its read position, and the hold timer stood still in it (R189, R191); where no clock-low timer has run out only the
time passes. When the clock fell, and that a read is one command, is the model's (logs 15, 16). A hold timer that runs
out discards the reply and announces it (R192). -/
def Obligations.WritesAndRepliesThatComeToNothing : Prop :=
  (∀ (m : Moment) (s : State), resetHeld s = false → s.lnk.state = .receiving →
      exec (.writeWithNoRequest m) s =
        .next { observe m 0 s with
          lnk :=
            { (observe m 0 s).lnk with
              state := if s.lnk.returnReady then .replyReady else .idle
              request := []
              clockLow := none } }) ∧
  (∀ (m : Moment) (s : State) (duration : Nat), resetHeld s = false →
      let ranOut := m.pins.scl = false ∧
        (s.lnk.clockLow = none ∧ 30 ≤ m.elapsed ∨ ∃ left, s.lnk.clockLow = some left ∧ left ≤ m.elapsed)
      let abandoned := (s.sdm.power = .run ∨ s.sdm.power = .holdup) ∧ s.lnk.state = .replyReady ∧
        m.pins.scl = false ∧ 30 ≤ duration
      (s.lnk.state = .receiving → ranOut →
        exec (.clockLowTimeout m duration) s =
          .next { observe m 0 s with
            lnk :=
              { (observe m 0 s).lnk with
                state := if s.lnk.returnReady then .replyReady else .idle
                request := []
                clockLow := none } }) ∧
      (abandoned →
        exec (.clockLowTimeout m duration) s =
          .next { observe m 0 s with
            lnk :=
              { (observe m 0 s).lnk with holdTimer := s.lnk.holdTimer.map (· - (m.elapsed - duration)) } }) ∧
      (¬(s.lnk.state = .receiving ∧ ranOut) → ¬abandoned →
        exec (.clockLowTimeout m duration) s = .next (observe m 0 s))) ∧
  (∀ (m : Moment) (s : State) (left : Nat), s.sdm.power = .run → s.lnk.holdTimer = some left → left ≤ m.elapsed →
      ∃ l, exec (.replyHoldTimeout m) s =
          .next { observe m 0 s with lnk := l, rpu := { s.rpu with notices := s.rpu.notices ||| 256 } } ∧
        l.slot = [] ∧ l.remainder = [] ∧ l.holdTimer = none ∧ l.returnReady = false ∧ l.request = s.lnk.request ∧
        (s.lnk.state = .replyReady → l.state = .idle) ∧ (s.lnk.state ≠ .replyReady → l.state = s.lnk.state))

/-- A read of `count` bytes in `duration` ms. To another address it is ignored, and outside RUN it is not acknowledged;
neither stops the hold timer (R186). In RUN it sends NONE, PENDING or the reply, and the statement says what becomes of
the reply: the hold timer stands still while it is read (R191). In RECEIVING it is a repeated START, which ends the write
first (R187; log 40), so that a kept reply is sent. A read is one command (log 15). While KEYS is handled the link is in WORKING (R190):
a read is sent PENDING, a write is not acknowledged, and the answer comes after them. An event between two symbols does
what its command does, and one placed after a symbol that is refused comes after the answer (R84; log 10). -/
def Obligations.ReadFetchesTheReply : Prop :=
  (∀ (m : Moment) (s : State) (a : BitVec 7) (count duration : Nat),
    let own : BitVec 7 := if m.pins.ads then 0x2D else 0x2C
    let before := (observe m 0 s).lnk
    let found : Lnk :=
      if s.lnk.state = .receiving then
        { before with state := if s.lnk.returnReady then .replyReady else .idle, request := [], clockLow := none }
      else before
    let paused : Option Nat := s.lnk.holdTimer.map (· - (m.elapsed - duration))
    let sends (frame : List Byte) : List Byte := frame.take count ++ List.replicate (count - frame.length) 0xFF
    let gives (l : Lnk) : Prop :=
      exec (.readTransaction m a count duration) s = .next { observe m 0 s with lnk := l }
    (resetHeld s = true → exec (.readTransaction m a count duration) s = .next (observe m 0 s)) ∧
    (resetHeld s = false →
      (a ≠ own → gives found) ∧
      (a = own → s.sdm.power ≠ .run → gives { found with addressAcked := false, sent := [] }) ∧
      (a = own → s.sdm.power = .run →
        (found.state = .idle → gives { found with addressAcked := true, sent := sends (replyFrame 0x80 10 []) }) ∧
        (found.state = .working → gives { found with addressAcked := true, sent := sends (replyFrame 0x80 11 []) }) ∧
        (found.state = .replyReady →
          let read : Lnk := { found with addressAcked := true, sent := sends s.lnk.slot, readPos := 0 }
          (count < s.lnk.slot.length → gives { read with readPos := count, holdTimer := paused }) ∧
          (s.lnk.slot.length ≤ count → s.lnk.remainder = [] →
            gives { read with state := .idle, slot := [], holdTimer := none }) ∧
          (s.lnk.slot.length ≤ count → s.lnk.remainder ≠ [] →
            gives
              { read with
                remainder := [], holdTimer := some 2000
                slot :=
                  replyFrame ((s.lnk.slot.getD 1 0).toNat - 0x40) (s.lnk.slot.getD 2 0).toNat s.lnk.remainder }))))) ∧
  (∀ (m m' : Moment) (s : State) (p : List Byte) (xs : List Symbol) (count duration : Nat), Listening s →
    p.map symbolOfByte = xs.map some → 1 ≤ xs.length → xs.length ≤ 26 →
    let own : BitVec 7 := if m'.pins.ads then 0x2D else 0x2C
    let comes (e : KeysEvent) (seen : Lnk → Prop) : Prop :=
      ∃ t, exec (.keys m p [(0, e)]) s = .next t ∧ t.lnk.state = .replyReady ∧ t.lnk.holdTimer = some 2000 ∧ seen t.lnk
    comes (.readTransaction m' own count duration) (fun l => l.addressAcked = true ∧
      l.sent = (replyFrame 0x80 11 []).take count ++ List.replicate (count - 4) 0xFF) ∧
    comes (.writeAddressed m' own) (fun l => l.addressAcked = false ∧ l.bytesAcked = 0 ∧ l.sent = [])) ∧
  (∀ (m : Moment) (s : State) (p : List Byte) (xs : List Symbol) (i : Nat) (e : KeysEvent), Listening s →
    p.map symbolOfByte = xs.map some → xs.length ≤ 26 → i < xs.length →
    ∃ l : Lnk, l.state = .working ∧
      let first := takeSymbols 0 (xs.take i) [] (afterFrame m s l)
      let rest := takeSymbols 0 (xs.drop i) [] (takeEvent first.state e)
      (first.refusal = none →
        exec (.keys m p [(i, e)]) s =
          .next (placeReply 0x0F (.ok (keysBytes (i + rest.taken) rest.refusal rest.state)) rest.state)) ∧
      (first.refusal ≠ none →
        exec (.keys m p [(i, e)]) s =
          .next (takeEvent
            (placeReply 0x0F (.ok (keysBytes first.taken first.refusal first.state)) first.state) e))) ∧
  (∀ (m : Moment) (s : State) (a : BitVec 7) (count duration : Nat),
    exec (.decodeEnd m) s = .next (takeEvent s (.decodeEnd m)) ∧
    exec (.entryTimeout m) s = .next (takeEvent s (.entryTimeout m)) ∧
    exec (.secondTick m) s = .next (takeEvent s (.secondTick m)) ∧
    exec (.pfwFall m) s = .next (takeEvent s (.pfwFall m)) ∧
    exec (.readTransaction m a count duration) s = .next (takeEvent s (.readTransaction m a count duration)) ∧
    exec (.writeAddressed m a) s = .next (takeEvent s (.writeAddressed m a)) ∧
    exec (.clockLowTimeout m duration) s = .next (takeEvent s (.clockLowTimeout m duration)))

/-- The CRC-8 of a frame, byte by byte and bit by bit, with the polynomial x^8 + x^2 + x + 1 from 0 (R187), the layout of
a request and of a reply frame, and the status codes (section 9.7.1). A write whose length byte is out of range, that
stops short, or whose CRC differs, is answered FRAME_ERROR, and a whole frame of no kind of the catalogue UNKNOWN_KIND
(R187, R188). The empty payloads are the model's reading (log 17). A faulty frame in HOLDUP stands in
`WritesAndTheirFrames`. -/
def Obligations.FaultyFramesAreRefused : Prop :=
  (∀ (bs : List Byte) (b : Byte),
    crc8 [] = 0 ∧
    crc8 (bs ++ [b]) =
      (List.range 8).foldl (fun (c : Byte) _ => if c.getLsbD 7 = true then (c <<< 1) ^^^ 0b00000111#8 else c <<< 1)
        (crc8 bs ^^^ b)) ∧
  (∀ (kind st : Nat) (payload : List Byte),
    let framed (bs : List Byte) : List Byte := bs ++ [crc8 bs]
    requestFrame kind payload = framed (BitVec.ofNat 8 (payload.length + 3) :: BitVec.ofNat 8 kind :: payload) ∧
    replyFrame kind st payload =
      framed (BitVec.ofNat 8 (payload.length + 4) :: BitVec.ofNat 8 kind :: BitVec.ofNat 8 st :: payload)) ∧
  ([Status.ok, .frameError, .unknownKind, .argument, .locked, .incomplete, .written, .budget, .notReady, .busy, .none,
    .pending].map Status.code = [0, 1, 2, 3, 4, 5, 6, 7, 8, 9, 10, 11]) ∧
  ∀ (m : Moment) (s : State) (b : Byte) (bs : List Byte), Listening s →
    (b.toNat < 3 ∨ 40 < b.toNat ∨ bs.length + 1 < b.toNat ∨
      (∃ body c, (b :: bs).take b.toNat = body ++ [c] ∧ c ≠ crc8 body) →
      ∃ l, exec (.frameError m (b :: bs)) s = .next (afterFrame m s l) ∧ l.state = .replyReady ∧
        l.slot = replyFrame 0xFF 1 [] ∧ l.remainder = [] ∧ l.holdTimer = some 2000) ∧
    (∀ k p, (k = 0 ∨ 20 < k) → k < 256 → p.length ≤ 37 → b :: bs = requestFrame k p →
      ∃ l, exec (.frameError m (b :: bs)) s = .next (afterFrame m s l) ∧ l.state = .replyReady ∧
        l.slot = replyFrame 0x80 2 [] ∧ l.remainder = [] ∧ l.holdTimer = some 2000)

/-- The kind codes of the catalogue (section 9.3) and the payload lengths that each kind takes (section 9.7.2). A request
whose payload length its kind does not take is answered ARGUMENT (R188 check 4); in HOLDUP a request that passes every
check is answered BUSY (R197); nothing else changes. The empty payloads are the model's reading (log 17). -/
def Obligations.RequestsTurnedAway : Prop :=
  ([Request.identify, .status, .readAccount, .readEnergy, .readTariff, .readCalendar, .readSwitch, .readTamper,
    .readLog, .readCodeResult, .readNotices, .setAttentionMask, .snapshotLatch, .snapshotRead, .keys, .timeRead,
    .timeTrim, .setClock, .commissionWrite, .commissionLock].map Request.kind =
      [1, 2, 3, 4, 5, 6, 7, 8, 9, 10, 11, 12, 13, 14, 15, 16, 17, 18, 19, 20]) ∧
  (∀ (r : Request) (n : Nat),
    (r.takes n = true ↔
      n = 0 ∧ r ∈ [Request.identify, .status, .readAccount, .readEnergy, .readCalendar, .readSwitch, .readNotices,
        .snapshotRead, .timeRead, .commissionLock] ∨
      n = 1 ∧ r ∈ [Request.readTamper, .readCodeResult, .snapshotLatch, .timeTrim] ∨
      n = 2 ∧ r ∈ [Request.readTariff, .setAttentionMask] ∨
      n = 4 ∧ r = .setClock ∨ n = 5 ∧ r = .readLog ∨ 1 ≤ n ∧ n ≤ 26 ∧ r = .keys ∨
      2 ≤ n ∧ n ≤ 21 ∧ r = .commissionWrite) ∧
    (r.commissioning = true ↔ r = .commissionWrite ∨ r = .commissionLock)) ∧
  (∀ (c : Instr) (m : Moment) (r : Request) (p : List Byte) (s : State), requestOf c = some (m, r, p) →
      Listening s → p.length ≤ 37 → r.takes p.length = false → ¬(r.commissioning = true ∧ s.ots.lock = true) →
      AnswersOnly c m s r.kind .argument []) ∧
  (∀ (c : Instr) (m : Moment) (r : Request) (p : List Byte) (s : State), requestOf c = some (m, r, p) →
      s.sdm.power = .holdup → s.lnk.state = .receiving → p.length ≤ 37 → r.takes p.length = true →
      ¬(r.commissioning = true ∧ s.ots.lock = true) → AnswersOnly c m s r.kind .busy [])

/-- After the lock every commissioning request is answered LOCKED, and hands a PW attempt (R195, R147). -/
def Obligations.LockRefusesCommissioning : Prop :=
  ∀ (c : Instr) (m : Moment) (r : Request) (p : List Byte) (s : State), requestOf c = some (m, r, p) →
    s.lnk.state = .receiving → (s.sdm.power = .run ∨ s.sdm.power = .holdup) → p.length ≤ 37 →
    r.commissioning = true → s.ots.lock = true →
    ∃ t, exec c s = .next t ∧ Answered r.kind .locked [] t.lnk ∧ t.tmp.latches.pw.condition = false ∧
      (s.tmp.actions.pw ≠ .off → t.tmp.latches.pw.set.isSome = true) ∧ t.ots = s.ots ∧ t.acu = s.acu ∧
      t.tcu = s.tcu ∧ t.cda = (observe m 0 s).cda ∧ t.piu.imports = s.piu.imports ∧
      t.piu.exports = s.piu.exports ∧ t.piu.weight = s.piu.weight ∧ t.piu.absolute = s.piu.absolute ∧
      t.piu.stallTime = s.piu.stallTime ∧ t.swc.auto = s.swc.auto ∧ t.swc.normalLimit = s.swc.normalLimit ∧
      t.swc.reducedLimit = s.swc.reducedLimit ∧ t.tmp.actions = s.tmp.actions ∧ t.sdm = s.sdm ∧
      t.pending = s.pending

/-! ## Reading requests -/

/-- IDENTIFY, STATUS (R193), READ_ACCOUNT (R45) and TIME_READ (R73) give their values in order, and change no state.
The layouts are the model's reading (logs 18 and 19), and so is REPLY_DROPPED in the STATUS reply that follows a
dropped reply (log 26). `DayType` and `TablesGiveTheirValues` say what the day type, the band and the friendly period
are. -/
def Obligations.IdentityStatusAccountAndTimeAnswer : Prop :=
  (∀ (m : Moment) (s : State), Listening s →
      AnswersOnly (.identify m []) m s 0x01 .ok
        ((match s.ots.identity with
          | some ds => 1 :: ds.map (fun d => BitVec.ofNat 8 d.val)
          | none => List.replicate 13 0) ++
          byteOfBool s.ots.key0.isSome ++ byteOfBool s.ots.lock ++ [BitVec.ofNat 8 s.ots.lossCount, 1] ++
          byteOfBool m.pins.ads) ∧
      AnswersOnly (.status m []) m s 0x02 .ok
        (([s.acu.state.code, s.swc.switch.code, (causeState s.swc.table.credit).code,
            (causeState s.swc.table.loadLimit).code, (causeState s.swc.table.tamper).code,
            (causeState s.swc.table.order).code, (causeState s.swc.table.commission).code].map (BitVec.ofNat 8)) ++
          bytesOfNat 2 (setKinds s.tmp).toNat ++
          [BitVec.ofNat 8 s.cda.acceptor.code, BitVec.ofNat 8 s.sdm.power.code] ++
          byteOfBool s.tcu.valid ++ byteOfBool s.ots.lock ++ byteOfBool s.cda.reinstate ++
          byteOfBool s.cda.retired ++ bytesOfNat 2 (rpuAfterFrame s).notices.toNat)) ∧
  (∀ (m : Moment) (s : State), Listening s →
      AnswersOnly (.readAccount m []) m s 0x03 .ok
        (bytesOfInt 8 s.acu.balance ++ bytesOfNat 8 s.acu.arrears ++ bytesOfInt 8 s.acu.floor ++
          byteOfBool s.acu.taken ++ [BitVec.ofNat 8 s.acu.state.code] ++ bytesOfNat 3 s.acu.limit ++
          bytesOfNat 3 s.acu.threshold ++ bytesOfNat 3 s.acu.cap ++ bytesOfNat 8 s.acu.opening ++
          bytesOfNat 8 s.acu.credited ++ bytesOfNat 8 s.acu.debited ++ byteOfBool s.acu.alarm) ∧
      AnswersOnly (.timeRead m []) m s 0x10 .ok
        (bytesOfNat 4 s.tcu.clock ++ byteOfBool s.tcu.valid ++ bytesOfNat 2 (s.tcu.clock / 86400) ++
          bytesOfNat 1 (s.tcu.clock / 86400 % 7) ++ bytesOfNat 2 (s.tcu.clock % 86400 / 60) ++
          byteOfBool (restDay s.tcu.cal (s.tcu.clock / 86400)) ++ bytesOfNat 1 (currentBand s.tcu).val ++
          byteOfBool (friendlyNow s.tcu) ++ bytesOfNat 2 s.tcu.lastDay ++ bytesOfInt 1 s.tcu.trimUsed))

/-- The other readings (R16, R74, R136, R103, R163, R173, R174), byte by byte in the layouts of the model (logs 18 and
19); each changes no state. An argument out of range is refused with an empty payload (log 17). How numbers are sent, and
the codes of the enumerations, are R198's. -/
def Obligations.OtherReadingsAnswer : Prop :=
  (∀ (n x : Nat) (y : Int),
    (bytesOfNat n x).length = n ∧ natOfBytes (bytesOfNat n x) = x % 256 ^ n ∧
    (0 ≤ y → bytesOfInt n y = bytesOfNat n y.toNat) ∧
    (y < 0 → -(256 ^ n : Int) ≤ y → bytesOfInt n y = bytesOfNat n (256 ^ n + y).toNat)) ∧
  ([AccountState.inCredit, .low, .emergency, .exhausted].map (·.code) = [0, 1, 2, 3] ∧
    [SwitchState.verify, .closed, .opening, .opened, .armed, .closing, .fault].map (·.code) = [0, 1, 2, 3, 4, 5, 6] ∧
    [AcceptorState.idle, .entry, .decoding, .lockout, .retired].map (·.code) = [0, 1, 2, 3, 4] ∧
    [PowerState.off, .battery, .starting, .run, .holdup].map (·.code) = [0, 1, 2, 3, 4] ∧
    [Cause.credit, .loadLimit, .tamper, .order, .commission].map (·.code) = [0, 1, 2, 3, 4] ∧
    [CauseState.absent, .active, .deferred].map (·.code) = [0, 1, 2] ∧
    [Position.opened, .armed, .closed].map (·.code) = [0, 1, 2] ∧
    [OpPhase.rest, .pulse, .settle].map (·.code) = [0, 1, 2] ∧
    [Found.opened, .closed, .mixed].map (·.code) = [0, 1, 2] ∧
    [Action.off, .record, .disconnect].map (·.code) = [0, 1, 2] ∧
    [CodeOutcome.accepted, .format, .checkFailed, .reinstateRequired, .classRefused, .authority, .duplicate, .stale,
      .argument, .cap, .notRequired, .entryTimeout, .localCommand].map (·.code) =
        [0, 1, 2, 3, 4, 5, 6, 7, 8, 9, 10, 11, 12] ∧
    [LocalAnswer.granted, .alreadyTaken, .notOffered, .notNeeded].map (·.code) = [0, 1, 2, 3] ∧
    [RecordType.tamperSet, .tamperCleared, .switchFault, .lockoutStart, .reinstated].map (·.code) = [0, 1, 2, 3, 4] ∧
    [Kind.cv, .tc, .mg, .rv, .ms, .so, .pw, .ca, .rl].map kindNumber = [0, 1, 2, 3, 4, 5, 6, 7, 8] ∧
    [Phase.p1, .p2, .p3].map (·.number) = [1, 2, 3]) ∧
  (∀ (n : Nat) (bs : List Byte), optionalBytes n (some bs) = 1 :: bs ∧ optionalBytes n none = 0 :: List.replicate n 0) ∧
  (∀ (m : Moment) (s : State) (a b : Byte), Listening s →
      let three (f : Phase → List Byte) : List Byte := f .p1 ++ f .p2 ++ f .p3
      let byte (n : Nat) : List Byte := [BitVec.ofNat 8 n]
      let points (ps : Vector Point 8) : List Byte :=
        ps.toList.flatMap fun p => bytesOfNat 2 p.minute ++ byte p.band.val ++ byteOfBool p.enabled
      let tariff : Tariff := if a.toNat = 1 then s.tcu.passive else s.tcu.active
      let day (d : Option Nat) : List Byte := optionalBytes 2 (d.map (bytesOfNat 2))
      let cause (e : Option Entry) : List Byte :=
        byte (match e with
          | none => 0
          | some e => if e.deferred then 2 else 1) ++
          bytesOfNat 4 ((e.map (·.since)).getD 0)
      AnswersOnly (.readEnergy m []) m s 0x04 .ok
        (three (fun n => bytesOfNat 6 (s.piu.imports.get n)) ++ three (fun n => bytesOfNat 6 (s.piu.exports.get n)) ++
          bytesOfNat 8 (10 * s.piu.billedWh + s.piu.residue) ++ byte s.piu.residue ++ byte (currentBand s.tcu).val ++
          byte (if s.piu.weight = .one then 1 else 10) ++ byteOfBool s.piu.absolute ++
          bytesOfNat 2 s.piu.stallTime ++ three (fun n => byteOfBool (s.piu.reverseFlag.get n)) ++
          three (fun n => byteOfBool (s.piu.stallFlag.get n)) ++
          optionalBytes 8 (s.piu.lastDemand.map fun d => bytesOfNat 4 d.watts ++ bytesOfNat 4 d.time)) ∧
      (a.toNat ≤ 1 →
        (b.toNat = 0 → AnswersOnly (.readTariff m [a, b]) m s 0x05 .ok
          (tariff.prices.toList.flatMap (bytesOfNat 3) ++ bytesOfNat 3 tariff.standing ++
            if a.toNat = 1 then byteOfBool s.tcu.actPending ++ bytesOfNat 2 s.tcu.actDay else [])) ∧
        (b.toNat = 1 → AnswersOnly (.readTariff m [a, b]) m s 0x05 .ok (points tariff.work)) ∧
        (b.toNat = 2 → AnswersOnly (.readTariff m [a, b]) m s 0x05 .ok (points tariff.rest))) ∧
      (1 < a.toNat ∨ 2 < b.toNat → AnswersOnly (.readTariff m [a, b]) m s 0x05 .argument []) ∧
      AnswersOnly (.readCalendar m []) m s 0x06 .ok
        (s.tcu.cal.holidays.toList.flatMap (fun d => bytesOfNat 2 (d.getD 0)) ++ byte s.tcu.cal.restDays.toNat ++
          s.tcu.cal.windows.toList.flatMap
            (fun w => bytesOfNat 2 w.start ++ bytesOfNat 2 w.stop ++ byteOfBool w.enabled) ++
          byteOfBool s.tcu.cal.restFriendly ++ day s.tcu.untilDay) ∧
      AnswersOnly (.readSwitch m []) m s 0x07 .ok
        (byte s.swc.switch.code ++ byte s.swc.intended.code ++
          optionalBytes 5 (s.swc.op.map fun o =>
            byte (if o.target = .opened then 0 else 2) ++ byte o.attempt ++ byte o.phase.code ++
              optionalBytes 1 (o.releasedBy.map fun c => byte c.code)) ++
          optionalBytes 3 (s.swc.lastVerification.map fun v =>
            byte v.found.code ++ optionalBytes 1 (v.phase.map fun n => byte n.number)) ++
          cause s.swc.table.credit ++ cause s.swc.table.loadLimit ++
          bytesOfNat 2 (match s.swc.table.loadLimit.bind (·.penalty) with
            | some (.seconds n) => n
            | some .untilBoundary => 65535
            | none => 0) ++
          cause s.swc.table.tamper ++ cause s.swc.table.order ++ cause s.swc.table.commission ++
          byte s.swc.held.code ++ day s.tcu.untilDay ++ byteOfBool s.swc.auto ++ bytesOfNat 3 s.swc.normalLimit ++
          bytesOfNat 3 s.swc.reducedLimit ++
          bytesOfNat 3 (if (s.swc.held = .emergency ∨ s.swc.held = .exhausted) ∧ s.swc.reducedLimit ≠ 0 then
            s.swc.reducedLimit else s.swc.normalLimit) ++
          byte s.swc.overCount ++ byte s.swc.tripsToday ++ byteOfBool m.pins.aux ++
          three (fun n => byteOfBool (m.pins.v.get n)) ++ three (fun n => byteOfBool (m.pins.l.get n)))) ∧
  (∀ (m : Moment) (s : State) (a b0 b1 b2 b3 : Byte), Listening s →
      let byte (n : Nat) : List Byte := [BitVec.ofNat 8 n]
      let latch (k : Kind) : Latch := s.tmp.latches.get k
      let held := s.elg.records.filter fun r => decide (natOfBytes [b0, b1, b2, b3] ≤ r.seq)
      let kind (r : LogRecord) : List Byte := optionalBytes 1 (r.kind.map fun k => byte (kindNumber k))
      let phase (p : Option Phase) : List Byte := optionalBytes 1 (p.map fun n => byte n.number)
      let counts : List Byte :=
        byte s.elg.records.length ++ optionalBytes 4 (s.elg.records.head?.map fun r => bytesOfNat 4 r.seq) ++
          bytesOfNat 4 s.elg.nextSeq
      let slot (enabled : Bool) (groupId : Nat) (mask : BitVec 16) (w : SeqWindow) : List Byte :=
        byteOfBool enabled ++ byte groupId ++ bytesOfNat 2 mask.toNat ++ optionalBytes 2 (w.top.map (bytesOfNat 2))
      let group (g : GroupSlot) : List Byte := slot g.enabled g.groupId g.mask g.window
      (∀ k, kindNumber k = a.toNat → AnswersOnly (.readTamper m [a]) m s 0x08 .ok
        (byte (kindNumber k) ++ byte (s.tmp.actions.get k).code ++ byteOfBool (latch k).condition ++
          byteOfBool (latch k).set.isSome ++ optionalBytes 4 ((latch k).set.map fun x => bytesOfNat 4 x.time) ++
          phase ((latch k).set.bind (·.phase)) ++ byte (latch k).repeats ++
          optionalBytes 4 ((latch k).set.map fun x => bytesOfNat 4 x.record))) ∧
      (a.toNat = 9 → AnswersOnly (.readTamper m [a]) m s 0x08 .ok
        ([Kind.cv, .tc, .mg, .rv, .ms, .so, .pw, .ca, .rl].flatMap (fun k =>
            byte (s.tmp.actions.get k).code ++ byteOfBool (latch k).condition ++
              byteOfBool (latch k).set.isSome ++ byte (latch k).repeats) ++
          byteOfBool ([Kind.cv, .tc, .mg, .rv, .ms, .so, .pw, .ca, .rl].any fun k =>
            (latch k).set.isSome && s.tmp.actions.get k == .disconnect) ++
          byteOfBool m.pins.cvs ++ byteOfBool m.pins.tcs ++ byteOfBool m.pins.mag)) ∧
      (9 < a.toNat → AnswersOnly (.readTamper m [a]) m s 0x08 .argument []) ∧
      (a.toNat = 0 → AnswersOnly (.readLog m [b0, b1, b2, b3, a]) m s 0x09 .ok
        (byte (held.take 3).length ++
          (held.take 3).flatMap (fun r =>
            bytesOfNat 4 r.seq ++ byte r.type.code ++ bytesOfNat 4 r.time ++
              byte ((if r.timeValid then 1 else 0) + (if r.guarded then 2 else 0)) ++ kind r ++ phase r.phase) ++
          counts)) ∧
      (a.toNat = 1 → AnswersOnly (.readLog m [b0, b1, b2, b3, a]) m s 0x09 .ok
        (optionalBytes 35 (held.head?.map fun r =>
            bytesOfNat 4 r.seq ++ byte r.type.code ++ bytesOfNat 4 r.time ++ byteOfBool r.timeValid ++ kind r ++
              phase r.phase ++
              optionalBytes 3 (r.code.map fun c => byte (slotNumber c.slot) ++ bytesOfNat 2 c.seq) ++
              bytesOfInt 8 r.balance ++ bytesOfNat 8 r.billedWh ++ byteOfBool r.guarded) ++
          counts)) ∧
      (1 < a.toNat → AnswersOnly (.readLog m [b0, b1, b2, b3, a]) m s 0x09 .argument []) ∧
      (a.toNat = 0 → AnswersOnly (.readCodeResult m [a]) m s 0x0A .ok
        (byte s.cda.resultNumber ++
          match s.cda.lastResult with
          | none => []
          | some r =>
            byte r.outcome.code ++ optionalBytes 1 (r.code.map fun c => byte c.cls) ++
              optionalBytes 1 (r.code.map fun c => byte (slotNumber c.slot)) ++
              optionalBytes 2 (r.code.map fun c => bytesOfNat 2 c.seq) ++ bytesOfNat 4 r.time ++
              optionalBytes 16 (r.detail.map fun d =>
                match d with
                | .credit b a => bytesOfNat 8 b ++ bytesOfNat 8 a
                | .clear c r => bytesOfNat 2 c.toNat ++ bytesOfNat 2 r.toNat ++ List.replicate 12 0
                | .localCommand c a =>
                  bytesOfNat 2 (if c = .emergencyCredit then 110 else 120) ++ byte a.code ++ List.replicate 13 0
                | .failure n l => byte n ++ bytesOfNat 2 l ++ List.replicate 13 0))) ∧
      (a.toNat = 1 → AnswersOnly (.readCodeResult m [a]) m s 0x0A .ok
        (byte s.cda.acceptor.code ++ byte s.cda.buffer.length ++ byte s.cda.streak ++ byte s.cda.lockoutsToday ++
          bytesOfNat 2 s.cda.lockoutLeft ++ byteOfBool s.cda.reinstate ++ byteOfBool s.cda.retired ++
          slot s.ots.key0.isSome 0 65535 s.cda.window0 ++ group s.cda.groups.g1 ++ group s.cda.groups.g2 ++
          group s.cda.groups.g3)) ∧
      (1 < a.toNat → AnswersOnly (.readCodeResult m [a]) m s 0x0A .argument []))

/-- READ_NOTICES gives the set and the mask and empties the set (R178); SET_ATTENTION_MASK replaces the mask and
leaves the set, or is refused (R179), with an empty payload, which is the model's reading (log 17). A reply dropped
before the answer is in the set it gives (log 26). -/
def Obligations.NoticesAndMask : Prop :=
  (∀ (m : Moment) (s : State), Listening s →
      AnswersWith (.readNotices m []) m s 0x0B
        (bytesOfNat 2 (rpuAfterFrame s).notices.toNat ++ bytesOfNat 2 s.rpu.mask.toNat)
        fun t => { t with rpu := { t.rpu with notices := 0 } }) ∧
  (∀ (m : Moment) (s : State) (a b : Byte), Listening s →
      let v := a.toNat * 256 + b.toNat
      (v ≤ 1023 →
        AnswersWith (.setAttentionMask m [a, b]) m s 0x0C
          (bytesOfNat 2 v ++ bytesOfNat 2 (rpuAfterFrame s).notices.toNat)
          fun t => { t with rpu := { t.rpu with mask := BitVec.ofNat 10 v } }) ∧
      (1023 < v → AnswersOnly (.setAttentionMask m [a, b]) m s 0x0C .argument []))

/-- SNAPSHOT_LATCH latches each named group that is empty and leaves every other (R181, R182); SNAPSHOT_READ gives and
empties the first latched group, or gives the live STATUS (R183). The groups are spelled out: STATUS, ACCOUNT and ENERGY
with their values in the order of R182. The empty ARGUMENT reply (log 17) and the layouts of the groups (log 19) are the
model's reading. -/
def Obligations.Snapshots : Prop :=
  let byte (n : Nat) : List Byte := [BitVec.ofNat 8 n]
  let statusNow (s : State) : StatusValues :=
    { account := s.acu.state, switch := s.swc.switch
      causes :=
        [causeState s.swc.table.credit, causeState s.swc.table.loadLimit, causeState s.swc.table.tamper,
          causeState s.swc.table.order, causeState s.swc.table.commission]
      latches := setKinds s.tmp, acceptor := s.cda.acceptor, power := s.sdm.power }
  let energyNow (s : State) : EnergyValues :=
    ⟨s.piu.imports, s.piu.exports, 10 * s.piu.billedWh + s.piu.residue, currentBand s.tcu⟩
  let status (v : StatusValues) : List Byte :=
    byte v.account.code ++ byte v.switch.code ++ v.causes.flatMap (fun c => byte c.code) ++
      bytesOfNat 2 v.latches.toNat ++ byte v.acceptor.code ++ byte v.power.code
  let account (a : Account) : List Byte :=
    bytesOfInt 8 a.balance ++ bytesOfNat 8 a.arrears ++ bytesOfInt 8 a.floor ++ byteOfBool a.taken ++
      byte a.state.code ++ bytesOfNat 3 a.limit ++ bytesOfNat 3 a.threshold ++ bytesOfNat 3 a.cap ++
      bytesOfNat 8 a.opening ++ bytesOfNat 8 a.credited ++ bytesOfNat 8 a.debited ++ byteOfBool a.alarm
  let three (x : Phases Nat) : List Byte := bytesOfNat 6 x.p1 ++ bytesOfNat 6 x.p2 ++ bytesOfNat 6 x.p3
  let energy (v : EnergyValues) : List Byte :=
    three v.imports ++ three v.exports ++ bytesOfNat 8 v.billed ++ byte v.band.val
  (∀ (m : Moment) (s : State) (a : Byte), Listening s →
      let named (k : Nat) : Bool := a.getLsbD k
      let new (k : Nat) (held : Bool) : Nat := if named k && !held then 2 ^ k else 0
      let old (k : Nat) (held : Bool) : Nat := if named k && held then 2 ^ k else 0
      let st := s.rpu.status.isSome
      let ac := s.rpu.account.isSome
      let en := s.rpu.energy.isSome
      (1 ≤ a.toNat → a.toNat ≤ 7 →
        AnswersWith (.snapshotLatch m [a]) m s 0x0D
          [BitVec.ofNat 8 (new 0 st + new 1 ac + new 2 en), BitVec.ofNat 8 (old 0 st + old 1 ac + old 2 en)]
          fun t => { t with
            rpu :=
              { t.rpu with
                status := if named 0 && !st then some ⟨s.tcu.clock, s.tcu.valid, statusNow s⟩ else s.rpu.status
                account := if named 1 && !ac then some ⟨s.tcu.clock, s.tcu.valid, s.acu⟩ else s.rpu.account
                energy :=
                  if named 2 && !en then some ⟨s.tcu.clock, s.tcu.valid, energyNow s⟩ else s.rpu.energy } }) ∧
      (a.toNat = 0 ∨ 7 < a.toNat → AnswersOnly (.snapshotLatch m [a]) m s 0x0D .argument [])) ∧
  (∀ (m : Moment) (s : State), Listening s →
      (∀ x, s.rpu.status = some x →
        AnswersWith (.snapshotRead m []) m s 0x0E
          ([0] ++ bytesOfNat 4 x.time ++ byteOfBool x.valid ++
            [BitVec.ofNat 8 ((if s.rpu.account.isSome then 2 else 0) + (if s.rpu.energy.isSome then 4 else 0))] ++
            status x.values)
          fun t => { t with rpu := { t.rpu with status := none } }) ∧
      (∀ x, s.rpu.status = none → s.rpu.account = some x →
        AnswersWith (.snapshotRead m []) m s 0x0E
          ([1] ++ bytesOfNat 4 x.time ++ byteOfBool x.valid ++ [if s.rpu.energy.isSome then 4 else 0] ++
            account x.values)
          fun t => { t with rpu := { t.rpu with account := none } }) ∧
      (∀ x, s.rpu.status = none → s.rpu.account = none → s.rpu.energy = some x →
        AnswersWith (.snapshotRead m []) m s 0x0E
          ([2] ++ bytesOfNat 4 x.time ++ byteOfBool x.valid ++ [0] ++ energy x.values)
          fun t => { t with rpu := { t.rpu with energy := none } }) ∧
      (s.rpu.status = none → s.rpu.account = none → s.rpu.energy = none →
        AnswersOnly (.snapshotRead m []) m s 0x0E .ok
          ([3] ++ bytesOfNat 4 s.tcu.clock ++ byteOfBool s.tcu.valid ++ [0] ++ status (statusNow s))))

/-! ## The clock requests -/

/-- TIME_TRIM, line by line of the table of R54, and the boundaries that a trim taken past midnight delivers (R57). The
empty payloads of ARGUMENT, NOT_READY and BUDGET are the model's reading (log 17). -/
def Obligations.TimeTrimByItsTable : Prop :=
  ∀ (m : Moment) (s : State) (a : Byte), Listening s →
    let trim := a.toInt
    let used := s.tcu.trimUsed + trim
    let clock := (s.tcu.clock : Int) + trim
    (trim < -60 ∨ 60 < trim → AnswersOnly (.timeTrim m [a]) m s 0x11 .argument []) ∧
    (-60 ≤ trim → trim ≤ 60 →
      (s.tcu.valid = false → AnswersOnly (.timeTrim m [a]) m s 0x11 .notReady []) ∧
      (s.tcu.valid = true →
        (used < -60 ∨ 60 < used → AnswersOnly (.timeTrim m [a]) m s 0x11 .budget []) ∧
        (-60 ≤ used → used ≤ 60 →
          (clock < 0 ∨ 4294967295 < clock → AnswersOnly (.timeTrim m [a]) m s 0x11 .argument []) ∧
          (0 ≤ clock → clock ≤ 4294967295 →
            (trim = 0 → AnswersOnly (.timeTrim m [a]) m s 0x11 .ok
              (bytesOfNat 4 s.tcu.clock ++ bytesOfInt 1 s.tcu.trimUsed)) ∧
            (trim ≠ 0 → ∃ t, exec (.timeTrim m [a]) s = .next t ∧
              Answered 0x11 .ok (bytesOfNat 4 t.tcu.clock ++ bytesOfInt 1 t.tcu.trimUsed) t.lnk ∧
              (t.tcu.clock : Int) = clock ∧ t.piu.demand = .waiting ∧ t.tcu.lastFriendly = some (friendlyNow t.tcu) ∧
              (dayOf t.tcu.clock ≤ s.tcu.lastDay → t.tcu.trimUsed = used ∧ t.acu = s.acu ∧
                t.tcu.lastDay = s.tcu.lastDay) ∧
              (s.tcu.lastDay < dayOf t.tcu.clock → t.tcu.trimUsed = 0 ∧ t.tcu.lastDay = dayOf t.tcu.clock) ∧
              BoundariesTaken (t.tcu.clock / 86400) { s with tcu := { s.tcu with trimUsed := used } } t ∧
              t.piu.imports = s.piu.imports ∧ t.ots = s.ots ∧ t.cda.lockoutLeft = s.cda.lockoutLeft ∧
              t.sdm = s.sdm ∧ t.pending = s.pending)))))

/-- SET_CLOCK (R55): refused with LOCKED on a valid clock after the lock, with an empty payload, which is the model's
reading (log 17); taken otherwise, with the boundaries that a change forward across midnight delivers (R57); on an invalid
clock it makes the clock valid (R53). -/
def Obligations.SetClockIsTakenOrLocked : Prop :=
  ∀ (m : Moment) (s : State) (a b c d : Byte), Listening s →
    let v := natOfBytes [a, b, c, d]
    (s.tcu.valid = true → s.ots.lock = true → AnswersOnly (.setClock m [a, b, c, d]) m s 0x12 .locked []) ∧
    (s.tcu.valid = true → s.ots.lock = false → s.tcu.clock = v →
      AnswersOnly (.setClock m [a, b, c, d]) m s 0x12 .ok [a, b, c, d]) ∧
    (s.tcu.valid = true → s.ots.lock = false → s.tcu.clock ≠ v →
      ∃ t, exec (.setClock m [a, b, c, d]) s = .next t ∧ Answered 0x12 .ok [a, b, c, d] t.lnk ∧
        t.tcu.clock = v ∧ t.tcu.valid = true ∧ t.piu.demand = .waiting ∧
        t.tcu.lastDay = max s.tcu.lastDay (v / 86400) ∧
        (v / 86400 ≤ s.tcu.lastDay → t.acu = s.acu ∧ t.tcu.trimUsed = s.tcu.trimUsed) ∧
        BoundariesTaken (v / 86400) s t ∧ t.tcu.lastFriendly = some (friendlyNow t.tcu) ∧
        t.ots = s.ots ∧ t.elg = s.elg ∧ t.sdm = s.sdm ∧ t.pending = s.pending) ∧
    (s.tcu.valid = false →
      ∃ t, exec (.setClock m [a, b, c, d]) s = .next t ∧ Answered 0x12 .ok [a, b, c, d] t.lnk ∧
        t.tcu.clock = v ∧ t.tcu.valid = true ∧ t.tcu.lastDay = v / 86400 ∧ t.tcu.trimUsed = 0 ∧
        (∀ u, s.tcu.untilDay = some u →
          t.tcu.untilDay = some (min 49710 (u + v / 86400 - s.tcu.lastDay))) ∧
        (s.tcu.untilDay = none → t.tcu.untilDay = none) ∧ t.piu.demand = .waiting ∧ t.acu = s.acu ∧
        t.ots = s.ots ∧ t.elg = s.elg ∧ t.sdm = s.sdm ∧ t.pending = s.pending)

/-! ## Commissioning -/

/-- The pulse settings (R7), the reconnect mode (R123) and the load limits (R124): taken in range, refused with
ARGUMENT out of it, and nothing else changes. That 1 is ON and AUTO, and where each field lies in its value, is the
model's reading (log 19). -/
def Obligations.PulseAndSwitchSettingItems : Prop :=
  (∀ (m : Moment) (s : State) (a b : Byte), Listening s → s.ots.lock = false →
      (a = 1 → AnswersWith (.pulseWeight m [a]) m s 0x13 []
        fun t => { t with piu := { t.piu with weight := .one } }) ∧
      (a = 10 → AnswersWith (.pulseWeight m [a]) m s 0x13 []
        fun t => { t with piu := { t.piu with weight := .ten } }) ∧
      (a ≠ 1 → a ≠ 10 → AnswersOnly (.pulseWeight m [a]) m s 0x13 .argument []) ∧
      (a.toNat ≤ 1 → AnswersWith (.absoluteBilling m [a]) m s 0x13 []
        fun t => { t with piu := { t.piu with absolute := a == 1 } }) ∧
      (1 < a.toNat → AnswersOnly (.absoluteBilling m [a]) m s 0x13 .argument []) ∧
      (60 ≤ a.toNat * 256 + b.toNat → a.toNat * 256 + b.toNat ≤ 3600 →
        AnswersWith (.stallTime m [a, b]) m s 0x13 []
          fun t => { t with piu := { t.piu with stallTime := a.toNat * 256 + b.toNat } }) ∧
      (a.toNat * 256 + b.toNat < 60 ∨ 3600 < a.toNat * 256 + b.toNat →
        AnswersOnly (.stallTime m [a, b]) m s 0x13 .argument [])) ∧
  (∀ (m : Moment) (s : State) (a b c d e f : Byte), Listening s → s.ots.lock = false →
      (a.toNat ≤ 1 → AnswersWith (.reconnectMode m [a]) m s 0x13 []
        fun t => { t with swc := { t.swc with auto := a == 1 } }) ∧
      (1 < a.toNat → AnswersOnly (.reconnectMode m [a]) m s 0x13 .argument []) ∧
      AnswersWith (.loadLimits m [a, b, c, d, e, f]) m s 0x13 []
        fun t => { t with
          swc := { t.swc with normalLimit := natOfBytes [a, b, c], reducedLimit := natOfBytes [d, e, f] } })

/-- The opening balance restarts the account, or is refused above the cap (R47); the account settings are replaced
together, or a cap of 0 is refused (R48), emergency credit not being taken before the lock; with each what its claim
hands on (R43, R44). -/
def Obligations.AccountItems : Prop :=
  (∀ (m : Moment) (s : State) (a b c : Byte), Listening s → s.ots.lock = false →
      let x := natOfBytes [a, b, c] * 10000
      (s.acu.cap * 1000000 < x → AnswersOnly (.openingBalance m [a, b, c]) m s 0x13 .argument []) ∧
      (x ≤ s.acu.cap * 1000000 →
        ∃ t, exec (.openingBalance m [a, b, c]) s = .next t ∧ Answered 0x13 .ok [] t.lnk ∧
          t.acu.balance = (x : Int) ∧ t.acu.opening = x ∧ t.acu.arrears = 0 ∧ t.acu.credited = 0 ∧
          t.acu.debited = 0 ∧ t.acu.taken = false ∧ t.acu.limit = s.acu.limit ∧
          t.acu.threshold = s.acu.threshold ∧ t.acu.cap = s.acu.cap ∧
          (t.acu.state ≠ s.acu.state → t.swc.held = t.acu.state ∧ t.rpu.notices.getLsbD 0 = true) ∧
          StateHanded s t ∧ ClaimNoticed s t ∧ t.tcu = s.tcu ∧ t.ots = s.ots ∧ t.elg = s.elg ∧ t.sdm = s.sdm ∧ t.pending = s.pending)) ∧
  (∀ (m : Moment) (s : State) (v : List Byte), Listening s → s.ots.lock = false → v.length = 9 →
      let cap := natOfBytes (v.drop 6)
      (cap = 0 → AnswersOnly (.accountSettings m v) m s 0x13 .argument []) ∧
      (1 ≤ cap → s.acu.taken = false →
        ∃ t, exec (.accountSettings m v) s = .next t ∧ Answered 0x13 .ok [] t.lnk ∧
          t.acu.limit = natOfBytes (v.take 3) ∧ t.acu.threshold = natOfBytes ((v.drop 3).take 3) ∧
          t.acu.cap = cap ∧ t.acu.balance = s.acu.balance ∧ t.acu.arrears = s.acu.arrears ∧
          t.acu.taken = false ∧ t.acu.opening = s.acu.opening ∧ t.acu.credited = s.acu.credited ∧
          t.acu.debited = s.acu.debited ∧ StateHanded s t ∧ ClaimNoticed s t ∧ t.tcu = s.tcu ∧ t.ots = s.ots ∧
          t.elg = s.elg ∧ t.sdm = s.sdm ∧ t.pending = s.pending))

/-- A group slot is loaded with an empty window, enabled when its mask names a class (R76); the nine tamper actions
are replaced together, or refused whole (R158, R139). -/
def Obligations.GroupSlotAndTamperActionItems : Prop :=
  (∀ (m : Moment) (s : State) (n g hi lo : Byte) (key : List Byte), Listening s → s.ots.lock = false →
      key.length = 16 →
      let v := n :: key ++ [g, hi, lo]
      let mask : BitVec 16 := BitVec.ofNat 16 (hi.toNat * 256 + lo.toNat)
      let x : GroupSlot :=
        { enabled := mask != 0, key := some (BitVec.ofNat 128 (natOfBytes key)), groupId := g.toNat
          mask := mask, window := ⟨none, []⟩ }
      (n = 1 → AnswersWith (.groupSlot m v) m s 0x13 []
        fun t => { t with cda := { t.cda with groups := { s.cda.groups with g1 := x } } }) ∧
      (n = 2 → AnswersWith (.groupSlot m v) m s 0x13 []
        fun t => { t with cda := { t.cda with groups := { s.cda.groups with g2 := x } } }) ∧
      (n = 3 → AnswersWith (.groupSlot m v) m s 0x13 []
        fun t => { t with cda := { t.cda with groups := { s.cda.groups with g3 := x } } }) ∧
      (n = 0 ∨ 3 < n.toNat → AnswersOnly (.groupSlot m v) m s 0x13 .argument [])) ∧
  (∀ (m : Moment) (s : State) (v : List Byte), Listening s → s.ots.lock = false → v.length = 9 →
      ((∃ b ∈ v, 2 < b.toNat) ∨ v.getD 8 0 ≠ 2 ∨ v.getD 6 0 = 0 →
        AnswersOnly (.tamperActions m v) m s 0x13 .argument []) ∧
      ((∀ b ∈ v, b.toNat ≤ 2) → v.getD 8 0 = 2 → v.getD 6 0 ≠ 0 →
        ∃ t, exec (.tamperActions m v) s = .next t ∧ Answered 0x13 .ok [] t.lnk ∧
          (∀ k, (t.tmp.actions.get k).code = (v.getD (kindNumber k) 0).toNat) ∧
          (∀ k, (t.tmp.latches.get k).set = (s.tmp.latches.get k).set) ∧
          t.swc.table.tamper.isSome = tamperRequired t.tmp ∧ t.acu = s.acu ∧ t.tcu = s.tcu ∧ t.ots = s.ots ∧
          t.elg = s.elg ∧ t.sdm = s.sdm ∧ t.pending = s.pending))

/-- An active tariff field is written in both tariffs, and a calendar field in the calendar; a field or value out of
range is refused (R64). The point of a value and the calendar that a field and a value give are spelled out in
`TablesGiveTheirValues`. -/
def Obligations.TariffAndCalendarItems : Prop :=
  ∀ (m : Moment) (s : State) (form sel a b c : Byte), Listening s → s.ots.lock = false →
    let value := natOfBytes [a, b, c]
    (form.toNat = 0 → sel.toNat ≤ 3 → value ≤ 1000000 →
      AnswersWith (.activeTariffField m [form, sel, a, b, c]) m s 0x13 []
        fun t => { t with
          tcu :=
            { t.tcu with
              active := { s.tcu.active with prices := s.tcu.active.prices.setIfInBounds sel.toNat value }
              passive := { s.tcu.passive with prices := s.tcu.passive.prices.setIfInBounds sel.toNat value } } }) ∧
    (form.toNat = 0 → sel.toNat = 4 →
      AnswersWith (.activeTariffField m [form, sel, a, b, c]) m s 0x13 []
        fun t => { t with
          tcu :=
            { t.tcu with
              active := { s.tcu.active with standing := value }
              passive := { s.tcu.passive with standing := value } } }) ∧
    (∀ p, form.toNat = 1 → sel.toNat ≤ 7 → pointOfValue value = some p →
      AnswersWith (.activeTariffField m [form, sel, a, b, c]) m s 0x13 []
        fun t => { t with
          tcu :=
            { t.tcu with
              active := { s.tcu.active with work := s.tcu.active.work.setIfInBounds sel.toNat p }
              passive := { s.tcu.passive with work := s.tcu.passive.work.setIfInBounds sel.toNat p } } }) ∧
    (∀ p, form.toNat = 1 → 8 ≤ sel.toNat → sel.toNat ≤ 15 → pointOfValue value = some p →
      AnswersWith (.activeTariffField m [form, sel, a, b, c]) m s 0x13 []
        fun t => { t with
          tcu :=
            { t.tcu with
              active := { s.tcu.active with rest := s.tcu.active.rest.setIfInBounds (sel.toNat - 8) p }
              passive := { s.tcu.passive with rest := s.tcu.passive.rest.setIfInBounds (sel.toNat - 8) p } } }) ∧
    (1 < form.toNat ∨ form.toNat = 0 ∧ (4 < sel.toNat ∨ sel.toNat ≤ 3 ∧ 1000000 < value) ∨
        form.toNat = 1 ∧ (15 < sel.toNat ∨ pointOfValue value = none) →
      AnswersOnly (.activeTariffField m [form, sel, a, b, c]) m s 0x13 .argument []) ∧
    (∀ cal, writeCalendar sel.toNat value s.tcu.cal = some cal →
      ∃ t, exec (.calendarField m [sel, a, b, c]) s = .next t ∧ Answered 0x13 .ok [] t.lnk ∧
        t.tcu.cal = cal ∧ t.tcu.lastFriendly = some (friendlyNow t.tcu) ∧ t.tcu.clock = s.tcu.clock ∧
        t.tcu.active = s.tcu.active ∧ t.tcu.passive = s.tcu.passive ∧ t.acu = s.acu ∧ t.ots = s.ots ∧
        t.elg = s.elg ∧ t.sdm = s.sdm ∧ t.pending = s.pending) ∧
    (writeCalendar sel.toNat value s.tcu.cal = none →
      AnswersOnly (.calendarField m [sel, a, b, c]) m s 0x13 .argument [])

/-- The identity and the slot-0 key: WRITTEN when written, ARGUMENT for a byte that is no digit, and otherwise a burn
of 5 ms in WORKING, at whose end the field is written and OK is answered (R194). -/
def Obligations.OneTimeItemsAreBurned : Prop :=
  ∀ (m m' : Moment) (s : State) (v k : List Byte), Listening s → s.ots.lock = false → s.ots.burn = none →
    v.length = 12 → k.length = 16 →
    (s.ots.identity.isSome = true → AnswersOnly (.identity m v) m s 0x13 .written []) ∧
    (s.ots.key0.isSome = true → AnswersOnly (.slot0Key m k) m s 0x13 .written []) ∧
    (s.ots.identity = none → (∃ b ∈ v, 9 < b.toNat) → AnswersOnly (.identity m v) m s 0x13 .argument []) ∧
    (∀ ds, s.ots.identity = none → digitsOfBytes v = some ds → 5 ≤ m'.elapsed →
      ∃ t u, exec (.identity m v) s = .next t ∧ t.lnk.state = .working ∧ t.ots.identity = none ∧
        t = { afterFrame m s t.lnk with ots := t.ots } ∧
        exec (.otsBurnEnd m') t = .next u ∧ Answered 0x13 .ok [] u.lnk ∧
        u = { observe m' 0 t with ots := { s.ots with identity := some ds }, lnk := u.lnk }) ∧
    (s.ots.key0 = none → 5 ≤ m'.elapsed →
      ∃ t u, exec (.slot0Key m k) s = .next t ∧ t.lnk.state = .working ∧ t.ots.key0 = none ∧
        t = { afterFrame m s t.lnk with ots := t.ots } ∧
        exec (.otsBurnEnd m') t = .next u ∧ Answered 0x13 .ok [] u.lnk ∧
        u = { observe m' 0 t with
              ots := { s.ots with key0 := some (BitVec.ofNat 128 (natOfBytes k)) }, lnk := u.lnk })

/-- COMMISSION_LOCK: INCOMPLETE with the needs missing, or a burn of the lock mark in WORKING (R196). -/
def Obligations.LockNeedsIdentityKeyAndClock : Prop :=
  ∀ (m : Moment) (s : State), Listening s → s.ots.lock = false → s.ots.burn = none →
    let missing : Nat :=
      (if s.ots.identity.isSome then 0 else 1) + (if s.ots.key0.isSome then 0 else 2) +
        (if s.tcu.valid then 0 else 4)
    (missing ≠ 0 → AnswersOnly (.commissionLock m []) m s 0x14 .incomplete [BitVec.ofNat 8 missing]) ∧
    (missing = 0 → ∃ l, exec (.commissionLock m []) s =
        .next { afterFrame m s l with
          ots := { s.ots with burn := some ⟨.lockMark, s.now + m.elapsed + 5⟩ } } ∧ l.state = .working)

/-- The end of the lock burn (R196, R172, R159, R112): the mark; the log restarted with the TAMPER_SET records of the kinds
whose condition is ACTIVE and whose action is not OFF, in rising order of kind with sequences 1, 2 and onward, and the next
sequence after them; each such latch set afresh with the time of the lock, the first phase it held (RV, MS, SO) and the
sequence of its record, every other latch clear, and the TAMPER notice set when there is one; no COMMISSION entry, and
TAMPER as the latches require. The conditions stay, but for MS and SO, which a change of the switch can take. The order
inside the event is the model's choice (log 25). -/
def Obligations.LockTakesEffectWhole : Prop :=
  ∀ (m : Moment) (s : State) (b : Burn), resetHeld s = false → s.ots.burn = some b → b.field = .lockMark →
    b.ends ≤ s.now + m.elapsed →
    let latch (k : Kind) : Latch := s.tmp.latches.get k
    let again : List Kind := [Kind.cv, .tc, .mg, .rv, .ms, .so, .pw, .ca, .rl].filter fun k =>
      (latch k).condition && s.tmp.actions.get k != .off
    let phase (k : Kind) : Option Phase :=
      if k = .rv ∨ k = .ms ∨ k = .so then (latch k).set.bind (·.phase) else none
    ∃ t, exec (.commissionLockBurnEnd m) s = .next t ∧ t.ots = { s.ots with lock := true, burn := none } ∧
      t.elg.records = again.mapIdx (fun i k =>
        { seq := i + 1, time := s.tcu.clock, timeValid := s.tcu.valid, type := .tamperSet, kind := some k
          phase := phase k, code := none, balance := s.acu.balance, billedWh := s.piu.billedWh, guarded := true }) ∧
      t.elg.nextSeq = again.length + 1 ∧
      (∀ i k, again[i]? = some k → (t.tmp.latches.get k).set = some ⟨s.tcu.clock, phase k, i + 1⟩) ∧
      (∀ k, k ∉ again → (t.tmp.latches.get k).set = none) ∧
      (∀ k, (t.tmp.latches.get k).repeats = 0) ∧
      (∀ k, k ≠ .ms → k ≠ .so → (t.tmp.latches.get k).condition = (latch k).condition) ∧
      t.tmp.actions = s.tmp.actions ∧ t.tmp.runCvs = s.tmp.runCvs ∧ t.tmp.runTcs = s.tmp.runTcs ∧
      t.tmp.runMag = s.tmp.runMag ∧ t.tmp.batteryCvs = s.tmp.batteryCvs ∧ t.tmp.batteryTcs = s.tmp.batteryTcs ∧
      (t.rpu.notices.getLsbD 5 = true ↔
        s.rpu.notices.getLsbD 5 = true ∨ mainPowered s.sdm.power = true ∧ again ≠ []) ∧
      t.swc.table.commission = none ∧ t.swc.table.tamper.isSome = tamperRequired t.tmp ∧
      (s.lnk.state = .working → Answered 0x14 .ok [] t.lnk) ∧ t.acu = s.acu ∧ t.tcu = s.tcu ∧
      t.cda = (observe m 0 s).cda ∧ t.sdm = s.sdm ∧ t.pending = s.pending

/-! ## Supply -/

/-- VDD becomes good (R200, R201): from OFF a retention start and a MAIN reset, from BATTERY a MAIN reset with every KEEP
item kept. VDD is lost (R202): BATTERY with every KEEP item as it was, or OFF where VBAT is absent; VBAT is lost: OFF
from BATTERY, no change while VDD is good. In OFF a burn that had begun is written (R205; log 21); the MAIN items of
BATTERY and the KEEP items of OFF stand at their reset values (log 5), and `rcbLow`, `lastPress`, `pwAt` and `nextStep`
are the model's (logs 42, 41, 9). The start-up steps cut short (R72, R203): after the check and `n` missed boundaries, what has
been delivered stands through a loss of VDD and a fall of RSTN. A tick in STARTING delivers a boundary that is due once
the calendar's step has been taken (R51). -/
def Obligations.SupplyComesAndGoes : Prop :=
  let mainPiu (x : Piu) : Piu :=
    { x with
      lastPulse := ⟨none, none, none⟩, history := ⟨[], [], []⟩, stallTimer := ⟨0, 0, 0⟩
      stallFlag := ⟨false, false, false⟩, demand := .waiting, lastDemand := none }
  let mainCda (x : Cda) : Cda :=
    { x with
      acceptor := .idle, buffer := [], entryTimer := none, lastResult := none, resultNumber := 0, decodeSince := 0 }
  let mainSwc (now : Nat) (x : Swc) : Swc :=
    { x with
      switch := .verify, op := none, lastPulseEnd := now, lastVerification := none, overCount := 0
      pressLatch := false, lastPress := now }
  let mainTmp (x : Tmp) : Tmp :=
    { x with
      runCvs := [], runTcs := [], runMag := [], soHistory := [], lastHanded := none, runDue := 0, pwAt := none }
  let link : Lnk := ⟨.idle, false, [], [], [], 0, none, none, false, 0, []⟩
  let low (s : State) : Nat := if s.pins.rcb then s.rcbLow else s.now
  let kept (s : State) (now : Nat) (pins : Levels) (power : PowerState) (tmp : Tmp) : State :=
    { now := now, pins := pins, rcbLow := low s, sdm := ⟨power, s.sdm.marker, false, .check⟩, ots := s.ots
      piu := mainPiu s.piu
      acu := s.acu, tcu := { s.tcu with lastFriendly := none }, cda := mainCda s.cda, swc := mainSwc now s.swc
      tmp := tmp, elg := s.elg, rpu := ⟨512, 1023, none, none, none⟩, lnk := link, pending := s.pending }
  let blank (s : State) (now : Nat) (pins : Levels) (power : PowerState) (ots : Ots) : State :=
    { State.reset with
      now := now, pins := pins, rcbLow := low s, sdm := ⟨power, false, false, .check⟩, ots := ots
      swc :=
        { State.reset.swc with
          table := ⟨some ⟨false, 0, none⟩, none, none, none, if ots.lock then none else some ⟨false, 0, none⟩⟩
          lastPulseEnd := now, lastPress := now }
      pending := s.pending }
  (∀ (m : Moment) (s : State),
    let now := s.now + m.elapsed
    let pins := { m.pins with vdd := true }
    (s.sdm.power = .off → exec (.vddGood m) s = .next (blank s now pins .starting s.ots)) ∧
    (s.sdm.power = .battery → exec (.vddGood m) s = .next (kept s now pins .starting (mainTmp s.tmp))) ∧
    (s.sdm.power = .starting ∨ s.sdm.power = .run ∨ s.sdm.power = .holdup →
      exec (.vddGood m) s = .next (observe { m with pins := pins } 0 s))) ∧
  (∀ (m : Moment) (s : State),
    let now := s.now + m.elapsed
    let pins := { m.pins with vdd := false }
    (mainPowered s.sdm.power = true → m.pins.vbat = true →
      exec (.vddLost m) s = .next (kept s now pins .battery
        { mainTmp s.tmp with batteryCvs := [], batteryTcs := [], batteryDue := now + 500 })) ∧
    (mainPowered s.sdm.power = true → m.pins.vbat = false → s.ots.burn = none →
      exec (.vddLost m) s = .next (blank s now pins .off s.ots)) ∧
    (mainPowered s.sdm.power = true → m.pins.vbat = false → ∃ t, exec (.vddLost m) s = .next t ∧
      t.sdm.power = .off ∧ t.ots.burn = none ∧ t.pending = s.pending) ∧
    (mainPowered s.sdm.power = false → exec (.vddLost m) s = .next (observe { m with pins := pins } 0 s))) ∧
  (∀ (m : Moment) (s : State),
    let now := s.now + m.elapsed
    let pins := { m.pins with vbat := false }
    (s.sdm.power = .battery → s.ots.burn = none → exec (.vbatLost m) s = .next (blank s now pins .off s.ots)) ∧
    (s.sdm.power = .battery → ∃ t, exec (.vbatLost m) s = .next t ∧ t.sdm.power = .off ∧ t.ots.burn = none ∧
      t.pending = s.pending) ∧
    (s.sdm.power ≠ .battery → exec (.vbatLost m) s = .next (observe { m with pins := pins } 0 s))) ∧
  (∀ (m m' : Moment) (s : State) (fell : Bool) (n : Nat), s.sdm.power = .starting → s.sdm.nextStep = .check →
    m.pins.vdd = true → m.pins.rstn = true → m.pins.pfw = true → s.ots.burn = none → s.sdm.marker = true →
    s.tcu.valid = true → s.tcu.lastDay + n ≤ s.tcu.clock / 86400 →
    ∃ t u w, exec (.startUp m ⟨fell, some (n + 1)⟩) s = .next t ∧ t.sdm = ⟨.starting, true, true, .catchUp⟩ ∧
      t.tcu.lastDay = s.tcu.lastDay + n ∧ t.tcu.clock = s.tcu.clock ∧ (n = 0 → t.acu = s.acu) ∧
      (n = 1 → t.acu = s.acu.alarmAfter (s.acu.charge (s.tcu.active.standing * 1000))) ∧ t.ots = s.ots ∧
      t.pending = s.pending ∧
      exec (.vddLost m') t = .next u ∧ exec (.rstnFall m') t = .next w ∧
      (m'.pins.vbat = true → u.sdm = ⟨.battery, true, false, .check⟩ ∧ u.acu = t.acu ∧ u.elg = t.elg ∧
        u.tcu = { t.tcu with lastFriendly := none }) ∧
      w.sdm = ⟨.starting, true, false, .check⟩ ∧ w.acu = t.acu ∧ w.elg = t.elg ∧
      w.tcu = { t.tcu with lastFriendly := none }) ∧
  (∀ (m : Moment) (s : State), s.sdm.power = .starting → s.sdm.stepsBegun = true → s.tcu.clock + 1 < 2 ^ 32 →
    ∃ t, exec (.secondTick m) s = .next t ∧ t.tcu.clock = s.tcu.clock + 1 ∧
      (s.sdm.nextStep = .check ∨ s.sdm.nextStep = .catchUp →
        t.tcu.lastDay = s.tcu.lastDay ∧ t.tcu.lastFriendly = s.tcu.lastFriendly ∧ t.acu = s.acu) ∧
      (s.sdm.nextStep ≠ .check → s.sdm.nextStep ≠ .catchUp →
        (s.tcu.valid = true → t.tcu.lastDay = max s.tcu.lastDay ((s.tcu.clock + 1) / 86400)) ∧
        ((s.tcu.clock + 1) % 60 = 0 → t.tcu.lastFriendly = some (friendlyNow { s.tcu with clock := s.tcu.clock + 1 }))))

/-- The falls of RSTN and PFW, and the rise of PFW (R200, R206, R104). -/
def Obligations.ResetAndPowerFailPins : Prop :=
  ∀ (m : Moment) (s : State),
    (mainPowered s.sdm.power = true →
      ∃ t, exec (.rstnFall m) s = .next t ∧ t.sdm.power = .starting ∧ t.rpu = ⟨512, 1023, none, none, none⟩ ∧
        t.swc.switch = .verify ∧ t.lnk.state = .idle ∧ t.cda.buffer = [] ∧ t.acu = s.acu ∧ t.elg = s.elg ∧
        t.ots = s.ots ∧ t.swc.table = s.swc.table ∧ t.tmp.latches = s.tmp.latches ∧ t.pending = s.pending) ∧
    (s.sdm.power = .run →
      ∃ t, exec (.pfwFall m) s = .next t ∧ t.sdm.power = .holdup ∧ t.cda.buffer = [] ∧
        t.cda.entryTimer = none ∧
        (s.cda.acceptor = .lockout ∨ s.cda.acceptor = .retired → t.cda.acceptor = s.cda.acceptor) ∧
        (s.cda.acceptor ≠ .lockout → s.cda.acceptor ≠ .retired → t.cda.acceptor = .idle) ∧
        t.cda.lastResult = s.cda.lastResult ∧ t.cda.streak = s.cda.streak ∧ t.acu = s.acu ∧ t.tcu = s.tcu ∧
        t.swc = s.swc ∧ t.piu = s.piu ∧ t.tmp = s.tmp ∧ t.elg = s.elg ∧ t.rpu = s.rpu ∧ t.ots = s.ots ∧
        t.pending = s.pending) ∧
    (s.sdm.power = .holdup → m.pins.vdd = true →
      ∃ t, exec (.pfwRise m) s = .next t ∧ t.sdm.power = .starting ∧
        t.rpu = ⟨512, 1023, none, none, none⟩ ∧ t.swc.switch = .verify ∧ t.lnk.state = .idle ∧
        t.acu = s.acu ∧ t.elg = s.elg ∧ t.ots = s.ots ∧ t.swc.table = s.swc.table ∧ t.pending = s.pending)

/-- The start-up steps of an ordinary or blank start, from the check, run to RUN or HOLDUP (R203, R204, R105, R72). Steps
cut short run on from where they stand, and what they no longer come to stays as the steps before left it: the marker,
past the catch-up the account and the calendar, past VERIFY the verification. That START_UP takes the steps in one
command, with a fall of PFW as an operand, and the order of the steps after VERIFY, is the model's form (log 9). -/
def Obligations.StartUpEntersRun : Prop :=
  ∀ (m : Moment) (s : State) (fell : Bool), s.sdm.power = .starting →
    m.pins.vdd = true → m.pins.rstn = true → s.ots.burn = none →
    let verification : Option Verification := some ⟨foundOf m.pins, outOfPlace m.pins (!m.pins.aux)⟩
    let accepts (t : State) : Prop :=
      t.cda.acceptor = (if s.cda.retired then .retired else if 0 < s.cda.lockoutLeft then .lockout else .idle) ∧
      t.tmp.latches.ca.condition = decide (0 < s.cda.lockoutLeft)
    let caughtUp (t : State) : Prop :=
      t.tcu.lastFriendly = some (friendlyNow t.tcu) ∧
      (s.tcu.valid = true → t.tcu.lastDay = max s.tcu.lastDay (dayOf s.tcu.clock)) ∧
      (s.tcu.valid = false → t.tcu.lastDay = s.tcu.lastDay ∧ t.acu = s.acu)
    let ended (t : State) : Prop :=
      t.sdm.stepsBegun = false ∧ t.sdm.nextStep = .check ∧ t.tcu.clock = s.tcu.clock ∧ t.ots = s.ots ∧
      t.lnk = (observe m 0 s).lnk ∧ t.pending = s.pending
    (s.sdm.nextStep = .check → m.pins.pfw = true → (s.sdm.marker = true ∨ s.ots.lock = false) →
      ∃ t, exec (.startUp m ⟨fell, none⟩) s = .next t ∧ ended t ∧ caughtUp t ∧
        t.sdm.power = (if fell then .holdup else .run) ∧ t.sdm.marker = true ∧ t.swc.switch ≠ .verify ∧
        t.swc.lastVerification = verification ∧ accepts t ∧ t.tmp.latches.ms.condition = false) ∧
    (s.sdm.nextStep ≠ .check → s.sdm.stepsBegun = true →
      ∃ t, exec (.startUp m ⟨fell, none⟩) s = .next t ∧ ended t ∧
        t.sdm.power = (if fell = true ∨ m.pins.pfw = false then .holdup else .run) ∧
        t.sdm.marker = s.sdm.marker ∧
        (s.sdm.nextStep = .catchUp → caughtUp t) ∧
        (s.sdm.nextStep ≠ .catchUp → t.tcu = s.tcu ∧ t.acu = s.acu) ∧
        (s.sdm.nextStep = .catchUp ∨ s.sdm.nextStep = .verify →
          t.swc.lastVerification = verification ∧ t.swc.switch ≠ .verify) ∧
        (s.sdm.nextStep ≠ .catchUp → s.sdm.nextStep ≠ .verify →
          t.swc.lastVerification = s.swc.lastVerification) ∧
        (s.sdm.nextStep = .catchUp ∨ s.sdm.nextStep = .verify ∨ s.sdm.nextStep = .acceptor → accepts t) ∧
        (s.sdm.nextStep ≠ .tamper → t.tmp.latches.ms.condition = false))

/-- A retention loss on a locked part (R204, R205): the check burns a loss mark and waits; at the end of the burn the
count rises, the marker is SET, reinstate is required and RL is active. The seventeenth loss retires the part.
LOSS_MARK_BURN_END does so at the end of any loss mark's burn, in every power state that it finds (R205: also where RSTN
has fallen or VDD is lost meanwhile), and no burn of a loss mark that has run out gives only the passing of time (log 4).
START_UP as one command that stops at the burn is the model's form (log 9), so is what becomes of a burn (log 21), and
so is an end that comes late (log 33). -/
def Obligations.RetentionLossIsBurned : Prop :=
  (∀ (m m' : Moment) (s : State) (fell : Bool), s.sdm.power = .starting → s.sdm.nextStep = .check →
    m.pins.vdd = true → m.pins.rstn = true → m.pins.pfw = true → s.ots.burn = none →
    s.sdm.marker = false → s.ots.lock = true →
    (s.ots.lossCount < 16 → 5 ≤ m'.elapsed →
      ∃ t u, exec (.startUp m ⟨fell, none⟩) s = .next t ∧ t.sdm.power = .starting ∧ t.sdm.marker = false ∧
        t.ots.lossCount = s.ots.lossCount ∧ exec (.lossMarkBurnEnd m') t = .next u ∧
        u.ots = { s.ots with lossCount := s.ots.lossCount + 1 } ∧ u.sdm.marker = true ∧
        u.cda.reinstate = true ∧ u.tmp.latches.rl.condition = true ∧ u.acu = s.acu ∧
        u.tcu.clock = s.tcu.clock ∧
        u.pending = s.pending) ∧
    (s.ots.lossCount = 16 →
      ∃ t, exec (.startUp m ⟨fell, none⟩) s = .next t ∧ t.sdm.marker = true ∧ t.cda.retired = true ∧
        t.cda.acceptor = .retired ∧ t.tmp.latches.rl.condition = true ∧ t.ots = s.ots ∧
        t.sdm.power = (if fell then .holdup else .run) ∧ t.pending = s.pending)) ∧
  (∀ (m : Moment) (s : State),
    let ranOut := ∃ b, s.ots.burn = some b ∧ b.field = .lossMark ∧ b.ends ≤ s.now + m.elapsed
    let rl := s.tmp.latches.rl
    (ranOut →
      ∃ u, exec (.lossMarkBurnEnd m) s = .next u ∧
        u.ots = { s.ots with lossCount := s.ots.lossCount + 1, burn := none } ∧
        u.sdm.power = s.sdm.power ∧ u.sdm.marker = true ∧ u.cda.reinstate = true ∧
        u.tmp.latches.rl.condition = true ∧ u.tmp.actions = s.tmp.actions ∧
        (∀ k, k ≠ .rl → (u.tmp.latches.get k).set = (s.tmp.latches.get k).set ∧
          (u.tmp.latches.get k).repeats = (s.tmp.latches.get k).repeats) ∧
        (rl.condition = true → u.tmp.latches = s.tmp.latches ∧ u.elg = s.elg) ∧
        (rl.condition = false →
          (s.tmp.actions.rl = .off → u.tmp.latches.rl = ⟨true, rl.set, rl.repeats⟩ ∧ u.elg = s.elg) ∧
          (s.tmp.actions.rl ≠ .off → rl.set ≠ none →
            u.tmp.latches.rl = ⟨true, rl.set, min 255 (rl.repeats + 1)⟩ ∧ u.elg = s.elg) ∧
          (s.tmp.actions.rl ≠ .off → rl.set = none →
            u.tmp.latches.rl = ⟨true, some ⟨s.tcu.clock, none, s.elg.nextSeq⟩, 0⟩ ∧
            u.elg = s.elg.join
              { seq := s.elg.nextSeq, time := s.tcu.clock, timeValid := s.tcu.valid, type := .tamperSet
                kind := some .rl, phase := none, code := none, balance := s.acu.balance
                billedWh := s.piu.billedWh, guarded := true })) ∧
        u.acu = s.acu ∧ u.tcu.clock = s.tcu.clock ∧ u.pending = s.pending) ∧
    (¬ranOut → exec (.lossMarkBurnEnd m) s = .next (observe m 0 s)))
end

