-- ==== Sys2Proof/Laws/State.lean ====
section
/-! SUPPORT. What each setter of the state leaves and gives, field by field; all true by rfl and for simp. -/

namespace Sys2Proof.Machine

/-- `setSdm` gives the block and leaves every other field. -/
@[simp] theorem State.setSdm_fields (s : State) (x : Sdm) :
    (s.setSdm x).sdm = x ∧
    (s.setSdm x).now = s.now ∧
    (s.setSdm x).pins = s.pins ∧
    (s.setSdm x).rcbLow = s.rcbLow ∧
    (s.setSdm x).ots = s.ots ∧
    (s.setSdm x).piu = s.piu ∧
    (s.setSdm x).acu = s.acu ∧
    (s.setSdm x).tcu = s.tcu ∧
    (s.setSdm x).cda = s.cda ∧
    (s.setSdm x).swc = s.swc ∧
    (s.setSdm x).tmp = s.tmp ∧
    (s.setSdm x).elg = s.elg ∧
    (s.setSdm x).rpu = s.rpu ∧
    (s.setSdm x).lnk = s.lnk ∧
    (s.setSdm x).pending = s.pending := by
  refine ⟨rfl, ?_⟩
  repeat' constructor

/-- `setOts` gives the block and leaves every other field. -/
@[simp] theorem State.setOts_fields (s : State) (x : Ots) :
    (s.setOts x).ots = x ∧
    (s.setOts x).now = s.now ∧
    (s.setOts x).pins = s.pins ∧
    (s.setOts x).rcbLow = s.rcbLow ∧
    (s.setOts x).sdm = s.sdm ∧
    (s.setOts x).piu = s.piu ∧
    (s.setOts x).acu = s.acu ∧
    (s.setOts x).tcu = s.tcu ∧
    (s.setOts x).cda = s.cda ∧
    (s.setOts x).swc = s.swc ∧
    (s.setOts x).tmp = s.tmp ∧
    (s.setOts x).elg = s.elg ∧
    (s.setOts x).rpu = s.rpu ∧
    (s.setOts x).lnk = s.lnk ∧
    (s.setOts x).pending = s.pending := by
  refine ⟨rfl, ?_⟩
  repeat' constructor

/-- `setPiu` gives the block and leaves every other field. -/
@[simp] theorem State.setPiu_fields (s : State) (x : Piu) :
    (s.setPiu x).piu = x ∧
    (s.setPiu x).now = s.now ∧
    (s.setPiu x).pins = s.pins ∧
    (s.setPiu x).rcbLow = s.rcbLow ∧
    (s.setPiu x).sdm = s.sdm ∧
    (s.setPiu x).ots = s.ots ∧
    (s.setPiu x).acu = s.acu ∧
    (s.setPiu x).tcu = s.tcu ∧
    (s.setPiu x).cda = s.cda ∧
    (s.setPiu x).swc = s.swc ∧
    (s.setPiu x).tmp = s.tmp ∧
    (s.setPiu x).elg = s.elg ∧
    (s.setPiu x).rpu = s.rpu ∧
    (s.setPiu x).lnk = s.lnk ∧
    (s.setPiu x).pending = s.pending := by
  refine ⟨rfl, ?_⟩
  repeat' constructor

/-- `setAcu` gives the block and leaves every other field. -/
@[simp] theorem State.setAcu_fields (s : State) (x : Account) :
    (s.setAcu x).acu = x ∧
    (s.setAcu x).now = s.now ∧
    (s.setAcu x).pins = s.pins ∧
    (s.setAcu x).rcbLow = s.rcbLow ∧
    (s.setAcu x).sdm = s.sdm ∧
    (s.setAcu x).ots = s.ots ∧
    (s.setAcu x).piu = s.piu ∧
    (s.setAcu x).tcu = s.tcu ∧
    (s.setAcu x).cda = s.cda ∧
    (s.setAcu x).swc = s.swc ∧
    (s.setAcu x).tmp = s.tmp ∧
    (s.setAcu x).elg = s.elg ∧
    (s.setAcu x).rpu = s.rpu ∧
    (s.setAcu x).lnk = s.lnk ∧
    (s.setAcu x).pending = s.pending := by
  refine ⟨rfl, ?_⟩
  repeat' constructor

/-- `setTcu` gives the block and leaves every other field. -/
@[simp] theorem State.setTcu_fields (s : State) (x : Tcu) :
    (s.setTcu x).tcu = x ∧
    (s.setTcu x).now = s.now ∧
    (s.setTcu x).pins = s.pins ∧
    (s.setTcu x).rcbLow = s.rcbLow ∧
    (s.setTcu x).sdm = s.sdm ∧
    (s.setTcu x).ots = s.ots ∧
    (s.setTcu x).piu = s.piu ∧
    (s.setTcu x).acu = s.acu ∧
    (s.setTcu x).cda = s.cda ∧
    (s.setTcu x).swc = s.swc ∧
    (s.setTcu x).tmp = s.tmp ∧
    (s.setTcu x).elg = s.elg ∧
    (s.setTcu x).rpu = s.rpu ∧
    (s.setTcu x).lnk = s.lnk ∧
    (s.setTcu x).pending = s.pending := by
  refine ⟨rfl, ?_⟩
  repeat' constructor

/-- `setCda` gives the block and leaves every other field. -/
@[simp] theorem State.setCda_fields (s : State) (x : Cda) :
    (s.setCda x).cda = x ∧
    (s.setCda x).now = s.now ∧
    (s.setCda x).pins = s.pins ∧
    (s.setCda x).rcbLow = s.rcbLow ∧
    (s.setCda x).sdm = s.sdm ∧
    (s.setCda x).ots = s.ots ∧
    (s.setCda x).piu = s.piu ∧
    (s.setCda x).acu = s.acu ∧
    (s.setCda x).tcu = s.tcu ∧
    (s.setCda x).swc = s.swc ∧
    (s.setCda x).tmp = s.tmp ∧
    (s.setCda x).elg = s.elg ∧
    (s.setCda x).rpu = s.rpu ∧
    (s.setCda x).lnk = s.lnk ∧
    (s.setCda x).pending = s.pending := by
  refine ⟨rfl, ?_⟩
  repeat' constructor

/-- `setSwc` gives the block and leaves every other field. -/
@[simp] theorem State.setSwc_fields (s : State) (x : Swc) :
    (s.setSwc x).swc = x ∧
    (s.setSwc x).now = s.now ∧
    (s.setSwc x).pins = s.pins ∧
    (s.setSwc x).rcbLow = s.rcbLow ∧
    (s.setSwc x).sdm = s.sdm ∧
    (s.setSwc x).ots = s.ots ∧
    (s.setSwc x).piu = s.piu ∧
    (s.setSwc x).acu = s.acu ∧
    (s.setSwc x).tcu = s.tcu ∧
    (s.setSwc x).cda = s.cda ∧
    (s.setSwc x).tmp = s.tmp ∧
    (s.setSwc x).elg = s.elg ∧
    (s.setSwc x).rpu = s.rpu ∧
    (s.setSwc x).lnk = s.lnk ∧
    (s.setSwc x).pending = s.pending := by
  refine ⟨rfl, ?_⟩
  repeat' constructor

/-- `setTmp` gives the block and leaves every other field. -/
@[simp] theorem State.setTmp_fields (s : State) (x : Tmp) :
    (s.setTmp x).tmp = x ∧
    (s.setTmp x).now = s.now ∧
    (s.setTmp x).pins = s.pins ∧
    (s.setTmp x).rcbLow = s.rcbLow ∧
    (s.setTmp x).sdm = s.sdm ∧
    (s.setTmp x).ots = s.ots ∧
    (s.setTmp x).piu = s.piu ∧
    (s.setTmp x).acu = s.acu ∧
    (s.setTmp x).tcu = s.tcu ∧
    (s.setTmp x).cda = s.cda ∧
    (s.setTmp x).swc = s.swc ∧
    (s.setTmp x).elg = s.elg ∧
    (s.setTmp x).rpu = s.rpu ∧
    (s.setTmp x).lnk = s.lnk ∧
    (s.setTmp x).pending = s.pending := by
  refine ⟨rfl, ?_⟩
  repeat' constructor

/-- `setElg` gives the block and leaves every other field. -/
@[simp] theorem State.setElg_fields (s : State) (x : Elg) :
    (s.setElg x).elg = x ∧
    (s.setElg x).now = s.now ∧
    (s.setElg x).pins = s.pins ∧
    (s.setElg x).rcbLow = s.rcbLow ∧
    (s.setElg x).sdm = s.sdm ∧
    (s.setElg x).ots = s.ots ∧
    (s.setElg x).piu = s.piu ∧
    (s.setElg x).acu = s.acu ∧
    (s.setElg x).tcu = s.tcu ∧
    (s.setElg x).cda = s.cda ∧
    (s.setElg x).swc = s.swc ∧
    (s.setElg x).tmp = s.tmp ∧
    (s.setElg x).rpu = s.rpu ∧
    (s.setElg x).lnk = s.lnk ∧
    (s.setElg x).pending = s.pending := by
  refine ⟨rfl, ?_⟩
  repeat' constructor

/-- `setRpu` gives the block and leaves every other field. -/
@[simp] theorem State.setRpu_fields (s : State) (x : Rpu) :
    (s.setRpu x).rpu = x ∧
    (s.setRpu x).now = s.now ∧
    (s.setRpu x).pins = s.pins ∧
    (s.setRpu x).rcbLow = s.rcbLow ∧
    (s.setRpu x).sdm = s.sdm ∧
    (s.setRpu x).ots = s.ots ∧
    (s.setRpu x).piu = s.piu ∧
    (s.setRpu x).acu = s.acu ∧
    (s.setRpu x).tcu = s.tcu ∧
    (s.setRpu x).cda = s.cda ∧
    (s.setRpu x).swc = s.swc ∧
    (s.setRpu x).tmp = s.tmp ∧
    (s.setRpu x).elg = s.elg ∧
    (s.setRpu x).lnk = s.lnk ∧
    (s.setRpu x).pending = s.pending := by
  refine ⟨rfl, ?_⟩
  repeat' constructor

/-- `setLnk` gives the block and leaves every other field. -/
@[simp] theorem State.setLnk_fields (s : State) (x : Lnk) :
    (s.setLnk x).lnk = x ∧
    (s.setLnk x).now = s.now ∧
    (s.setLnk x).pins = s.pins ∧
    (s.setLnk x).rcbLow = s.rcbLow ∧
    (s.setLnk x).sdm = s.sdm ∧
    (s.setLnk x).ots = s.ots ∧
    (s.setLnk x).piu = s.piu ∧
    (s.setLnk x).acu = s.acu ∧
    (s.setLnk x).tcu = s.tcu ∧
    (s.setLnk x).cda = s.cda ∧
    (s.setLnk x).swc = s.swc ∧
    (s.setLnk x).tmp = s.tmp ∧
    (s.setLnk x).elg = s.elg ∧
    (s.setLnk x).rpu = s.rpu ∧
    (s.setLnk x).pending = s.pending := by
  refine ⟨rfl, ?_⟩
  repeat' constructor

/-- `setPins` gives the block and leaves every other field. -/
@[simp] theorem State.setPins_fields (s : State) (x : Levels) :
    (s.setPins x).pins = x ∧
    (s.setPins x).rcbLow = s.rcbLow ∧
    (s.setPins x).now = s.now ∧
    (s.setPins x).sdm = s.sdm ∧
    (s.setPins x).ots = s.ots ∧
    (s.setPins x).piu = s.piu ∧
    (s.setPins x).acu = s.acu ∧
    (s.setPins x).tcu = s.tcu ∧
    (s.setPins x).cda = s.cda ∧
    (s.setPins x).swc = s.swc ∧
    (s.setPins x).tmp = s.tmp ∧
    (s.setPins x).elg = s.elg ∧
    (s.setPins x).rpu = s.rpu ∧
    (s.setPins x).lnk = s.lnk ∧
    (s.setPins x).pending = s.pending := by
  refine ⟨rfl, ?_⟩
  repeat' constructor

/-- `setRcbLow` gives the block and leaves every other field. -/
@[simp] theorem State.setRcbLow_fields (s : State) (x : Nat) :
    (s.setRcbLow x).rcbLow = x ∧
    (s.setRcbLow x).pins = s.pins ∧
    (s.setRcbLow x).now = s.now ∧
    (s.setRcbLow x).sdm = s.sdm ∧
    (s.setRcbLow x).ots = s.ots ∧
    (s.setRcbLow x).piu = s.piu ∧
    (s.setRcbLow x).acu = s.acu ∧
    (s.setRcbLow x).tcu = s.tcu ∧
    (s.setRcbLow x).cda = s.cda ∧
    (s.setRcbLow x).swc = s.swc ∧
    (s.setRcbLow x).tmp = s.tmp ∧
    (s.setRcbLow x).elg = s.elg ∧
    (s.setRcbLow x).rpu = s.rpu ∧
    (s.setRcbLow x).lnk = s.lnk ∧
    (s.setRcbLow x).pending = s.pending := by
  refine ⟨rfl, ?_⟩
  repeat' constructor

/-- `setNow` gives the block and leaves every other field. -/
@[simp] theorem State.setNow_fields (s : State) (x : Nat) :
    (s.setNow x).now = x ∧
    (s.setNow x).pins = s.pins ∧
    (s.setNow x).rcbLow = s.rcbLow ∧
    (s.setNow x).sdm = s.sdm ∧
    (s.setNow x).ots = s.ots ∧
    (s.setNow x).piu = s.piu ∧
    (s.setNow x).acu = s.acu ∧
    (s.setNow x).tcu = s.tcu ∧
    (s.setNow x).cda = s.cda ∧
    (s.setNow x).swc = s.swc ∧
    (s.setNow x).tmp = s.tmp ∧
    (s.setNow x).elg = s.elg ∧
    (s.setNow x).rpu = s.rpu ∧
    (s.setNow x).lnk = s.lnk ∧
    (s.setNow x).pending = s.pending := by
  refine ⟨rfl, ?_⟩
  repeat' constructor

end Sys2Proof.Machine
end

