-- ==== Sys2Proof/Laws/FramesOps.lean ====
section
/-! SUPPORT. The frame of each operation of the shared operations of Machine/Ops.lean: one lemma for each,
naming every block of the state that it leaves as it was. -/

set_option linter.all false

namespace Sys2Proof.Machine

@[simp] theorem notify_frame (n : Notice) (s : State) :
    (notify n s).now = s.now ∧
    (notify n s).pins = s.pins ∧
    (notify n s).rcbLow = s.rcbLow ∧
    (notify n s).sdm = s.sdm ∧
    (notify n s).ots = s.ots ∧
    (notify n s).piu = s.piu ∧
    (notify n s).acu = s.acu ∧
    (notify n s).tcu = s.tcu ∧
    (notify n s).cda = s.cda ∧
    (notify n s).swc = s.swc ∧
    (notify n s).tmp = s.tmp ∧
    (notify n s).elg = s.elg ∧
    (notify n s).lnk = s.lnk ∧
    (notify n s).pending = s.pending := by
  unfold notify
  try dsimp only
  (repeat' split) <;> simp [apply_ite State.now, apply_ite State.pins, apply_ite State.sdm, apply_ite State.ots, apply_ite State.piu, apply_ite State.acu, apply_ite State.tcu, apply_ite State.cda, apply_ite State.swc, apply_ite State.tmp, apply_ite State.elg, apply_ite State.lnk, apply_ite State.pending]

@[simp] theorem append_frame (ty : RecordType) (k : Option Kind) (p : Option Phase) (c : Option RecordCode) (s : State) :
    (append ty k p c s).now = s.now ∧
    (append ty k p c s).pins = s.pins ∧
    (append ty k p c s).rcbLow = s.rcbLow ∧
    (append ty k p c s).sdm = s.sdm ∧
    (append ty k p c s).ots = s.ots ∧
    (append ty k p c s).piu = s.piu ∧
    (append ty k p c s).acu = s.acu ∧
    (append ty k p c s).tcu = s.tcu ∧
    (append ty k p c s).cda = s.cda ∧
    (append ty k p c s).swc = s.swc ∧
    (append ty k p c s).tmp = s.tmp ∧
    (append ty k p c s).rpu = s.rpu ∧
    (append ty k p c s).lnk = s.lnk ∧
    (append ty k p c s).pending = s.pending := by
  unfold append
  try dsimp only
  (repeat' split) <;> simp [apply_ite State.now, apply_ite State.pins, apply_ite State.sdm, apply_ite State.ots, apply_ite State.piu, apply_ite State.acu, apply_ite State.tcu, apply_ite State.cda, apply_ite State.swc, apply_ite State.tmp, apply_ite State.rpu, apply_ite State.lnk, apply_ite State.pending]

@[simp] theorem releaseRecord_frame (k : Kind) (n : Nat) (s : State) :
    (releaseRecord k n s).now = s.now ∧
    (releaseRecord k n s).pins = s.pins ∧
    (releaseRecord k n s).rcbLow = s.rcbLow ∧
    (releaseRecord k n s).sdm = s.sdm ∧
    (releaseRecord k n s).ots = s.ots ∧
    (releaseRecord k n s).piu = s.piu ∧
    (releaseRecord k n s).acu = s.acu ∧
    (releaseRecord k n s).tcu = s.tcu ∧
    (releaseRecord k n s).cda = s.cda ∧
    (releaseRecord k n s).swc = s.swc ∧
    (releaseRecord k n s).tmp = s.tmp ∧
    (releaseRecord k n s).rpu = s.rpu ∧
    (releaseRecord k n s).lnk = s.lnk ∧
    (releaseRecord k n s).pending = s.pending := by
  unfold releaseRecord
  try dsimp only
  (repeat' split) <;> simp [apply_ite State.now, apply_ite State.pins, apply_ite State.sdm, apply_ite State.ots, apply_ite State.piu, apply_ite State.acu, apply_ite State.tcu, apply_ite State.cda, apply_ite State.swc, apply_ite State.tmp, apply_ite State.rpu, apply_ite State.lnk, apply_ite State.pending]

@[simp] theorem setLatch_frame (k : Kind) (l : Latch) (s : State) :
    (setLatch k l s).now = s.now ∧
    (setLatch k l s).pins = s.pins ∧
    (setLatch k l s).rcbLow = s.rcbLow ∧
    (setLatch k l s).sdm = s.sdm ∧
    (setLatch k l s).ots = s.ots ∧
    (setLatch k l s).piu = s.piu ∧
    (setLatch k l s).acu = s.acu ∧
    (setLatch k l s).tcu = s.tcu ∧
    (setLatch k l s).cda = s.cda ∧
    (setLatch k l s).swc = s.swc ∧
    (setLatch k l s).elg = s.elg ∧
    (setLatch k l s).rpu = s.rpu ∧
    (setLatch k l s).lnk = s.lnk ∧
    (setLatch k l s).pending = s.pending := by
  unfold setLatch
  try dsimp only
  (repeat' split) <;> simp [apply_ite State.now, apply_ite State.pins, apply_ite State.sdm, apply_ite State.ots, apply_ite State.piu, apply_ite State.acu, apply_ite State.tcu, apply_ite State.cda, apply_ite State.swc, apply_ite State.elg, apply_ite State.rpu, apply_ite State.lnk, apply_ite State.pending]

@[simp] theorem fall_frame (k : Kind) (s : State) :
    (fall k s).now = s.now ∧
    (fall k s).pins = s.pins ∧
    (fall k s).rcbLow = s.rcbLow ∧
    (fall k s).sdm = s.sdm ∧
    (fall k s).ots = s.ots ∧
    (fall k s).piu = s.piu ∧
    (fall k s).acu = s.acu ∧
    (fall k s).tcu = s.tcu ∧
    (fall k s).cda = s.cda ∧
    (fall k s).swc = s.swc ∧
    (fall k s).elg = s.elg ∧
    (fall k s).rpu = s.rpu ∧
    (fall k s).lnk = s.lnk ∧
    (fall k s).pending = s.pending := by
  unfold fall
  try dsimp only
  (repeat' split) <;> simp [apply_ite State.now, apply_ite State.pins, apply_ite State.sdm, apply_ite State.ots, apply_ite State.piu, apply_ite State.acu, apply_ite State.tcu, apply_ite State.cda, apply_ite State.swc, apply_ite State.elg, apply_ite State.rpu, apply_ite State.lnk, apply_ite State.pending]

@[simp] theorem piuSwitch_frame (a b : SwitchState) (s : State) :
    (piuSwitch a b s).now = s.now ∧
    (piuSwitch a b s).pins = s.pins ∧
    (piuSwitch a b s).rcbLow = s.rcbLow ∧
    (piuSwitch a b s).sdm = s.sdm ∧
    (piuSwitch a b s).ots = s.ots ∧
    (piuSwitch a b s).acu = s.acu ∧
    (piuSwitch a b s).tcu = s.tcu ∧
    (piuSwitch a b s).cda = s.cda ∧
    (piuSwitch a b s).swc = s.swc ∧
    (piuSwitch a b s).elg = s.elg ∧
    (piuSwitch a b s).rpu = s.rpu ∧
    (piuSwitch a b s).lnk = s.lnk ∧
    (piuSwitch a b s).pending = s.pending := by
  unfold piuSwitch
  try dsimp only
  (repeat' split) <;> simp [apply_ite State.now, apply_ite State.pins, apply_ite State.sdm, apply_ite State.ots, apply_ite State.acu, apply_ite State.tcu, apply_ite State.cda, apply_ite State.swc, apply_ite State.elg, apply_ite State.rpu, apply_ite State.lnk, apply_ite State.pending]

@[simp] theorem tmpSwitch_frame (a : SwitchState) (s : State) :
    (tmpSwitch a s).now = s.now ∧
    (tmpSwitch a s).pins = s.pins ∧
    (tmpSwitch a s).rcbLow = s.rcbLow ∧
    (tmpSwitch a s).sdm = s.sdm ∧
    (tmpSwitch a s).ots = s.ots ∧
    (tmpSwitch a s).piu = s.piu ∧
    (tmpSwitch a s).acu = s.acu ∧
    (tmpSwitch a s).tcu = s.tcu ∧
    (tmpSwitch a s).cda = s.cda ∧
    (tmpSwitch a s).swc = s.swc ∧
    (tmpSwitch a s).elg = s.elg ∧
    (tmpSwitch a s).rpu = s.rpu ∧
    (tmpSwitch a s).lnk = s.lnk ∧
    (tmpSwitch a s).pending = s.pending := by
  unfold tmpSwitch
  try dsimp only
  (repeat' split) <;> simp [apply_ite State.now, apply_ite State.pins, apply_ite State.sdm, apply_ite State.ots, apply_ite State.piu, apply_ite State.acu, apply_ite State.tcu, apply_ite State.cda, apply_ite State.swc, apply_ite State.elg, apply_ite State.rpu, apply_ite State.lnk, apply_ite State.pending]

@[simp] theorem enterSwitch_frame (a : SwitchState) (s : State) :
    (enterSwitch a s).now = s.now ∧
    (enterSwitch a s).pins = s.pins ∧
    (enterSwitch a s).rcbLow = s.rcbLow ∧
    (enterSwitch a s).sdm = s.sdm ∧
    (enterSwitch a s).ots = s.ots ∧
    (enterSwitch a s).acu = s.acu ∧
    (enterSwitch a s).tcu = s.tcu ∧
    (enterSwitch a s).cda = s.cda ∧
    (enterSwitch a s).elg = s.elg ∧
    (enterSwitch a s).lnk = s.lnk ∧
    (enterSwitch a s).pending = s.pending := by
  unfold enterSwitch
  try dsimp only
  (repeat' split) <;> simp [apply_ite State.now, apply_ite State.pins, apply_ite State.sdm, apply_ite State.ots, apply_ite State.acu, apply_ite State.tcu, apply_ite State.cda, apply_ite State.elg, apply_ite State.lnk, apply_ite State.pending]

@[simp] theorem enterRest_frame (o : Operation) (s : State) :
    (enterRest o s).now = s.now ∧
    (enterRest o s).pins = s.pins ∧
    (enterRest o s).rcbLow = s.rcbLow ∧
    (enterRest o s).sdm = s.sdm ∧
    (enterRest o s).ots = s.ots ∧
    (enterRest o s).piu = s.piu ∧
    (enterRest o s).acu = s.acu ∧
    (enterRest o s).tcu = s.tcu ∧
    (enterRest o s).cda = s.cda ∧
    (enterRest o s).tmp = s.tmp ∧
    (enterRest o s).elg = s.elg ∧
    (enterRest o s).rpu = s.rpu ∧
    (enterRest o s).lnk = s.lnk ∧
    (enterRest o s).pending = s.pending := by
  unfold enterRest
  try dsimp only
  (repeat' split) <;> simp [apply_ite State.now, apply_ite State.pins, apply_ite State.sdm, apply_ite State.ots, apply_ite State.piu, apply_ite State.acu, apply_ite State.tcu, apply_ite State.cda, apply_ite State.tmp, apply_ite State.elg, apply_ite State.rpu, apply_ite State.lnk, apply_ite State.pending]

@[simp] theorem beginOperation_frame (t : Target) (s : State) :
    (beginOperation t s).now = s.now ∧
    (beginOperation t s).pins = s.pins ∧
    (beginOperation t s).rcbLow = s.rcbLow ∧
    (beginOperation t s).sdm = s.sdm ∧
    (beginOperation t s).ots = s.ots ∧
    (beginOperation t s).acu = s.acu ∧
    (beginOperation t s).tcu = s.tcu ∧
    (beginOperation t s).cda = s.cda ∧
    (beginOperation t s).elg = s.elg ∧
    (beginOperation t s).lnk = s.lnk ∧
    (beginOperation t s).pending = s.pending := by
  unfold beginOperation
  try dsimp only
  (repeat' split) <;> simp [apply_ite State.now, apply_ite State.pins, apply_ite State.sdm, apply_ite State.ots, apply_ite State.acu, apply_ite State.tcu, apply_ite State.cda, apply_ite State.elg, apply_ite State.lnk, apply_ite State.pending]

@[simp] theorem setReleasedBy_frame (c : Option Cause) (s : State) :
    (setReleasedBy c s).now = s.now ∧
    (setReleasedBy c s).pins = s.pins ∧
    (setReleasedBy c s).rcbLow = s.rcbLow ∧
    (setReleasedBy c s).sdm = s.sdm ∧
    (setReleasedBy c s).ots = s.ots ∧
    (setReleasedBy c s).piu = s.piu ∧
    (setReleasedBy c s).acu = s.acu ∧
    (setReleasedBy c s).tcu = s.tcu ∧
    (setReleasedBy c s).cda = s.cda ∧
    (setReleasedBy c s).tmp = s.tmp ∧
    (setReleasedBy c s).elg = s.elg ∧
    (setReleasedBy c s).rpu = s.rpu ∧
    (setReleasedBy c s).lnk = s.lnk ∧
    (setReleasedBy c s).pending = s.pending := by
  unfold setReleasedBy
  try dsimp only
  (repeat' split) <;> simp [apply_ite State.now, apply_ite State.pins, apply_ite State.sdm, apply_ite State.ots, apply_ite State.piu, apply_ite State.acu, apply_ite State.tcu, apply_ite State.cda, apply_ite State.tmp, apply_ite State.elg, apply_ite State.rpu, apply_ite State.lnk, apply_ite State.pending]

@[simp] theorem activeAppeared_frame (s : State) :
    (activeAppeared s).now = s.now ∧
    (activeAppeared s).pins = s.pins ∧
    (activeAppeared s).rcbLow = s.rcbLow ∧
    (activeAppeared s).sdm = s.sdm ∧
    (activeAppeared s).ots = s.ots ∧
    (activeAppeared s).acu = s.acu ∧
    (activeAppeared s).tcu = s.tcu ∧
    (activeAppeared s).cda = s.cda ∧
    (activeAppeared s).elg = s.elg ∧
    (activeAppeared s).lnk = s.lnk ∧
    (activeAppeared s).pending = s.pending := by
  unfold activeAppeared
  try dsimp only
  (repeat' split) <;> simp [apply_ite State.now, apply_ite State.pins, apply_ite State.sdm, apply_ite State.ots, apply_ite State.acu, apply_ite State.tcu, apply_ite State.cda, apply_ite State.elg, apply_ite State.lnk, apply_ite State.pending]

@[simp] theorem lastActiveLeft_frame (c : Cause) (s : State) :
    (lastActiveLeft c s).now = s.now ∧
    (lastActiveLeft c s).pins = s.pins ∧
    (lastActiveLeft c s).rcbLow = s.rcbLow ∧
    (lastActiveLeft c s).sdm = s.sdm ∧
    (lastActiveLeft c s).ots = s.ots ∧
    (lastActiveLeft c s).acu = s.acu ∧
    (lastActiveLeft c s).tcu = s.tcu ∧
    (lastActiveLeft c s).cda = s.cda ∧
    (lastActiveLeft c s).elg = s.elg ∧
    (lastActiveLeft c s).lnk = s.lnk ∧
    (lastActiveLeft c s).pending = s.pending := by
  unfold lastActiveLeft
  try dsimp only
  (repeat' split) <;> simp [apply_ite State.now, apply_ite State.pins, apply_ite State.sdm, apply_ite State.ots, apply_ite State.acu, apply_ite State.tcu, apply_ite State.cda, apply_ite State.elg, apply_ite State.lnk, apply_ite State.pending]

@[simp] theorem changeEntry_frame (c : Cause) (e : Option Entry) (s : State) :
    (changeEntry c e s).now = s.now ∧
    (changeEntry c e s).pins = s.pins ∧
    (changeEntry c e s).rcbLow = s.rcbLow ∧
    (changeEntry c e s).sdm = s.sdm ∧
    (changeEntry c e s).ots = s.ots ∧
    (changeEntry c e s).acu = s.acu ∧
    (changeEntry c e s).tcu = s.tcu ∧
    (changeEntry c e s).cda = s.cda ∧
    (changeEntry c e s).elg = s.elg ∧
    (changeEntry c e s).lnk = s.lnk ∧
    (changeEntry c e s).pending = s.pending := by
  unfold changeEntry
  try dsimp only
  (repeat' split) <;> simp [apply_ite State.now, apply_ite State.pins, apply_ite State.sdm, apply_ite State.ots, apply_ite State.acu, apply_ite State.tcu, apply_ite State.cda, apply_ite State.elg, apply_ite State.lnk, apply_ite State.pending]

@[simp] theorem evaluateCredit_frame (s : State) :
    (evaluateCredit s).now = s.now ∧
    (evaluateCredit s).pins = s.pins ∧
    (evaluateCredit s).rcbLow = s.rcbLow ∧
    (evaluateCredit s).sdm = s.sdm ∧
    (evaluateCredit s).ots = s.ots ∧
    (evaluateCredit s).acu = s.acu ∧
    (evaluateCredit s).tcu = s.tcu ∧
    (evaluateCredit s).cda = s.cda ∧
    (evaluateCredit s).elg = s.elg ∧
    (evaluateCredit s).lnk = s.lnk ∧
    (evaluateCredit s).pending = s.pending := by
  unfold evaluateCredit
  try dsimp only
  (repeat' split) <;> simp [apply_ite State.now, apply_ite State.pins, apply_ite State.sdm, apply_ite State.ots, apply_ite State.acu, apply_ite State.tcu, apply_ite State.cda, apply_ite State.elg, apply_ite State.lnk, apply_ite State.pending]

@[simp] theorem evaluateTamper_frame (s : State) :
    (evaluateTamper s).now = s.now ∧
    (evaluateTamper s).pins = s.pins ∧
    (evaluateTamper s).rcbLow = s.rcbLow ∧
    (evaluateTamper s).sdm = s.sdm ∧
    (evaluateTamper s).ots = s.ots ∧
    (evaluateTamper s).acu = s.acu ∧
    (evaluateTamper s).tcu = s.tcu ∧
    (evaluateTamper s).cda = s.cda ∧
    (evaluateTamper s).elg = s.elg ∧
    (evaluateTamper s).lnk = s.lnk ∧
    (evaluateTamper s).pending = s.pending := by
  unfold evaluateTamper
  try dsimp only
  (repeat' split) <;> simp [apply_ite State.now, apply_ite State.pins, apply_ite State.sdm, apply_ite State.ots, apply_ite State.acu, apply_ite State.tcu, apply_ite State.cda, apply_ite State.elg, apply_ite State.lnk, apply_ite State.pending]

@[simp] theorem latchRecord_frame (k : Kind) (p : Option Phase) (s : State) :
    (latchRecord k p s).now = s.now ∧
    (latchRecord k p s).pins = s.pins ∧
    (latchRecord k p s).rcbLow = s.rcbLow ∧
    (latchRecord k p s).sdm = s.sdm ∧
    (latchRecord k p s).ots = s.ots ∧
    (latchRecord k p s).piu = s.piu ∧
    (latchRecord k p s).acu = s.acu ∧
    (latchRecord k p s).tcu = s.tcu ∧
    (latchRecord k p s).cda = s.cda ∧
    (latchRecord k p s).swc = s.swc ∧
    (latchRecord k p s).rpu = s.rpu ∧
    (latchRecord k p s).lnk = s.lnk ∧
    (latchRecord k p s).pending = s.pending := by
  unfold latchRecord
  try dsimp only
  (repeat' split) <;> simp [apply_ite State.now, apply_ite State.pins, apply_ite State.sdm, apply_ite State.ots, apply_ite State.piu, apply_ite State.acu, apply_ite State.tcu, apply_ite State.cda, apply_ite State.swc, apply_ite State.rpu, apply_ite State.lnk, apply_ite State.pending]

@[simp] theorem rise_frame (k : Kind) (p : Option Phase) (s : State) :
    (rise k p s).now = s.now ∧
    (rise k p s).pins = s.pins ∧
    (rise k p s).rcbLow = s.rcbLow ∧
    (rise k p s).sdm = s.sdm ∧
    (rise k p s).ots = s.ots ∧
    (rise k p s).acu = s.acu ∧
    (rise k p s).tcu = s.tcu ∧
    (rise k p s).cda = s.cda ∧
    (rise k p s).lnk = s.lnk ∧
    (rise k p s).pending = s.pending := by
  unfold rise
  try dsimp only
  (repeat' split) <;> simp [apply_ite State.now, apply_ite State.pins, apply_ite State.sdm, apply_ite State.ots, apply_ite State.acu, apply_ite State.tcu, apply_ite State.cda, apply_ite State.lnk, apply_ite State.pending]

@[simp] theorem hand_frame (k : Kind) (v : Bool) (p : Option Phase) (s : State) :
    (hand k v p s).now = s.now ∧
    (hand k v p s).pins = s.pins ∧
    (hand k v p s).rcbLow = s.rcbLow ∧
    (hand k v p s).sdm = s.sdm ∧
    (hand k v p s).ots = s.ots ∧
    (hand k v p s).acu = s.acu ∧
    (hand k v p s).tcu = s.tcu ∧
    (hand k v p s).cda = s.cda ∧
    (hand k v p s).lnk = s.lnk ∧
    (hand k v p s).pending = s.pending := by
  unfold hand
  try dsimp only
  (repeat' split) <;> simp [apply_ite State.now, apply_ite State.pins, apply_ite State.sdm, apply_ite State.ots, apply_ite State.acu, apply_ite State.tcu, apply_ite State.cda, apply_ite State.lnk, apply_ite State.pending]

@[simp] theorem pwAttempt_frame (s : State) :
    (pwAttempt s).now = s.now ∧
    (pwAttempt s).pins = s.pins ∧
    (pwAttempt s).rcbLow = s.rcbLow ∧
    (pwAttempt s).sdm = s.sdm ∧
    (pwAttempt s).ots = s.ots ∧
    (pwAttempt s).acu = s.acu ∧
    (pwAttempt s).tcu = s.tcu ∧
    (pwAttempt s).cda = s.cda ∧
    (pwAttempt s).lnk = s.lnk ∧
    (pwAttempt s).pending = s.pending := by
  unfold pwAttempt
  try dsimp only
  (repeat' split) <;> simp [apply_ite State.now, apply_ite State.pins, apply_ite State.sdm, apply_ite State.ots, apply_ite State.acu, apply_ite State.tcu, apply_ite State.cda, apply_ite State.lnk, apply_ite State.pending]

@[simp] theorem claim_frame (f : Account → Account) (s : State) :
    (claim f s).now = s.now ∧
    (claim f s).pins = s.pins ∧
    (claim f s).rcbLow = s.rcbLow ∧
    (claim f s).sdm = s.sdm ∧
    (claim f s).ots = s.ots ∧
    (claim f s).tcu = s.tcu ∧
    (claim f s).cda = s.cda ∧
    (claim f s).elg = s.elg ∧
    (claim f s).lnk = s.lnk ∧
    (claim f s).pending = s.pending := by
  unfold claim
  try dsimp only
  (repeat' split) <;> simp [apply_ite State.now, apply_ite State.pins, apply_ite State.sdm, apply_ite State.ots, apply_ite State.tcu, apply_ite State.cda, apply_ite State.elg, apply_ite State.lnk, apply_ite State.pending]

@[simp] theorem handFriendly_frame (v : Bool) (s : State) :
    (handFriendly v s).now = s.now ∧
    (handFriendly v s).pins = s.pins ∧
    (handFriendly v s).rcbLow = s.rcbLow ∧
    (handFriendly v s).sdm = s.sdm ∧
    (handFriendly v s).ots = s.ots ∧
    (handFriendly v s).acu = s.acu ∧
    (handFriendly v s).tcu = s.tcu ∧
    (handFriendly v s).cda = s.cda ∧
    (handFriendly v s).elg = s.elg ∧
    (handFriendly v s).lnk = s.lnk ∧
    (handFriendly v s).pending = s.pending := by
  unfold handFriendly
  try dsimp only
  (repeat' split) <;> simp [apply_ite State.now, apply_ite State.pins, apply_ite State.sdm, apply_ite State.ots, apply_ite State.acu, apply_ite State.tcu, apply_ite State.cda, apply_ite State.elg, apply_ite State.lnk, apply_ite State.pending]

@[simp] theorem evaluateFriendly_frame (s : State) :
    (evaluateFriendly s).now = s.now ∧
    (evaluateFriendly s).pins = s.pins ∧
    (evaluateFriendly s).rcbLow = s.rcbLow ∧
    (evaluateFriendly s).sdm = s.sdm ∧
    (evaluateFriendly s).ots = s.ots ∧
    (evaluateFriendly s).acu = s.acu ∧
    (evaluateFriendly s).cda = s.cda ∧
    (evaluateFriendly s).elg = s.elg ∧
    (evaluateFriendly s).lnk = s.lnk ∧
    (evaluateFriendly s).pending = s.pending := by
  unfold evaluateFriendly
  try dsimp only
  (repeat' split) <;> simp [apply_ite State.now, apply_ite State.pins, apply_ite State.sdm, apply_ite State.ots, apply_ite State.acu, apply_ite State.cda, apply_ite State.elg, apply_ite State.lnk, apply_ite State.pending]

@[simp] theorem boundarySwitch_frame (s : State) :
    (boundarySwitch s).now = s.now ∧
    (boundarySwitch s).pins = s.pins ∧
    (boundarySwitch s).rcbLow = s.rcbLow ∧
    (boundarySwitch s).sdm = s.sdm ∧
    (boundarySwitch s).ots = s.ots ∧
    (boundarySwitch s).acu = s.acu ∧
    (boundarySwitch s).tcu = s.tcu ∧
    (boundarySwitch s).cda = s.cda ∧
    (boundarySwitch s).elg = s.elg ∧
    (boundarySwitch s).lnk = s.lnk ∧
    (boundarySwitch s).pending = s.pending := by
  unfold boundarySwitch
  try dsimp only
  (repeat' split) <;> simp [apply_ite State.now, apply_ite State.pins, apply_ite State.sdm, apply_ite State.ots, apply_ite State.acu, apply_ite State.tcu, apply_ite State.cda, apply_ite State.elg, apply_ite State.lnk, apply_ite State.pending]

@[simp] theorem boundaryOverride_frame (d : Nat) (s : State) :
    (boundaryOverride d s).now = s.now ∧
    (boundaryOverride d s).pins = s.pins ∧
    (boundaryOverride d s).rcbLow = s.rcbLow ∧
    (boundaryOverride d s).sdm = s.sdm ∧
    (boundaryOverride d s).ots = s.ots ∧
    (boundaryOverride d s).acu = s.acu ∧
    (boundaryOverride d s).cda = s.cda ∧
    (boundaryOverride d s).elg = s.elg ∧
    (boundaryOverride d s).lnk = s.lnk ∧
    (boundaryOverride d s).pending = s.pending := by
  unfold boundaryOverride
  try dsimp only
  (repeat' split) <;> simp [apply_ite State.now, apply_ite State.pins, apply_ite State.sdm, apply_ite State.ots, apply_ite State.acu, apply_ite State.cda, apply_ite State.elg, apply_ite State.lnk, apply_ite State.pending]

@[simp] theorem boundaryActivation_frame (d : Nat) (s : State) :
    (boundaryActivation d s).now = s.now ∧
    (boundaryActivation d s).pins = s.pins ∧
    (boundaryActivation d s).rcbLow = s.rcbLow ∧
    (boundaryActivation d s).sdm = s.sdm ∧
    (boundaryActivation d s).ots = s.ots ∧
    (boundaryActivation d s).piu = s.piu ∧
    (boundaryActivation d s).acu = s.acu ∧
    (boundaryActivation d s).cda = s.cda ∧
    (boundaryActivation d s).swc = s.swc ∧
    (boundaryActivation d s).tmp = s.tmp ∧
    (boundaryActivation d s).elg = s.elg ∧
    (boundaryActivation d s).lnk = s.lnk ∧
    (boundaryActivation d s).pending = s.pending := by
  unfold boundaryActivation
  try dsimp only
  (repeat' split) <;> simp [apply_ite State.now, apply_ite State.pins, apply_ite State.sdm, apply_ite State.ots, apply_ite State.piu, apply_ite State.acu, apply_ite State.cda, apply_ite State.swc, apply_ite State.tmp, apply_ite State.elg, apply_ite State.lnk, apply_ite State.pending]

@[simp] theorem deliverBoundary_frame (s : State) :
    (deliverBoundary s).now = s.now ∧
    (deliverBoundary s).pins = s.pins ∧
    (deliverBoundary s).rcbLow = s.rcbLow ∧
    (deliverBoundary s).sdm = s.sdm ∧
    (deliverBoundary s).ots = s.ots ∧
    (deliverBoundary s).elg = s.elg ∧
    (deliverBoundary s).lnk = s.lnk ∧
    (deliverBoundary s).pending = s.pending := by
  unfold deliverBoundary
  try dsimp only
  (repeat' split) <;> simp [apply_ite State.now, apply_ite State.pins, apply_ite State.sdm, apply_ite State.ots, apply_ite State.elg, apply_ite State.lnk, apply_ite State.pending]

@[simp] theorem deliverBoundaries_frame (n : Nat) (s : State) :
    (deliverBoundaries n s).now = s.now ∧
    (deliverBoundaries n s).pins = s.pins ∧
    (deliverBoundaries n s).rcbLow = s.rcbLow ∧
    (deliverBoundaries n s).sdm = s.sdm ∧
    (deliverBoundaries n s).ots = s.ots ∧
    (deliverBoundaries n s).elg = s.elg ∧
    (deliverBoundaries n s).lnk = s.lnk ∧
    (deliverBoundaries n s).pending = s.pending := by
  induction n generalizing s with
  | zero => simp [deliverBoundaries]
  | succ n ih => simp [deliverBoundaries, ih]

@[simp] theorem deliverDue_frame (s : State) :
    (deliverDue s).now = s.now ∧
    (deliverDue s).pins = s.pins ∧
    (deliverDue s).rcbLow = s.rcbLow ∧
    (deliverDue s).sdm = s.sdm ∧
    (deliverDue s).ots = s.ots ∧
    (deliverDue s).elg = s.elg ∧
    (deliverDue s).lnk = s.lnk ∧
    (deliverDue s).pending = s.pending := by
  unfold deliverDue
  try dsimp only
  (repeat' split) <;> simp [apply_ite State.now, apply_ite State.pins, apply_ite State.sdm, apply_ite State.ots, apply_ite State.elg, apply_ite State.lnk, apply_ite State.pending]

@[simp] theorem discardDemand_frame (s : State) :
    (discardDemand s).now = s.now ∧
    (discardDemand s).pins = s.pins ∧
    (discardDemand s).rcbLow = s.rcbLow ∧
    (discardDemand s).sdm = s.sdm ∧
    (discardDemand s).ots = s.ots ∧
    (discardDemand s).acu = s.acu ∧
    (discardDemand s).tcu = s.tcu ∧
    (discardDemand s).cda = s.cda ∧
    (discardDemand s).swc = s.swc ∧
    (discardDemand s).tmp = s.tmp ∧
    (discardDemand s).elg = s.elg ∧
    (discardDemand s).rpu = s.rpu ∧
    (discardDemand s).lnk = s.lnk ∧
    (discardDemand s).pending = s.pending := by
  unfold discardDemand
  try dsimp only
  (repeat' split) <;> simp [apply_ite State.now, apply_ite State.pins, apply_ite State.sdm, apply_ite State.ots, apply_ite State.acu, apply_ite State.tcu, apply_ite State.cda, apply_ite State.swc, apply_ite State.tmp, apply_ite State.elg, apply_ite State.rpu, apply_ite State.lnk, apply_ite State.pending]

@[simp] theorem changeClock_frame (c : Nat) (s : State) :
    (changeClock c s).now = s.now ∧
    (changeClock c s).pins = s.pins ∧
    (changeClock c s).rcbLow = s.rcbLow ∧
    (changeClock c s).sdm = s.sdm ∧
    (changeClock c s).ots = s.ots ∧
    (changeClock c s).elg = s.elg ∧
    (changeClock c s).lnk = s.lnk ∧
    (changeClock c s).pending = s.pending := by
  unfold changeClock
  try dsimp only
  (repeat' split) <;> simp [apply_ite State.now, apply_ite State.pins, apply_ite State.sdm, apply_ite State.ots, apply_ite State.elg, apply_ite State.lnk, apply_ite State.pending]

@[simp] theorem validateClock_frame (c : Nat) (s : State) :
    (validateClock c s).now = s.now ∧
    (validateClock c s).pins = s.pins ∧
    (validateClock c s).rcbLow = s.rcbLow ∧
    (validateClock c s).sdm = s.sdm ∧
    (validateClock c s).ots = s.ots ∧
    (validateClock c s).acu = s.acu ∧
    (validateClock c s).cda = s.cda ∧
    (validateClock c s).elg = s.elg ∧
    (validateClock c s).lnk = s.lnk ∧
    (validateClock c s).pending = s.pending := by
  unfold validateClock
  try dsimp only
  (repeat' split) <;> simp [apply_ite State.now, apply_ite State.pins, apply_ite State.sdm, apply_ite State.ots, apply_ite State.acu, apply_ite State.cda, apply_ite State.elg, apply_ite State.lnk, apply_ite State.pending]

@[simp] theorem mainReset_frame (s : State) :
    (mainReset s).now = s.now ∧
    (mainReset s).pins = s.pins ∧
    (mainReset s).rcbLow = s.rcbLow ∧
    (mainReset s).ots = s.ots ∧
    (mainReset s).acu = s.acu ∧
    (mainReset s).elg = s.elg ∧
    (mainReset s).pending = s.pending := by
  unfold mainReset
  try dsimp only
  (repeat' split) <;> simp [apply_ite State.now, apply_ite State.pins, apply_ite State.ots, apply_ite State.acu, apply_ite State.elg, apply_ite State.pending]

@[simp] theorem retentionStart_frame (s : State) :
    (retentionStart s).now = s.now ∧
    (retentionStart s).pins = s.pins ∧
    (retentionStart s).rcbLow = s.rcbLow ∧
    (retentionStart s).ots = s.ots ∧
    (retentionStart s).rpu = s.rpu ∧
    (retentionStart s).lnk = s.lnk ∧
    (retentionStart s).pending = s.pending := by
  unfold retentionStart
  try dsimp only
  (repeat' split) <;> simp [apply_ite State.now, apply_ite State.pins, apply_ite State.ots, apply_ite State.rpu, apply_ite State.lnk, apply_ite State.pending]

@[simp] theorem setPower_frame (p : PowerState) (s : State) :
    (setPower p s).now = s.now ∧
    (setPower p s).pins = s.pins ∧
    (setPower p s).rcbLow = s.rcbLow ∧
    (setPower p s).ots = s.ots ∧
    (setPower p s).piu = s.piu ∧
    (setPower p s).acu = s.acu ∧
    (setPower p s).tcu = s.tcu ∧
    (setPower p s).cda = s.cda ∧
    (setPower p s).swc = s.swc ∧
    (setPower p s).tmp = s.tmp ∧
    (setPower p s).elg = s.elg ∧
    (setPower p s).rpu = s.rpu ∧
    (setPower p s).lnk = s.lnk ∧
    (setPower p s).pending = s.pending := by
  unfold setPower
  try dsimp only
  (repeat' split) <;> simp [apply_ite State.now, apply_ite State.pins, apply_ite State.ots, apply_ite State.piu, apply_ite State.acu, apply_ite State.tcu, apply_ite State.cda, apply_ite State.swc, apply_ite State.tmp, apply_ite State.elg, apply_ite State.rpu, apply_ite State.lnk, apply_ite State.pending]

@[simp] theorem observe_frame (m : Moment) (n : Nat) (s : State) :
    (observe m n s).ots = s.ots ∧
    (observe m n s).acu = s.acu ∧
    (observe m n s).elg = s.elg ∧
    (observe m n s).pending = s.pending := by
  unfold observe
  try dsimp only
  (repeat' split) <;> simp [apply_ite State.ots, apply_ite State.acu, apply_ite State.elg, apply_ite State.pending]

end Sys2Proof.Machine
end

