-- ==== Sys2Proof/Laws/FramesClock.lean ====
section
/-! SUPPORT. The frame of each operation of the pulse, switch and tamper blocks and the second tick: one lemma for each,
naming every block of the state that it leaves as it was. -/

set_option linter.all false

namespace Sys2Proof.Machine

@[simp] theorem handReverse_frame (b : Bool) (n : Phase) (s : State) :
    (handReverse b n s).now = s.now ∧
    (handReverse b n s).pins = s.pins ∧
    (handReverse b n s).rcbLow = s.rcbLow ∧
    (handReverse b n s).sdm = s.sdm ∧
    (handReverse b n s).ots = s.ots ∧
    (handReverse b n s).acu = s.acu ∧
    (handReverse b n s).tcu = s.tcu ∧
    (handReverse b n s).cda = s.cda ∧
    (handReverse b n s).lnk = s.lnk ∧
    (handReverse b n s).pending = s.pending := by
  unfold handReverse
  try dsimp only
  (repeat' split) <;> simp [apply_ite State.now, apply_ite State.pins, apply_ite State.sdm, apply_ite State.ots, apply_ite State.acu, apply_ite State.tcu, apply_ite State.cda, apply_ite State.lnk, apply_ite State.pending]

@[simp] theorem acceptPulse_frame (n : Phase) (d : Direction) (s : State) :
    (acceptPulse n d s).now = s.now ∧
    (acceptPulse n d s).pins = s.pins ∧
    (acceptPulse n d s).rcbLow = s.rcbLow ∧
    (acceptPulse n d s).sdm = s.sdm ∧
    (acceptPulse n d s).ots = s.ots ∧
    (acceptPulse n d s).tcu = s.tcu ∧
    (acceptPulse n d s).cda = s.cda ∧
    (acceptPulse n d s).lnk = s.lnk ∧
    (acceptPulse n d s).pending = s.pending := by
  unfold acceptPulse
  try dsimp only
  (repeat' split) <;> simp [apply_ite State.now, apply_ite State.pins, apply_ite State.sdm, apply_ite State.ots, apply_ite State.tcu, apply_ite State.cda, apply_ite State.lnk, apply_ite State.pending]

@[simp] theorem stallStep_frame (n : Phase) (s : State) :
    (stallStep n s).now = s.now ∧
    (stallStep n s).pins = s.pins ∧
    (stallStep n s).rcbLow = s.rcbLow ∧
    (stallStep n s).sdm = s.sdm ∧
    (stallStep n s).ots = s.ots ∧
    (stallStep n s).acu = s.acu ∧
    (stallStep n s).tcu = s.tcu ∧
    (stallStep n s).cda = s.cda ∧
    (stallStep n s).lnk = s.lnk ∧
    (stallStep n s).pending = s.pending := by
  unfold stallStep
  try dsimp only
  (repeat' split) <;> simp [apply_ite State.now, apply_ite State.pins, apply_ite State.sdm, apply_ite State.ots, apply_ite State.acu, apply_ite State.tcu, apply_ite State.cda, apply_ite State.lnk, apply_ite State.pending]

@[simp] theorem pulseStartUp_frame (s : State) :
    (pulseStartUp s).now = s.now ∧
    (pulseStartUp s).pins = s.pins ∧
    (pulseStartUp s).rcbLow = s.rcbLow ∧
    (pulseStartUp s).sdm = s.sdm ∧
    (pulseStartUp s).ots = s.ots ∧
    (pulseStartUp s).acu = s.acu ∧
    (pulseStartUp s).tcu = s.tcu ∧
    (pulseStartUp s).cda = s.cda ∧
    (pulseStartUp s).lnk = s.lnk ∧
    (pulseStartUp s).pending = s.pending := by
  unfold pulseStartUp
  try dsimp only
  (repeat' split) <;> simp [apply_ite State.now, apply_ite State.pins, apply_ite State.sdm, apply_ite State.ots, apply_ite State.acu, apply_ite State.tcu, apply_ite State.cda, apply_ite State.lnk, apply_ite State.pending]

@[simp] theorem trip_frame (s : State) :
    (trip s).now = s.now ∧
    (trip s).pins = s.pins ∧
    (trip s).rcbLow = s.rcbLow ∧
    (trip s).sdm = s.sdm ∧
    (trip s).ots = s.ots ∧
    (trip s).acu = s.acu ∧
    (trip s).tcu = s.tcu ∧
    (trip s).cda = s.cda ∧
    (trip s).elg = s.elg ∧
    (trip s).lnk = s.lnk ∧
    (trip s).pending = s.pending := by
  unfold trip
  try dsimp only
  (repeat' split) <;> simp [apply_ite State.now, apply_ite State.pins, apply_ite State.sdm, apply_ite State.ots, apply_ite State.acu, apply_ite State.tcu, apply_ite State.cda, apply_ite State.elg, apply_ite State.lnk, apply_ite State.pending]

@[simp] theorem demandMinute_frame (w : Nat) (s : State) :
    (demandMinute w s).now = s.now ∧
    (demandMinute w s).pins = s.pins ∧
    (demandMinute w s).rcbLow = s.rcbLow ∧
    (demandMinute w s).sdm = s.sdm ∧
    (demandMinute w s).ots = s.ots ∧
    (demandMinute w s).acu = s.acu ∧
    (demandMinute w s).tcu = s.tcu ∧
    (demandMinute w s).cda = s.cda ∧
    (demandMinute w s).elg = s.elg ∧
    (demandMinute w s).lnk = s.lnk ∧
    (demandMinute w s).pending = s.pending := by
  unfold demandMinute
  try dsimp only
  (repeat' split) <;> simp [apply_ite State.now, apply_ite State.pins, apply_ite State.sdm, apply_ite State.ots, apply_ite State.acu, apply_ite State.tcu, apply_ite State.cda, apply_ite State.elg, apply_ite State.lnk, apply_ite State.pending]

@[simp] theorem passOpen_frame (o : Operation) (s : State) :
    (passOpen o s).now = s.now ∧
    (passOpen o s).pins = s.pins ∧
    (passOpen o s).rcbLow = s.rcbLow ∧
    (passOpen o s).sdm = s.sdm ∧
    (passOpen o s).ots = s.ots ∧
    (passOpen o s).acu = s.acu ∧
    (passOpen o s).tcu = s.tcu ∧
    (passOpen o s).cda = s.cda ∧
    (passOpen o s).elg = s.elg ∧
    (passOpen o s).lnk = s.lnk ∧
    (passOpen o s).pending = s.pending := by
  unfold passOpen
  try dsimp only
  (repeat' split) <;> simp [apply_ite State.now, apply_ite State.pins, apply_ite State.sdm, apply_ite State.ots, apply_ite State.acu, apply_ite State.tcu, apply_ite State.cda, apply_ite State.elg, apply_ite State.lnk, apply_ite State.pending]

@[simp] theorem passClose_frame (s : State) :
    (passClose s).now = s.now ∧
    (passClose s).pins = s.pins ∧
    (passClose s).rcbLow = s.rcbLow ∧
    (passClose s).sdm = s.sdm ∧
    (passClose s).ots = s.ots ∧
    (passClose s).acu = s.acu ∧
    (passClose s).tcu = s.tcu ∧
    (passClose s).cda = s.cda ∧
    (passClose s).elg = s.elg ∧
    (passClose s).lnk = s.lnk ∧
    (passClose s).pending = s.pending := by
  unfold passClose
  try dsimp only
  (repeat' split) <;> simp [apply_ite State.now, apply_ite State.pins, apply_ite State.sdm, apply_ite State.ots, apply_ite State.acu, apply_ite State.tcu, apply_ite State.cda, apply_ite State.elg, apply_ite State.lnk, apply_ite State.pending]

@[simp] theorem operationFault_frame (p : Option Phase) (s : State) :
    (operationFault p s).now = s.now ∧
    (operationFault p s).pins = s.pins ∧
    (operationFault p s).rcbLow = s.rcbLow ∧
    (operationFault p s).sdm = s.sdm ∧
    (operationFault p s).ots = s.ots ∧
    (operationFault p s).acu = s.acu ∧
    (operationFault p s).tcu = s.tcu ∧
    (operationFault p s).cda = s.cda ∧
    (operationFault p s).lnk = s.lnk ∧
    (operationFault p s).pending = s.pending := by
  unfold operationFault
  try dsimp only
  (repeat' split) <;> simp [apply_ite State.now, apply_ite State.pins, apply_ite State.sdm, apply_ite State.ots, apply_ite State.acu, apply_ite State.tcu, apply_ite State.cda, apply_ite State.lnk, apply_ite State.pending]

@[simp] theorem verify_frame (o : Operation) (s : State) :
    (verify o s).now = s.now ∧
    (verify o s).pins = s.pins ∧
    (verify o s).rcbLow = s.rcbLow ∧
    (verify o s).sdm = s.sdm ∧
    (verify o s).ots = s.ots ∧
    (verify o s).acu = s.acu ∧
    (verify o s).tcu = s.tcu ∧
    (verify o s).cda = s.cda ∧
    (verify o s).lnk = s.lnk ∧
    (verify o s).pending = s.pending := by
  unfold verify
  try dsimp only
  (repeat' split) <;> simp [apply_ite State.now, apply_ite State.pins, apply_ite State.sdm, apply_ite State.ots, apply_ite State.acu, apply_ite State.tcu, apply_ite State.cda, apply_ite State.lnk, apply_ite State.pending]

@[simp] theorem switchStartUp_frame (s : State) :
    (switchStartUp s).now = s.now ∧
    (switchStartUp s).pins = s.pins ∧
    (switchStartUp s).rcbLow = s.rcbLow ∧
    (switchStartUp s).sdm = s.sdm ∧
    (switchStartUp s).ots = s.ots ∧
    (switchStartUp s).acu = s.acu ∧
    (switchStartUp s).tcu = s.tcu ∧
    (switchStartUp s).cda = s.cda ∧
    (switchStartUp s).elg = s.elg ∧
    (switchStartUp s).lnk = s.lnk ∧
    (switchStartUp s).pending = s.pending := by
  unfold switchStartUp
  try dsimp only
  (repeat' split) <;> simp [apply_ite State.now, apply_ite State.pins, apply_ite State.sdm, apply_ite State.ots, apply_ite State.acu, apply_ite State.tcu, apply_ite State.cda, apply_ite State.elg, apply_ite State.lnk, apply_ite State.pending]

@[simp] theorem samplePress_frame (s : State) :
    (samplePress s).now = s.now ∧
    (samplePress s).pins = s.pins ∧
    (samplePress s).rcbLow = s.rcbLow ∧
    (samplePress s).sdm = s.sdm ∧
    (samplePress s).ots = s.ots ∧
    (samplePress s).acu = s.acu ∧
    (samplePress s).tcu = s.tcu ∧
    (samplePress s).cda = s.cda ∧
    (samplePress s).elg = s.elg ∧
    (samplePress s).lnk = s.lnk ∧
    (samplePress s).pending = s.pending := by
  unfold samplePress
  try dsimp only
  (repeat' split) <;> simp [apply_ite State.now, apply_ite State.pins, apply_ite State.sdm, apply_ite State.ots, apply_ite State.acu, apply_ite State.tcu, apply_ite State.cda, apply_ite State.elg, apply_ite State.lnk, apply_ite State.pending]

@[simp] theorem testRun_frame (k : Kind) (h : List Bool) (s : State) :
    (testRun k h s).now = s.now ∧
    (testRun k h s).pins = s.pins ∧
    (testRun k h s).rcbLow = s.rcbLow ∧
    (testRun k h s).sdm = s.sdm ∧
    (testRun k h s).ots = s.ots ∧
    (testRun k h s).acu = s.acu ∧
    (testRun k h s).tcu = s.tcu ∧
    (testRun k h s).cda = s.cda ∧
    (testRun k h s).lnk = s.lnk ∧
    (testRun k h s).pending = s.pending := by
  unfold testRun
  try dsimp only
  (repeat' split) <;> simp [apply_ite State.now, apply_ite State.pins, apply_ite State.sdm, apply_ite State.ots, apply_ite State.acu, apply_ite State.tcu, apply_ite State.cda, apply_ite State.lnk, apply_ite State.pending]

@[simp] theorem runSample_frame (s : State) :
    (runSample s).now = s.now ∧
    (runSample s).pins = s.pins ∧
    (runSample s).rcbLow = s.rcbLow ∧
    (runSample s).sdm = s.sdm ∧
    (runSample s).ots = s.ots ∧
    (runSample s).acu = s.acu ∧
    (runSample s).tcu = s.tcu ∧
    (runSample s).cda = s.cda ∧
    (runSample s).lnk = s.lnk ∧
    (runSample s).pending = s.pending := by
  unfold runSample
  try dsimp only
  (repeat' split) <;> simp [apply_ite State.now, apply_ite State.pins, apply_ite State.sdm, apply_ite State.ots, apply_ite State.acu, apply_ite State.tcu, apply_ite State.cda, apply_ite State.lnk, apply_ite State.pending]

@[simp] theorem testBattery_frame (k : Kind) (h : List Bool) (s : State) :
    (testBattery k h s).now = s.now ∧
    (testBattery k h s).pins = s.pins ∧
    (testBattery k h s).rcbLow = s.rcbLow ∧
    (testBattery k h s).sdm = s.sdm ∧
    (testBattery k h s).ots = s.ots ∧
    (testBattery k h s).acu = s.acu ∧
    (testBattery k h s).tcu = s.tcu ∧
    (testBattery k h s).cda = s.cda ∧
    (testBattery k h s).lnk = s.lnk ∧
    (testBattery k h s).pending = s.pending := by
  unfold testBattery
  try dsimp only
  (repeat' split) <;> simp [apply_ite State.now, apply_ite State.pins, apply_ite State.sdm, apply_ite State.ots, apply_ite State.acu, apply_ite State.tcu, apply_ite State.cda, apply_ite State.lnk, apply_ite State.pending]

@[simp] theorem batterySample_frame (s : State) :
    (batterySample s).now = s.now ∧
    (batterySample s).pins = s.pins ∧
    (batterySample s).rcbLow = s.rcbLow ∧
    (batterySample s).sdm = s.sdm ∧
    (batterySample s).ots = s.ots ∧
    (batterySample s).acu = s.acu ∧
    (batterySample s).tcu = s.tcu ∧
    (batterySample s).cda = s.cda ∧
    (batterySample s).lnk = s.lnk ∧
    (batterySample s).pending = s.pending := by
  unfold batterySample
  try dsimp only
  (repeat' split) <;> simp [apply_ite State.now, apply_ite State.pins, apply_ite State.sdm, apply_ite State.ots, apply_ite State.acu, apply_ite State.tcu, apply_ite State.cda, apply_ite State.lnk, apply_ite State.pending]

@[simp] theorem supplySecond_frame (s : State) :
    (supplySecond s).now = s.now ∧
    (supplySecond s).pins = s.pins ∧
    (supplySecond s).rcbLow = s.rcbLow ∧
    (supplySecond s).sdm = s.sdm ∧
    (supplySecond s).ots = s.ots ∧
    (supplySecond s).acu = s.acu ∧
    (supplySecond s).tcu = s.tcu ∧
    (supplySecond s).cda = s.cda ∧
    (supplySecond s).lnk = s.lnk ∧
    (supplySecond s).pending = s.pending := by
  unfold supplySecond
  try dsimp only
  (repeat' split) <;> simp [apply_ite State.now, apply_ite State.pins, apply_ite State.sdm, apply_ite State.ots, apply_ite State.acu, apply_ite State.tcu, apply_ite State.cda, apply_ite State.lnk, apply_ite State.pending]

@[simp] theorem lockKind_frame (k : Kind) (s : State) :
    (lockKind k s).now = s.now ∧
    (lockKind k s).pins = s.pins ∧
    (lockKind k s).rcbLow = s.rcbLow ∧
    (lockKind k s).sdm = s.sdm ∧
    (lockKind k s).ots = s.ots ∧
    (lockKind k s).piu = s.piu ∧
    (lockKind k s).acu = s.acu ∧
    (lockKind k s).tcu = s.tcu ∧
    (lockKind k s).cda = s.cda ∧
    (lockKind k s).swc = s.swc ∧
    (lockKind k s).rpu = s.rpu ∧
    (lockKind k s).lnk = s.lnk ∧
    (lockKind k s).pending = s.pending := by
  unfold lockKind
  try dsimp only
  (repeat' split) <;> simp [apply_ite State.now, apply_ite State.pins, apply_ite State.sdm, apply_ite State.ots, apply_ite State.piu, apply_ite State.acu, apply_ite State.tcu, apply_ite State.cda, apply_ite State.swc, apply_ite State.rpu, apply_ite State.lnk, apply_ite State.pending]

@[simp] theorem lockKinds_frame (ks : List Kind) (s : State) :
    (ks.foldl (fun s k => lockKind k s) s).now = s.now ∧
    (ks.foldl (fun s k => lockKind k s) s).pins = s.pins ∧
    (ks.foldl (fun s k => lockKind k s) s).rcbLow = s.rcbLow ∧
    (ks.foldl (fun s k => lockKind k s) s).sdm = s.sdm ∧
    (ks.foldl (fun s k => lockKind k s) s).ots = s.ots ∧
    (ks.foldl (fun s k => lockKind k s) s).piu = s.piu ∧
    (ks.foldl (fun s k => lockKind k s) s).acu = s.acu ∧
    (ks.foldl (fun s k => lockKind k s) s).tcu = s.tcu ∧
    (ks.foldl (fun s k => lockKind k s) s).cda = s.cda ∧
    (ks.foldl (fun s k => lockKind k s) s).swc = s.swc ∧
    (ks.foldl (fun s k => lockKind k s) s).rpu = s.rpu ∧
    (ks.foldl (fun s k => lockKind k s) s).lnk = s.lnk ∧
    (ks.foldl (fun s k => lockKind k s) s).pending = s.pending := by
  induction ks generalizing s with
  | nil => simp
  | cons x xs ih => simp only [List.foldl_cons, ih]; simp

@[simp] theorem tamperLockStep_frame (s : State) :
    (tamperLockStep s).now = s.now ∧
    (tamperLockStep s).pins = s.pins ∧
    (tamperLockStep s).rcbLow = s.rcbLow ∧
    (tamperLockStep s).sdm = s.sdm ∧
    (tamperLockStep s).ots = s.ots ∧
    (tamperLockStep s).acu = s.acu ∧
    (tamperLockStep s).tcu = s.tcu ∧
    (tamperLockStep s).cda = s.cda ∧
    (tamperLockStep s).lnk = s.lnk ∧
    (tamperLockStep s).pending = s.pending := by
  unfold tamperLockStep
  try dsimp only
  (repeat' split) <;> simp [apply_ite State.now, apply_ite State.pins, apply_ite State.sdm, apply_ite State.ots, apply_ite State.acu, apply_ite State.tcu, apply_ite State.cda, apply_ite State.lnk, apply_ite State.pending]

@[simp] theorem tamperStartUp_frame (s : State) :
    (tamperStartUp s).now = s.now ∧
    (tamperStartUp s).pins = s.pins ∧
    (tamperStartUp s).rcbLow = s.rcbLow ∧
    (tamperStartUp s).sdm = s.sdm ∧
    (tamperStartUp s).ots = s.ots ∧
    (tamperStartUp s).acu = s.acu ∧
    (tamperStartUp s).tcu = s.tcu ∧
    (tamperStartUp s).cda = s.cda ∧
    (tamperStartUp s).lnk = s.lnk ∧
    (tamperStartUp s).pending = s.pending := by
  unfold tamperStartUp
  try dsimp only
  (repeat' split) <;> simp [apply_ite State.now, apply_ite State.pins, apply_ite State.sdm, apply_ite State.ots, apply_ite State.acu, apply_ite State.tcu, apply_ite State.cda, apply_ite State.lnk, apply_ite State.pending]

@[simp] theorem countTick_frame (s : State) :
    (countTick s).now = s.now ∧
    (countTick s).pins = s.pins ∧
    (countTick s).rcbLow = s.rcbLow ∧
    (countTick s).sdm = s.sdm ∧
    (countTick s).ots = s.ots ∧
    (countTick s).piu = s.piu ∧
    (countTick s).acu = s.acu ∧
    (countTick s).tmp = s.tmp ∧
    (countTick s).elg = s.elg ∧
    (countTick s).rpu = s.rpu ∧
    (countTick s).lnk = s.lnk ∧
    (countTick s).pending = s.pending := by
  unfold countTick
  try dsimp only
  (repeat' split) <;> simp [apply_ite State.now, apply_ite State.pins, apply_ite State.sdm, apply_ite State.ots, apply_ite State.piu, apply_ite State.acu, apply_ite State.tmp, apply_ite State.elg, apply_ite State.rpu, apply_ite State.lnk, apply_ite State.pending]

@[simp] theorem lockoutEnds_frame (s : State) :
    (lockoutEnds s).now = s.now ∧
    (lockoutEnds s).pins = s.pins ∧
    (lockoutEnds s).rcbLow = s.rcbLow ∧
    (lockoutEnds s).sdm = s.sdm ∧
    (lockoutEnds s).ots = s.ots ∧
    (lockoutEnds s).acu = s.acu ∧
    (lockoutEnds s).tcu = s.tcu ∧
    (lockoutEnds s).lnk = s.lnk ∧
    (lockoutEnds s).pending = s.pending := by
  unfold lockoutEnds
  try dsimp only
  (repeat' split) <;> simp [apply_ite State.now, apply_ite State.pins, apply_ite State.sdm, apply_ite State.ots, apply_ite State.acu, apply_ite State.tcu, apply_ite State.lnk, apply_ite State.pending]

@[simp] theorem penaltyEnds_frame (s : State) :
    (penaltyEnds s).now = s.now ∧
    (penaltyEnds s).pins = s.pins ∧
    (penaltyEnds s).rcbLow = s.rcbLow ∧
    (penaltyEnds s).sdm = s.sdm ∧
    (penaltyEnds s).ots = s.ots ∧
    (penaltyEnds s).acu = s.acu ∧
    (penaltyEnds s).tcu = s.tcu ∧
    (penaltyEnds s).cda = s.cda ∧
    (penaltyEnds s).elg = s.elg ∧
    (penaltyEnds s).lnk = s.lnk ∧
    (penaltyEnds s).pending = s.pending := by
  unfold penaltyEnds
  try dsimp only
  (repeat' split) <;> simp [apply_ite State.now, apply_ite State.pins, apply_ite State.sdm, apply_ite State.ots, apply_ite State.acu, apply_ite State.tcu, apply_ite State.cda, apply_ite State.elg, apply_ite State.lnk, apply_ite State.pending]

@[simp] theorem minuteEnds_frame (s : State) :
    (minuteEnds s).now = s.now ∧
    (minuteEnds s).pins = s.pins ∧
    (minuteEnds s).rcbLow = s.rcbLow ∧
    (minuteEnds s).sdm = s.sdm ∧
    (minuteEnds s).ots = s.ots ∧
    (minuteEnds s).acu = s.acu ∧
    (minuteEnds s).tcu = s.tcu ∧
    (minuteEnds s).cda = s.cda ∧
    (minuteEnds s).elg = s.elg ∧
    (minuteEnds s).lnk = s.lnk ∧
    (minuteEnds s).pending = s.pending := by
  unfold minuteEnds
  try dsimp only
  (repeat' split) <;> simp [apply_ite State.now, apply_ite State.pins, apply_ite State.sdm, apply_ite State.ots, apply_ite State.acu, apply_ite State.tcu, apply_ite State.cda, apply_ite State.elg, apply_ite State.lnk, apply_ite State.pending]

@[simp] theorem calendarTick_frame (s : State) :
    (calendarTick s).now = s.now ∧
    (calendarTick s).pins = s.pins ∧
    (calendarTick s).rcbLow = s.rcbLow ∧
    (calendarTick s).sdm = s.sdm ∧
    (calendarTick s).ots = s.ots ∧
    (calendarTick s).elg = s.elg ∧
    (calendarTick s).lnk = s.lnk ∧
    (calendarTick s).pending = s.pending := by
  unfold calendarTick
  try dsimp only
  (repeat' split) <;> simp [apply_ite State.now, apply_ite State.pins, apply_ite State.sdm, apply_ite State.ots, apply_ite State.elg, apply_ite State.lnk, apply_ite State.pending]

@[simp] theorem tickPart_frame (a b : Bool) (p : TickPart) (s : State) :
    (tickPart a b p s).now = s.now ∧
    (tickPart a b p s).pins = s.pins ∧
    (tickPart a b p s).rcbLow = s.rcbLow ∧
    (tickPart a b p s).sdm = s.sdm ∧
    (tickPart a b p s).ots = s.ots ∧
    (tickPart a b p s).lnk = s.lnk ∧
    (tickPart a b p s).pending = s.pending := by
  unfold tickPart
  try dsimp only
  (repeat' split) <;> simp [apply_ite State.now, apply_ite State.pins, apply_ite State.sdm, apply_ite State.ots, apply_ite State.lnk, apply_ite State.pending]

@[simp] theorem tickParts_frame (a b : Bool) (ps : List TickPart) (s : State) :
    (ps.foldl (fun t p => tickPart a b p t) s).now = s.now ∧
    (ps.foldl (fun t p => tickPart a b p t) s).pins = s.pins ∧
    (ps.foldl (fun t p => tickPart a b p t) s).rcbLow = s.rcbLow ∧
    (ps.foldl (fun t p => tickPart a b p t) s).sdm = s.sdm ∧
    (ps.foldl (fun t p => tickPart a b p t) s).ots = s.ots ∧
    (ps.foldl (fun t p => tickPart a b p t) s).lnk = s.lnk ∧
    (ps.foldl (fun t p => tickPart a b p t) s).pending = s.pending := by
  induction ps generalizing s with
  | nil => simp
  | cons x xs ih => simp only [List.foldl_cons, ih]; simp

@[simp] theorem tick_frame (ps : List TickPart) (s : State) :
    (tick ps s).now = s.now ∧
    (tick ps s).pins = s.pins ∧
    (tick ps s).rcbLow = s.rcbLow ∧
    (tick ps s).sdm = s.sdm ∧
    (tick ps s).ots = s.ots ∧
    (tick ps s).lnk = s.lnk ∧
    (tick ps s).pending = s.pending := by
  unfold tick
  try dsimp only
  (repeat' split) <;> simp [apply_ite State.now, apply_ite State.pins, apply_ite State.sdm, apply_ite State.ots, apply_ite State.lnk, apply_ite State.pending]

@[simp] theorem secondTick_frame (m : Moment) (s : State) :
    (secondTick m s).ots = s.ots ∧
    (secondTick m s).pending = s.pending := by
  unfold secondTick
  try dsimp only
  (repeat' split) <;> simp [apply_ite State.ots, apply_ite State.pending]

end Sys2Proof.Machine
end

