-- ==== Sys2Proof/Laws/FramesCodes.lean ====
section
/-! SUPPORT. The frame of each operation of the Code Acceptor: one lemma for each,
naming every block of the state that it leaves as it was. -/

set_option linter.all false

namespace Sys2Proof.Machine

@[simp] theorem writeResult_frame (o : CodeOutcome) (c : Option CodeRef) (d : Option Detail) (s : State) :
    (writeResult o c d s).now = s.now ∧
    (writeResult o c d s).pins = s.pins ∧
    (writeResult o c d s).rcbLow = s.rcbLow ∧
    (writeResult o c d s).sdm = s.sdm ∧
    (writeResult o c d s).ots = s.ots ∧
    (writeResult o c d s).piu = s.piu ∧
    (writeResult o c d s).acu = s.acu ∧
    (writeResult o c d s).tcu = s.tcu ∧
    (writeResult o c d s).swc = s.swc ∧
    (writeResult o c d s).tmp = s.tmp ∧
    (writeResult o c d s).elg = s.elg ∧
    (writeResult o c d s).lnk = s.lnk ∧
    (writeResult o c d s).pending = s.pending := by
  unfold writeResult
  try dsimp only
  (repeat' split) <;> simp [apply_ite State.now, apply_ite State.pins, apply_ite State.sdm, apply_ite State.ots, apply_ite State.piu, apply_ite State.acu, apply_ite State.tcu, apply_ite State.swc, apply_ite State.tmp, apply_ite State.elg, apply_ite State.lnk, apply_ite State.pending]

@[simp] theorem endEntry_frame (s : State) :
    (endEntry s).now = s.now ∧
    (endEntry s).pins = s.pins ∧
    (endEntry s).rcbLow = s.rcbLow ∧
    (endEntry s).sdm = s.sdm ∧
    (endEntry s).ots = s.ots ∧
    (endEntry s).piu = s.piu ∧
    (endEntry s).acu = s.acu ∧
    (endEntry s).tcu = s.tcu ∧
    (endEntry s).swc = s.swc ∧
    (endEntry s).tmp = s.tmp ∧
    (endEntry s).elg = s.elg ∧
    (endEntry s).rpu = s.rpu ∧
    (endEntry s).lnk = s.lnk ∧
    (endEntry s).pending = s.pending := by
  unfold endEntry
  try dsimp only
  (repeat' split) <;> simp [apply_ite State.now, apply_ite State.pins, apply_ite State.sdm, apply_ite State.ots, apply_ite State.piu, apply_ite State.acu, apply_ite State.tcu, apply_ite State.swc, apply_ite State.tmp, apply_ite State.elg, apply_ite State.rpu, apply_ite State.lnk, apply_ite State.pending]

@[simp] theorem setWindow_frame (i : Slot) (w : SeqWindow) (s : State) :
    (setWindow i w s).now = s.now ∧
    (setWindow i w s).pins = s.pins ∧
    (setWindow i w s).rcbLow = s.rcbLow ∧
    (setWindow i w s).sdm = s.sdm ∧
    (setWindow i w s).ots = s.ots ∧
    (setWindow i w s).piu = s.piu ∧
    (setWindow i w s).acu = s.acu ∧
    (setWindow i w s).tcu = s.tcu ∧
    (setWindow i w s).swc = s.swc ∧
    (setWindow i w s).tmp = s.tmp ∧
    (setWindow i w s).elg = s.elg ∧
    (setWindow i w s).rpu = s.rpu ∧
    (setWindow i w s).lnk = s.lnk ∧
    (setWindow i w s).pending = s.pending := by
  unfold setWindow
  try dsimp only
  (repeat' split) <;> simp [apply_ite State.now, apply_ite State.pins, apply_ite State.sdm, apply_ite State.ots, apply_ite State.piu, apply_ite State.acu, apply_ite State.tcu, apply_ite State.swc, apply_ite State.tmp, apply_ite State.elg, apply_ite State.rpu, apply_ite State.lnk, apply_ite State.pending]

@[simp] theorem effectCredit_frame (f : Fields) (s : State) :
    ((effectCredit f s).1).now = s.now ∧
    ((effectCredit f s).1).pins = s.pins ∧
    ((effectCredit f s).1).rcbLow = s.rcbLow ∧
    ((effectCredit f s).1).sdm = s.sdm ∧
    ((effectCredit f s).1).ots = s.ots ∧
    ((effectCredit f s).1).tcu = s.tcu ∧
    ((effectCredit f s).1).cda = s.cda ∧
    ((effectCredit f s).1).elg = s.elg ∧
    ((effectCredit f s).1).lnk = s.lnk ∧
    ((effectCredit f s).1).pending = s.pending := by
  unfold effectCredit
  try dsimp only
  (repeat' split) <;> simp [apply_ite State.now, apply_ite State.pins, apply_ite State.sdm, apply_ite State.ots, apply_ite State.tcu, apply_ite State.cda, apply_ite State.elg, apply_ite State.lnk, apply_ite State.pending]

@[simp] theorem effectDebt_frame (f : Fields) (s : State) :
    (effectDebt f s).now = s.now ∧
    (effectDebt f s).pins = s.pins ∧
    (effectDebt f s).rcbLow = s.rcbLow ∧
    (effectDebt f s).sdm = s.sdm ∧
    (effectDebt f s).ots = s.ots ∧
    (effectDebt f s).tcu = s.tcu ∧
    (effectDebt f s).cda = s.cda ∧
    (effectDebt f s).elg = s.elg ∧
    (effectDebt f s).lnk = s.lnk ∧
    (effectDebt f s).pending = s.pending := by
  unfold effectDebt
  try dsimp only
  (repeat' split) <;> simp [apply_ite State.now, apply_ite State.pins, apply_ite State.sdm, apply_ite State.ots, apply_ite State.tcu, apply_ite State.cda, apply_ite State.elg, apply_ite State.lnk, apply_ite State.pending]

@[simp] theorem effectSetting_frame (f : Fields) (s : State) :
    (effectSetting f s).now = s.now ∧
    (effectSetting f s).pins = s.pins ∧
    (effectSetting f s).rcbLow = s.rcbLow ∧
    (effectSetting f s).sdm = s.sdm ∧
    (effectSetting f s).ots = s.ots ∧
    (effectSetting f s).tcu = s.tcu ∧
    (effectSetting f s).cda = s.cda ∧
    (effectSetting f s).elg = s.elg ∧
    (effectSetting f s).lnk = s.lnk ∧
    (effectSetting f s).pending = s.pending := by
  unfold effectSetting
  try dsimp only
  (repeat' split) <;> simp [apply_ite State.now, apply_ite State.pins, apply_ite State.sdm, apply_ite State.ots, apply_ite State.tcu, apply_ite State.cda, apply_ite State.elg, apply_ite State.lnk, apply_ite State.pending]

@[simp] theorem effectLoadLimit_frame (f : Fields) (s : State) :
    (effectLoadLimit f s).now = s.now ∧
    (effectLoadLimit f s).pins = s.pins ∧
    (effectLoadLimit f s).rcbLow = s.rcbLow ∧
    (effectLoadLimit f s).sdm = s.sdm ∧
    (effectLoadLimit f s).ots = s.ots ∧
    (effectLoadLimit f s).piu = s.piu ∧
    (effectLoadLimit f s).acu = s.acu ∧
    (effectLoadLimit f s).tcu = s.tcu ∧
    (effectLoadLimit f s).cda = s.cda ∧
    (effectLoadLimit f s).tmp = s.tmp ∧
    (effectLoadLimit f s).elg = s.elg ∧
    (effectLoadLimit f s).rpu = s.rpu ∧
    (effectLoadLimit f s).lnk = s.lnk ∧
    (effectLoadLimit f s).pending = s.pending := by
  unfold effectLoadLimit
  try dsimp only
  (repeat' split) <;> simp [apply_ite State.now, apply_ite State.pins, apply_ite State.sdm, apply_ite State.ots, apply_ite State.piu, apply_ite State.acu, apply_ite State.tcu, apply_ite State.cda, apply_ite State.tmp, apply_ite State.elg, apply_ite State.rpu, apply_ite State.lnk, apply_ite State.pending]

@[simp] theorem effectPrice_frame (f : Fields) (s : State) :
    (effectPrice f s).now = s.now ∧
    (effectPrice f s).pins = s.pins ∧
    (effectPrice f s).rcbLow = s.rcbLow ∧
    (effectPrice f s).sdm = s.sdm ∧
    (effectPrice f s).ots = s.ots ∧
    (effectPrice f s).piu = s.piu ∧
    (effectPrice f s).acu = s.acu ∧
    (effectPrice f s).cda = s.cda ∧
    (effectPrice f s).swc = s.swc ∧
    (effectPrice f s).tmp = s.tmp ∧
    (effectPrice f s).elg = s.elg ∧
    (effectPrice f s).rpu = s.rpu ∧
    (effectPrice f s).lnk = s.lnk ∧
    (effectPrice f s).pending = s.pending := by
  unfold effectPrice
  try dsimp only
  (repeat' split) <;> simp [apply_ite State.now, apply_ite State.pins, apply_ite State.sdm, apply_ite State.ots, apply_ite State.piu, apply_ite State.acu, apply_ite State.cda, apply_ite State.swc, apply_ite State.tmp, apply_ite State.elg, apply_ite State.rpu, apply_ite State.lnk, apply_ite State.pending]

@[simp] theorem effectSchedule_frame (f : Fields) (s : State) :
    (effectSchedule f s).now = s.now ∧
    (effectSchedule f s).pins = s.pins ∧
    (effectSchedule f s).rcbLow = s.rcbLow ∧
    (effectSchedule f s).sdm = s.sdm ∧
    (effectSchedule f s).ots = s.ots ∧
    (effectSchedule f s).piu = s.piu ∧
    (effectSchedule f s).acu = s.acu ∧
    (effectSchedule f s).cda = s.cda ∧
    (effectSchedule f s).swc = s.swc ∧
    (effectSchedule f s).tmp = s.tmp ∧
    (effectSchedule f s).elg = s.elg ∧
    (effectSchedule f s).rpu = s.rpu ∧
    (effectSchedule f s).lnk = s.lnk ∧
    (effectSchedule f s).pending = s.pending := by
  unfold effectSchedule
  try dsimp only
  (repeat' split) <;> simp [apply_ite State.now, apply_ite State.pins, apply_ite State.sdm, apply_ite State.ots, apply_ite State.piu, apply_ite State.acu, apply_ite State.cda, apply_ite State.swc, apply_ite State.tmp, apply_ite State.elg, apply_ite State.rpu, apply_ite State.lnk, apply_ite State.pending]

@[simp] theorem effectActivate_frame (f : Fields) (s : State) :
    (effectActivate f s).now = s.now ∧
    (effectActivate f s).pins = s.pins ∧
    (effectActivate f s).rcbLow = s.rcbLow ∧
    (effectActivate f s).sdm = s.sdm ∧
    (effectActivate f s).ots = s.ots ∧
    (effectActivate f s).piu = s.piu ∧
    (effectActivate f s).acu = s.acu ∧
    (effectActivate f s).cda = s.cda ∧
    (effectActivate f s).swc = s.swc ∧
    (effectActivate f s).tmp = s.tmp ∧
    (effectActivate f s).elg = s.elg ∧
    (effectActivate f s).rpu = s.rpu ∧
    (effectActivate f s).lnk = s.lnk ∧
    (effectActivate f s).pending = s.pending := by
  unfold effectActivate
  try dsimp only
  (repeat' split) <;> simp [apply_ite State.now, apply_ite State.pins, apply_ite State.sdm, apply_ite State.ots, apply_ite State.piu, apply_ite State.acu, apply_ite State.cda, apply_ite State.swc, apply_ite State.tmp, apply_ite State.elg, apply_ite State.rpu, apply_ite State.lnk, apply_ite State.pending]

@[simp] theorem effectCalendar_frame (f : Fields) (s : State) :
    (effectCalendar f s).now = s.now ∧
    (effectCalendar f s).pins = s.pins ∧
    (effectCalendar f s).rcbLow = s.rcbLow ∧
    (effectCalendar f s).sdm = s.sdm ∧
    (effectCalendar f s).ots = s.ots ∧
    (effectCalendar f s).acu = s.acu ∧
    (effectCalendar f s).cda = s.cda ∧
    (effectCalendar f s).elg = s.elg ∧
    (effectCalendar f s).lnk = s.lnk ∧
    (effectCalendar f s).pending = s.pending := by
  unfold effectCalendar
  try dsimp only
  (repeat' split) <;> simp [apply_ite State.now, apply_ite State.pins, apply_ite State.sdm, apply_ite State.ots, apply_ite State.acu, apply_ite State.cda, apply_ite State.elg, apply_ite State.lnk, apply_ite State.pending]

@[simp] theorem clearKind_frame (c : RecordCode) (k : Kind) (s : State) :
    (clearKind c k s).now = s.now ∧
    (clearKind c k s).pins = s.pins ∧
    (clearKind c k s).rcbLow = s.rcbLow ∧
    (clearKind c k s).sdm = s.sdm ∧
    (clearKind c k s).ots = s.ots ∧
    (clearKind c k s).piu = s.piu ∧
    (clearKind c k s).acu = s.acu ∧
    (clearKind c k s).tcu = s.tcu ∧
    (clearKind c k s).cda = s.cda ∧
    (clearKind c k s).swc = s.swc ∧
    (clearKind c k s).rpu = s.rpu ∧
    (clearKind c k s).lnk = s.lnk ∧
    (clearKind c k s).pending = s.pending := by
  unfold clearKind
  try dsimp only
  (repeat' split) <;> simp [apply_ite State.now, apply_ite State.pins, apply_ite State.sdm, apply_ite State.ots, apply_ite State.piu, apply_ite State.acu, apply_ite State.tcu, apply_ite State.cda, apply_ite State.swc, apply_ite State.rpu, apply_ite State.lnk, apply_ite State.pending]

@[simp] theorem clearKinds_frame (c : RecordCode) (ks : List Kind) (s : State) :
    (ks.foldl (fun s k => clearKind c k s) s).now = s.now ∧
    (ks.foldl (fun s k => clearKind c k s) s).pins = s.pins ∧
    (ks.foldl (fun s k => clearKind c k s) s).rcbLow = s.rcbLow ∧
    (ks.foldl (fun s k => clearKind c k s) s).sdm = s.sdm ∧
    (ks.foldl (fun s k => clearKind c k s) s).ots = s.ots ∧
    (ks.foldl (fun s k => clearKind c k s) s).piu = s.piu ∧
    (ks.foldl (fun s k => clearKind c k s) s).acu = s.acu ∧
    (ks.foldl (fun s k => clearKind c k s) s).tcu = s.tcu ∧
    (ks.foldl (fun s k => clearKind c k s) s).cda = s.cda ∧
    (ks.foldl (fun s k => clearKind c k s) s).swc = s.swc ∧
    (ks.foldl (fun s k => clearKind c k s) s).rpu = s.rpu ∧
    (ks.foldl (fun s k => clearKind c k s) s).lnk = s.lnk ∧
    (ks.foldl (fun s k => clearKind c k s) s).pending = s.pending := by
  induction ks generalizing s with
  | nil => simp
  | cons x xs ih => simp only [List.foldl_cons, ih]; simp

@[simp] theorem effectClear_frame (i : Slot) (f : Fields) (s : State) :
    ((effectClear i f s).1).now = s.now ∧
    ((effectClear i f s).1).pins = s.pins ∧
    ((effectClear i f s).1).rcbLow = s.rcbLow ∧
    ((effectClear i f s).1).sdm = s.sdm ∧
    ((effectClear i f s).1).ots = s.ots ∧
    ((effectClear i f s).1).acu = s.acu ∧
    ((effectClear i f s).1).tcu = s.tcu ∧
    ((effectClear i f s).1).cda = s.cda ∧
    ((effectClear i f s).1).lnk = s.lnk ∧
    ((effectClear i f s).1).pending = s.pending := by
  unfold effectClear
  try dsimp only
  (repeat' split) <;> simp [apply_ite State.now, apply_ite State.pins, apply_ite State.sdm, apply_ite State.ots, apply_ite State.acu, apply_ite State.tcu, apply_ite State.cda, apply_ite State.lnk, apply_ite State.pending]

@[simp] theorem effectAction_frame (f : Fields) (s : State) :
    (effectAction f s).now = s.now ∧
    (effectAction f s).pins = s.pins ∧
    (effectAction f s).rcbLow = s.rcbLow ∧
    (effectAction f s).sdm = s.sdm ∧
    (effectAction f s).ots = s.ots ∧
    (effectAction f s).acu = s.acu ∧
    (effectAction f s).tcu = s.tcu ∧
    (effectAction f s).cda = s.cda ∧
    (effectAction f s).elg = s.elg ∧
    (effectAction f s).lnk = s.lnk ∧
    (effectAction f s).pending = s.pending := by
  unfold effectAction
  try dsimp only
  (repeat' split) <;> simp [apply_ite State.now, apply_ite State.pins, apply_ite State.sdm, apply_ite State.ots, apply_ite State.acu, apply_ite State.tcu, apply_ite State.cda, apply_ite State.elg, apply_ite State.lnk, apply_ite State.pending]

@[simp] theorem orderRelease_frame (s : State) :
    (orderRelease s).now = s.now ∧
    (orderRelease s).pins = s.pins ∧
    (orderRelease s).rcbLow = s.rcbLow ∧
    (orderRelease s).sdm = s.sdm ∧
    (orderRelease s).ots = s.ots ∧
    (orderRelease s).acu = s.acu ∧
    (orderRelease s).tcu = s.tcu ∧
    (orderRelease s).cda = s.cda ∧
    (orderRelease s).elg = s.elg ∧
    (orderRelease s).lnk = s.lnk ∧
    (orderRelease s).pending = s.pending := by
  unfold orderRelease
  try dsimp only
  (repeat' split) <;> simp [apply_ite State.now, apply_ite State.pins, apply_ite State.sdm, apply_ite State.ots, apply_ite State.acu, apply_ite State.tcu, apply_ite State.cda, apply_ite State.elg, apply_ite State.lnk, apply_ite State.pending]

@[simp] theorem orderHoldOpen_frame (s : State) :
    (orderHoldOpen s).now = s.now ∧
    (orderHoldOpen s).pins = s.pins ∧
    (orderHoldOpen s).rcbLow = s.rcbLow ∧
    (orderHoldOpen s).sdm = s.sdm ∧
    (orderHoldOpen s).ots = s.ots ∧
    (orderHoldOpen s).acu = s.acu ∧
    (orderHoldOpen s).tcu = s.tcu ∧
    (orderHoldOpen s).cda = s.cda ∧
    (orderHoldOpen s).elg = s.elg ∧
    (orderHoldOpen s).lnk = s.lnk ∧
    (orderHoldOpen s).pending = s.pending := by
  unfold orderHoldOpen
  try dsimp only
  (repeat' split) <;> simp [apply_ite State.now, apply_ite State.pins, apply_ite State.sdm, apply_ite State.ots, apply_ite State.acu, apply_ite State.tcu, apply_ite State.cda, apply_ite State.elg, apply_ite State.lnk, apply_ite State.pending]

@[simp] theorem orderOverride_frame (n : Nat) (s : State) :
    (orderOverride n s).now = s.now ∧
    (orderOverride n s).pins = s.pins ∧
    (orderOverride n s).rcbLow = s.rcbLow ∧
    (orderOverride n s).sdm = s.sdm ∧
    (orderOverride n s).ots = s.ots ∧
    (orderOverride n s).acu = s.acu ∧
    (orderOverride n s).cda = s.cda ∧
    (orderOverride n s).elg = s.elg ∧
    (orderOverride n s).lnk = s.lnk ∧
    (orderOverride n s).pending = s.pending := by
  unfold orderOverride
  try dsimp only
  (repeat' split) <;> simp [apply_ite State.now, apply_ite State.pins, apply_ite State.sdm, apply_ite State.ots, apply_ite State.acu, apply_ite State.cda, apply_ite State.elg, apply_ite State.lnk, apply_ite State.pending]

@[simp] theorem orderCancel_frame (s : State) :
    (orderCancel s).now = s.now ∧
    (orderCancel s).pins = s.pins ∧
    (orderCancel s).rcbLow = s.rcbLow ∧
    (orderCancel s).sdm = s.sdm ∧
    (orderCancel s).ots = s.ots ∧
    (orderCancel s).acu = s.acu ∧
    (orderCancel s).cda = s.cda ∧
    (orderCancel s).elg = s.elg ∧
    (orderCancel s).lnk = s.lnk ∧
    (orderCancel s).pending = s.pending := by
  unfold orderCancel
  try dsimp only
  (repeat' split) <;> simp [apply_ite State.now, apply_ite State.pins, apply_ite State.sdm, apply_ite State.ots, apply_ite State.acu, apply_ite State.cda, apply_ite State.elg, apply_ite State.lnk, apply_ite State.pending]

@[simp] theorem orderRetry_frame (s : State) :
    (orderRetry s).now = s.now ∧
    (orderRetry s).pins = s.pins ∧
    (orderRetry s).rcbLow = s.rcbLow ∧
    (orderRetry s).sdm = s.sdm ∧
    (orderRetry s).ots = s.ots ∧
    (orderRetry s).acu = s.acu ∧
    (orderRetry s).tcu = s.tcu ∧
    (orderRetry s).cda = s.cda ∧
    (orderRetry s).elg = s.elg ∧
    (orderRetry s).lnk = s.lnk ∧
    (orderRetry s).pending = s.pending := by
  unfold orderRetry
  try dsimp only
  (repeat' split) <;> simp [apply_ite State.now, apply_ite State.pins, apply_ite State.sdm, apply_ite State.ots, apply_ite State.acu, apply_ite State.tcu, apply_ite State.cda, apply_ite State.elg, apply_ite State.lnk, apply_ite State.pending]

@[simp] theorem effectOrder_frame (f : Fields) (s : State) :
    (effectOrder f s).now = s.now ∧
    (effectOrder f s).pins = s.pins ∧
    (effectOrder f s).rcbLow = s.rcbLow ∧
    (effectOrder f s).sdm = s.sdm ∧
    (effectOrder f s).ots = s.ots ∧
    (effectOrder f s).acu = s.acu ∧
    (effectOrder f s).cda = s.cda ∧
    (effectOrder f s).elg = s.elg ∧
    (effectOrder f s).lnk = s.lnk ∧
    (effectOrder f s).pending = s.pending := by
  unfold effectOrder
  try dsimp only
  (repeat' split) <;> simp [apply_ite State.now, apply_ite State.pins, apply_ite State.sdm, apply_ite State.ots, apply_ite State.acu, apply_ite State.cda, apply_ite State.elg, apply_ite State.lnk, apply_ite State.pending]

@[simp] theorem effectTimeSet_frame (f : Fields) (s : State) :
    (effectTimeSet f s).now = s.now ∧
    (effectTimeSet f s).pins = s.pins ∧
    (effectTimeSet f s).rcbLow = s.rcbLow ∧
    (effectTimeSet f s).sdm = s.sdm ∧
    (effectTimeSet f s).ots = s.ots ∧
    (effectTimeSet f s).elg = s.elg ∧
    (effectTimeSet f s).lnk = s.lnk ∧
    (effectTimeSet f s).pending = s.pending := by
  unfold effectTimeSet
  try dsimp only
  (repeat' split) <;> simp [apply_ite State.now, apply_ite State.pins, apply_ite State.sdm, apply_ite State.ots, apply_ite State.elg, apply_ite State.lnk, apply_ite State.pending]

@[simp] theorem effectDisable_frame (f : Fields) (s : State) :
    (effectDisable f s).now = s.now ∧
    (effectDisable f s).pins = s.pins ∧
    (effectDisable f s).rcbLow = s.rcbLow ∧
    (effectDisable f s).sdm = s.sdm ∧
    (effectDisable f s).ots = s.ots ∧
    (effectDisable f s).piu = s.piu ∧
    (effectDisable f s).acu = s.acu ∧
    (effectDisable f s).tcu = s.tcu ∧
    (effectDisable f s).swc = s.swc ∧
    (effectDisable f s).tmp = s.tmp ∧
    (effectDisable f s).elg = s.elg ∧
    (effectDisable f s).rpu = s.rpu ∧
    (effectDisable f s).lnk = s.lnk ∧
    (effectDisable f s).pending = s.pending := by
  unfold effectDisable
  try dsimp only
  (repeat' split) <;> simp [apply_ite State.now, apply_ite State.pins, apply_ite State.sdm, apply_ite State.ots, apply_ite State.piu, apply_ite State.acu, apply_ite State.tcu, apply_ite State.swc, apply_ite State.tmp, apply_ite State.elg, apply_ite State.rpu, apply_ite State.lnk, apply_ite State.pending]

@[simp] theorem effectReinstate_frame (f : Fields) (s : State) :
    (effectReinstate f s).now = s.now ∧
    (effectReinstate f s).pins = s.pins ∧
    (effectReinstate f s).rcbLow = s.rcbLow ∧
    (effectReinstate f s).sdm = s.sdm ∧
    (effectReinstate f s).ots = s.ots ∧
    (effectReinstate f s).acu = s.acu ∧
    (effectReinstate f s).tcu = s.tcu ∧
    (effectReinstate f s).lnk = s.lnk ∧
    (effectReinstate f s).pending = s.pending := by
  unfold effectReinstate
  try dsimp only
  (repeat' split) <;> simp [apply_ite State.now, apply_ite State.pins, apply_ite State.sdm, apply_ite State.ots, apply_ite State.acu, apply_ite State.tcu, apply_ite State.lnk, apply_ite State.pending]

@[simp] theorem applyEffect_frame (i : Slot) (f : Fields) (s : State) :
    ((applyEffect i f s).1).now = s.now ∧
    ((applyEffect i f s).1).pins = s.pins ∧
    ((applyEffect i f s).1).rcbLow = s.rcbLow ∧
    ((applyEffect i f s).1).sdm = s.sdm ∧
    ((applyEffect i f s).1).ots = s.ots ∧
    ((applyEffect i f s).1).lnk = s.lnk ∧
    ((applyEffect i f s).1).pending = s.pending := by
  unfold applyEffect
  try dsimp only
  (repeat' split) <;> simp [apply_ite State.now, apply_ite State.pins, apply_ite State.sdm, apply_ite State.ots, apply_ite State.lnk, apply_ite State.pending]

@[simp] theorem acceptCode_frame (i : Slot) (f : Fields) (s : State) :
    (acceptCode i f s).now = s.now ∧
    (acceptCode i f s).pins = s.pins ∧
    (acceptCode i f s).rcbLow = s.rcbLow ∧
    (acceptCode i f s).sdm = s.sdm ∧
    (acceptCode i f s).ots = s.ots ∧
    (acceptCode i f s).lnk = s.lnk ∧
    (acceptCode i f s).pending = s.pending := by
  unfold acceptCode
  try dsimp only
  (repeat' split) <;> simp [apply_ite State.now, apply_ite State.pins, apply_ite State.sdm, apply_ite State.ots, apply_ite State.lnk, apply_ite State.pending]

@[simp] theorem beginLockout_frame (s : State) :
    (beginLockout s).now = s.now ∧
    (beginLockout s).pins = s.pins ∧
    (beginLockout s).rcbLow = s.rcbLow ∧
    (beginLockout s).sdm = s.sdm ∧
    (beginLockout s).ots = s.ots ∧
    (beginLockout s).acu = s.acu ∧
    (beginLockout s).tcu = s.tcu ∧
    (beginLockout s).lnk = s.lnk ∧
    (beginLockout s).pending = s.pending := by
  unfold beginLockout
  try dsimp only
  (repeat' split) <;> simp [apply_ite State.now, apply_ite State.pins, apply_ite State.sdm, apply_ite State.ots, apply_ite State.acu, apply_ite State.tcu, apply_ite State.lnk, apply_ite State.pending]

@[simp] theorem checkFailed_frame (s : State) :
    (checkFailed s).now = s.now ∧
    (checkFailed s).pins = s.pins ∧
    (checkFailed s).rcbLow = s.rcbLow ∧
    (checkFailed s).sdm = s.sdm ∧
    (checkFailed s).ots = s.ots ∧
    (checkFailed s).acu = s.acu ∧
    (checkFailed s).tcu = s.tcu ∧
    (checkFailed s).lnk = s.lnk ∧
    (checkFailed s).pending = s.pending := by
  unfold checkFailed
  try dsimp only
  (repeat' split) <;> simp [apply_ite State.now, apply_ite State.pins, apply_ite State.sdm, apply_ite State.ots, apply_ite State.acu, apply_ite State.tcu, apply_ite State.lnk, apply_ite State.pending]

@[simp] theorem finishDecode_frame (r : Option (Slot × Fields)) (s : State) :
    (finishDecode r s).now = s.now ∧
    (finishDecode r s).pins = s.pins ∧
    (finishDecode r s).rcbLow = s.rcbLow ∧
    (finishDecode r s).sdm = s.sdm ∧
    (finishDecode r s).ots = s.ots ∧
    (finishDecode r s).lnk = s.lnk ∧
    (finishDecode r s).pending = s.pending := by
  unfold finishDecode
  try dsimp only
  (repeat' split) <;> simp [apply_ite State.now, apply_ite State.pins, apply_ite State.sdm, apply_ite State.ots, apply_ite State.lnk, apply_ite State.pending]

@[simp] theorem takeLocal_frame (c : LocalCommand) (s : State) :
    ((takeLocal c s).1).now = s.now ∧
    ((takeLocal c s).1).pins = s.pins ∧
    ((takeLocal c s).1).rcbLow = s.rcbLow ∧
    ((takeLocal c s).1).sdm = s.sdm ∧
    ((takeLocal c s).1).ots = s.ots ∧
    ((takeLocal c s).1).tcu = s.tcu ∧
    ((takeLocal c s).1).cda = s.cda ∧
    ((takeLocal c s).1).elg = s.elg ∧
    ((takeLocal c s).1).lnk = s.lnk ∧
    ((takeLocal c s).1).pending = s.pending := by
  unfold takeLocal
  try dsimp only
  (repeat' split) <;> simp [apply_ite State.now, apply_ite State.pins, apply_ite State.sdm, apply_ite State.ots, apply_ite State.tcu, apply_ite State.cda, apply_ite State.elg, apply_ite State.lnk, apply_ite State.pending]

@[simp] theorem formatResult_frame (s : State) :
    (formatResult s).now = s.now ∧
    (formatResult s).pins = s.pins ∧
    (formatResult s).rcbLow = s.rcbLow ∧
    (formatResult s).sdm = s.sdm ∧
    (formatResult s).ots = s.ots ∧
    (formatResult s).piu = s.piu ∧
    (formatResult s).acu = s.acu ∧
    (formatResult s).tcu = s.tcu ∧
    (formatResult s).swc = s.swc ∧
    (formatResult s).tmp = s.tmp ∧
    (formatResult s).elg = s.elg ∧
    (formatResult s).lnk = s.lnk ∧
    (formatResult s).pending = s.pending := by
  unfold formatResult
  try dsimp only
  (repeat' split) <;> simp [apply_ite State.now, apply_ite State.pins, apply_ite State.sdm, apply_ite State.ots, apply_ite State.piu, apply_ite State.acu, apply_ite State.tcu, apply_ite State.swc, apply_ite State.tmp, apply_ite State.elg, apply_ite State.lnk, apply_ite State.pending]

@[simp] theorem enterLocal_frame (s : State) :
    (enterLocal s).now = s.now ∧
    (enterLocal s).pins = s.pins ∧
    (enterLocal s).rcbLow = s.rcbLow ∧
    (enterLocal s).sdm = s.sdm ∧
    (enterLocal s).ots = s.ots ∧
    (enterLocal s).tcu = s.tcu ∧
    (enterLocal s).elg = s.elg ∧
    (enterLocal s).lnk = s.lnk ∧
    (enterLocal s).pending = s.pending := by
  unfold enterLocal
  try dsimp only
  (repeat' split) <;> simp [apply_ite State.now, apply_ite State.pins, apply_ite State.sdm, apply_ite State.ots, apply_ite State.tcu, apply_ite State.elg, apply_ite State.lnk, apply_ite State.pending]

@[simp] theorem enterCode_frame (s : State) :
    (enterCode s).now = s.now ∧
    (enterCode s).pins = s.pins ∧
    (enterCode s).rcbLow = s.rcbLow ∧
    (enterCode s).sdm = s.sdm ∧
    (enterCode s).ots = s.ots ∧
    (enterCode s).piu = s.piu ∧
    (enterCode s).acu = s.acu ∧
    (enterCode s).tcu = s.tcu ∧
    (enterCode s).swc = s.swc ∧
    (enterCode s).tmp = s.tmp ∧
    (enterCode s).elg = s.elg ∧
    (enterCode s).lnk = s.lnk ∧
    (enterCode s).pending = s.pending := by
  unfold enterCode
  try dsimp only
  (repeat' split) <;> simp [apply_ite State.now, apply_ite State.pins, apply_ite State.sdm, apply_ite State.ots, apply_ite State.piu, apply_ite State.acu, apply_ite State.tcu, apply_ite State.swc, apply_ite State.tmp, apply_ite State.elg, apply_ite State.lnk, apply_ite State.pending]

@[simp] theorem takeEnter_frame (s : State) :
    (takeEnter s).now = s.now ∧
    (takeEnter s).pins = s.pins ∧
    (takeEnter s).rcbLow = s.rcbLow ∧
    (takeEnter s).sdm = s.sdm ∧
    (takeEnter s).ots = s.ots ∧
    (takeEnter s).tcu = s.tcu ∧
    (takeEnter s).elg = s.elg ∧
    (takeEnter s).lnk = s.lnk ∧
    (takeEnter s).pending = s.pending := by
  unfold takeEnter
  try dsimp only
  (repeat' split) <;> simp [apply_ite State.now, apply_ite State.pins, apply_ite State.sdm, apply_ite State.ots, apply_ite State.tcu, apply_ite State.elg, apply_ite State.lnk, apply_ite State.pending]

@[simp] theorem takeDigit_frame (d : Fin 10) (s : State) :
    (takeDigit d s).now = s.now ∧
    (takeDigit d s).pins = s.pins ∧
    (takeDigit d s).rcbLow = s.rcbLow ∧
    (takeDigit d s).sdm = s.sdm ∧
    (takeDigit d s).ots = s.ots ∧
    (takeDigit d s).piu = s.piu ∧
    (takeDigit d s).acu = s.acu ∧
    (takeDigit d s).tcu = s.tcu ∧
    (takeDigit d s).swc = s.swc ∧
    (takeDigit d s).tmp = s.tmp ∧
    (takeDigit d s).elg = s.elg ∧
    (takeDigit d s).rpu = s.rpu ∧
    (takeDigit d s).lnk = s.lnk ∧
    (takeDigit d s).pending = s.pending := by
  unfold takeDigit
  try dsimp only
  (repeat' split) <;> simp [apply_ite State.now, apply_ite State.pins, apply_ite State.sdm, apply_ite State.ots, apply_ite State.piu, apply_ite State.acu, apply_ite State.tcu, apply_ite State.swc, apply_ite State.tmp, apply_ite State.elg, apply_ite State.rpu, apply_ite State.lnk, apply_ite State.pending]

@[simp] theorem takeBack_frame (s : State) :
    (takeBack s).now = s.now ∧
    (takeBack s).pins = s.pins ∧
    (takeBack s).rcbLow = s.rcbLow ∧
    (takeBack s).sdm = s.sdm ∧
    (takeBack s).ots = s.ots ∧
    (takeBack s).piu = s.piu ∧
    (takeBack s).acu = s.acu ∧
    (takeBack s).tcu = s.tcu ∧
    (takeBack s).swc = s.swc ∧
    (takeBack s).tmp = s.tmp ∧
    (takeBack s).elg = s.elg ∧
    (takeBack s).rpu = s.rpu ∧
    (takeBack s).lnk = s.lnk ∧
    (takeBack s).pending = s.pending := by
  unfold takeBack
  try dsimp only
  (repeat' split) <;> simp [apply_ite State.now, apply_ite State.pins, apply_ite State.sdm, apply_ite State.ots, apply_ite State.piu, apply_ite State.acu, apply_ite State.tcu, apply_ite State.swc, apply_ite State.tmp, apply_ite State.elg, apply_ite State.rpu, apply_ite State.lnk, apply_ite State.pending]

@[simp] theorem takeCancel_frame (s : State) :
    (takeCancel s).now = s.now ∧
    (takeCancel s).pins = s.pins ∧
    (takeCancel s).rcbLow = s.rcbLow ∧
    (takeCancel s).sdm = s.sdm ∧
    (takeCancel s).ots = s.ots ∧
    (takeCancel s).piu = s.piu ∧
    (takeCancel s).acu = s.acu ∧
    (takeCancel s).tcu = s.tcu ∧
    (takeCancel s).swc = s.swc ∧
    (takeCancel s).tmp = s.tmp ∧
    (takeCancel s).elg = s.elg ∧
    (takeCancel s).rpu = s.rpu ∧
    (takeCancel s).lnk = s.lnk ∧
    (takeCancel s).pending = s.pending := by
  unfold takeCancel
  try dsimp only
  (repeat' split) <;> simp [apply_ite State.now, apply_ite State.pins, apply_ite State.sdm, apply_ite State.ots, apply_ite State.piu, apply_ite State.acu, apply_ite State.tcu, apply_ite State.swc, apply_ite State.tmp, apply_ite State.elg, apply_ite State.rpu, apply_ite State.lnk, apply_ite State.pending]

@[simp] theorem takeSymbol_frame (x : Symbol) (s : State) :
    ((takeSymbol x s).2).now = s.now ∧
    ((takeSymbol x s).2).pins = s.pins ∧
    ((takeSymbol x s).2).rcbLow = s.rcbLow ∧
    ((takeSymbol x s).2).sdm = s.sdm ∧
    ((takeSymbol x s).2).ots = s.ots ∧
    ((takeSymbol x s).2).tcu = s.tcu ∧
    ((takeSymbol x s).2).elg = s.elg ∧
    ((takeSymbol x s).2).lnk = s.lnk ∧
    ((takeSymbol x s).2).pending = s.pending := by
  unfold takeSymbol
  try dsimp only
  (repeat' split) <;> simp [apply_ite State.now, apply_ite State.pins, apply_ite State.sdm, apply_ite State.ots, apply_ite State.tcu, apply_ite State.elg, apply_ite State.lnk, apply_ite State.pending]

@[simp] theorem acceptorHoldup_frame (s : State) :
    (acceptorHoldup s).now = s.now ∧
    (acceptorHoldup s).pins = s.pins ∧
    (acceptorHoldup s).rcbLow = s.rcbLow ∧
    (acceptorHoldup s).sdm = s.sdm ∧
    (acceptorHoldup s).ots = s.ots ∧
    (acceptorHoldup s).piu = s.piu ∧
    (acceptorHoldup s).acu = s.acu ∧
    (acceptorHoldup s).tcu = s.tcu ∧
    (acceptorHoldup s).swc = s.swc ∧
    (acceptorHoldup s).tmp = s.tmp ∧
    (acceptorHoldup s).elg = s.elg ∧
    (acceptorHoldup s).rpu = s.rpu ∧
    (acceptorHoldup s).lnk = s.lnk ∧
    (acceptorHoldup s).pending = s.pending := by
  unfold acceptorHoldup
  try dsimp only
  (repeat' split) <;> simp [apply_ite State.now, apply_ite State.pins, apply_ite State.sdm, apply_ite State.ots, apply_ite State.piu, apply_ite State.acu, apply_ite State.tcu, apply_ite State.swc, apply_ite State.tmp, apply_ite State.elg, apply_ite State.rpu, apply_ite State.lnk, apply_ite State.pending]

@[simp] theorem acceptorStartUp_frame (s : State) :
    (acceptorStartUp s).now = s.now ∧
    (acceptorStartUp s).pins = s.pins ∧
    (acceptorStartUp s).rcbLow = s.rcbLow ∧
    (acceptorStartUp s).sdm = s.sdm ∧
    (acceptorStartUp s).ots = s.ots ∧
    (acceptorStartUp s).acu = s.acu ∧
    (acceptorStartUp s).tcu = s.tcu ∧
    (acceptorStartUp s).lnk = s.lnk ∧
    (acceptorStartUp s).pending = s.pending := by
  unfold acceptorStartUp
  try dsimp only
  (repeat' split) <;> simp [apply_ite State.now, apply_ite State.pins, apply_ite State.sdm, apply_ite State.ots, apply_ite State.acu, apply_ite State.tcu, apply_ite State.lnk, apply_ite State.pending]

@[simp] theorem entryTimeout_frame (m : Moment) (s : State) :
    (entryTimeout m s).ots = s.ots ∧
    (entryTimeout m s).acu = s.acu ∧
    (entryTimeout m s).elg = s.elg ∧
    (entryTimeout m s).pending = s.pending := by
  unfold entryTimeout
  try dsimp only
  (repeat' split) <;> simp [apply_ite State.ots, apply_ite State.acu, apply_ite State.elg, apply_ite State.pending]

@[simp] theorem decodeEnd_frame (m : Moment) (s : State) :
    (decodeEnd m s).ots = s.ots ∧
    (decodeEnd m s).pending = s.pending := by
  unfold decodeEnd
  try dsimp only
  (repeat' split) <;> simp [apply_ite State.ots, apply_ite State.pending]

end Sys2Proof.Machine
end

