-- ==== Sys2Proof/Laws/FramesLink.lean ====
section
/-! SUPPORT. The frame of each operation of the Message Link: one lemma for each,
naming every block of the state that it leaves as it was. -/

set_option linter.all false

namespace Sys2Proof.Machine

@[simp] theorem placeFrame_frame (f r : List Byte) (s : State) :
    (placeFrame f r s).now = s.now ∧
    (placeFrame f r s).pins = s.pins ∧
    (placeFrame f r s).rcbLow = s.rcbLow ∧
    (placeFrame f r s).sdm = s.sdm ∧
    (placeFrame f r s).ots = s.ots ∧
    (placeFrame f r s).piu = s.piu ∧
    (placeFrame f r s).acu = s.acu ∧
    (placeFrame f r s).tcu = s.tcu ∧
    (placeFrame f r s).cda = s.cda ∧
    (placeFrame f r s).swc = s.swc ∧
    (placeFrame f r s).tmp = s.tmp ∧
    (placeFrame f r s).elg = s.elg ∧
    (placeFrame f r s).rpu = s.rpu ∧
    (placeFrame f r s).pending = s.pending := by
  unfold placeFrame
  try dsimp only
  (repeat' split) <;> simp [apply_ite State.now, apply_ite State.pins, apply_ite State.sdm, apply_ite State.ots, apply_ite State.piu, apply_ite State.acu, apply_ite State.tcu, apply_ite State.cda, apply_ite State.swc, apply_ite State.tmp, apply_ite State.elg, apply_ite State.rpu, apply_ite State.pending]

@[simp] theorem placeReply_frame (k : Nat) (a : Answer) (s : State) :
    (placeReply k a s).now = s.now ∧
    (placeReply k a s).pins = s.pins ∧
    (placeReply k a s).rcbLow = s.rcbLow ∧
    (placeReply k a s).sdm = s.sdm ∧
    (placeReply k a s).ots = s.ots ∧
    (placeReply k a s).piu = s.piu ∧
    (placeReply k a s).acu = s.acu ∧
    (placeReply k a s).tcu = s.tcu ∧
    (placeReply k a s).cda = s.cda ∧
    (placeReply k a s).swc = s.swc ∧
    (placeReply k a s).tmp = s.tmp ∧
    (placeReply k a s).elg = s.elg ∧
    (placeReply k a s).rpu = s.rpu ∧
    (placeReply k a s).pending = s.pending := by
  unfold placeReply
  try dsimp only
  (repeat' split) <;> simp [apply_ite State.now, apply_ite State.pins, apply_ite State.sdm, apply_ite State.ots, apply_ite State.piu, apply_ite State.acu, apply_ite State.tcu, apply_ite State.cda, apply_ite State.swc, apply_ite State.tmp, apply_ite State.elg, apply_ite State.rpu, apply_ite State.pending]

@[simp] theorem discardKept_frame (s : State) :
    (discardKept s).now = s.now ∧
    (discardKept s).pins = s.pins ∧
    (discardKept s).rcbLow = s.rcbLow ∧
    (discardKept s).sdm = s.sdm ∧
    (discardKept s).ots = s.ots ∧
    (discardKept s).piu = s.piu ∧
    (discardKept s).acu = s.acu ∧
    (discardKept s).tcu = s.tcu ∧
    (discardKept s).cda = s.cda ∧
    (discardKept s).swc = s.swc ∧
    (discardKept s).tmp = s.tmp ∧
    (discardKept s).elg = s.elg ∧
    (discardKept s).pending = s.pending := by
  unfold discardKept
  try dsimp only
  (repeat' split) <;> simp [apply_ite State.now, apply_ite State.pins, apply_ite State.sdm, apply_ite State.ots, apply_ite State.piu, apply_ite State.acu, apply_ite State.tcu, apply_ite State.cda, apply_ite State.swc, apply_ite State.tmp, apply_ite State.elg, apply_ite State.pending]

@[simp] theorem completeWrite_frame (b : List Byte) (s : State) :
    (completeWrite b s).now = s.now ∧
    (completeWrite b s).pins = s.pins ∧
    (completeWrite b s).rcbLow = s.rcbLow ∧
    (completeWrite b s).sdm = s.sdm ∧
    (completeWrite b s).ots = s.ots ∧
    (completeWrite b s).piu = s.piu ∧
    (completeWrite b s).acu = s.acu ∧
    (completeWrite b s).tcu = s.tcu ∧
    (completeWrite b s).cda = s.cda ∧
    (completeWrite b s).swc = s.swc ∧
    (completeWrite b s).tmp = s.tmp ∧
    (completeWrite b s).elg = s.elg ∧
    (completeWrite b s).pending = s.pending := by
  unfold completeWrite
  try dsimp only
  (repeat' split) <;> simp [apply_ite State.now, apply_ite State.pins, apply_ite State.sdm, apply_ite State.ots, apply_ite State.piu, apply_ite State.acu, apply_ite State.tcu, apply_ite State.cda, apply_ite State.swc, apply_ite State.tmp, apply_ite State.elg, apply_ite State.pending]

@[simp] theorem frameErrorReply_frame (s : State) :
    (frameErrorReply s).now = s.now ∧
    (frameErrorReply s).pins = s.pins ∧
    (frameErrorReply s).rcbLow = s.rcbLow ∧
    (frameErrorReply s).sdm = s.sdm ∧
    (frameErrorReply s).ots = s.ots ∧
    (frameErrorReply s).piu = s.piu ∧
    (frameErrorReply s).acu = s.acu ∧
    (frameErrorReply s).tcu = s.tcu ∧
    (frameErrorReply s).cda = s.cda ∧
    (frameErrorReply s).swc = s.swc ∧
    (frameErrorReply s).tmp = s.tmp ∧
    (frameErrorReply s).elg = s.elg ∧
    (frameErrorReply s).rpu = s.rpu ∧
    (frameErrorReply s).pending = s.pending := by
  unfold frameErrorReply
  try dsimp only
  (repeat' split) <;> simp [apply_ite State.now, apply_ite State.pins, apply_ite State.sdm, apply_ite State.ots, apply_ite State.piu, apply_ite State.acu, apply_ite State.tcu, apply_ite State.cda, apply_ite State.swc, apply_ite State.tmp, apply_ite State.elg, apply_ite State.rpu, apply_ite State.pending]

@[simp] theorem unknownKindReply_frame (s : State) :
    (unknownKindReply s).now = s.now ∧
    (unknownKindReply s).pins = s.pins ∧
    (unknownKindReply s).rcbLow = s.rcbLow ∧
    (unknownKindReply s).sdm = s.sdm ∧
    (unknownKindReply s).ots = s.ots ∧
    (unknownKindReply s).piu = s.piu ∧
    (unknownKindReply s).acu = s.acu ∧
    (unknownKindReply s).tcu = s.tcu ∧
    (unknownKindReply s).cda = s.cda ∧
    (unknownKindReply s).swc = s.swc ∧
    (unknownKindReply s).tmp = s.tmp ∧
    (unknownKindReply s).elg = s.elg ∧
    (unknownKindReply s).rpu = s.rpu ∧
    (unknownKindReply s).pending = s.pending := by
  unfold unknownKindReply
  try dsimp only
  (repeat' split) <;> simp [apply_ite State.now, apply_ite State.pins, apply_ite State.sdm, apply_ite State.ots, apply_ite State.piu, apply_ite State.acu, apply_ite State.tcu, apply_ite State.cda, apply_ite State.swc, apply_ite State.tmp, apply_ite State.elg, apply_ite State.rpu, apply_ite State.pending]

@[simp] theorem enterWorking_frame (s : State) :
    (enterWorking s).now = s.now ∧
    (enterWorking s).pins = s.pins ∧
    (enterWorking s).rcbLow = s.rcbLow ∧
    (enterWorking s).sdm = s.sdm ∧
    (enterWorking s).ots = s.ots ∧
    (enterWorking s).piu = s.piu ∧
    (enterWorking s).acu = s.acu ∧
    (enterWorking s).tcu = s.tcu ∧
    (enterWorking s).cda = s.cda ∧
    (enterWorking s).swc = s.swc ∧
    (enterWorking s).tmp = s.tmp ∧
    (enterWorking s).elg = s.elg ∧
    (enterWorking s).rpu = s.rpu ∧
    (enterWorking s).pending = s.pending := by
  unfold enterWorking
  try dsimp only
  (repeat' split) <;> simp [apply_ite State.now, apply_ite State.pins, apply_ite State.sdm, apply_ite State.ots, apply_ite State.piu, apply_ite State.acu, apply_ite State.tcu, apply_ite State.cda, apply_ite State.swc, apply_ite State.tmp, apply_ite State.elg, apply_ite State.rpu, apply_ite State.pending]

@[simp] theorem leaveReceiving_frame (s : State) :
    (leaveReceiving s).now = s.now ∧
    (leaveReceiving s).pins = s.pins ∧
    (leaveReceiving s).rcbLow = s.rcbLow ∧
    (leaveReceiving s).sdm = s.sdm ∧
    (leaveReceiving s).ots = s.ots ∧
    (leaveReceiving s).piu = s.piu ∧
    (leaveReceiving s).acu = s.acu ∧
    (leaveReceiving s).tcu = s.tcu ∧
    (leaveReceiving s).cda = s.cda ∧
    (leaveReceiving s).swc = s.swc ∧
    (leaveReceiving s).tmp = s.tmp ∧
    (leaveReceiving s).elg = s.elg ∧
    (leaveReceiving s).rpu = s.rpu ∧
    (leaveReceiving s).pending = s.pending := by
  unfold leaveReceiving
  try dsimp only
  (repeat' split) <;> simp [apply_ite State.now, apply_ite State.pins, apply_ite State.sdm, apply_ite State.ots, apply_ite State.piu, apply_ite State.acu, apply_ite State.tcu, apply_ite State.cda, apply_ite State.swc, apply_ite State.tmp, apply_ite State.elg, apply_ite State.rpu, apply_ite State.pending]

@[simp] theorem readReply_frame (n : Nat) (s : State) :
    (readReply n s).now = s.now ∧
    (readReply n s).pins = s.pins ∧
    (readReply n s).rcbLow = s.rcbLow ∧
    (readReply n s).sdm = s.sdm ∧
    (readReply n s).ots = s.ots ∧
    (readReply n s).piu = s.piu ∧
    (readReply n s).acu = s.acu ∧
    (readReply n s).tcu = s.tcu ∧
    (readReply n s).cda = s.cda ∧
    (readReply n s).swc = s.swc ∧
    (readReply n s).tmp = s.tmp ∧
    (readReply n s).elg = s.elg ∧
    (readReply n s).rpu = s.rpu ∧
    (readReply n s).pending = s.pending := by
  unfold readReply
  try dsimp only
  (repeat' split) <;> simp [apply_ite State.now, apply_ite State.pins, apply_ite State.sdm, apply_ite State.ots, apply_ite State.piu, apply_ite State.acu, apply_ite State.tcu, apply_ite State.cda, apply_ite State.swc, apply_ite State.tmp, apply_ite State.elg, apply_ite State.rpu, apply_ite State.pending]

/-- How long the hold timer stood still touches the link alone. -/
theorem observe_paused (m : Moment) (n : Nat) (s : State) : ∃ l, observe m n s = { observe m 0 s with lnk := l } := by
  unfold observe
  dsimp only
  split
  · exact ⟨_, rfl⟩
  · exact ⟨_, rfl⟩

/-- A repeated START touches the link alone. -/
theorem restart_link (s : State) : ∃ l, restart s = { s with lnk := l } := by
  unfold restart
  split
  exacts [⟨_, rfl⟩, ⟨_, rfl⟩]

/-- A read of the reply touches the link alone. -/
theorem readReply_link (n : Nat) (s : State) : ∃ l, readReply n s = { s with lnk := l } := by
  unfold readReply
  dsimp only
  split
  · exact ⟨_, rfl⟩
  · split
    exacts [⟨_, rfl⟩, ⟨_, rfl⟩]

/-- A write that is addressed changes nothing beside the link. -/
theorem writeAddressed_link (m : Moment) (a : BitVec 7) (s : State) :
    ∃ l, writeAddressed m a s = { observe m 0 s with lnk := l } := by
  obtain ⟨l, h⟩ := restart_link (observe m 0 s)
  unfold writeAddressed
  rw [h]
  generalize observe m 0 s = u
  dsimp only
  split
  · split
    exacts [⟨_, rfl⟩, ⟨_, rfl⟩]
  · exact ⟨_, rfl⟩

/-- A read changes nothing beside the link. -/
theorem readTransaction_link (m : Moment) (a : BitVec 7) (n d : Nat) (s : State) :
    ∃ l, readTransaction m a n d s = { observe m 0 s with lnk := l } := by
  obtain ⟨l1, h1⟩ := observe_paused m (holdPause m a d s) s
  obtain ⟨l2, h2⟩ := restart_link (observe m (holdPause m a d s) s)
  unfold readTransaction
  rw [h2, h1]
  generalize observe m 0 s = u
  dsimp only
  split
  · split
    · split
      · exact ⟨_, rfl⟩
      · obtain ⟨l, h⟩ := readReply_link n { u with lnk := l2 }
        exact ⟨l, h⟩
      · exact ⟨_, rfl⟩
      · exact ⟨_, rfl⟩
    · exact ⟨_, rfl⟩
  · exact ⟨_, rfl⟩

/-- The clock-low timer's end changes nothing beside the link. -/
theorem clockLowTimeout_link (m : Moment) (d : Nat) (s : State) :
    ∃ l, clockLowTimeout m d s = { observe m 0 s with lnk := l } := by
  unfold clockLowTimeout
  dsimp only
  have key : ∀ n, ∃ l, (if (observe m n s).lnk.state = .receiving ∧ (observe m n s).lnk.clockLow = some 0 then
      leaveReceiving (observe m n s) else observe m n s) = { observe m 0 s with lnk := l } := by
    intro n
    obtain ⟨l, h⟩ := observe_paused m n s
    rw [h]
    split
    exacts [⟨_, rfl⟩, ⟨_, rfl⟩]
  exact key _

@[simp] theorem writeAddressed_frame (m : Moment) (a : BitVec 7) (s : State) :
    (writeAddressed m a s).ots = s.ots ∧
    (writeAddressed m a s).pending = s.pending := by
  obtain ⟨l, h⟩ := writeAddressed_link m a s
  simp [h]

@[simp] theorem readTransaction_frame (m : Moment) (a : BitVec 7) (n d : Nat) (s : State) :
    (readTransaction m a n d s).ots = s.ots ∧
    (readTransaction m a n d s).pending = s.pending := by
  obtain ⟨l, h⟩ := readTransaction_link m a n d s
  simp [h]

@[simp] theorem clockLowTimeout_frame (m : Moment) (d : Nat) (s : State) :
    (clockLowTimeout m d s).ots = s.ots ∧
    (clockLowTimeout m d s).pending = s.pending := by
  obtain ⟨l, h⟩ := clockLowTimeout_link m d s
  simp [h]

end Sys2Proof.Machine
end

