-- ==== Sys2Proof/Laws/FramesPower.lean ====
section
/-! SUPPORT. The frame of each operation of the clock requests, commissioning, the supply and KEYS: one lemma for each,
naming every block of the state that it leaves as it was. -/

set_option linter.all false

namespace Sys2Proof.Machine

@[simp] theorem applyTrim_frame (t : Int) (s : State) :
    (applyTrim t s).now = s.now ∧
    (applyTrim t s).pins = s.pins ∧
    (applyTrim t s).rcbLow = s.rcbLow ∧
    (applyTrim t s).sdm = s.sdm ∧
    (applyTrim t s).ots = s.ots ∧
    (applyTrim t s).elg = s.elg ∧
    (applyTrim t s).lnk = s.lnk ∧
    (applyTrim t s).pending = s.pending := by
  unfold applyTrim
  try dsimp only
  (repeat' split) <;> simp [apply_ite State.now, apply_ite State.pins, apply_ite State.sdm, apply_ite State.ots, apply_ite State.elg, apply_ite State.lnk, apply_ite State.pending]

@[simp] theorem writeClock_frame (c : Nat) (s : State) :
    (writeClock c s).now = s.now ∧
    (writeClock c s).pins = s.pins ∧
    (writeClock c s).rcbLow = s.rcbLow ∧
    (writeClock c s).sdm = s.sdm ∧
    (writeClock c s).ots = s.ots ∧
    (writeClock c s).elg = s.elg ∧
    (writeClock c s).lnk = s.lnk ∧
    (writeClock c s).pending = s.pending := by
  unfold writeClock
  try dsimp only
  (repeat' split) <;> simp [apply_ite State.now, apply_ite State.pins, apply_ite State.sdm, apply_ite State.ots, apply_ite State.elg, apply_ite State.lnk, apply_ite State.pending]

@[simp] theorem lockEvent_frame (s : State) :
    (lockEvent s).now = s.now ∧
    (lockEvent s).pins = s.pins ∧
    (lockEvent s).rcbLow = s.rcbLow ∧
    (lockEvent s).sdm = s.sdm ∧
    (lockEvent s).acu = s.acu ∧
    (lockEvent s).tcu = s.tcu ∧
    (lockEvent s).cda = s.cda ∧
    (lockEvent s).lnk = s.lnk ∧
    (lockEvent s).pending = s.pending := by
  unfold lockEvent
  try dsimp only
  (repeat' split) <;> simp [apply_ite State.now, apply_ite State.pins, apply_ite State.sdm, apply_ite State.acu, apply_ite State.tcu, apply_ite State.cda, apply_ite State.lnk, apply_ite State.pending]

@[simp] theorem lossEvent_frame (s : State) :
    (lossEvent s).now = s.now ∧
    (lossEvent s).pins = s.pins ∧
    (lossEvent s).rcbLow = s.rcbLow ∧
    (lossEvent s).acu = s.acu ∧
    (lossEvent s).tcu = s.tcu ∧
    (lossEvent s).lnk = s.lnk ∧
    (lossEvent s).pending = s.pending := by
  unfold lossEvent
  try dsimp only
  (repeat' split) <;> simp [apply_ite State.now, apply_ite State.pins, apply_ite State.acu, apply_ite State.tcu, apply_ite State.lnk, apply_ite State.pending]

@[simp] theorem settleBurn_frame (s : State) :
    (settleBurn s).now = s.now ∧
    (settleBurn s).pins = s.pins ∧
    (settleBurn s).rcbLow = s.rcbLow ∧
    (settleBurn s).acu = s.acu ∧
    (settleBurn s).tcu = s.tcu ∧
    (settleBurn s).lnk = s.lnk ∧
    (settleBurn s).pending = s.pending := by
  unfold settleBurn
  try dsimp only
  (repeat' split) <;> simp [apply_ite State.now, apply_ite State.pins, apply_ite State.acu, apply_ite State.tcu, apply_ite State.lnk, apply_ite State.pending]

@[simp] theorem beginBurn_frame (b : BurnField) (s : State) :
    (beginBurn b s).now = s.now ∧
    (beginBurn b s).pins = s.pins ∧
    (beginBurn b s).rcbLow = s.rcbLow ∧
    (beginBurn b s).sdm = s.sdm ∧
    (beginBurn b s).piu = s.piu ∧
    (beginBurn b s).acu = s.acu ∧
    (beginBurn b s).tcu = s.tcu ∧
    (beginBurn b s).cda = s.cda ∧
    (beginBurn b s).swc = s.swc ∧
    (beginBurn b s).tmp = s.tmp ∧
    (beginBurn b s).elg = s.elg ∧
    (beginBurn b s).rpu = s.rpu ∧
    (beginBurn b s).lnk = s.lnk ∧
    (beginBurn b s).pending = s.pending := by
  unfold beginBurn
  try dsimp only
  (repeat' split) <;> simp [apply_ite State.now, apply_ite State.pins, apply_ite State.sdm, apply_ite State.piu, apply_ite State.acu, apply_ite State.tcu, apply_ite State.cda, apply_ite State.swc, apply_ite State.tmp, apply_ite State.elg, apply_ite State.rpu, apply_ite State.lnk, apply_ite State.pending]

@[simp] theorem answerBurn_frame (r : Request) (s : State) :
    (answerBurn r s).now = s.now ∧
    (answerBurn r s).pins = s.pins ∧
    (answerBurn r s).rcbLow = s.rcbLow ∧
    (answerBurn r s).sdm = s.sdm ∧
    (answerBurn r s).ots = s.ots ∧
    (answerBurn r s).piu = s.piu ∧
    (answerBurn r s).acu = s.acu ∧
    (answerBurn r s).tcu = s.tcu ∧
    (answerBurn r s).cda = s.cda ∧
    (answerBurn r s).swc = s.swc ∧
    (answerBurn r s).tmp = s.tmp ∧
    (answerBurn r s).elg = s.elg ∧
    (answerBurn r s).rpu = s.rpu ∧
    (answerBurn r s).pending = s.pending := by
  unfold answerBurn
  try dsimp only
  (repeat' split) <;> simp [apply_ite State.now, apply_ite State.pins, apply_ite State.sdm, apply_ite State.ots, apply_ite State.piu, apply_ite State.acu, apply_ite State.tcu, apply_ite State.cda, apply_ite State.swc, apply_ite State.tmp, apply_ite State.elg, apply_ite State.rpu, apply_ite State.pending]

@[simp] theorem otsBurnEnd_frame (s : State) :
    (otsBurnEnd s).now = s.now ∧
    (otsBurnEnd s).pins = s.pins ∧
    (otsBurnEnd s).rcbLow = s.rcbLow ∧
    (otsBurnEnd s).sdm = s.sdm ∧
    (otsBurnEnd s).piu = s.piu ∧
    (otsBurnEnd s).acu = s.acu ∧
    (otsBurnEnd s).tcu = s.tcu ∧
    (otsBurnEnd s).cda = s.cda ∧
    (otsBurnEnd s).swc = s.swc ∧
    (otsBurnEnd s).tmp = s.tmp ∧
    (otsBurnEnd s).elg = s.elg ∧
    (otsBurnEnd s).rpu = s.rpu ∧
    (otsBurnEnd s).pending = s.pending := by
  unfold otsBurnEnd
  try dsimp only
  (repeat' split) <;> simp [apply_ite State.now, apply_ite State.pins, apply_ite State.sdm, apply_ite State.piu, apply_ite State.acu, apply_ite State.tcu, apply_ite State.cda, apply_ite State.swc, apply_ite State.tmp, apply_ite State.elg, apply_ite State.rpu, apply_ite State.pending]

@[simp] theorem lockBurnEnd_frame (s : State) :
    (lockBurnEnd s).now = s.now ∧
    (lockBurnEnd s).pins = s.pins ∧
    (lockBurnEnd s).rcbLow = s.rcbLow ∧
    (lockBurnEnd s).sdm = s.sdm ∧
    (lockBurnEnd s).acu = s.acu ∧
    (lockBurnEnd s).tcu = s.tcu ∧
    (lockBurnEnd s).cda = s.cda ∧
    (lockBurnEnd s).pending = s.pending := by
  unfold lockBurnEnd
  try dsimp only
  (repeat' split) <;> simp [apply_ite State.now, apply_ite State.pins, apply_ite State.sdm, apply_ite State.acu, apply_ite State.tcu, apply_ite State.cda, apply_ite State.pending]

@[simp] theorem enterStarting_frame (s : State) :
    (enterStarting s).now = s.now ∧
    (enterStarting s).pins = s.pins ∧
    (enterStarting s).rcbLow = s.rcbLow ∧
    (enterStarting s).ots = s.ots ∧
    (enterStarting s).acu = s.acu ∧
    (enterStarting s).elg = s.elg ∧
    (enterStarting s).pending = s.pending := by
  unfold enterStarting
  try dsimp only
  (repeat' split) <;> simp [apply_ite State.now, apply_ite State.pins, apply_ite State.ots, apply_ite State.acu, apply_ite State.elg, apply_ite State.pending]

@[simp] theorem enterBattery_frame (s : State) :
    (enterBattery s).now = s.now ∧
    (enterBattery s).pins = s.pins ∧
    (enterBattery s).rcbLow = s.rcbLow ∧
    (enterBattery s).ots = s.ots ∧
    (enterBattery s).acu = s.acu ∧
    (enterBattery s).elg = s.elg ∧
    (enterBattery s).pending = s.pending := by
  unfold enterBattery
  try dsimp only
  (repeat' split) <;> simp [apply_ite State.now, apply_ite State.pins, apply_ite State.ots, apply_ite State.acu, apply_ite State.elg, apply_ite State.pending]

@[simp] theorem enterOff_frame (s : State) :
    (enterOff s).now = s.now ∧
    (enterOff s).pins = s.pins ∧
    (enterOff s).rcbLow = s.rcbLow ∧
    (enterOff s).pending = s.pending := by
  unfold enterOff
  try dsimp only
  (repeat' split) <;> simp [apply_ite State.now, apply_ite State.pins, apply_ite State.pending]

@[simp] theorem enterHoldup_frame (s : State) :
    (enterHoldup s).now = s.now ∧
    (enterHoldup s).pins = s.pins ∧
    (enterHoldup s).rcbLow = s.rcbLow ∧
    (enterHoldup s).ots = s.ots ∧
    (enterHoldup s).piu = s.piu ∧
    (enterHoldup s).acu = s.acu ∧
    (enterHoldup s).tcu = s.tcu ∧
    (enterHoldup s).swc = s.swc ∧
    (enterHoldup s).tmp = s.tmp ∧
    (enterHoldup s).elg = s.elg ∧
    (enterHoldup s).rpu = s.rpu ∧
    (enterHoldup s).lnk = s.lnk ∧
    (enterHoldup s).pending = s.pending := by
  unfold enterHoldup
  try dsimp only
  (repeat' split) <;> simp [apply_ite State.now, apply_ite State.pins, apply_ite State.ots, apply_ite State.piu, apply_ite State.acu, apply_ite State.tcu, apply_ite State.swc, apply_ite State.tmp, apply_ite State.elg, apply_ite State.rpu, apply_ite State.lnk, apply_ite State.pending]

@[simp] theorem pfwFall_frame (m : Moment) (s : State) :
    (pfwFall m s).ots = s.ots ∧
    (pfwFall m s).acu = s.acu ∧
    (pfwFall m s).elg = s.elg ∧
    (pfwFall m s).pending = s.pending := by
  unfold pfwFall
  try dsimp only
  (repeat' split) <;> simp [apply_ite State.ots, apply_ite State.acu, apply_ite State.elg, apply_ite State.pending]

@[simp] theorem retire_frame (s : State) :
    (retire s).now = s.now ∧
    (retire s).pins = s.pins ∧
    (retire s).rcbLow = s.rcbLow ∧
    (retire s).ots = s.ots ∧
    (retire s).acu = s.acu ∧
    (retire s).tcu = s.tcu ∧
    (retire s).lnk = s.lnk ∧
    (retire s).pending = s.pending := by
  unfold retire
  try dsimp only
  (repeat' split) <;> simp [apply_ite State.now, apply_ite State.pins, apply_ite State.ots, apply_ite State.acu, apply_ite State.tcu, apply_ite State.lnk, apply_ite State.pending]

@[simp] theorem setStep_frame (x : StartStep) (s : State) :
    (setStep x s).now = s.now ∧
    (setStep x s).pins = s.pins ∧
    (setStep x s).rcbLow = s.rcbLow ∧
    (setStep x s).ots = s.ots ∧
    (setStep x s).piu = s.piu ∧
    (setStep x s).acu = s.acu ∧
    (setStep x s).tcu = s.tcu ∧
    (setStep x s).cda = s.cda ∧
    (setStep x s).swc = s.swc ∧
    (setStep x s).tmp = s.tmp ∧
    (setStep x s).elg = s.elg ∧
    (setStep x s).rpu = s.rpu ∧
    (setStep x s).lnk = s.lnk ∧
    (setStep x s).pending = s.pending := by
  unfold setStep
  try dsimp only
  (repeat' split) <;> simp [apply_ite State.now, apply_ite State.pins, apply_ite State.ots, apply_ite State.piu, apply_ite State.acu, apply_ite State.tcu, apply_ite State.cda, apply_ite State.swc, apply_ite State.tmp, apply_ite State.elg, apply_ite State.rpu, apply_ite State.lnk, apply_ite State.pending]

@[simp] theorem checkStep_frame (s : State) :
    (checkStep s).now = s.now ∧
    (checkStep s).pins = s.pins ∧
    (checkStep s).rcbLow = s.rcbLow ∧
    (checkStep s).acu = s.acu ∧
    (checkStep s).tcu = s.tcu ∧
    (checkStep s).lnk = s.lnk ∧
    (checkStep s).pending = s.pending := by
  unfold checkStep
  try dsimp only
  (repeat' split) <;> simp [apply_ite State.now, apply_ite State.pins, apply_ite State.acu, apply_ite State.tcu, apply_ite State.lnk, apply_ite State.pending]

@[simp] theorem catchUpStep_frame (s : State) :
    (catchUpStep s).now = s.now ∧
    (catchUpStep s).pins = s.pins ∧
    (catchUpStep s).rcbLow = s.rcbLow ∧
    (catchUpStep s).ots = s.ots ∧
    (catchUpStep s).elg = s.elg ∧
    (catchUpStep s).lnk = s.lnk ∧
    (catchUpStep s).pending = s.pending := by
  unfold catchUpStep
  try dsimp only
  (repeat' split) <;> simp [apply_ite State.now, apply_ite State.pins, apply_ite State.ots, apply_ite State.elg, apply_ite State.lnk, apply_ite State.pending]

@[simp] theorem endSteps_frame (s : State) :
    (endSteps s).now = s.now ∧
    (endSteps s).pins = s.pins ∧
    (endSteps s).rcbLow = s.rcbLow ∧
    (endSteps s).ots = s.ots ∧
    (endSteps s).piu = s.piu ∧
    (endSteps s).acu = s.acu ∧
    (endSteps s).tcu = s.tcu ∧
    (endSteps s).swc = s.swc ∧
    (endSteps s).tmp = s.tmp ∧
    (endSteps s).elg = s.elg ∧
    (endSteps s).rpu = s.rpu ∧
    (endSteps s).lnk = s.lnk ∧
    (endSteps s).pending = s.pending := by
  unfold endSteps
  try dsimp only
  (repeat' split) <;> simp [apply_ite State.now, apply_ite State.pins, apply_ite State.ots, apply_ite State.piu, apply_ite State.acu, apply_ite State.tcu, apply_ite State.swc, apply_ite State.tmp, apply_ite State.elg, apply_ite State.rpu, apply_ite State.lnk, apply_ite State.pending]

@[simp] theorem takeStep_frame (s : State) :
    (takeStep s).now = s.now ∧
    (takeStep s).pins = s.pins ∧
    (takeStep s).rcbLow = s.rcbLow ∧
    (takeStep s).lnk = s.lnk ∧
    (takeStep s).pending = s.pending := by
  unfold takeStep
  try dsimp only
  (repeat' split) <;> simp [apply_ite State.now, apply_ite State.pins, apply_ite State.lnk, apply_ite State.pending]

@[simp] theorem takeSteps_frame (n : Nat) (s : State) :
    (takeSteps n s).now = s.now ∧
    (takeSteps n s).pins = s.pins ∧
    (takeSteps n s).rcbLow = s.rcbLow ∧
    (takeSteps n s).lnk = s.lnk ∧
    (takeSteps n s).pending = s.pending := by
  induction n generalizing s with
  | zero => simp [takeSteps]
  | succ n ih =>
    rw [takeSteps]
    split
    · simp [ih]
    · simp

@[simp] theorem takeEvent_frame (s : State) (e : KeysEvent) :
    (takeEvent s e).ots = s.ots ∧
    (takeEvent s e).pending = s.pending := by
  unfold takeEvent
  try dsimp only
  (repeat' split) <;> simp [apply_ite State.ots, apply_ite State.pending]

@[simp] theorem takeEvents_frame (es : List (Nat × KeysEvent)) (s : State) :
    (takeEvents es s).ots = s.ots ∧
    (takeEvents es s).pending = s.pending := by
  unfold takeEvents
  induction es generalizing s with
  | nil => simp
  | cons x xs ih => simp only [List.foldl_cons, ih]; simp

@[simp] theorem takeSymbols_frame (xs : List Symbol) (i : Nat) (es : List (Nat × KeysEvent)) (s : State) :
    ((takeSymbols i xs es s).state).ots = s.ots ∧
    ((takeSymbols i xs es s).state).pending = s.pending := by
  induction xs generalizing i es s with
  | nil => simp [takeSymbols]
  | cons x xs ih =>
    have h := takeSymbol_frame x (takeEvents (es.takeWhile fun e => decide (e.1 ≤ i)) s)
    simp only [takeSymbols]
    split
    · rename_i hs; rw [hs] at h; simp at h; simp [h]
    · rename_i hs; rw [hs] at h; simp at h; simp [h, ih]

end Sys2Proof.Machine
end

