-- ==== Sys2Proof/Laws/Account.lean ====
section
/-! SUPPORT. The laws of the account record under each claim (R21, R23, R24), and what `claim` does to it. -/

namespace Sys2Proof.Machine

/-- The laws of a record with no emergency credit taken. -/
theorem Account.lawful_untaken (b : Int) (r l t c o cr d : Nat) (al : Bool) :
    (Account.mk b r false l t c o cr d al).Lawful ↔
      0 ≤ b ∧ (0 < r → b = 0) ∧ b - r = o + cr - d := by
  simp [Account.Lawful, Account.floor]

/-- The laws of a record with emergency credit taken. -/
theorem Account.lawful_taken (b : Int) (r l t c o cr d : Nat) (al : Bool) :
    (Account.mk b r true l t c o cr d al).Lawful ↔
      -((l : Int) * 10000) ≤ b ∧ (0 < r → b = -((l : Int) * 10000)) ∧ b - r = o + cr - d := by
  simp [Account.Lawful, Account.floor, Config.hundredth]

/-- A charge keeps the laws (R26). -/
theorem Account.Lawful.charge {a : Account} (h : a.Lawful) (x : Nat) : (a.charge x).Lawful := by
  obtain ⟨b, r, t, l, th, c, o, cr, d, al⟩ := a
  cases t
  · rw [Account.lawful_untaken] at h
    simp only [Account.charge, Account.floor, Account.lawful_untaken]
    simp
    omega
  · rw [Account.lawful_taken] at h
    simp only [Account.charge, Account.floor, Account.lawful_taken]
    simp [Config.hundredth]
    omega

/-- A credit keeps the laws (R29, R30). -/
theorem Account.Lawful.credit {a : Account} (h : a.Lawful) (x : Nat) : (a.credit x).Lawful := by
  obtain ⟨b, r, t, l, th, c, o, cr, d, al⟩ := a
  cases t
  · rw [Account.lawful_untaken] at h
    simp only [Account.credit, Account.payment, Bool.false_and, Account.lawful_untaken]
    omega
  · rw [Account.lawful_taken] at h
    by_cases hb : 0 < b + ((x - min x r : Nat) : Int)
    · simp only [Account.credit, Account.payment, hb, decide_true, Bool.not_true, Bool.and_false, Account.lawful_untaken]
      omega
    · simp only [Account.credit, Account.payment, hb, decide_false, Bool.not_false, Bool.and_true, Account.lawful_taken]
      omega

/-- Moving arrears keeps the laws when the balance is at or above the floor and the totals hold (R33, R36). -/
theorem Account.Lawful.moveArrears {a : Account} (h1 : a.floor ≤ a.balance)
    (h3 : a.balance - (a.arrears : Int) = (a.opening : Int) + (a.credited : Int) - (a.debited : Int)) :
    a.moveArrears.Lawful := by
  have hf : a.moveArrears.floor = a.floor := rfl
  unfold Account.Lawful
  rw [hf]
  simp only [Account.moveArrears]
  omega

/-- Raising the balance to the floor keeps the laws when arrears stand at or below it (R35, R37). -/
theorem Account.Lawful.raiseToFloor {a : Account} (h2 : 0 < a.arrears → a.balance ≤ a.floor)
    (h3 : a.balance - (a.arrears : Int) = (a.opening : Int) + (a.credited : Int) - (a.debited : Int)) :
    a.raiseToFloor.Lawful := by
  have hf : a.raiseToFloor.floor = a.floor := rfl
  unfold Account.Lawful
  rw [hf]
  simp only [Account.raiseToFloor]
  omega

/-- Taking emergency credit keeps the laws (R33). -/
theorem Account.Lawful.takeEmergency {a : Account} (h : a.Lawful) (ht : a.taken = false) :
    a.takeEmergency.Lawful := by
  obtain ⟨b, r, t, l, th, c, o, cr, d, al⟩ := a
  subst ht
  rw [Account.lawful_untaken] at h
  refine Account.Lawful.moveArrears ?_ h.2.2
  simp [Account.floor, Config.hundredth]
  omega

/-- A new limit keeps the laws (R34 to R37). -/
theorem Account.Lawful.setLimit {a : Account} (h : a.Lawful) (v : Nat) : (a.setLimit v).Lawful := by
  obtain ⟨b, r, t, l, th, c, o, cr, d, al⟩ := a
  cases t
  · rw [Account.lawful_untaken] at h
    simp only [Account.setLimit, Bool.not_false, Bool.true_or, if_true, Account.lawful_untaken]
    exact h
  · rw [Account.lawful_taken] at h
    simp only [Account.setLimit, Bool.not_true, Bool.false_or, decide_eq_true_eq]
    split_ifs with c1 c2 c3
    · subst c1; rw [Account.lawful_taken]; exact h
    · refine Account.Lawful.raiseToFloor ?_ h.2.2
      simp [Account.floor]; omega
    · refine Account.Lawful.moveArrears ?_ h.2.2
      simp [Account.floor, Config.hundredth]; omega
    · refine Account.Lawful.raiseToFloor ?_ h.2.2
      simp [Account.floor, Config.hundredth]; omega

/-- The restarted account is lawful (R47). -/
theorem Account.Lawful.reopen (x : Nat) (a : Account) : (a.reopen x).Lawful := by
  simp [Account.Lawful, Account.reopen, Account.floor]

/-- The settings keep the laws (R48). -/
theorem Account.Lawful.setSettings {a : Account} (h : a.Lawful) (l t c : Nat) : (a.setSettings l t c).Lawful :=
  h.setLimit l

/-- The alarm is no part of the laws. -/
theorem Account.lawful_alarmAfter (a b : Account) : (a.alarmAfter b).Lawful ↔ b.Lawful := by
  unfold Account.alarmAfter
  split <;> simp [Account.Lawful, Account.floor]

/-- The account after a retention start is lawful (R20). -/
theorem Account.Lawful.retentionStart : Account.retentionStart.Lawful := by
  simp [Account.Lawful, Account.retentionStart, Account.floor]

/-- The record after a claim (R25, R40). -/
@[simp] theorem claim_acu (f : Account → Account) (s : State) : (claim f s).acu = s.acu.alarmAfter (f s.acu) := by
  unfold claim
  simp only []
  split <;> (try split) <;> simp

/-- A claim that keeps the laws of the record keeps those of the state. -/
theorem claim_lawful {f : Account → Account} {s : State} (h : (f s.acu).Lawful) : (claim f s).acu.Lawful := by
  rw [claim_acu, Account.lawful_alarmAfter]
  exact h

end Sys2Proof.Machine
end

