-- ==== Sys2Proof/Laws/Notices.lean ====
section
/-! SUPPORT. What the operations of the switch, a claim and the boundaries of days do to the Report Unit: the notices that
they set, and nothing else (R44, R69, R70, R135). -/

namespace Sys2Proof.Machine

/-- The Report Unit with a notice in its set. -/
def Rpu.withNotice (n : Notice) (x : Rpu) : Rpu := { x with notices := x.notices ||| noticeBit n }

theorem notify_rpu (n : Notice) (s : State) :
    (notify n s).rpu = if mainPowered s.sdm.power then s.rpu.withNotice n else s.rpu := by
  unfold notify
  split <;> rfl

/-- One notice joins the set, and no other changes. -/
theorem Rpu.withNotice_bit (n : Notice) (x : Rpu) (i : Nat) :
    (x.withNotice n).notices.getLsbD i = (x.notices.getLsbD i || i == noticeNumber n) := by
  have hi : (noticeBit n).getLsbD i = (i == noticeNumber n) := by
    by_cases h : i < 10
    · interval_cases i <;> cases n <;> rfl
    · rw [BitVec.getLsbD_of_ge _ _ (by omega)]
      have : noticeNumber n < 10 := by cases n <;> decide
      simp
      omega
  simp [Rpu.withNotice, hi]

/-- The Report Unit of one state is that of another, but for SWITCH, which may have joined the notice set (R135). -/
def SwitchNoticed (x y : Rpu) : Prop := y = x ∨ y = x.withNotice .switch

theorem SwitchNoticed.refl (x : Rpu) : SwitchNoticed x x := .inl rfl

theorem SwitchNoticed.of_eq {x y : Rpu} (h : y = x) : SwitchNoticed x y := .inl h

theorem SwitchNoticed.trans {x y z : Rpu} (h : SwitchNoticed x y) (h' : SwitchNoticed y z) : SwitchNoticed x z := by
  rcases h with rfl | rfl <;> rcases h' with rfl | rfl
  · exact .inl rfl
  · exact .inr rfl
  · exact .inr rfl
  · refine .inr ?_
    simp [Rpu.withNotice, BitVec.or_assoc]

/-- Every other notice stands as it did. -/
theorem SwitchNoticed.bit {x y : Rpu} (h : SwitchNoticed x y) {i : Nat} (hi : i ≠ 3) :
    y.notices.getLsbD i = x.notices.getLsbD i := by
  rcases h with rfl | rfl
  · rfl
  · rw [Rpu.withNotice_bit]
    simp [noticeNumber, hi]

theorem notify_switchNoticed (s : State) : SwitchNoticed s.rpu (notify .switch s).rpu := by
  rw [notify_rpu]
  split
  exacts [.inr rfl, .inl rfl]

theorem enterSwitch_noticed (x : SwitchState) (s : State) : SwitchNoticed s.rpu (enterSwitch x s).rpu := by
  have hp : ∀ (a b : SwitchState) (u : State), (piuSwitch a b u).rpu = u.rpu := by
    intro a b u
    unfold piuSwitch
    split
    · dsimp only
      split <;> simp [fall, setLatch]
    · rfl
  have ht : ∀ (a : SwitchState) (u : State), (tmpSwitch a u).rpu = u.rpu := by
    intro a u
    unfold tmpSwitch
    dsimp only
    split <;> simp [fall, setLatch]
  unfold enterSwitch
  split
  · exact .refl _
  · simp only [ht, hp]
    exact notify_switchNoticed (s.setSwc _)

theorem beginOperation_noticed (t : Target) (s : State) : SwitchNoticed s.rpu (beginOperation t s).rpu := by
  have h := enterSwitch_noticed (movingState t) (s.setSwc { s.swc with op := some ⟨t, 1, .rest, none, 0⟩ })
  simpa [beginOperation] using h

theorem changeEntry_noticed (c : Cause) (e : Option Entry) (s : State) :
    SwitchNoticed s.rpu (changeEntry c e s).rpu := by
  have ha : ∀ u : State, SwitchNoticed u.rpu (activeAppeared u).rpu := by
    intro u
    unfold activeAppeared
    split
    · split
      exacts [.refl _, beginOperation_noticed _ _]
    exacts [.of_eq (by simp), enterSwitch_noticed _ _, .refl _, .refl _, .refl _, .refl _]
  have hl : ∀ u : State, SwitchNoticed u.rpu (lastActiveLeft c u).rpu := by
    intro u
    unfold lastActiveLeft
    split
    · exact .of_eq (by simp)
    · split
      · split
        exacts [.refl _, beginOperation_noticed _ _]
      · exact enterSwitch_noticed _ _
    all_goals exact .refl _
  have h1 : SwitchNoticed s.rpu (if causeState (s.swc.table.get c) = causeState e then
      s.setSwc { s.swc with table := s.swc.table.set c e }
      else notify .switch (s.setSwc { s.swc with table := s.swc.table.set c e })).rpu := by
    split
    exacts [.refl _, notify_switchNoticed (s.setSwc _)]
  unfold changeEntry
  dsimp only
  split
  exacts [h1.trans (ha _), h1.trans (hl _), h1]

theorem evaluateTamper_noticed (s : State) : SwitchNoticed s.rpu (evaluateTamper s).rpu := by
  unfold evaluateTamper
  split
  exacts [changeEntry_noticed _ _ _, changeEntry_noticed _ _ _, .refl _]

theorem evaluateCredit_noticed (s : State) : SwitchNoticed s.rpu (evaluateCredit s).rpu := by
  unfold evaluateCredit
  split
  exacts [changeEntry_noticed _ _ _, changeEntry_noticed _ _ _, .refl _]

theorem evaluateFriendly_noticed (s : State) : SwitchNoticed s.rpu (evaluateFriendly s).rpu := by
  unfold evaluateFriendly handFriendly
  dsimp only
  split
  · exact .refl _
  · split
    · split
      exacts [.refl _, changeEntry_noticed _ _ (s.setTcu _)]
    · exact .refl _

/-! ## Claims -/

/-- The Report Unit after a claim on `s` that leaves the account `b`, but for SWITCH (R44). -/
def claimedRpu (b : Account) (s : State) : Rpu :=
  if mainPowered s.sdm.power = true then
    if b.state = s.acu.state then if b.taken = s.acu.taken then s.rpu else s.rpu.withNotice .account
    else if b.state = .inCredit then s.rpu.withNotice .account
    else (s.rpu.withNotice .account).withNotice .lowAlarm
  else s.rpu

/-- The notices of a claim (R44). -/
theorem claim_noticed (f : Account → Account) (s : State) :
    SwitchNoticed (claimedRpu (f s.acu) s) (claim f s).rpu := by
  unfold claim claimedRpu
  dsimp only
  by_cases h : (f s.acu).state = s.acu.state
  · simp only [h, if_true]
    by_cases ht : (f s.acu).taken = s.acu.taken
    · simp only [ht, if_true]
      exact .of_eq (by simp)
    · simp only [ht, if_false, notify_rpu]
      exact .refl _
  · simp only [h, if_false]
    refine SwitchNoticed.trans (.of_eq ?_) (evaluateCredit_noticed _)
    by_cases hc : (f s.acu).state = .inCredit
    · simp [hc, notify_rpu]
    · simp only [hc, if_false, State.setSwc_fields, notify_rpu, notify_frame, State.setAcu_fields]
      split <;> rfl

/-- A claim that changes neither the state nor emergency_taken leaves the Report Unit and the switch as they were. -/
theorem claim_unchanged (f : Account → Account) {s : State} (h : (f s.acu).state = s.acu.state) :
    (claim f s).swc = s.swc ∧ ((f s.acu).taken = s.acu.taken → (claim f s).rpu = s.rpu) := by
  unfold claim
  dsimp only
  simp only [h, if_true]
  refine ⟨by split <;> simp, fun ht => by simp [ht]⟩

end Sys2Proof.Machine
end

