-- ==== Sys2Proof/Laws/Boundaries.lean ====
section
/-! SUPPORT. What the boundaries of days do (R68 to R71): the calendar's state, the account, the lockouts of the day, and
the notices, for one boundary and for all that are due. -/

namespace Sys2Proof.Machine

/-- The Tariff and Calendar Unit after a boundary (R69 to R71). -/
def tcuAfterBoundary (x : Tcu) : Tcu :=
  let day := x.lastDay + 1
  let activated := x.actPending = true ∧ x.actDay ≤ day
  { x with
    trimUsed := 0
    untilDay := x.untilDay.bind fun u => if u < day then none else some u
    active := if activated then x.passive else x.active
    actPending := if activated then false else x.actPending
    lastDay := day }

/-- The end of an override leaves the rest of the unit as it was (R71). -/
theorem boundaryOverride_tcu (day : Nat) (s : State) :
    (boundaryOverride day s).tcu =
      { s.tcu with untilDay := s.tcu.untilDay.bind fun u => if u < day then none else some u } := by
  unfold boundaryOverride
  split <;> rename_i h
  · split <;> rename_i hu
    · simp [h, hu]
    · have e : (s.tcu.untilDay.bind fun u => if u < day then none else some u) = s.tcu.untilDay := by simp [h, hu]
      rw [e]
  · have e : (s.tcu.untilDay.bind fun u => if u < day then none else some u) = s.tcu.untilDay := by simp [h]
    rw [e]

theorem boundaryOverride_noticed (day : Nat) (s : State) : SwitchNoticed s.rpu (boundaryOverride day s).rpu := by
  unfold boundaryOverride
  split
  · split
    · exact evaluateCredit_noticed (s.setTcu _)
    · exact .refl _
  · exact .refl _

theorem boundarySwitch_noticed (s : State) : SwitchNoticed s.rpu (boundarySwitch s).rpu := by
  unfold boundarySwitch
  dsimp only
  split
  · split
    · exact changeEntry_noticed _ _ (s.setSwc _)
    · exact .refl _
  · exact .refl _

theorem boundaryActivation_tcu (day : Nat) (s : State) :
    (boundaryActivation day s).tcu =
      { s.tcu with
        active := if s.tcu.actPending = true ∧ s.tcu.actDay ≤ day then s.tcu.passive else s.tcu.active
        actPending := if s.tcu.actPending = true ∧ s.tcu.actDay ≤ day then false else s.tcu.actPending } := by
  unfold boundaryActivation
  split
  · simp_all
  · simp_all

/-- One boundary: the calendar, the account and the acceptor (R69). -/
theorem deliverBoundary_fields (s : State) :
    (deliverBoundary s).tcu = tcuAfterBoundary s.tcu ∧
      (deliverBoundary s).acu = s.acu.alarmAfter (s.acu.charge (s.tcu.active.standing * 1000)) ∧
      (deliverBoundary s).cda = { s.cda with lockoutsToday := 0 } := by
  unfold deliverBoundary
  dsimp only
  refine ⟨?_, by simp [Config.milli], by simp⟩
  simp only [notify_frame, State.setTcu_fields, boundaryActivation_tcu, boundaryOverride_tcu, boundarySwitch_frame,
    State.setCda_fields, claim_frame, tcuAfterBoundary]

/-- One boundary with the MAIN domain powered: its notices, but for SWITCH (R44, R69, R70). -/
theorem deliverBoundary_bit (s : State) (h : mainPowered s.sdm.power = true) {i : Nat} (hi : i ≠ 3) :
    (deliverBoundary s).rpu.notices.getLsbD i =
      ((claimedRpu (s.acu.charge (s.tcu.active.standing * 1000)) s).notices.getLsbD i ||
        (i == 6 && decide (s.tcu.actPending = true ∧ s.tcu.actDay ≤ s.tcu.lastDay + 1)) || i == 7) := by
  unfold deliverBoundary
  dsimp only
  have h1 := claim_noticed (Account.charge (s.tcu.active.standing * Config.milli)) s
  generalize hs1 : claim (Account.charge (s.tcu.active.standing * Config.milli)) s = s1 at h1 ⊢
  have e1 : s1.tcu = s.tcu ∧ s1.sdm = s.sdm := by rw [← hs1]; simp
  have h2 := h1.trans (boundarySwitch_noticed (s1.setCda { s1.cda with lockoutsToday := 0 }))
  generalize hs2 : boundarySwitch (s1.setCda { s1.cda with lockoutsToday := 0 }) = s2 at h2 ⊢
  have e2 : s2.tcu = s.tcu ∧ s2.sdm = s.sdm := by rw [← hs2]; simpa using e1
  have h3 := h2.trans (boundaryOverride_noticed (s.tcu.lastDay + 1) (s2.setTcu { s2.tcu with trimUsed := 0 }))
  generalize hs3 : boundaryOverride (s.tcu.lastDay + 1) (s2.setTcu { s2.tcu with trimUsed := 0 }) = s3 at h3 ⊢
  have e3 : s3.sdm = s.sdm ∧ s3.tcu.actPending = s.tcu.actPending ∧ s3.tcu.actDay = s.tcu.actDay := by
    rw [← hs3, boundaryOverride_tcu]
    simp [e2]
  have hb := h3.bit hi
  rw [notify_rpu]
  simp only [State.setTcu_fields, boundaryActivation_frame, e3.1, h, if_true]
  rw [Rpu.withNotice_bit, boundaryActivation]
  simp only [e3.2]
  split <;> rename_i ha
  · rw [notify_rpu]
    simp only [State.setTcu_fields, e3.1, h, if_true, Rpu.withNotice_bit, hb]
    simp [ha, noticeNumber, Config.milli]
  · simp [hb, ha, noticeNumber, Config.milli]

/-- The charges of one boundary more (R69, R70). -/
theorem chargedDays_succ (x : Tcu) (n : Nat) (a : Account) :
    chargedDays x (n + 1) a =
      chargedDays (tcuAfterBoundary x) n (a.alarmAfter (a.charge (x.active.standing * 1000))) := by
  unfold chargedDays
  rw [List.range_succ_eq_map, List.foldl_cons, List.foldl_map]
  simp only [Nat.lt_irrefl, false_and, if_false]
  refine List.foldl_ext _ _ _ fun b i _ => ?_
  have : (if 0 < i.succ ∧ x.actPending = true ∧ x.actDay ≤ x.lastDay + i.succ then x.passive else x.active) =
      if 0 < i ∧ (tcuAfterBoundary x).actPending = true ∧
          (tcuAfterBoundary x).actDay ≤ (tcuAfterBoundary x).lastDay + i
        then (tcuAfterBoundary x).passive else (tcuAfterBoundary x).active := by
    simp only [tcuAfterBoundary]
    by_cases hp : x.actPending = true <;> by_cases hd : x.actDay ≤ x.lastDay + 1
    · have h1 : x.actDay ≤ x.lastDay + i.succ := by omega
      simp [hp, hd, h1]
    · rcases Nat.eq_zero_or_pos i with rfl | hi
      · simp [hd]
      · have : x.lastDay + i.succ = x.lastDay + 1 + i := by omega
        simp [hp, hd, hi, this]
    all_goals simp [hp]
  rw [this]

/-- The boundaries of `n` days, one after the other: the calendar, the account and the acceptor. -/
theorem deliverBoundaries_fields (n : Nat) (s : State) :
    let t := deliverBoundaries (n + 1) s
    let day := s.tcu.lastDay + (n + 1)
    let activated := s.tcu.actPending = true ∧ s.tcu.actDay ≤ day
    t.tcu =
      { s.tcu with
        trimUsed := 0
        untilDay := s.tcu.untilDay.bind fun u => if u < day then none else some u
        active := if activated then s.tcu.passive else s.tcu.active
        actPending := if activated then false else s.tcu.actPending
        lastDay := day } ∧
      t.acu = chargedDays s.tcu (n + 1) s.acu ∧ t.cda = { s.cda with lockoutsToday := 0 } := by
  induction n generalizing s with
  | zero =>
    obtain ⟨h1, h2, h3⟩ := deliverBoundary_fields s
    exact ⟨h1, by rw [chargedDays_succ]; exact h2, h3⟩
  | succ n ih =>
    obtain ⟨h1, h2, h3⟩ := deliverBoundary_fields s
    obtain ⟨i1, i2, i3⟩ := ih (deliverBoundary s)
    rw [deliverBoundaries]
    refine ⟨?_, by rw [i2, h1, h2, ← chargedDays_succ], by rw [i3, h3]⟩
    rw [i1, h1]
    have hday : s.tcu.lastDay + 1 + (n + 1) = s.tcu.lastDay + (n + 1 + 1) := by omega
    have hu : ((s.tcu.untilDay.bind fun u => if u < s.tcu.lastDay + 1 then none else some u).bind
        fun u => if u < s.tcu.lastDay + (n + 1 + 1) then none else some u) =
        s.tcu.untilDay.bind fun u => if u < s.tcu.lastDay + (n + 1 + 1) then none else some u := by
      cases s.tcu.untilDay with
      | none => rfl
      | some u =>
        simp only [Option.bind_some]
        by_cases c : u < s.tcu.lastDay + 1
        · have : u < s.tcu.lastDay + (n + 1 + 1) := by omega
          simp [c, this]
        · simp [c]
    simp only [tcuAfterBoundary, hday, hu]
    by_cases hp : s.tcu.actPending = true <;> by_cases hd : s.tcu.actDay ≤ s.tcu.lastDay + 1
    · have h4 : s.tcu.actDay ≤ s.tcu.lastDay + (n + 1 + 1) := by omega
      simp [hp, hd, h4]
    all_goals simp [hp, hd]

/-- The boundaries of `n` days with the MAIN domain powered: TARIFF and DAY (R69, R70). -/
theorem deliverBoundaries_bits (n : Nat) (s : State) (h : mainPowered s.sdm.power = true) :
    let t := deliverBoundaries (n + 1) s
    (t.rpu.notices.getLsbD 6 = true ↔ s.rpu.notices.getLsbD 6 = true ∨
      s.tcu.actPending = true ∧ s.tcu.actDay ≤ s.tcu.lastDay + (n + 1)) ∧
    t.rpu.notices.getLsbD 7 = true := by
  have hc : ∀ (b : Account) (u : State) (i : Nat), 2 ≤ i →
      (claimedRpu b u).notices.getLsbD i = u.rpu.notices.getLsbD i := by
    intro b u i hi
    have h0 : (i == 0) = false := by simp; omega
    have h1 : (i == 1) = false := by simp; omega
    unfold claimedRpu
    split_ifs
    all_goals simp [Rpu.withNotice_bit, noticeNumber, h0, h1]
  have h6 := deliverBoundary_bit s h (i := 6) (by decide)
  have h7 := deliverBoundary_bit s h (i := 7) (by decide)
  rw [hc _ _ _ (by decide)] at h6 h7
  have f1 := (deliverBoundary_fields s).1
  induction n generalizing s with
  | zero =>
    rw [deliverBoundaries, deliverBoundaries]
    dsimp only
    rw [h6, h7]
    constructor <;> simp
  | succ n ih =>
    have hd : mainPowered (deliverBoundary s).sdm.power = true := by simpa using h
    have g6 := deliverBoundary_bit (deliverBoundary s) hd (i := 6) (by decide)
    have g7 := deliverBoundary_bit (deliverBoundary s) hd (i := 7) (by decide)
    rw [hc _ _ _ (by decide)] at g6 g7
    obtain ⟨i1, i2⟩ := ih (deliverBoundary s) hd g6 g7 (deliverBoundary_fields _).1
    refine ⟨?_, i2⟩
    rw [deliverBoundaries, i1, h6, f1]
    simp only [tcuAfterBoundary]
    by_cases hp : s.tcu.actPending = true <;> by_cases hd : s.tcu.actDay ≤ s.tcu.lastDay + 1
    · have h4 : s.tcu.actDay ≤ s.tcu.lastDay + (n + 1 + 1) := by omega
      simp [hp, hd, h4]
    · have : s.tcu.lastDay + 1 + (n + 1) = s.tcu.lastDay + (n + 1 + 1) := by omega
      simp [hp, hd, this]
    all_goals simp [hp]

/-- The boundaries that are due at a valid clock, with the MAIN domain powered (R68 to R71). -/
theorem deliverDue_taken (s : State) (hv : s.tcu.valid = true) (h : mainPowered s.sdm.power = true) :
    BoundariesTaken (dayOf s.tcu.clock) s (deliverDue s) := by
  unfold deliverDue
  rw [if_pos hv]
  rcases Nat.lt_or_ge s.tcu.lastDay (dayOf s.tcu.clock) with hd | hd
  · obtain ⟨n, hn⟩ : ∃ n, dayOf s.tcu.clock - s.tcu.lastDay = n + 1 := ⟨_, (Nat.succ_pred (by omega)).symm⟩
    obtain ⟨f1, f2, f3⟩ := deliverBoundaries_fields n s
    obtain ⟨b6, b7⟩ := deliverBoundaries_bits n s h
    have hday : s.tcu.lastDay + (n + 1) = dayOf s.tcu.clock := by omega
    rw [hday] at f1 b6
    rw [hn]
    refine ⟨fun hc => by omega, fun _ => ?_, by rw [f1], by rw [f1], by rw [f1]⟩
    refine ⟨by rw [f1], by rw [f1], by rw [f2, hn], by rw [f3], fun ha => by rw [f1]; simp [ha],
      fun ha => by rw [f1]; simp [ha], by rw [f1], fun h1 => ?_, b6, b7⟩
    have : n = 0 := by omega
    subst this
    have c0 := deliverBoundary_bit s h (i := 0) (by decide)
    have c1 := deliverBoundary_bit s h (i := 1) (by decide)
    have e : deliverBoundaries 1 s = deliverBoundary s := rfl
    have ha := (deliverBoundary_fields s).2.1
    have st : ∀ b : Account, (s.acu.alarmAfter b).state = b.state ∧ (s.acu.alarmAfter b).taken = b.taken := by
      intro b
      unfold Account.alarmAfter
      split <;> exact ⟨rfl, rfl⟩
    unfold ClaimNoticed
    rw [e, c0, c1, ha, (st _).1, (st _).2]
    unfold claimedRpu
    rw [if_pos h]
    clear * -
    generalize s.acu.charge (s.tcu.active.standing * 1000) = b
    split_ifs with hs ht hc
    · simp [hs, ht]
    all_goals simp only [Rpu.withNotice_bit]
    all_goals first
      | (rw [hc] at hs; simp [hs, hc, noticeNumber])
      | simp [*, noticeNumber]
  · have h0 : dayOf s.tcu.clock - s.tcu.lastDay = 0 := by omega
    rw [h0]
    exact ⟨fun _ => ⟨rfl, rfl, rfl, rfl, rfl, rfl, rfl, fun _ _ => rfl⟩, fun hc => by omega, rfl, rfl, rfl⟩

end Sys2Proof.Machine
end

