-- ==== Sys2Proof/Laws/Switch.lean ====
section
/-! SUPPORT. What a change of the switch does to the controller's own state, said once: an entry into a switch state, the
beginning of an operation, and a change of the open-cause table (R114 to R117, R132). -/

namespace Sys2Proof.Machine

/-- An entry into a switch state, as the controller sees it (R115, R116, R125). -/
theorem enterSwitch_swc {new : SwitchState} {s : State} (h : s.swc.switch ≠ new) :
    (enterSwitch new s).swc =
      { s.swc with
        switch := new
        intended := intendedAfter new s.swc
        op := opAfter new s.swc
        overCount := if s.swc.switch = .closed then 0 else s.swc.overCount } := by
  simp [enterSwitch, h]

/-- The entry into the state that holds changes nothing. -/
theorem enterSwitch_same {new : SwitchState} {s : State} (h : s.swc.switch = new) : enterSwitch new s = s := by
  simp [enterSwitch, h]

/-- The position that an operation intends (R115). -/
def Target.position : Target → Position
  | .opened => .opened
  | .closed => .closed

/-- The record of a first attempt that begins at `now` (R116, R117). -/
def firstAttempt (t : Target) (lastPulseEnd now : Nat) : Operation :=
  if lastPulseEnd + 3000 ≤ now then ⟨t, 1, .pulse, none, now + 60⟩ else ⟨t, 1, .rest, none, 0⟩

/-- A first attempt, field by field. -/
theorem firstAttempt_fields (t : Target) (p n : Nat) :
    (firstAttempt t p n).target = t ∧ (firstAttempt t p n).attempt = 1 ∧ (firstAttempt t p n).releasedBy = none ∧
      (n < p + 3000 → (firstAttempt t p n).phase = .rest) := by
  unfold firstAttempt
  split
  · exact ⟨rfl, rfl, rfl, fun h => absurd h (by omega)⟩
  · exact ⟨rfl, rfl, rfl, fun _ => rfl⟩

/-- The REST phase, or the PULSE phase when its time has passed (R116, R117). -/
theorem enterRest_swc (o : Operation) (s : State) :
    (enterRest o s).swc =
      { s.swc with
        op := some
          (if s.swc.lastPulseEnd + 3000 ≤ s.now then { o with phase := .pulse, ends := s.now + 60 }
           else { o with phase := .rest }) } := by
  unfold enterRest Config.restTime Config.pulseTime
  split <;> rfl

/-- An operation begins from a state in which the switch is not moving to its target (R116). -/
theorem beginOperation_swc {t : Target} {s : State} (h : s.swc.switch ≠ movingState t) :
    (beginOperation t s).swc =
      { s.swc with
        switch := movingState t
        intended := t.position
        op := some (firstAttempt t s.swc.lastPulseEnd s.now)
        overCount := if s.swc.switch = .closed then 0 else s.swc.overCount } := by
  have h' : (s.setSwc { s.swc with op := some ⟨t, 1, .rest, none, 0⟩ }).swc.switch ≠ movingState t := by simpa using h
  have hb : beginOperation t s =
      enterRest ⟨t, 1, .rest, none, 0⟩
        (enterSwitch (movingState t) (s.setSwc { s.swc with op := some ⟨t, 1, .rest, none, 0⟩ })) := rfl
  rw [hb, enterRest_swc, enterSwitch_swc h']
  cases t <;> simp only [enterSwitch_frame, State.setSwc_fields, firstAttempt, movingState, intendedAfter,
    Target.position]

/-- What the controller's own state is when an ACTIVE entry has appeared (R114, R132). -/
theorem activeAppeared_swc (s : State) :
    (activeAppeared s).swc =
      match s.swc.switch with
      | .closed =>
        if s.sdm.power = .holdup then s.swc
        else
          { s.swc with
            switch := .opening, intended := .opened, overCount := 0
            op := some (firstAttempt .opened s.swc.lastPulseEnd s.now) }
      | .opening => { s.swc with op := s.swc.op.map fun o => { o with releasedBy := none } }
      | .armed => { s.swc with switch := .opened, intended := .opened, op := none }
      | .verify | .opened | .closing | .fault => s.swc := by
  unfold activeAppeared
  cases h : s.swc.switch
  case closed =>
    simp only
    split
    · rfl
    · rw [beginOperation_swc (by simp [h, movingState])]
      simp [h, movingState, Target.position]
  case armed =>
    rw [enterSwitch_swc (by simp [h])]
    simp [h, intendedAfter, opAfter]
  all_goals rfl

/-- What the controller's own state is when the last ACTIVE entry has left (R114, R123, R132). -/
theorem lastActiveLeft_swc (c : Cause) (s : State) :
    (lastActiveLeft c s).swc =
      match s.swc.switch with
      | .opening => { s.swc with op := s.swc.op.map fun o => { o with releasedBy := some c } }
      | .opened =>
        if s.swc.auto = true ∧ (c = .credit ∨ c = .order) then
          if s.sdm.power = .holdup then s.swc
          else
            { s.swc with
              switch := .closing, intended := .closed
              op := some (firstAttempt .closed s.swc.lastPulseEnd s.now) }
        else { s.swc with switch := .armed, intended := .armed, op := none }
      | .verify | .closed | .armed | .closing | .fault => s.swc := by
  unfold lastActiveLeft
  cases h : s.swc.switch
  case opened =>
    simp only [reconnects, Bool.and_eq_true, Bool.or_eq_true, beq_iff_eq, Option.some.injEq]
    split
    · split
      · rfl
      · rw [beginOperation_swc (by simp [h, movingState])]
        simp [h, movingState, Target.position]
    · rw [enterSwitch_swc (by simp [h])]
      simp [h, intendedAfter, opAfter]
  all_goals rfl

/-- A table in which one entry is changed, before the switch acts on it (R108, R135). -/
def entryChanged (c : Cause) (e : Option Entry) (s : State) : State :=
  let s1 := s.setSwc { s.swc with table := s.swc.table.set c e }
  if causeState (s.swc.table.get c) = causeState e then s1 else notify .switch s1

/-- What the entry's change alone does to the controller's state, the time and the power state. -/
theorem entryChanged_fields (c : Cause) (e : Option Entry) (s : State) :
    (entryChanged c e s).swc = { s.swc with table := s.swc.table.set c e } ∧
      (entryChanged c e s).now = s.now ∧ (entryChanged c e s).sdm = s.sdm := by
  unfold entryChanged
  dsimp only
  split <;> simp

/-- A change of an entry acts on the switch when the set of ACTIVE entries appears or leaves (R114). -/
theorem changeEntry_cases (c : Cause) (e : Option Entry) (s : State) :
    (s.swc.table.anyActive = false → (s.swc.table.set c e).anyActive = true →
      changeEntry c e s = activeAppeared (entryChanged c e s)) ∧
    (s.swc.table.anyActive = true → (s.swc.table.set c e).anyActive = false →
      changeEntry c e s = lastActiveLeft c (entryChanged c e s)) ∧
    (s.swc.table.anyActive = (s.swc.table.set c e).anyActive → changeEntry c e s = entryChanged c e s) := by
  refine ⟨fun h1 h2 => ?_, fun h1 h2 => ?_, fun h => ?_⟩
  · simp only [changeEntry, h1, h2, entryChanged]
  · simp only [changeEntry, h1, h2, entryChanged]
  · simp only [changeEntry, ← h, entryChanged]
    cases s.swc.table.anyActive <;> rfl

/-- A change of an entry gives the table it names (R108). -/
@[simp] theorem changeEntry_table (c : Cause) (e : Option Entry) (s : State) :
    (changeEntry c e s).swc.table = s.swc.table.set c e := by
  obtain ⟨h1, h2, h3⟩ := changeEntry_cases c e s
  have hf := (entryChanged_fields c e s).1
  cases ha : s.swc.table.anyActive <;> cases hb : (s.swc.table.set c e).anyActive
  · rw [h3 (ha.trans hb.symm), hf]
  · rw [h1 ha hb, activeAppeared_swc, hf]
    split <;> (try split) <;> rfl
  · rw [h2 ha hb, lastActiveLeft_swc, hf]
    split <;> (try split) <;> (try split) <;> rfl
  · rw [h3 (ha.trans hb.symm), hf]

/-- Leaving CLOSED clears the stall flags and timers (R12). -/
theorem enterSwitch_piu {new : SwitchState} {s : State} (h : s.swc.switch ≠ new) :
    (enterSwitch new s).piu =
      if s.swc.switch = .closed then { s.piu with stallFlag := .all false, stallTimer := .all 0 } else s.piu := by
  have h' : s.swc.switch = .closed → new ≠ .closed := fun a b => h (a.trans b.symm)
  simp only [enterSwitch, h, if_false, tmpSwitch_frame, piuSwitch]
  by_cases hc : s.swc.switch = .closed
  · rw [if_pos ⟨hc, h' hc⟩, if_pos hc]; split <;> simp
  · rw [if_neg fun k => hc k.1]; simp [hc]

/-- The latches once MS has fallen where the switch has left CLOSED with a phase stalled (R12). -/
def latchesAfterLeaving (s : State) : Kinds Latch :=
  if s.swc.switch = .closed ∧ anyPhase s.piu.stallFlag = true then
    { s.tmp.latches with ms := { s.tmp.latches.ms with condition := false } }
  else s.tmp.latches

/-- What the Tamper Monitor makes of a switch state handed (R12, R144). -/
theorem enterSwitch_tmp {new : SwitchState} {s : State} (h : s.swc.switch ≠ new) :
    (enterSwitch new s).tmp =
      { s.tmp with
        latches :=
          if openPair new then latchesAfterLeaving s
          else { latchesAfterLeaving s with so := { s.tmp.latches.so with condition := false } }
        lastHanded := some new
        soHistory := if openPair new && (s.tmp.lastHanded.map openPair).getD false then s.tmp.soHistory else [] } := by
  have h' : s.swc.switch = .closed → new ≠ .closed := fun a b => h (a.trans b.symm)
  have hp : ∀ t : State, t.piu = s.piu → t.tmp = s.tmp →
      (piuSwitch s.swc.switch new t).tmp = { s.tmp with latches := latchesAfterLeaving s } := by
    intro t h1 h2
    unfold piuSwitch latchesAfterLeaving
    by_cases hc : s.swc.switch = .closed
    · rw [if_pos ⟨hc, h' hc⟩, h1]
      cases hf : anyPhase s.piu.stallFlag <;> simp [hc, h2, fall, setLatch, Kinds.get, Kinds.set]
    · rw [if_neg fun k => hc k.1, h2]
      simp [hc]
  rw [enterSwitch, if_neg h, tmpSwitch, hp _ (by simp) (by simp)]
  have hso : (latchesAfterLeaving s).so = s.tmp.latches.so := by unfold latchesAfterLeaving; split <;> rfl
  cases openPair new <;> simp [fall, setLatch, Kinds.get, Kinds.set, hso]
/-- A change of an entry leaves the settings and the records of the controller that R114 does not name. -/
@[simp] theorem changeEntry_kept (c : Cause) (e : Option Entry) (s : State) :
    (changeEntry c e s).swc.held = s.swc.held ∧ (changeEntry c e s).swc.auto = s.swc.auto ∧
      (changeEntry c e s).swc.normalLimit = s.swc.normalLimit ∧
      (changeEntry c e s).swc.reducedLimit = s.swc.reducedLimit ∧
      (changeEntry c e s).swc.tripsToday = s.swc.tripsToday ∧
      (changeEntry c e s).swc.lastPulseEnd = s.swc.lastPulseEnd ∧
      (changeEntry c e s).swc.lastVerification = s.swc.lastVerification ∧
      (changeEntry c e s).swc.pressLatch = s.swc.pressLatch ∧
      (changeEntry c e s).swc.lastPress = s.swc.lastPress := by
  obtain ⟨h1, h2, h3⟩ := changeEntry_cases c e s
  have hf := (entryChanged_fields c e s).1
  cases ha : s.swc.table.anyActive <;> cases hb : (s.swc.table.set c e).anyActive
  · simp [h3 (ha.trans hb.symm), hf]
  · rw [h1 ha hb, activeAppeared_swc, hf]
    split <;> (try split) <;> simp
  · rw [h2 ha hb, lastActiveLeft_swc, hf]
    split <;> (try split) <;> (try split) <;> simp
  · simp [h3 (ha.trans hb.symm), hf]

/-- The CREDIT entry after an evaluation (table of R109). -/
theorem evaluateCredit_table (s : State) :
    (evaluateCredit s).swc.table =
      { s.swc.table with
        credit :=
          if s.swc.held = .exhausted ∧ s.tcu.untilDay = none then
            match s.swc.table.credit with
            | some e => some e
            | none => some ⟨friendlyNow s.tcu, s.tcu.clock, none⟩
          else none } := by
  unfold evaluateCredit
  rcases hx : s.swc.table with ⟨cr, a, b, c, d⟩
  by_cases h : s.swc.held = .exhausted ∧ s.tcu.untilDay = none
  · rw [if_pos h, show (s.swc.held == .exhausted && s.tcu.untilDay.isNone) = true by simp [h]]
    cases cr <;> simp [CauseTable.set, hx]
  · rw [if_neg h, show (s.swc.held == .exhausted && s.tcu.untilDay.isNone) = false by
      cases hu : s.tcu.untilDay <;> simp_all]
    cases cr <;> simp [CauseTable.set, hx]

/-- An evaluation of the CREDIT cause keeps the account state held. -/
@[simp] theorem evaluateCredit_held (s : State) : (evaluateCredit s).swc.held = s.swc.held := by
  unfold evaluateCredit
  split <;> simp

end Sys2Proof.Machine
end

