-- ==== Sys2Proof/Laws/Tamper.lean ====
section
/-! SUPPORT. What the operations of the Switch Controller and a condition that is handed do to the tamper latches and
the log, said once (R145, R149 to R151). -/

namespace Sys2Proof.Machine

/-- Two states of the Tamper Monitor differ in the MS and SO conditions, the SO history and the switch state handed
alone: what a change of the switch can do to it (R12, R144). -/
def Tmp.SameLatches (x y : Tmp) : Prop :=
  y.actions = x.actions ∧
    ∀ k, (y.latches.get k).set = (x.latches.get k).set ∧ (y.latches.get k).repeats = (x.latches.get k).repeats ∧
      (k ≠ .ms → k ≠ .so → (y.latches.get k).condition = (x.latches.get k).condition)

theorem Tmp.SameLatches.refl (x : Tmp) : x.SameLatches x := ⟨rfl, fun _ => ⟨rfl, rfl, fun _ _ => rfl⟩⟩

theorem Tmp.SameLatches.of_eq {x y : Tmp} (h : y = x) : x.SameLatches y := h ▸ refl x

/-- An entry into a switch state. -/
theorem enterSwitch_latches (new : SwitchState) (s : State) : s.tmp.SameLatches (enterSwitch new s).tmp := by
  by_cases h : s.swc.switch = new
  · rw [enterSwitch_same h]
    exact .refl _
  · rw [enterSwitch_tmp h]
    refine ⟨rfl, fun k => ?_⟩
    unfold latchesAfterLeaving
    cases k <;> dsimp only [Kinds.get] <;> (repeat' split) <;> simp

/-- An operation that begins. -/
theorem beginOperation_latches (t : Target) (s : State) : s.tmp.SameLatches (beginOperation t s).tmp := by
  have h := enterSwitch_latches (movingState t) (s.setSwc { s.swc with op := some ⟨t, 1, .rest, none, 0⟩ })
  simpa [beginOperation] using h

/-- A change of an entry of the open-cause table. -/
theorem changeEntry_latches (c : Cause) (e : Option Entry) (s : State) :
    s.tmp.SameLatches (changeEntry c e s).tmp := by
  obtain ⟨h1, h2, h3⟩ := changeEntry_cases c e s
  have ht : (entryChanged c e s).tmp = s.tmp := by unfold entryChanged; dsimp only; split <;> simp
  cases ha : s.swc.table.anyActive <;> cases hb : (s.swc.table.set c e).anyActive
  · rw [h3 (ha.trans hb.symm), ht]
    exact .refl _
  · rw [h1 ha hb, ← ht, activeAppeared]
    split
    · split
      exacts [.refl _, beginOperation_latches _ _]
    exacts [.refl _, enterSwitch_latches _ _, .refl _, .refl _, .refl _, .refl _]
  · rw [h2 ha hb, ← ht, lastActiveLeft]
    split
    · exact .refl _
    · split
      · split
        exacts [.refl _, beginOperation_latches _ _]
      · exact enterSwitch_latches _ _
    all_goals exact .refl _
  · rw [h3 (ha.trans hb.symm), ht]
    exact .refl _

/-- An evaluation of the TAMPER cause. -/
theorem evaluateTamper_latches (s : State) : s.tmp.SameLatches (evaluateTamper s).tmp := by
  unfold evaluateTamper
  split
  exacts [changeEntry_latches _ _ _, changeEntry_latches _ _ _, .refl _]

/-- The latch of a kind after a rising condition (R149, R150). -/
def risenLatch (k : Kind) (phase : Option Phase) (s : State) : Latch :=
  let l := s.tmp.latches.get k
  if s.tmp.actions.get k = .off then { l with condition := k != .pw }
  else if l.set.isSome then { l with condition := k != .pw, repeats := min 255 (l.repeats + 1) }
  else ⟨k != .pw, some ⟨s.tcu.clock, phase, s.elg.nextSeq⟩, 0⟩

/-- The latch records are replaced kind by kind. -/
@[simp] theorem Kinds.get_set {α : Type} (x : Kinds α) (k j : Kind) (a : α) :
    (x.set k a).get j = if j = k then a else x.get j := by
  cases k <;> cases j <;> rfl

/-- A rising condition is taken in its own latch alone, but for what a switch that it moves does (R149, R150). -/
theorem rise_latches (k : Kind) (phase : Option Phase) (s : State) :
    Tmp.SameLatches { s.tmp with latches := s.tmp.latches.set k (risenLatch k phase s) } (rise k phase s).tmp := by
  unfold rise risenLatch
  by_cases ha : s.tmp.actions.get k = .off
  · simp only [ha, setLatch, State.setTmp_fields, if_true]
    exact .refl _
  · by_cases hs : (s.tmp.latches.get k).set.isSome = true
    · simp only [ha, setLatch, State.setTmp_fields, if_false, Kinds.get_set, if_true, hs, notify_frame]
      exact .of_eq (by cases k <;> rfl)
    · have e : (s.tmp.latches.set k ⟨k != .pw, (s.tmp.latches.get k).set, (s.tmp.latches.get k).repeats⟩).set k
            ⟨k != .pw, some ⟨s.tcu.clock, phase, s.elg.nextSeq⟩, 0⟩ =
          s.tmp.latches.set k ⟨k != .pw, some ⟨s.tcu.clock, phase, s.elg.nextSeq⟩, 0⟩ := by cases k <;> rfl
      simp only [ha, setLatch, State.setTmp_fields, if_false, Kinds.get_set, if_true, hs, Bool.false_eq_true,
        latchRecord, append_frame, e]
      split
      · have h := evaluateTamper_latches (notify .tamper ((append .tamperSet (some k) phase none
          (s.setTmp
            { s.tmp with
              latches :=
                s.tmp.latches.set k
                  ⟨k != .pw, (s.tmp.latches.get k).set, (s.tmp.latches.get k).repeats⟩ })).setTmp
            { s.tmp with latches := s.tmp.latches.set k ⟨k != .pw, some ⟨s.tcu.clock, phase, s.elg.nextSeq⟩, 0⟩ }))
        simpa using h
      · exact .of_eq (by simp)

/-- A condition that is handed (R145): nothing where it holds the value, else a rise, or a fall of it alone (R151). -/
theorem hand_latches (k : Kind) (value : Bool) (phase : Option Phase) (s : State) :
    ((s.tmp.latches.get k).condition = value → hand k value phase s = s) ∧
    ((s.tmp.latches.get k).condition = true → value = false →
      (hand k value phase s).tmp =
        { s.tmp with latches := s.tmp.latches.set k { s.tmp.latches.get k with condition := false } }) ∧
    ((s.tmp.latches.get k).condition = false → value = true →
      Tmp.SameLatches { s.tmp with latches := s.tmp.latches.set k (risenLatch k phase s) }
        (hand k value phase s).tmp) := by
  refine ⟨fun h => by simp [hand, h], fun h hv => ?_, fun h hv => ?_⟩
  · simp [hand, h, hv, fall, setLatch]
  · have hr := rise_latches k phase s
    simpa [hand, h, hv] using hr

/-- The log after a rising condition: one TAMPER_SET record where a clear latch is set, else as it was (R150). -/
theorem rise_elg (k : Kind) (phase : Option Phase) (s : State) :
    (rise k phase s).elg =
      if s.tmp.actions.get k ≠ .off ∧ (s.tmp.latches.get k).set = none then
        s.elg.join (makeRecord .tamperSet (some k) phase none s)
      else s.elg := by
  by_cases ha : s.tmp.actions.get k = .off
  · simp [rise, setLatch, ha]
  · cases hs : (s.tmp.latches.get k).set with
    | some x => simp [rise, setLatch, ha, hs]
    | none =>
      simp only [rise, setLatch, ha, hs, State.setTmp_fields, if_false, Kinds.get_set, if_true, Option.isSome_none,
        Bool.false_eq_true, ne_eq, not_false_iff, and_self]
      split <;> simp [latchRecord, append, makeRecord, setLatch]

end Sys2Proof.Machine
end

