-- ==== Sys2Proof/Laws/Log.lean ====
section
/-! SUPPORT. The Evidence Log and the set latches (R165, R168, R169, R171): what a list that agrees with the latches is
like, and that an append, a latching, a release, a restart and each operation of the blocks keep the agreement. -/

namespace Sys2Proof.Machine

/-! ## Lists of records -/

/-- The list without its oldest unprotected record is a part of it, in the same order. -/
theorem dropUnguarded_sublist (rs : List LogRecord) : (dropUnguarded rs).Sublist rs := by
  induction rs with
  | nil => exact .slnil
  | cons r rs ih =>
    unfold dropUnguarded
    split
    exacts [ih.cons_cons r, List.sublist_cons_self r rs]

/-- It holds every protected record still. -/
theorem dropUnguarded_guarded (p : LogRecord → Bool) (rs : List LogRecord) :
    (dropUnguarded rs).filter (fun r => r.guarded && p r) = rs.filter (fun r => r.guarded && p r) := by
  induction rs with
  | nil => rfl
  | cons r rs ih =>
    unfold dropUnguarded
    split <;> rename_i h
    · simp [List.filter_cons, ih]
    · simp [h]

/-- It is shorter by one where an unprotected record stands. -/
theorem dropUnguarded_length {rs : List LogRecord} (h : ∃ r ∈ rs, r.guarded = false) :
    (dropUnguarded rs).length + 1 = rs.length := by
  induction rs with
  | nil => simp at h
  | cons r rs ih =>
    unfold dropUnguarded
    split <;> rename_i hr
    · obtain ⟨x, hx, hg⟩ := h
      rcases List.mem_cons.mp hx with rfl | hx
      · simp [hr] at hg
      · simp [ih ⟨x, hx, hg⟩]
    · simp

/-- Where every protected record carries a kind, the protected records are counted kind by kind. -/
theorem guarded_length_le {rs : List LogRecord} (h : ∀ r ∈ rs, r.guarded = true → ∃ k, r.kind = some k) :
    (rs.filter (·.guarded)).length ≤
      (kindList.map fun k => (rs.filter fun r => r.guarded && r.kind == some k).length).sum := by
  induction rs with
  | nil => simp
  | cons r rs ih =>
    have ih := ih fun x hx => h x (List.mem_cons_of_mem _ hx)
    cases hg : r.guarded
    · simpa [List.filter_cons, hg] using ih
    · obtain ⟨k, hk⟩ := h r (by simp) hg
      cases k <;> simp [List.filter_cons, hg, hk, kindList] at ih ⊢ <;> omega

/-! ## A log that agrees with the latches -/

/-- At most one record of each kind is protected. -/
theorem Elg.Agrees.guarded_of_kind {x : Elg} {f : Kind → Option LatchSet} (h : x.Agrees f) (k : Kind) :
    (x.records.filter fun r => r.guarded && r.kind == some k).length ≤ 1 := by
  cases hf : f k with
  | some l =>
    have := congrArg List.length (h.2.2.2.2.2.2 k l hf)
    simp at this
    omega
  | none =>
    have : x.records.filter (fun r => r.guarded && r.kind == some k) = [] := by
      refine List.filter_eq_nil_iff.mpr fun r hr hp => ?_
      simp only [Bool.and_eq_true, beq_iff_eq] at hp
      obtain ⟨_, j, l, hj, hl, _⟩ := h.2.2.2.2.2.1 r hr hp.1
      simp_all
    simp [this]

/-- At most nine records are protected (R169). -/
theorem Elg.Agrees.guarded_le_nine {x : Elg} {f : Kind → Option LatchSet} (h : x.Agrees f) :
    (x.records.filter (·.guarded)).length ≤ 9 := by
  have h1 := guarded_length_le fun r hr hg => let ⟨_, k, _, hk, _⟩ := h.2.2.2.2.2.1 r hr hg; ⟨k, hk⟩
  have h2 := fun k => h.guarded_of_kind k
  simp only [kindList, List.map_cons, List.map_nil, List.sum_cons, List.sum_nil] at h1
  have := h2 .cv; have := h2 .tc; have := h2 .mg; have := h2 .rv; have := h2 .ms; have := h2 .so
  have := h2 .pw; have := h2 .ca; have := h2 .rl
  omega

/-- A full list holds an unprotected record (R169). -/
theorem Elg.Agrees.exists_unguarded {x : Elg} {f : Kind → Option LatchSet} (h : x.Agrees f)
    (hl : 9 < x.records.length) : ∃ r ∈ x.records, r.guarded = false := by
  by_contra hc
  have : x.records.filter (·.guarded) = x.records :=
    List.filter_eq_self.mpr fun r hr => by
      cases hg : r.guarded
      exacts [absurd ⟨r, hr, hg⟩ hc, rfl]
  have h9 := h.guarded_le_nine
  rw [this] at h9
  omega

/-- The records that stand beside the new one after it has joined. -/
def keptRecords (x : Elg) : List LogRecord :=
  if x.records.length < Config.logSize then x.records else dropUnguarded x.records

theorem keptRecords_sublist (x : Elg) : (keptRecords x).Sublist x.records := by
  unfold keptRecords
  split
  exacts [.refl _, dropUnguarded_sublist _]

theorem keptRecords_guarded (p : LogRecord → Bool) (x : Elg) :
    (keptRecords x).filter (fun r => r.guarded && p r) = x.records.filter (fun r => r.guarded && p r) := by
  unfold keptRecords
  split
  exacts [rfl, dropUnguarded_guarded p _]

theorem Elg.Agrees.keptRecords_length {x : Elg} {f : Kind → Option LatchSet} (h : x.Agrees f) :
    (keptRecords x).length ≤ 31 := by
  have h32 := h.1
  unfold keptRecords Config.logSize
  split
  · omega
  · have := dropUnguarded_length (h.exists_unguarded (by omega))
    omega

/-- A record that takes the next sequence joins the list (R168), latched or not: what does not concern the marks. -/
theorem Elg.Agrees.join_sequences {x : Elg} {f : Kind → Option LatchSet} (h : x.Agrees f) {r : LogRecord}
    (hs : r.seq = x.nextSeq) :
    (x.join r).records.length ≤ 32 ∧ 1 ≤ (x.join r).nextSeq ∧ (x.join r).nextSeq ≤ 4294967295 ∧
      ((x.join r).records.Pairwise fun a b => a.seq < b.seq ∨ a.seq = 4294967295 ∧ b.seq = 4294967295) ∧
      ∀ a ∈ (x.join r).records, 1 ≤ a.seq ∧
        (a.seq < (x.join r).nextSeq ∨ a.seq = 4294967295 ∧ (x.join r).nextSeq = 4294967295) := by
  have hk := h.keptRecords_length
  have hsub := keptRecords_sublist x
  obtain ⟨_, h1, ht, hp, hm, _⟩ := h
  have hj : (x.join r).records = keptRecords x ++ [r] := rfl
  have hn : (x.join r).nextSeq = if x.nextSeq < 4294967295 then x.nextSeq + 1 else x.nextSeq := rfl
  rw [hj, hn]
  refine ⟨by simp; omega, by split <;> omega, by split <;> omega, ?_, ?_⟩
  · refine List.pairwise_append.mpr ⟨hp.sublist hsub, by simp, fun a ha b hb => ?_⟩
    obtain rfl := List.mem_singleton.mp hb
    have := hm a (hsub.subset ha)
    omega
  · intro a ha
    rcases List.mem_append.mp ha with ha | ha
    · have := hm a (hsub.subset ha)
      split <;> omega
    · obtain rfl := List.mem_singleton.mp ha
      split <;> omega

/-- An unprotected record joins (R168). -/
theorem Elg.Agrees.join {x : Elg} {f : Kind → Option LatchSet} (h : x.Agrees f) {r : LogRecord}
    (hs : r.seq = x.nextSeq) (hg : r.guarded = false) : (x.join r).Agrees f := by
  obtain ⟨a1, a2, a3, a4, a5⟩ := h.join_sequences hs
  have hsub := keptRecords_sublist x
  have hj : (x.join r).records = keptRecords x ++ [r] := rfl
  refine ⟨a1, a2, a3, a4, a5, fun a ha hag => ?_, fun k l hl => ?_⟩
  · rcases List.mem_append.mp (hj ▸ ha) with ha | ha
    · exact h.2.2.2.2.2.1 a (hsub.subset ha) hag
    · obtain rfl := List.mem_singleton.mp ha
      simp [hg] at hag
  · rw [hj, List.filter_append, keptRecords_guarded, List.map_append, h.2.2.2.2.2.2 k l hl]
    simp [hg]

/-- A TAMPER_SET record of a clear latch joins as the latch is set with its sequence (R150, R168). -/
theorem Elg.Agrees.join_latch {x : Elg} {f : Kind → Option LatchSet} (h : x.Agrees f) {r : LogRecord} {k : Kind}
    {l : LatchSet} (hs : r.seq = x.nextSeq) (hg : r.guarded = true) (ht : r.type = .tamperSet)
    (hk : r.kind = some k) (hl : l.record = x.nextSeq) (hf : f k = none) :
    (x.join r).Agrees fun j => if j = k then some l else f j := by
  obtain ⟨a1, a2, a3, a4, a5⟩ := h.join_sequences hs
  have hsub := keptRecords_sublist x
  have hj : (x.join r).records = keptRecords x ++ [r] := rfl
  refine ⟨a1, a2, a3, a4, a5, fun a ha hag => ?_, fun j m hm => ?_⟩
  · rcases List.mem_append.mp (hj ▸ ha) with ha | ha
    · obtain ⟨b1, j, m, b2, b3, b4⟩ := h.2.2.2.2.2.1 a (hsub.subset ha) hag
      have : j ≠ k := fun e => by simp [e, hf] at b3
      exact ⟨b1, j, m, b2, by simp [this, b3], b4⟩
    · obtain rfl := List.mem_singleton.mp ha
      exact ⟨ht, k, l, hk, by simp, by omega⟩
  · rw [hj, List.filter_append, keptRecords_guarded, List.map_append]
    by_cases e : j = k
    · subst e
      have : x.records.filter (fun r => r.guarded && r.kind == some j) = [] := by
        refine List.filter_eq_nil_iff.mpr fun a ha hp => ?_
        simp only [Bool.and_eq_true, beq_iff_eq] at hp
        obtain ⟨_, i, m', b2, b3, _⟩ := h.2.2.2.2.2.1 a ha hp.1
        simp_all
      simp at hm
      simp [this, hg, hk, ← hm, hs, hl]
    · simp only [e, if_false] at hm
      have : k ≠ j := fun e' => e e'.symm
      simp [h.2.2.2.2.2.2 j m hm, hg, hk, this]

/-- The record of a set latch is released as the latch is cleared (R169). -/
theorem Elg.Agrees.release {x : Elg} {f : Kind → Option LatchSet} (h : x.Agrees f) {k : Kind} {l : LatchSet}
    (hf : f k = some l) :
    Elg.Agrees
      { x with
        records := x.records.map fun r =>
          if r.type = .tamperSet ∧ r.kind = some k ∧ r.seq = l.record then { r with guarded := false } else r }
      fun j => if j = k then none else f j := by
  obtain ⟨h1, h2, h3, h4, h5, h6, h7⟩ := h
  have hseq : ∀ r : LogRecord,
      (if r.type = .tamperSet ∧ r.kind = some k ∧ r.seq = l.record then { r with guarded := false } else r).seq =
        r.seq := fun r => by split <;> rfl
  refine ⟨by simpa using h1, h2, h3, ?_, ?_, ?_, ?_⟩
  · simpa only [List.pairwise_map, hseq] using h4
  · simpa only [List.forall_mem_map, hseq] using h5
  · simp only [List.forall_mem_map]
    intro r hr
    split <;> rename_i c
    · simp
    · intro hg
      obtain ⟨b1, j, m, b2, b3, b4⟩ := h6 r hr hg
      by_cases e : j = k
      · subst e
        rw [hf] at b3
        cases b3
        exact absurd ⟨b1, b2, b4.symm⟩ c
      · exact ⟨b1, j, m, b2, by simp [e, b3], b4⟩
  · intro j m hm
    by_cases e : j = k
    · simp [e] at hm
    · simp only [e, if_false] at hm
      rw [← h7 j m hm]
      clear h1 h4 h5 h6 h7
      generalize x.records = rs
      induction rs with
      | nil => rfl
      | cons r rs ih =>
        by_cases c : r.type = .tamperSet ∧ r.kind = some k ∧ r.seq = l.record
        · have : ¬k = j := fun e' => e e'.symm
          simp only [List.map_cons, c, and_self, if_true]
          simp [c.2.1, this, ih]
        · simp only [List.map_cons, c, if_false]
          simp only [List.filter_cons]
          split <;> simp [ih]

/-- The empty log agrees with clear latches (R172). -/
theorem Elg.Agrees.restart {f : Kind → Option LatchSet} (h : ∀ k, f k = none) : Elg.restart.Agrees f :=
  ⟨by decide, by decide, by decide, .nil, by simp [Elg.restart], by simp [Elg.restart], fun k l hl => by simp [h] at hl⟩

/-! ## The shared operations -/

/-- An operation that leaves the log and the fields of set latches as they were keeps the agreement. -/
theorem State.LogAgrees.of_sets {s t : State} (h : s.LogAgrees) (he : t.elg = s.elg)
    (hs : ∀ k, (t.tmp.latches.get k).set = (s.tmp.latches.get k).set) : t.LogAgrees := by
  unfold State.LogAgrees
  rw [he, funext hs]
  exact h

theorem State.LogAgrees.of_tmp {s t : State} (h : s.LogAgrees) (he : t.elg = s.elg) (ht : t.tmp = s.tmp) :
    t.LogAgrees := h.of_sets he fun k => by rw [ht]

theorem State.LogAgrees.of_latches {s t : State} (h : s.LogAgrees) (he : t.elg = s.elg)
    (ht : s.tmp.SameLatches t.tmp) : t.LogAgrees := h.of_sets he fun k => (ht.2 k).1

theorem append_logAgrees {ty : RecordType} (k : Option Kind) (p : Option Phase) (c : Option RecordCode) {s : State}
    (ht : ty ≠ .tamperSet) (h : s.LogAgrees) : (append ty k p c s).LogAgrees := by
  unfold State.LogAgrees at h ⊢
  rw [(append_frame ty k p c s).2.2.2.2.2.2.2.2.2.2.1]
  exact h.join rfl (by simpa [makeRecord] using ht)

theorem setLatch_logAgrees (k : Kind) {l : Latch} {s : State} (hl : l.set = (s.tmp.latches.get k).set)
    (h : s.LogAgrees) : (setLatch k l s).LogAgrees :=
  h.of_sets rfl fun j => by
    by_cases e : j = k <;> simp [setLatch, e, hl]

/-- A clear latch is set with its record (R150). -/
theorem latchRecord_logAgrees (k : Kind) (p : Option Phase) {s : State} (hk : (s.tmp.latches.get k).set = none)
    (h : s.LogAgrees) : (latchRecord k p s).LogAgrees := by
  have hj := Elg.Agrees.join_latch h (r := makeRecord .tamperSet (some k) p none s) (k := k)
    (l := ⟨s.tcu.clock, p, s.elg.nextSeq⟩) rfl rfl rfl rfl rfl hk
  unfold State.LogAgrees
  have he : (latchRecord k p s).elg = s.elg.join (makeRecord .tamperSet (some k) p none s) := by
    simp [latchRecord, append, State.setElg]
  have hs : (fun j => ((latchRecord k p s).tmp.latches.get j).set) = fun j =>
      if j = k then some ⟨s.tcu.clock, p, s.elg.nextSeq⟩ else (s.tmp.latches.get j).set := by
    funext j
    by_cases e : j = k <;> simp [latchRecord, setLatch, e]
  rw [he, hs]
  exact hj

theorem notify_logAgrees (n : Notice) {s : State} (h : s.LogAgrees) : (notify n s).LogAgrees :=
  h.of_tmp (by simp) (by simp)

theorem fall_logAgrees (k : Kind) {s : State} (h : s.LogAgrees) : (fall k s).LogAgrees :=
  setLatch_logAgrees k rfl h

theorem enterSwitch_logAgrees (x : SwitchState) {s : State} (h : s.LogAgrees) : (enterSwitch x s).LogAgrees :=
  h.of_latches (by simp) (enterSwitch_latches x s)

theorem enterRest_logAgrees (o : Operation) {s : State} (h : s.LogAgrees) : (enterRest o s).LogAgrees :=
  h.of_tmp (by simp) (by simp)

theorem beginOperation_logAgrees (t : Target) {s : State} (h : s.LogAgrees) : (beginOperation t s).LogAgrees :=
  h.of_latches (by simp) (beginOperation_latches t s)

theorem changeEntry_logAgrees (c : Cause) (e : Option Entry) {s : State} (h : s.LogAgrees) :
    (changeEntry c e s).LogAgrees :=
  h.of_latches (by simp) (changeEntry_latches c e s)

theorem evaluateTamper_logAgrees {s : State} (h : s.LogAgrees) : (evaluateTamper s).LogAgrees :=
  h.of_latches (by simp) (evaluateTamper_latches s)

theorem evaluateCredit_logAgrees {s : State} (h : s.LogAgrees) : (evaluateCredit s).LogAgrees := by
  unfold evaluateCredit
  split
  exacts [changeEntry_logAgrees _ _ h, changeEntry_logAgrees _ _ h, h]

/-- A rising condition (R149, R150). -/
theorem rise_logAgrees (k : Kind) (p : Option Phase) {s : State} (h : s.LogAgrees) : (rise k p s).LogAgrees := by
  have h1 : (setLatch k { s.tmp.latches.get k with condition := k != .pw } s).LogAgrees := setLatch_logAgrees k rfl h
  unfold rise
  dsimp only
  split
  · exact h1
  · split
    · exact notify_logAgrees _ (setLatch_logAgrees k rfl h1)
    · rename_i hs
      have h2 := notify_logAgrees .tamper (latchRecord_logAgrees k p (by simpa using hs) h1)
      split
      exacts [evaluateTamper_logAgrees h2, h2]

theorem hand_logAgrees (k : Kind) (v : Bool) (p : Option Phase) {s : State} (h : s.LogAgrees) :
    (hand k v p s).LogAgrees := by
  unfold hand
  split
  · exact h
  · split
    exacts [rise_logAgrees k p h, fall_logAgrees k h]

theorem pwAttempt_logAgrees {s : State} (h : s.LogAgrees) : (pwAttempt s).LogAgrees := by
  have h1 := rise_logAgrees .pw none h
  exact h1.of_sets rfl fun _ => rfl

theorem claim_logAgrees (f : Account → Account) {s : State} (h : s.LogAgrees) : (claim f s).LogAgrees := by
  have h1 : (s.setAcu (s.acu.alarmAfter (f s.acu))).LogAgrees := h
  unfold claim
  dsimp only
  split
  · split
    exacts [h1, notify_logAgrees _ h1]
  · split
    · have h2 := notify_logAgrees .account h1
      exact evaluateCredit_logAgrees (s := State.setSwc _ _) h2
    · have h2 := notify_logAgrees .lowAlarm (notify_logAgrees .account h1)
      exact evaluateCredit_logAgrees (s := State.setSwc _ _) h2

theorem evaluateFriendly_logAgrees {s : State} (h : s.LogAgrees) : (evaluateFriendly s).LogAgrees := by
  have h1 : (s.setTcu { s.tcu with lastFriendly := some (friendlyNow s.tcu) }).LogAgrees := h
  unfold evaluateFriendly handFriendly
  dsimp only
  split
  · exact h
  · split
    · split
      exacts [h1, changeEntry_logAgrees _ _ h1]
    · exact h1

theorem deliverBoundary_logAgrees {s : State} (h : s.LogAgrees) : (deliverBoundary s).LogAgrees := by
  unfold deliverBoundary
  dsimp only
  have h1 := claim_logAgrees (Account.charge (s.tcu.active.standing * Config.milli)) h
  generalize claim (Account.charge (s.tcu.active.standing * Config.milli)) s = s1 at h1 ⊢
  have h2 : (boundarySwitch (s1.setCda { s1.cda with lockoutsToday := 0 })).LogAgrees := by
    unfold boundarySwitch
    dsimp only
    split
    · split
      · exact changeEntry_logAgrees _ _ (s := State.setSwc _ _) h1
      · exact h1
    · exact h1
  generalize boundarySwitch (s1.setCda { s1.cda with lockoutsToday := 0 }) = s2 at h2 ⊢
  have h3 : (boundaryOverride (s.tcu.lastDay + 1) (s2.setTcu { s2.tcu with trimUsed := 0 })).LogAgrees := by
    unfold boundaryOverride
    split
    · split
      · exact evaluateCredit_logAgrees (s := State.setTcu _ _) h2
      · exact h2
    · exact h2
  generalize boundaryOverride (s.tcu.lastDay + 1) (s2.setTcu { s2.tcu with trimUsed := 0 }) = s3 at h3 ⊢
  have h4 : (boundaryActivation (s.tcu.lastDay + 1) s3).LogAgrees := by
    unfold boundaryActivation
    split
    · exact notify_logAgrees _ (s := State.setTcu _ _) h3
    · exact h3
  exact notify_logAgrees _ (s := State.setTcu _ _) h4

theorem deliverDue_logAgrees {s : State} (h : s.LogAgrees) : (deliverDue s).LogAgrees := by
  have hn : ∀ (n : Nat) (x : State), x.LogAgrees → (deliverBoundaries n x).LogAgrees := by
    intro n
    induction n with
    | zero => exact fun _ hx => hx
    | succ n ih => exact fun x hx => ih _ (deliverBoundary_logAgrees hx)
  unfold deliverDue
  split
  exacts [hn _ _ h, h]

theorem changeClock_logAgrees (c : Nat) {s : State} (h : s.LogAgrees) : (changeClock c s).LogAgrees :=
  evaluateFriendly_logAgrees (deliverDue_logAgrees (s := discardDemand (s.setTcu _)) h)

theorem validateClock_logAgrees (c : Nat) {s : State} (h : s.LogAgrees) : (validateClock c s).LogAgrees :=
  evaluateFriendly_logAgrees (s := discardDemand (s.setTcu _)) h

/-- A MAIN reset touches neither (R165, R137). -/
theorem mainReset_logAgrees {s : State} (h : s.LogAgrees) : (mainReset s).LogAgrees :=
  h.of_sets (by simp) fun k => by simp [mainReset, Tmp.mainReset]

/-- A retention start empties the log and clears the latches (R137, R165). -/
theorem retentionStart_logAgrees (s : State) : (retentionStart s).LogAgrees := by
  have he : (retentionStart s).elg = .restart := by simp [retentionStart]
  have ht : (retentionStart s).tmp = s.tmp.retentionStart := by simp [retentionStart]
  unfold State.LogAgrees
  rw [he, ht]
  exact Elg.Agrees.restart fun k => by cases k <;> rfl

theorem observe_logAgrees (m : Moment) (n : Nat) {s : State} (h : s.LogAgrees) : (observe m n s).LogAgrees := by
  unfold observe
  dsimp only
  split
  · exact mainReset_logAgrees (s := State.setPins (State.setNow (State.setRcbLow s _) _) _) h
  · exact h.of_sets rfl fun _ => rfl

end Sys2Proof.Machine
end

