-- ==== Sys2Proof/Laws/Lock.lean ====
section
/-! SUPPORT. What the lock step of the kinds leaves (R159): the log's records and the latches, said once. -/

namespace Sys2Proof.Machine

/-- The first phase that a latch set afresh carries (R159). -/
def lockPhase (k : Kind) (x : Tmp) : Option Phase :=
  if kindHasPhase k then (x.latches.get k).set.bind (·.phase) else none

/-- The record of a latch set afresh, with sequence `n` (R159, R167). -/
def lockRecord (n : Nat) (k : Kind) (s : State) : LogRecord :=
  { seq := n, time := s.tcu.clock, timeValid := s.tcu.valid, type := .tamperSet, kind := some k
    phase := lockPhase k s.tmp, code := none, balance := s.acu.balance, billedWh := s.piu.billedWh, guarded := true }

/-- The latch of a kind after its lock step, its record taking sequence `n` (R159). -/
def lockedLatch (n : Nat) (k : Kind) (s : State) : Latch :=
  ⟨(s.tmp.latches.get k).condition,
    if relatches k s.tmp then some ⟨s.tcu.clock, lockPhase k s.tmp, n⟩ else none, 0⟩

/-- The lock step of one kind. -/
theorem lockKind_eq (k : Kind) (s : State) :
    (lockKind k s).elg = (if relatches k s.tmp then s.elg.join (lockRecord s.elg.nextSeq k s) else s.elg) ∧
      (lockKind k s).tmp = { s.tmp with latches := s.tmp.latches.set k (lockedLatch s.elg.nextSeq k s) } := by
  unfold lockKind lockedLatch lockRecord lockPhase
  dsimp only
  split <;> rename_i h
  · simp [latchRecord, setLatch, append, makeRecord, State.setElg]
  · simp [setLatch]

/-- The lock step of one kind leaves what the steps of the others look at. -/
theorem lockKind_others {k j : Kind} (h : j ≠ k) (n : Nat) (s : State) :
    relatches j (lockKind k s).tmp = relatches j s.tmp ∧ lockRecord n j (lockKind k s) = lockRecord n j s ∧
      lockedLatch n j (lockKind k s) = lockedLatch n j s := by
  have hl : (lockKind k s).tmp.latches.get j = s.tmp.latches.get j := by simp [(lockKind_eq k s).2, h]
  have ha : (lockKind k s).tmp.actions = s.tmp.actions := by rw [(lockKind_eq k s).2]
  have hr : relatches j (lockKind k s).tmp = relatches j s.tmp := by simp [relatches, hl, ha]
  have hp : lockPhase j (lockKind k s).tmp = lockPhase j s.tmp := by simp [lockPhase, hl]
  exact ⟨hr, by simp [lockRecord, hp], by simp [lockedLatch, hl, hr, hp]⟩

/-- The lock step over kinds: the records of those whose latch is set afresh, in order, with the next sequences, and
the latches with those sequences (R159, R168), where the list has room and the numbering is not at its top. -/
theorem lockKinds_eq (ks : List Kind) (hn : ks.Nodup) (s : State) (hl : s.elg.records.length + ks.length ≤ 32)
    (ht : s.elg.nextSeq + ks.length ≤ 4294967295) :
    let t := ks.foldl (fun s k => lockKind k s) s
    let again := ks.filter fun k => relatches k s.tmp
    t.elg.records = s.elg.records ++ again.mapIdx (fun i k => lockRecord (s.elg.nextSeq + i) k s) ∧
      t.elg.nextSeq = s.elg.nextSeq + again.length ∧
      (∀ k, k ∉ ks → t.tmp.latches.get k = s.tmp.latches.get k) ∧
      (∀ i k, again[i]? = some k → t.tmp.latches.get k = lockedLatch (s.elg.nextSeq + i) k s) ∧
      (∀ k n, k ∈ ks → relatches k s.tmp = false → t.tmp.latches.get k = lockedLatch n k s) ∧
      t.tmp = { s.tmp with latches := t.tmp.latches } := by
  induction ks generalizing s with
  | nil => simp
  | cons k ks ih =>
    have hk : k ∉ ks := (List.nodup_cons.mp hn).1
    have ne : ∀ j ∈ ks, j ≠ k := fun j hj e => hk (e ▸ hj)
    obtain ⟨he, hm⟩ := lockKind_eq k s
    simp only [List.length_cons] at hl ht
    have hfil : (ks.filter fun j => relatches j (lockKind k s).tmp) = ks.filter fun j => relatches j s.tmp :=
      List.filter_congr fun j hj => (lockKind_others (ne j hj) 0 s).1
    have hrec : ∀ n, ((ks.filter fun j => relatches j s.tmp).mapIdx
        fun i j => lockRecord (n + i) j (lockKind k s)) =
        (ks.filter fun j => relatches j s.tmp).mapIdx fun i j => lockRecord (n + i) j s := fun n =>
      List.mapIdx_eq_mapIdx_iff.mpr fun i hi =>
        (lockKind_others (ne _ (List.mem_filter.mp (List.getElem_mem hi)).1) _ s).2.1
    by_cases hr : relatches k s.tmp = true
    · have hlen : s.elg.records.length < 32 := by omega
      have hseq : s.elg.nextSeq < 4294967295 := by omega
      have he' : (lockKind k s).elg = ⟨s.elg.records ++ [lockRecord s.elg.nextSeq k s], s.elg.nextSeq + 1⟩ := by
        simp [he, hr, Elg.join, Config.logSize, Config.logTop, seqAfter, hlen, hseq]
      obtain ⟨i1, i2, i3, i4, i5, i6⟩ := ih (List.nodup_cons.mp hn).2 (lockKind k s) (by simp [he']; omega)
        (by simp [he']; omega)
      simp only [hfil, hrec] at i1 i2 i4
      simp only [List.foldl_cons, List.filter_cons, hr, if_true]
      refine ⟨?_, ?_, ?_, ?_, ?_, ?_⟩
      · rw [i1, he']
        simp [List.mapIdx_cons, Nat.add_assoc, Nat.add_comm 1]
      · rw [i2, he']
        simp; omega
      · intro j hj
        rw [i3 j (fun h => hj (List.mem_cons_of_mem _ h)), hm]
        simp [show j ≠ k from fun e => hj (e ▸ List.mem_cons_self)]
      · intro i j hj
        cases i with
        | zero =>
          simp only [List.getElem?_cons_zero, Option.some.injEq] at hj
          subst hj
          rw [i3 k hk, hm]
          simp
        | succ i =>
          simp only [List.getElem?_cons_succ] at hj
          have hjm : j ∈ ks := (List.mem_filter.mp (List.mem_of_getElem? hj)).1
          rw [i4 i j hj, (lockKind_others (ne j hjm) _ s).2.2, he']
          congr 1
          simp only
          omega
      · intro j n hj hjr
        rcases List.mem_cons.mp hj with rfl | hj
        · simp [hr] at hjr
        · have h2 := i5 j n hj (by rw [(lockKind_others (ne j hj) n s).1, hjr])
          rw [h2, (lockKind_others (ne j hj) _ s).2.2]
      · rw [i6, hm]
    · have hr' : relatches k s.tmp = false := by simpa using hr
      have he' : (lockKind k s).elg = s.elg := by simp [he, hr']
      obtain ⟨i1, i2, i3, i4, i5, i6⟩ := ih (List.nodup_cons.mp hn).2 (lockKind k s) (by rw [he']; omega)
        (by rw [he']; omega)
      simp only [hfil, hrec] at i1 i2 i4
      simp only [List.foldl_cons, List.filter_cons, hr', Bool.false_eq_true, if_false]
      rw [he'] at i1 i2 i4
      refine ⟨i1, i2, ?_, ?_, ?_, ?_⟩
      · intro j hj
        rw [i3 j (fun h => hj (List.mem_cons_of_mem _ h)), hm]
        simp [show j ≠ k from fun e => hj (e ▸ List.mem_cons_self)]
      · intro i j hj
        have hjm : j ∈ ks := (List.mem_filter.mp (List.mem_of_getElem? hj)).1
        rw [i4 i j hj, (lockKind_others (ne j hjm) _ s).2.2]
      · intro j n hj hjr
        rcases List.mem_cons.mp hj with rfl | hj
        · rw [i3 j hk, hm]
          simp [lockedLatch, hr']
        · have h2 := i5 j n hj (by rw [(lockKind_others (ne j hj) n s).1, hjr])
          rw [h2, (lockKind_others (ne j hj) _ s).2.2]
      · rw [i6, hm]

/-- The lock step over kinds keeps the log in agreement with the latches that have been dealt with. -/
theorem lockKinds_agrees (ks : List Kind) (hn : ks.Nodup) (seen : List Kind) (hd : ∀ k ∈ ks, k ∉ seen) (s : State)
    (h : s.elg.Agrees fun k => if k ∈ seen then (s.tmp.latches.get k).set else none) :
    (ks.foldl (fun s k => lockKind k s) s).elg.Agrees fun k =>
      if k ∈ seen ++ ks then ((ks.foldl (fun s k => lockKind k s) s).tmp.latches.get k).set else none := by
  induction ks generalizing s seen with
  | nil => simpa using h
  | cons k ks ih =>
    have hk : k ∉ ks := (List.nodup_cons.mp hn).1
    have hs : k ∉ seen := hd k (by simp)
    obtain ⟨he, hm⟩ := lockKind_eq k s
    have := ih (List.nodup_cons.mp hn).2 (seen ++ [k])
      (fun j hj hc => by
        rcases List.mem_append.mp hc with hc | hc
        · exact hd j (List.mem_cons_of_mem _ hj) hc
        · exact hk (List.mem_singleton.mp hc ▸ hj))
      (lockKind k s) ?_
    · simpa only [List.foldl_cons, List.append_assoc, List.singleton_append] using this
    · rw [he, hm]
      have hsets : (fun j => if j ∈ seen ++ [k] then
            (({ s.tmp with latches := s.tmp.latches.set k (lockedLatch s.elg.nextSeq k s) } : Tmp).latches.get j).set
          else none) =
          fun j => if j = k then (lockedLatch s.elg.nextSeq k s).set
            else if j ∈ seen then (s.tmp.latches.get j).set else none := by
        funext j
        by_cases e : j = k <;> simp [e]
      rw [hsets]
      by_cases hr : relatches k s.tmp = true
      · simp only [hr, if_true, lockedLatch]
        exact Elg.Agrees.join_latch h rfl rfl rfl rfl rfl (by simp [hs])
      · simp only [hr, lockedLatch, Bool.false_eq_true, if_false]
        have hf : (fun j => if j = k then none else if j ∈ seen then (s.tmp.latches.get j).set else none) =
            fun j => if j ∈ seen then (s.tmp.latches.get j).set else none := by
          funext j
          by_cases e : j = k <;> simp [e, hs]
        rw [hf]
        exact h

/-- The lock step leaves the log in agreement with the latches, whatever stood in them before (R159, R172). -/
theorem tamperLockStep_logAgrees {s : State} (h : s.elg = .restart) : (tamperLockStep s).LogAgrees := by
  have h1 := lockKinds_agrees kindList (by decide) [] (by simp) s
    (by rw [h]; exact Elg.Agrees.restart fun k => by simp)
  have h2 : (kindList.foldl (fun s k => lockKind k s) s).LogAgrees := by
    unfold State.LogAgrees
    have e : ∀ k, k ∈ [] ++ kindList := fun k => by cases k <;> decide
    simpa only [e, if_true] using h1
  unfold tamperLockStep
  dsimp only
  split
  exacts [notify_logAgrees _ (evaluateTamper_logAgrees h2), evaluateTamper_logAgrees h2]

end Sys2Proof.Machine
end

