-- ==== Sys2Proof/Laws/Requests.lean ====
section
/-! SUPPORT. How a request is answered, said once: from what its owner answers to what the command answers. -/

namespace Sys2Proof.Machine

/-- The MAIN domain is not held at its reset in RUN and HOLDUP. -/
theorem resetHeld_working {s : State} (h : s.sdm.power = .run ∨ s.sdm.power = .holdup) : resetHeld s = false := by
  rcases h with h | h <;> simp [resetHeld, h]

/-- A moment outside a held reset, field by field. -/
theorem observe_running {s : State} (m : Moment) (h : resetHeld s = false) :
    observe m 0 s =
      { s with
        now := s.now + m.elapsed
        pins := m.pins
        rcbLow := if s.pins.rcb then s.rcbLow else s.now
        cda := { s.cda with entryTimer := s.cda.entryTimer.map (· - m.elapsed) }
        lnk := { s.lnk with holdTimer := s.lnk.holdTimer.map (· - m.elapsed), clockLow := clockLowAfter m s.lnk } } := by
  simp [observe, h, State.setNow, State.setPins, State.setRcbLow, State.setCda, State.setLnk]

/-- A placed reply is a change of the link alone, which holds the answer (R190). -/
theorem placeReply_answered (k : Nat) (a : Answer) (s : State) :
    ∃ l, placeReply k a s = { s with lnk := l } ∧ Answered k a.status a.payload l := by
  refine ⟨(placeReply k a s).lnk, ?_, ?_⟩
  · unfold placeReply placeFrame
    split <;> rfl
  · unfold placeReply placeFrame Answered
    by_cases h : a.payload.length ≤ Config.framePayload
    · have h' : a.payload.length ≤ 44 := h
      simp [h, h', Config.holdTime, State.setLnk]
    · have h' : ¬a.payload.length ≤ 44 := h
      simp [h', Config.holdTime, Config.framePayload, State.setLnk]

/-- A completed frame, seen from outside the link (R188). -/
theorem completeWrite_observe {s : State} (m : Moment) (st : List Byte)
    (h : s.sdm.power = .run ∨ s.sdm.power = .holdup) :
    completeWrite st (observe m 0 s) = afterFrame m s (completeWrite st (observe m 0 s)).lnk := by
  have hr := resetHeld_working h
  have hm : mainPowered s.sdm.power = true := by rcases h with h | h <;> simp [h, mainPowered]
  rw [afterFrame, rpuAfterFrame, observe_running m hr]
  by_cases hs : s.lnk.slot = [] <;>
    simp [completeWrite, discardKept, hs, notify, hm, State.setLnk, State.setRpu, noticeBit, noticeNumber]

/-- The link after a frame has completed holds no reply. -/
theorem completeWrite_slot (st : List Byte) (s : State) : (completeWrite st s).lnk.slot = [] := by
  by_cases hs : s.lnk.slot = [] <;> simp [completeWrite, discardKept, hs]

/-- The answer of an owner is placed; with none the state stands as the owner left it (R188). -/
def placeAnswer (r : Request) : Option Answer × State → State
  | (some a, s) => placeReply r.kind a s
  | (none, s) => s

/-- A request that passes every check is handed on the state after its frame (R188). -/
theorem request_reaches {r : Request} {handler : Handler} {p : List Byte} {m : Moment} {s : State} (hL : Listening s)
    (hp : p.length ≤ 37) (ht : r.takes p.length = true) (hc : ¬(r.commissioning = true ∧ s.ots.lock = true)) :
    ∃ l, request r handler p (observe m 0 s) = handler p (afterFrame m s l) ∧ l.slot = [] := by
  have hr := resetHeld_working (Or.inl hL.1)
  have hst : (observe m 0 s).lnk.state = .receiving := by rw [observe_running m hr]; exact hL.2
  have hlen : p.length + 3 ≤ Config.maxRequest := by unfold Config.maxRequest; omega
  have hs := completeWrite_slot (requestFrame r.kind p) (observe m 0 s)
  rw [request, if_pos hst, if_pos hlen, completeWrite_observe m _ (Or.inl hL.1), handRequest]
  revert hs
  generalize (completeWrite (requestFrame r.kind p) (observe m 0 s)).lnk = l0
  intro hs
  have hl : (afterFrame m s l0).ots.lock = s.ots.lock := by simp [afterFrame, observe_running m hr]
  have hw : (afterFrame m s l0).sdm.power = .run := by simp [afterFrame, observe_running m hr, hL.1]
  have hc' : (r.commissioning && s.ots.lock) = false := by
    rw [Bool.eq_false_iff]
    intro h
    exact hc ((Bool.and_eq_true _ _).mp h)
  rw [hl, hc', hw, if_neg (by simp), if_pos ht, if_neg (by simp)]
  exact ⟨l0, rfl, hs⟩

/-- A request that passes every check is handed to its owner on the state after its frame (R188). -/
theorem request_handed {r : Request} {owner : Owner} {p : List Byte} {m : Moment} {s : State} (hL : Listening s)
    (hp : p.length ≤ 37) (ht : r.takes p.length = true) (hc : ¬(r.commissioning = true ∧ s.ots.lock = true)) :
    ∃ l, request r (serve r owner) p (observe m 0 s) = placeAnswer r (owner p (afterFrame m s l)) ∧
      l.state = .working ∧ l.slot = [] ∧ l.returnReady = false := by
  obtain ⟨l0, h, hs⟩ := request_reaches (handler := serve r owner) (m := m) hL hp ht hc
  refine ⟨{ l0 with state := .working, returnReady := false }, ?_, rfl, hs, rfl⟩
  rw [h, serve, show enterWorking (afterFrame m s l0) =
    afterFrame m s { l0 with state := .working, returnReady := false } from rfl]
  cases owner p (afterFrame m s { l0 with state := .working, returnReady := false }) with
  | mk a t => cases a <;> rfl

/-- KEYS with no event between its symbols is answered as its owner answers (R83, R84). -/
theorem serveKeys_nil : serveKeys [] = serve .keys keysOwner := by
  have later : ∀ (xs : List Symbol) (i : Nat) (s : State), (takeSymbols i xs [] s).later = [] := by
    intro xs
    induction xs with
    | nil => intros; rfl
    | cons x xs ih =>
      intro i s
      simp only [takeSymbols, List.takeWhile_nil, List.dropWhile_nil]
      split
      · rfl
      · exact ih _ _
  funext p s
  simp only [serveKeys, serve, keysOwner, keysTaken]
  split
  · rfl
  · simp [later, takeEvents]

/-- With no events, the place of the first symbol in the request does not matter. -/
theorem takeSymbols_place (xs : List Symbol) (i j : Nat) (s : State) :
    takeSymbols i xs [] s = takeSymbols j xs [] s := by
  induction xs generalizing i j s with
  | nil => rfl
  | cons x xs ih =>
    simp only [takeSymbols, List.takeWhile_nil, List.dropWhile_nil]
    split
    · rfl
    · rw [ih (i + 1) (j + 1)]

/-- One event, placed after `i` symbols more: it comes after them, or after the answer where one of them is refused
(R84). -/
theorem takeSymbols_one (xs : List Symbol) (i j : Nat) (e : KeysEvent) (s : State) (hi : i < xs.length) :
    let first := takeSymbols 0 (xs.take i) [] s
    let rest := takeSymbols 0 (xs.drop i) [] (takeEvent first.state e)
    (first.refusal = none → takeSymbols j xs [(j + i, e)] s = ⟨i + rest.taken, rest.refusal, rest.state, []⟩) ∧
      (first.refusal ≠ none →
        takeSymbols j xs [(j + i, e)] s = ⟨first.taken, first.refusal, first.state, [(j + i, e)]⟩) := by
  have later : ∀ (xs : List Symbol) (n : Nat) (u : State), (takeSymbols n xs [] u).later = [] := by
    intro xs
    induction xs with
    | nil => intros; rfl
    | cons x xs ih =>
      intro n u
      simp only [takeSymbols, List.takeWhile_nil, List.dropWhile_nil]
      split
      exacts [rfl, ih _ _]
  induction i generalizing xs j s with
  | zero =>
    obtain ⟨x, xs, rfl⟩ := List.exists_cons_of_length_pos hi
    refine ⟨fun _ => ?_, fun h => absurd rfl h⟩
    have h0 : takeSymbols j (x :: xs) [(j, e)] s = takeSymbols j (x :: xs) [] (takeEvent s e) := by
      simp [takeSymbols, takeEvents]
    have hl := later (x :: xs) 0 (takeEvent s e)
    simp only [Nat.add_zero, List.take_zero, List.drop_zero, Nat.zero_add]
    rw [h0, takeSymbols_place _ j 0]
    exact congrArg (Handled.mk _ _ _) hl
  | succ i ih =>
    obtain ⟨x, xs, rfl⟩ := List.exists_cons_of_length_pos (Nat.lt_of_le_of_lt (Nat.zero_le _) hi)
    have hlt : ¬j + (i + 1) ≤ j := by omega
    simp only [List.take_succ_cons, List.drop_succ_cons]
    simp only [takeSymbols, takeEvents, List.takeWhile_nil, List.dropWhile_nil, List.foldl_nil, List.takeWhile_cons,
      List.dropWhile_cons, hlt, decide_false, Bool.false_eq_true, if_false]
    cases hx : takeSymbol x s with
    | mk r u =>
      cases r with
      | some r => exact ⟨fun h => absurd h (by simp), fun _ => rfl⟩
      | none =>
        have hj : j + (i + 1) = j + 1 + i := by omega
        obtain ⟨h1, h2⟩ := ih xs (j + 1) u (by simpa using hi)
        simp only [hj, takeSymbols_place (xs.take i) 1 0]
        refine ⟨fun h => ?_, fun h => ?_⟩
        · rw [h1 h, show i + 1 + _ = i + _ + 1 from Nat.add_right_comm ..]
        · rw [h2 h]

/-- A command whose owner answers OK, and leaves the state `t`. -/
theorem answersWith_of_owner {c : Instr} {r : Request} {owner : Owner} {p payload : List Byte} {m : Moment}
    {s : State} {f : State → State} {t : Lnk → State}
    (hx : exec c s = .next (request r (serve r owner) p (observe m 0 s))) (hL : Listening s) (hp : p.length ≤ 37)
    (ht : r.takes p.length = true) (hc : ¬(r.commissioning = true ∧ s.ots.lock = true))
    (ho : ∀ l, owner p (afterFrame m s l) = (some (.ok payload), t l))
    (hf : ∀ l l', { t l with lnk := l' } = { f (afterFrame m s l') with lnk := l' }) :
    AnswersWith c m s r.kind payload f := by
  obtain ⟨l0, h, -⟩ := request_handed (owner := owner) (m := m) hL hp ht hc
  obtain ⟨l, h1, h2⟩ := placeReply_answered r.kind (.ok payload) (t l0)
  refine ⟨l, ?_, h2⟩
  rw [hx, h, ho, placeAnswer, h1, hf]

/-- A command whose owner answers and changes nothing. -/
theorem answersOnly_of_owner {c : Instr} {r : Request} {owner : Owner} {p : List Byte} {a : Answer} {m : Moment}
    {s : State} (hx : exec c s = .next (request r (serve r owner) p (observe m 0 s))) (hL : Listening s) (hp : p.length ≤ 37)
    (ht : r.takes p.length = true) (hc : ¬(r.commissioning = true ∧ s.ots.lock = true))
    (ho : ∀ l, owner p (afterFrame m s l) = (some a, afterFrame m s l)) :
    AnswersOnly c m s r.kind a.status a.payload := by
  obtain ⟨l0, h, -⟩ := request_handed (owner := owner) (m := m) hL hp ht hc
  obtain ⟨l, h1, h2⟩ := placeReply_answered r.kind a (afterFrame m s l0)
  refine ⟨l, ?_, h2⟩
  rw [hx, h, ho, placeAnswer, h1]
  rfl

end Sys2Proof.Machine
end

