-- ==== Sys2Proof/Laws/LogBlocks.lean ====
section
/-! SUPPORT. The operations of the blocks keep the Evidence Log in agreement with the set latches (R165, R168, R169):
one lemma for each operation that a command calls. -/

namespace Sys2Proof.Machine

/-! ## Codes -/

theorem writeResult_logAgrees (o : CodeOutcome) (c : Option CodeRef) (d : Option Detail) {s : State}
    (h : s.LogAgrees) : (writeResult o c d s).LogAgrees := h.of_tmp (by simp) (by simp)

theorem endEntry_logAgrees {s : State} (h : s.LogAgrees) : (endEntry s).LogAgrees := h.of_tmp (by simp) (by simp)

theorem setWindow_logAgrees (i : Slot) (w : SeqWindow) {s : State} (h : s.LogAgrees) : (setWindow i w s).LogAgrees :=
  h.of_tmp (by simp) (by simp)

/-- A named kind is cleared: the TAMPER_CLEARED record, the release of its record, and the latch (R155, R169). -/
theorem clearKind_logAgrees (c : RecordCode) (k : Kind) {s : State} (h : s.LogAgrees) :
    (clearKind c k s).LogAgrees := by
  unfold clearKind
  dsimp only
  split
  · rename_i x hx
    split
    · exact h
    · have h1 : (append .tamperCleared (some k) none (some c) s).LogAgrees := append_logAgrees _ _ _ (by decide) h
      have hx1 : ((append .tamperCleared (some k) none (some c) s).tmp.latches.get k).set = some x := by simpa using hx
      have h2 := Elg.Agrees.release h1 hx1
      refine (show Elg.Agrees _ _ from ?_)
      refine cast (congrArg (Elg.Agrees _) (funext fun j => ?_)) h2
      by_cases e : j = k <;> simp [setLatch, releaseRecord, e]
  · exact h

theorem effectClear_logAgrees (i : Slot) (f : Fields) {s : State} (h : s.LogAgrees) :
    (effectClear i f s).1.LogAgrees := by
  have hk : ∀ (ks : List Kind) (x : State), x.LogAgrees →
      (ks.foldl (fun s k => clearKind ⟨i, f.seq⟩ k s) x).LogAgrees := by
    intro ks
    induction ks with
    | nil => exact fun _ hx => hx
    | cons k ks ih => exact fun x hx => ih _ (clearKind_logAgrees _ _ hx)
  have h2 := evaluateTamper_logAgrees (hk (namedKinds f.value) s h)
  unfold effectClear
  dsimp only
  split
  exacts [h2, notify_logAgrees _ h2]

theorem effectOrder_logAgrees (f : Fields) {s : State} (h : s.LogAgrees) : (effectOrder f s).LogAgrees := by
  unfold effectOrder
  split
  · exact changeEntry_logAgrees _ _ h
  · unfold orderHoldOpen
    split
    exacts [h, changeEntry_logAgrees _ _ h]
  · exact evaluateCredit_logAgrees (s := State.setTcu _ _) h
  · exact evaluateCredit_logAgrees (s := State.setTcu _ _) h
  · unfold orderRetry
    split
    exacts [beginOperation_logAgrees _ h, h]

theorem effectReinstate_logAgrees (f : Fields) {s : State} (h : s.LogAgrees) : (effectReinstate f s).LogAgrees := by
  have h1 : (append .reinstated none none (some ⟨.slot0, f.seq⟩)
      (s.setCda { s.cda with window0 := windowReinstate f.value f.seq, reinstate := false })).LogAgrees :=
    append_logAgrees _ _ _ (by decide) (s := State.setCda _ _) h
  unfold effectReinstate
  dsimp only
  split
  exacts [h1, hand_logAgrees _ _ _ h1]

theorem applyEffect_logAgrees (i : Slot) (f : Fields) {s : State} (h : s.LogAgrees) :
    (applyEffect i f s).1.LogAgrees := by
  unfold applyEffect
  split
  · exact claim_logAgrees _ h
  · exact claim_logAgrees _ h
  · unfold effectSetting
    split <;> exact claim_logAgrees _ h
  · unfold effectLoadLimit
    split <;> exact h
  · unfold effectPrice
    split <;> exact h
  · unfold effectSchedule
    split <;> exact h
  · exact h
  · unfold effectCalendar
    split
    exacts [evaluateFriendly_logAgrees (s := State.setTcu _ _) h, h]
  · exact effectClear_logAgrees i f h
  · unfold effectAction
    split
    · exact evaluateTamper_logAgrees (s := State.setTmp _ _) (h.of_sets rfl fun _ => rfl)
    · exact h
  · exact effectOrder_logAgrees f h
  · unfold effectTimeSet
    dsimp only
    split
    · split
      exacts [h, changeClock_logAgrees _ h]
    · exact validateClock_logAgrees _ h
  · unfold effectDisable
    split
    · exact h
    · split <;> exact h
  · exact effectReinstate_logAgrees f h
  · exact h

theorem acceptCode_logAgrees (i : Slot) (f : Fields) {s : State} (h : s.LogAgrees) : (acceptCode i f s).LogAgrees := by
  have h1 := setWindow_logAgrees i (windowAccept (slotWindow s i) f.seq) h
  exact endEntry_logAgrees (writeResult_logAgrees _ _ _ (applyEffect_logAgrees i f (s := State.setCda _ _) h1))

theorem checkFailed_logAgrees {s : State} (h : s.LogAgrees) : (checkFailed s).LogAgrees := by
  unfold checkFailed
  dsimp only
  split
  · exact endEntry_logAgrees (writeResult_logAgrees _ _ _ (s := State.setCda _ _) h)
  · unfold beginLockout
    dsimp only
    exact hand_logAgrees _ _ _ (append_logAgrees _ _ _ (by decide)
      (writeResult_logAgrees _ _ _ (s := State.setCda _ _) h))

theorem finishDecode_logAgrees (r : Option (Slot × Fields)) {s : State} (h : s.LogAgrees) :
    (finishDecode r s).LogAgrees := by
  unfold finishDecode
  split
  · exact checkFailed_logAgrees h
  · split
    exacts [acceptCode_logAgrees _ _ h, endEntry_logAgrees (writeResult_logAgrees _ _ _ h)]

theorem decodeEnd_logAgrees (m : Moment) {s : State} (h : s.LogAgrees) : (decodeEnd m s).LogAgrees := by
  have h1 := observe_logAgrees m 0 h
  unfold decodeEnd
  dsimp only
  split
  exacts [finishDecode_logAgrees _ h1, h1]

theorem entryTimeout_logAgrees (m : Moment) {s : State} (h : s.LogAgrees) : (entryTimeout m s).LogAgrees := by
  have h1 := observe_logAgrees m 0 h
  unfold entryTimeout
  dsimp only
  split
  exacts [endEntry_logAgrees (writeResult_logAgrees _ _ _ h1), h1]

theorem enterLocal_logAgrees {s : State} (h : s.LogAgrees) : (enterLocal s).LogAgrees := by
  have h1 : ∀ c, (takeLocal c s).1.LogAgrees := by
    intro c
    unfold takeLocal
    split
    · split
      exacts [claim_logAgrees _ h, h]
    · exact claim_logAgrees _ h
  unfold enterLocal
  split
  · exact endEntry_logAgrees (writeResult_logAgrees _ _ _ h)
  · exact endEntry_logAgrees (writeResult_logAgrees _ _ _ (h1 _))

theorem takeSymbol_logAgrees (x : Symbol) {s : State} (h : s.LogAgrees) : (takeSymbol x s).2.LogAgrees := by
  unfold takeSymbol
  split
  · exact h
  · split
    · split <;> exact h
    · exact h.of_tmp (by simp) (by simp)
    · exact h.of_tmp (by simp) (by simp)
    · dsimp only
      unfold takeEnter
      split
      · exact h.of_tmp (by simp) (by simp)
      · split
        exacts [enterLocal_logAgrees h, h.of_tmp (by simp) (by simp)]

/-! ## Pulses, ticks and the switch -/

theorem acceptPulse_logAgrees (n : Phase) (d : Direction) {s : State} (h : s.LogAgrees) :
    (acceptPulse n d s).LogAgrees := by
  unfold acceptPulse
  dsimp only
  have h1 : (s.setPiu (piuAfterPulse n d s.now s.piu)).LogAgrees := h
  generalize s.setPiu (piuAfterPulse n d s.now s.piu) = s1 at h1 ⊢
  have h2 : ∀ b, (handReverse b n (if completesWh d s.piu = true then
      claim (Account.charge (currentPrice s1.tcu)) s1 else s1)).LogAgrees := by
    intro b
    have h3 : (if completesWh d s.piu = true then claim (Account.charge (currentPrice s1.tcu)) s1 else s1).LogAgrees := by
      split
      exacts [claim_logAgrees _ h1, h1]
    unfold handReverse
    dsimp only
    generalize (if completesWh d s.piu = true then claim (Account.charge (currentPrice s1.tcu)) s1 else s1) = s2 at h3 ⊢
    split
    exacts [h3, hand_logAgrees _ _ _ h3]
  split
  exacts [hand_logAgrees _ _ _ (h2 _), h2 _]

theorem stallStep_logAgrees (n : Phase) {s : State} (h : s.LogAgrees) : (stallStep n s).LogAgrees := by
  unfold stallStep
  split
  · dsimp only
    split
    exacts [hand_logAgrees _ _ _ (s := State.setPiu _ _) h, h]
  · exact h

theorem pulseStartUp_logAgrees {s : State} (h : s.LogAgrees) : (pulseStartUp s).LogAgrees :=
  hand_logAgrees _ _ _ (hand_logAgrees .ms false none h)

theorem demandMinute_logAgrees (w : Nat) {s : State} (h : s.LogAgrees) : (demandMinute w s).LogAgrees := by
  unfold demandMinute
  dsimp only
  split
  · split
    · unfold trip
      dsimp only
      split
      · exact h
      · exact changeEntry_logAgrees _ _ (s := State.setSwc _ _) h
    · exact h
  · exact h

theorem verify_logAgrees (o : Operation) {s : State} (h : s.LogAgrees) : (verify o s).LogAgrees := by
  unfold verify
  dsimp only
  have h1 : (s.setSwc { s.swc with lastVerification := some (verification o.target s.pins) }).LogAgrees := h
  generalize s.setSwc { s.swc with lastVerification := some (verification o.target s.pins) } = s1 at h1 ⊢
  split
  · split
    · unfold passOpen
      split
      · exact enterSwitch_logAgrees _ h1
      · split
        exacts [beginOperation_logAgrees _ h1, enterSwitch_logAgrees _ h1]
    · unfold passClose
      split
      exacts [beginOperation_logAgrees _ h1, enterSwitch_logAgrees _ h1]
  · split
    · exact enterRest_logAgrees _ h1
    · exact notify_logAgrees _ (append_logAgrees _ _ _ (by decide) (enterSwitch_logAgrees _ h1))

theorem switchStartUp_logAgrees {s : State} (h : s.LogAgrees) : (switchStartUp s).LogAgrees := by
  unfold switchStartUp
  dsimp only
  split
  · exact beginOperation_logAgrees _ (s := State.setSwc _ _) h
  · exact beginOperation_logAgrees _ (s := State.setSwc _ _) h
  · exact enterSwitch_logAgrees _ (s := State.setSwc _ _) h

theorem samplePress_logAgrees {s : State} (h : s.LogAgrees) : (samplePress s).LogAgrees := by
  unfold samplePress
  dsimp only
  split
  · exact beginOperation_logAgrees _ (s := State.setSwc _ _) h
  · exact h

theorem runSample_logAgrees {s : State} (h : s.LogAgrees) : (runSample s).LogAgrees := by
  have h1 : (s.setTmp (runSamples s.pins s.tmp)).LogAgrees := h.of_sets rfl fun _ => rfl
  exact hand_logAgrees _ _ _ (hand_logAgrees _ _ _ (hand_logAgrees _ _ _ h1))

theorem batterySample_logAgrees {s : State} (h : s.LogAgrees) : (batterySample s).LogAgrees := by
  have h1 : (s.setTmp (batterySamples s.pins s.tmp)).LogAgrees := h.of_sets rfl fun _ => rfl
  exact hand_logAgrees _ _ _ (hand_logAgrees _ _ _ h1)

theorem tickPart_logAgrees (a b : Bool) (p : TickPart) {s : State} (h : s.LogAgrees) :
    (tickPart a b p s).LogAgrees := by
  unfold tickPart
  split
  · split
    · unfold lockoutEnds
      dsimp only
      split
      exacts [(hand_logAgrees .ca false none h).of_sets rfl fun _ => rfl, hand_logAgrees .ca false none h]
    · exact h
  · split
    · unfold penaltyEnds
      split
      exacts [changeEntry_logAgrees _ _ h, h]
    · exact h
  · exact stallStep_logAgrees _ h
  · unfold supplySecond
    split
    · exact hand_logAgrees _ _ _ (h.of_sets rfl fun _ => rfl)
    · exact h
  · unfold minuteEnds
    split
    · split
      · exact h
      · exact demandMinute_logAgrees _ (s := State.setPiu _ _) h
    · exact h
  · unfold calendarTick
    split
    · refine deliverDue_logAgrees ?_
      split
      exacts [evaluateFriendly_logAgrees h, h]
    · exact h

theorem tick_logAgrees (ps : List TickPart) {s : State} (h : s.LogAgrees) : (tick ps s).LogAgrees := by
  have hp : ∀ (a b : Bool) (ps : List TickPart) (x : State), x.LogAgrees →
      (ps.foldl (fun t p => tickPart a b p t) x).LogAgrees := by
    intro a b ps
    induction ps with
    | nil => exact fun _ hx => hx
    | cons p ps ih => exact fun x hx => ih _ (tickPart_logAgrees a b p hx)
  unfold tick
  split
  · exact h
  · exact hp _ _ _ _ (h.of_tmp (by simp) (by simp))

theorem secondTick_logAgrees (m : Moment) {s : State} (h : s.LogAgrees) : (secondTick m s).LogAgrees :=
  tick_logAgrees _ (observe_logAgrees m 0 h)

/-! ## Power -/

/-- The end of a lock burn, whatever stood in the latches before it (R159, R172). -/
theorem lockEvent_logAgrees (s : State) : (lockEvent s).LogAgrees := by
  have h1 := tamperLockStep_logAgrees (s := (s.setOts s.ots.burned).setElg .restart) rfl
  unfold lockEvent
  dsimp only
  split
  exacts [changeEntry_logAgrees _ _ h1, h1]

theorem lossEvent_logAgrees {s : State} (h : s.LogAgrees) : (lossEvent s).LogAgrees :=
  hand_logAgrees _ _ _ (s := State.setCda _ _) h

theorem settleBurn_logAgrees {s : State} (h : s.LogAgrees) : (settleBurn s).LogAgrees := by
  unfold settleBurn
  split
  · exact h
  · split
    exacts [h, h, lockEvent_logAgrees s, lossEvent_logAgrees h]

theorem acceptorHoldup_logAgrees {s : State} (h : s.LogAgrees) : (acceptorHoldup s).LogAgrees :=
  h.of_tmp (by simp) (by simp)

theorem enterOff_logAgrees (s : State) : (enterOff s).LogAgrees := retentionStart_logAgrees _

theorem enterStarting_logAgrees {s : State} (h : s.LogAgrees) : (enterStarting s).LogAgrees :=
  mainReset_logAgrees (s := setPower _ s) h

theorem enterBattery_logAgrees {s : State} (h : s.LogAgrees) : (enterBattery s).LogAgrees :=
  State.LogAgrees.of_sets (mainReset_logAgrees (s := setPower .battery s) h) (by simp [enterBattery])
    fun k => by simp [enterBattery]

theorem pfwFall_logAgrees (m : Moment) {s : State} (h : s.LogAgrees) : (pfwFall m s).LogAgrees := by
  have h1 := observe_logAgrees { m with pins := { m.pins with pfw := false } } 0 h
  unfold pfwFall
  dsimp only
  split
  exacts [acceptorHoldup_logAgrees (s := setPower _ _) h1, h1]

/-- A start-up step (R203). -/
theorem takeStep_logAgrees {s : State} (h : s.LogAgrees) : (takeStep s).LogAgrees := by
  unfold takeStep
  split
  · unfold checkStep
    split
    · exact h
    · exact h
    · exact h
    · exact hand_logAgrees .rl true none (s := State.setCda _ _) h
  · unfold catchUpStep
    split
    · exact deliverBoundary_logAgrees h
    · exact evaluateFriendly_logAgrees h
  · exact switchStartUp_logAgrees h
  · unfold acceptorStartUp
    dsimp only
    exact hand_logAgrees .ca _ none (s := State.setCda _ _) h
  · exact pulseStartUp_logAgrees h
  · have h2 : (tamperStartUp s).LogAgrees := by
      have h3 := evaluateTamper_logAgrees (s := s.setTmp { s.tmp with runDue := s.now }) (h.of_sets rfl fun _ => rfl)
      unfold tamperStartUp
      dsimp only
      split
      exacts [notify_logAgrees _ h3, h3]
    unfold endSteps
    dsimp only
    split
    · exact h2
    · exact acceptorHoldup_logAgrees (s := setPower _ _) h2

theorem takeSteps_logAgrees (n : Nat) {s : State} (h : s.LogAgrees) : (takeSteps n s).LogAgrees := by
  induction n generalizing s with
  | zero => exact h
  | succ n ih =>
    unfold takeSteps
    split
    exacts [ih (takeStep_logAgrees h), h]

/-! ## Requests -/

theorem completeWrite_logAgrees (b : List Byte) {s : State} (h : s.LogAgrees) : (completeWrite b s).LogAgrees :=
  h.of_tmp (by simp) (by simp)

theorem placeReply_logAgrees (k : Nat) (a : Answer) {s : State} (h : s.LogAgrees) : (placeReply k a s).LogAgrees :=
  h.of_tmp (by simp) (by simp)

/-- A request served by an owner that keeps the agreement. -/
theorem serve_logAgrees (r : Request) {owner : Owner} (ho : ∀ p x, State.LogAgrees x → (owner p x).2.LogAgrees)
    (p : List Byte) {s : State} (h : s.LogAgrees) : (serve r owner p s).LogAgrees := by
  have h1 := ho p (enterWorking s) h
  unfold serve
  split <;> rename_i he <;> rw [he] at h1
  exacts [placeReply_logAgrees _ _ h1, h1]

theorem handRequest_logAgrees (r : Request) {handler : Handler} (ho : ∀ p x, State.LogAgrees x → (handler p x).LogAgrees)
    (p : List Byte) {s : State} (h : s.LogAgrees) : (handRequest r handler p s).LogAgrees := by
  unfold handRequest
  split
  · exact placeReply_logAgrees _ _ (pwAttempt_logAgrees h)
  · split
    · split
      exacts [placeReply_logAgrees _ _ h, ho p s h]
    · exact placeReply_logAgrees _ _ h

/-- A request row whose handler keeps the agreement. -/
theorem request_logAgrees (r : Request) {handler : Handler} (ho : ∀ p x, State.LogAgrees x → (handler p x).LogAgrees)
    (p : List Byte) {s : State} (h : s.LogAgrees) : (request r handler p s).LogAgrees := by
  unfold request
  split
  · split
    · exact handRequest_logAgrees r ho p (completeWrite_logAgrees _ h)
    · exact h.of_tmp (by simp) (by simp)
  · exact h

/-- A command that changes nothing beside the link after its moment keeps the agreement. -/
theorem State.LogAgrees.of_link {m : Moment} {s t : State} (h : s.LogAgrees)
    (ht : ∃ l, t = { observe m 0 s with lnk := l }) : t.LogAgrees := by
  obtain ⟨l, rfl⟩ := ht
  exact observe_logAgrees m 0 h

/-- The events that come between the symbols of KEYS (R84, R190). -/
theorem takeEvents_logAgrees (es : List (Nat × KeysEvent)) {s : State} (h : s.LogAgrees) :
    (takeEvents es s).LogAgrees := by
  unfold takeEvents
  induction es generalizing s with
  | nil => exact h
  | cons e es ih =>
    refine ih ?_
    obtain ⟨i, e⟩ := e
    cases e
    exacts [decodeEnd_logAgrees _ h, entryTimeout_logAgrees _ h, secondTick_logAgrees _ h, pfwFall_logAgrees _ h,
      h.of_link (readTransaction_link ..), h.of_link (writeAddressed_link ..), h.of_link (clockLowTimeout_link ..)]

/-- The symbols of KEYS, with their events (R83, R84). -/
theorem takeSymbols_logAgrees (xs : List Symbol) (i : Nat) (es : List (Nat × KeysEvent)) {s : State}
    (h : s.LogAgrees) : (takeSymbols i xs es s).state.LogAgrees := by
  induction xs generalizing i es s with
  | nil => exact h
  | cons x xs ih =>
    have h1 := takeSymbol_logAgrees x (takeEvents_logAgrees (es.takeWhile fun e => decide (e.1 ≤ i)) h)
    unfold takeSymbols
    dsimp only
    split <;> rename_i he <;> rw [he] at h1
    exacts [h1, ih _ _ h1]

theorem serveKeys_logAgrees (es : List (Nat × KeysEvent)) (p : List Byte) {s : State} (h : s.LogAgrees) :
    (serveKeys es p s).LogAgrees := by
  have h1 : (keysTaken es p (enterWorking s)).2.1.LogAgrees := by
    unfold keysTaken
    split
    · exact h
    · exact takeSymbols_logAgrees _ _ _ (s := enterWorking s) h
  exact takeEvents_logAgrees _ (placeReply_logAgrees _ _ h1)

/-- An item whose owner keeps the agreement. -/
theorem itemOf_logAgrees {n : Nat} {o : Owner} {v : List Byte} {s : State} (h : s.LogAgrees)
    (ho : (o v s).2.LogAgrees) : (itemOf n o v s).2.LogAgrees := by
  unfold itemOf
  split
  exacts [ho, h]

theorem identityItem_logAgrees (v : List Byte) {s : State} (h : s.LogAgrees) :
    (identityItem v s).2.LogAgrees := by
  refine itemOf_logAgrees h ?_
  dsimp only
  have h1 := settleBurn_logAgrees h
  generalize settleBurn s = s1 at h1 ⊢
  split
  · exact h1
  · split <;> exact h1

theorem slot0KeyItem_logAgrees (v : List Byte) {s : State} (h : s.LogAgrees) :
    (slot0KeyItem v s).2.LogAgrees := by
  refine itemOf_logAgrees h ?_
  dsimp only
  have h1 := settleBurn_logAgrees h
  generalize settleBurn s = s1 at h1 ⊢
  split <;> exact h1

theorem groupSlotItem_logAgrees (v : List Byte) {s : State} (h : s.LogAgrees) :
    (groupSlotItem v s).2.LogAgrees := by
  refine itemOf_logAgrees h ?_
  dsimp only
  split <;> exact h

theorem openingBalanceItem_logAgrees (v : List Byte) {s : State} (h : s.LogAgrees) :
    (openingBalanceItem v s).2.LogAgrees := by
  have hc := claim_logAgrees (Account.reopen (natOfBytes v * Config.hundredth)) h
  simp only [openingBalanceItem, itemOf, taken, refuseArgument]
  split_ifs
  exacts [h, hc, h]

theorem pulseWeightItem_logAgrees (v : List Byte) {s : State} (h : s.LogAgrees) :
    (pulseWeightItem v s).2.LogAgrees := by
  refine itemOf_logAgrees h ?_
  dsimp only
  split <;> exact h

theorem absoluteBillingItem_logAgrees (v : List Byte) {s : State} (h : s.LogAgrees) :
    (absoluteBillingItem v s).2.LogAgrees := by
  refine itemOf_logAgrees h ?_
  dsimp only
  split <;> exact h

theorem stallTimeItem_logAgrees (v : List Byte) {s : State} (h : s.LogAgrees) :
    (stallTimeItem v s).2.LogAgrees := by
  refine itemOf_logAgrees h ?_
  dsimp only
  split <;> exact h

theorem reconnectModeItem_logAgrees (v : List Byte) {s : State} (h : s.LogAgrees) :
    (reconnectModeItem v s).2.LogAgrees := by
  refine itemOf_logAgrees h ?_
  dsimp only
  split <;> exact h

theorem accountSettingsItem_logAgrees (v : List Byte) {s : State} (h : s.LogAgrees) :
    (accountSettingsItem v s).2.LogAgrees := by
  refine itemOf_logAgrees h ?_
  dsimp only
  split
  exacts [claim_logAgrees _ h, h]

theorem loadLimitsItem_logAgrees (v : List Byte) {s : State} (h : s.LogAgrees) :
    (loadLimitsItem v s).2.LogAgrees := by
  refine itemOf_logAgrees h ?_
  dsimp only
  exact h

theorem tamperActionsItem_logAgrees (v : List Byte) {s : State} (h : s.LogAgrees) :
    (tamperActionsItem v s).2.LogAgrees := by
  refine itemOf_logAgrees h ?_
  dsimp only
  split
  · exact evaluateTamper_logAgrees (s := State.setTmp _ _) (h.of_sets rfl fun _ => rfl)
  · exact h

theorem activeTariffItem_logAgrees (v : List Byte) {s : State} (h : s.LogAgrees) :
    (activeTariffItem v s).2.LogAgrees := by
  refine itemOf_logAgrees h ?_
  dsimp only
  split <;> exact h

theorem calendarItem_logAgrees (v : List Byte) {s : State} (h : s.LogAgrees) :
    (calendarItem v s).2.LogAgrees := by
  refine itemOf_logAgrees h ?_
  dsimp only
  split
  · exact evaluateFriendly_logAgrees (s := State.setTcu _ _) h
  · exact h

/-- The owner of an item of COMMISSION_WRITE (R194). -/
theorem ownerOfItem_logAgrees {n : Nat} {owner : Owner} (ho : ownerOfItem n = some owner) (v : List Byte)
    {s : State} (h : s.LogAgrees) : (owner v s).2.LogAgrees := by
  unfold ownerOfItem at ho
  split at ho
  all_goals cases ho
  exacts [identityItem_logAgrees v h, slot0KeyItem_logAgrees v h, groupSlotItem_logAgrees v h, openingBalanceItem_logAgrees v h, pulseWeightItem_logAgrees v h, absoluteBillingItem_logAgrees v h, stallTimeItem_logAgrees v h, reconnectModeItem_logAgrees v h, accountSettingsItem_logAgrees v h, loadLimitsItem_logAgrees v h, tamperActionsItem_logAgrees v h, activeTariffItem_logAgrees v h, calendarItem_logAgrees v h]

theorem commissionLockOwner_logAgrees (p : List Byte) {s : State} (h : s.LogAgrees) :
    (commissionLockOwner p s).2.LogAgrees := by
  have h1 := settleBurn_logAgrees h
  unfold commissionLockOwner
  dsimp only
  split
  · exact pwAttempt_logAgrees h1
  · split <;> exact h1

/-- The owner of every request (section 9.3). -/
theorem ownerOf_logAgrees (r : Request) (p : List Byte) {s : State} (h : s.LogAgrees) :
    (ownerOf r p s).2.LogAgrees := by
  unfold ownerOf
  split
  all_goals try exact h
  · unfold readTariffOwner
    dsimp only
    split <;> exact h
  · unfold readTamperOwner
    split
    · exact h
    · split <;> exact h
  · unfold readLogOwner
    dsimp only
    split <;> exact h
  · unfold readCodeResultOwner
    split <;> exact h
  · unfold setMaskOwner
    dsimp only
    split <;> exact h
  · unfold snapshotLatchOwner
    dsimp only
    split <;> exact h
  · unfold snapshotReadOwner
    split <;> exact h
  · unfold keysOwner keysTaken
    split
    · exact h
    · exact takeSymbols_logAgrees _ _ _ h
  · unfold timeTrimOwner
    dsimp only
    split
    · exact h
    · split
      · exact h
      · split
        · exact h
        · split
          · exact h
          · split
            · exact h
            · exact changeClock_logAgrees _ (s := State.setTcu _ _) h
  · unfold setClockOwner
    split
    · exact h
    · dsimp only
      unfold writeClock
      split
      · split
        exacts [h, changeClock_logAgrees _ h]
      · exact validateClock_logAgrees _ h
  · unfold commissionWriteOwner
    split
    · rename_i ho
      exact ownerOfItem_logAgrees ho _ h
    · exact h
  · exact commissionLockOwner_logAgrees p h

end Sys2Proof.Machine
end

