-- ==== Sys2Proof/WellFormed.lean ====
section
/-! DEFINITION. Which commands a sender can spell: the checks on the operands. -/

namespace Sys2Proof

/-- A request payload fits a request frame: "payload, 0 to 37 bytes" (section 9.7.1). -/
def payloadFits (payload : List Byte) : Bool := payload.length ≤ 37

/-- A COMMISSION_WRITE value fits beside its item byte. -/
def valueFits (value : List Byte) : Bool := value.length ≤ 36

/-- A read lasts no longer than the time since the event before it. -/
def KeysEvent.fits : KeysEvent → Bool
  | .readTransaction m _ _ duration | .clockLowTimeout m duration => decide (duration ≤ m.elapsed)
  | .decodeEnd _ | .entryTimeout _ | .secondTick _ | .pfwFall _ | .writeAddressed _ _ => true

/-- The events inside a KEYS request come before symbols of that request, in rising order (R84). -/
def betweenFits : Nat → Nat → List (Nat × KeysEvent) → Bool
  | _, _, [] => true
  | lo, count, (k, e) :: rest => decide (lo ≤ k) && decide (k < count) && e.fits && betweenFits k count rest

/-- The check on a command. A row with no operand beside its moment is always well-formed. -/
def Instr.wellFormed : Instr → Bool
  | .pulseEdge _ _ | .secondTick _ | .clockWrap _ | .stallDetected _ _ | .demandMinuteEnd _
  | .dayBoundary _ | .lockoutEnd _ | .penaltyEnd _ | .entryTimeout _ | .decodeEnd _ => true
  | .keys _ payload between => payloadFits payload && betweenFits 0 payload.length between
  | .restEnd _ | .coilPulseEnd _ | .settleEnd _ | .reconnectPress _ _ | .runFilterSample _
  | .batteryFilterSample _ => true
  | .frameError _ bytes => !bytes.isEmpty
  | .readTransaction m _ _ duration => decide (duration ≤ m.elapsed)
  | .clockLowTimeout m duration => decide (duration ≤ m.elapsed)
  | .replyHoldTimeout _ => true
  | .identify _ p | .status _ p | .readAccount _ p | .readEnergy _ p | .readTariff _ p
  | .readCalendar _ p | .readSwitch _ p | .readTamper _ p | .readLog _ p | .readCodeResult _ p
  | .readNotices _ p | .setAttentionMask _ p | .snapshotLatch _ p | .snapshotRead _ p
  | .timeRead _ p | .timeTrim _ p | .setClock _ p => payloadFits p
  | .identity _ v | .slot0Key _ v => valueFits v
  | .otsBurnEnd _ => true
  | .groupSlot _ v | .openingBalance _ v | .pulseWeight _ v | .absoluteBilling _ v | .stallTime _ v
  | .reconnectMode _ v | .accountSettings _ v | .loadLimits _ v | .tamperActions _ v
  | .activeTariffField _ v | .calendarField _ v => valueFits v
  | .commissionLock _ p => payloadFits p
  | .commissionLockBurnEnd _ | .vddGood _ | .vddLost _ | .vbatLost _ | .rstnFall _ | .pfwFall _
  | .pfwRise _ | .startUp _ _ | .lossMarkBurnEnd _ | .writeAddressed _ _ | .writeWithNoRequest _ => true

end Sys2Proof
end

