-- ==== Sys2Proof/Laws/PerInstr.lean ====
section
/-! SUPPORT. The laws made command by command. Family `Payloads`: the frame of a well-formed command fits the
request frame of section 9.7.1. -/

namespace Sys2Proof.Laws.Payloads

set_option Elab.async false

/-- A well-formed command whose frame carries a request carries at most 37 payload bytes. -/
def Statement (i : Instr) : Prop :=
  ∀ m r p, Machine.requestOf i = some (m, r, p) → i.wellFormed = true → p.length ≤ 37

theorem pulseEdge (m : Moment) (x : Phase) : Statement (.pulseEdge m x) := by
  intro m' r p h _
  cases h

theorem secondTick (m : Moment) : Statement (.secondTick m) := by
  intro m' r p h _
  cases h

theorem clockWrap (m : Moment) : Statement (.clockWrap m) := by
  intro m' r p h _
  cases h

theorem stallDetected (m : Moment) (x : Phase) : Statement (.stallDetected m x) := by
  intro m' r p h _
  cases h

theorem demandMinuteEnd (m : Moment) : Statement (.demandMinuteEnd m) := by
  intro m' r p h _
  cases h

theorem dayBoundary (m : Moment) : Statement (.dayBoundary m) := by
  intro m' r p h _
  cases h

theorem lockoutEnd (m : Moment) : Statement (.lockoutEnd m) := by
  intro m' r p h _
  cases h

theorem penaltyEnd (m : Moment) : Statement (.penaltyEnd m) := by
  intro m' r p h _
  cases h

theorem entryTimeout (m : Moment) : Statement (.entryTimeout m) := by
  intro m' r p h _
  cases h

theorem decodeEnd (m : Moment) : Statement (.decodeEnd m) := by
  intro m' r p h _
  cases h

theorem keys (m : Moment) (x : List Byte) (y : List (Nat × KeysEvent)) : Statement (.keys m x y) := by
  intro m' r p h w
  cases h
  simp [Instr.wellFormed, payloadFits] at w
  omega

theorem restEnd (m : Moment) : Statement (.restEnd m) := by
  intro m' r p h _
  cases h

theorem coilPulseEnd (m : Moment) : Statement (.coilPulseEnd m) := by
  intro m' r p h _
  cases h

theorem settleEnd (m : Moment) : Statement (.settleEnd m) := by
  intro m' r p h _
  cases h

theorem reconnectPress (m : Moment) (x : Nat) : Statement (.reconnectPress m x) := by
  intro m' r p h _
  cases h

theorem runFilterSample (m : Moment) : Statement (.runFilterSample m) := by
  intro m' r p h _
  cases h

theorem batteryFilterSample (m : Moment) : Statement (.batteryFilterSample m) := by
  intro m' r p h _
  cases h

theorem frameError (m : Moment) (x : List Byte) : Statement (.frameError m x) := by
  intro m' r p h _
  cases h

theorem readTransaction (m : Moment) (x : BitVec 7) (y : Nat) (z : Nat) : Statement (.readTransaction m x y z) := by
  intro m' r p h _
  cases h

theorem clockLowTimeout (m : Moment) (x : Nat) : Statement (.clockLowTimeout m x) := by
  intro m' r p h _
  cases h

theorem replyHoldTimeout (m : Moment) : Statement (.replyHoldTimeout m) := by
  intro m' r p h _
  cases h

theorem identify (m : Moment) (x : List Byte) : Statement (.identify m x) := by
  intro m' r p h w
  cases h
  simp [Instr.wellFormed, payloadFits] at w
  omega

theorem status (m : Moment) (x : List Byte) : Statement (.status m x) := by
  intro m' r p h w
  cases h
  simp [Instr.wellFormed, payloadFits] at w
  omega

theorem readAccount (m : Moment) (x : List Byte) : Statement (.readAccount m x) := by
  intro m' r p h w
  cases h
  simp [Instr.wellFormed, payloadFits] at w
  omega

theorem readEnergy (m : Moment) (x : List Byte) : Statement (.readEnergy m x) := by
  intro m' r p h w
  cases h
  simp [Instr.wellFormed, payloadFits] at w
  omega

theorem readTariff (m : Moment) (x : List Byte) : Statement (.readTariff m x) := by
  intro m' r p h w
  cases h
  simp [Instr.wellFormed, payloadFits] at w
  omega

theorem readCalendar (m : Moment) (x : List Byte) : Statement (.readCalendar m x) := by
  intro m' r p h w
  cases h
  simp [Instr.wellFormed, payloadFits] at w
  omega

theorem readSwitch (m : Moment) (x : List Byte) : Statement (.readSwitch m x) := by
  intro m' r p h w
  cases h
  simp [Instr.wellFormed, payloadFits] at w
  omega

theorem readTamper (m : Moment) (x : List Byte) : Statement (.readTamper m x) := by
  intro m' r p h w
  cases h
  simp [Instr.wellFormed, payloadFits] at w
  omega

theorem readLog (m : Moment) (x : List Byte) : Statement (.readLog m x) := by
  intro m' r p h w
  cases h
  simp [Instr.wellFormed, payloadFits] at w
  omega

theorem readCodeResult (m : Moment) (x : List Byte) : Statement (.readCodeResult m x) := by
  intro m' r p h w
  cases h
  simp [Instr.wellFormed, payloadFits] at w
  omega

theorem readNotices (m : Moment) (x : List Byte) : Statement (.readNotices m x) := by
  intro m' r p h w
  cases h
  simp [Instr.wellFormed, payloadFits] at w
  omega

theorem setAttentionMask (m : Moment) (x : List Byte) : Statement (.setAttentionMask m x) := by
  intro m' r p h w
  cases h
  simp [Instr.wellFormed, payloadFits] at w
  omega

theorem snapshotLatch (m : Moment) (x : List Byte) : Statement (.snapshotLatch m x) := by
  intro m' r p h w
  cases h
  simp [Instr.wellFormed, payloadFits] at w
  omega

theorem snapshotRead (m : Moment) (x : List Byte) : Statement (.snapshotRead m x) := by
  intro m' r p h w
  cases h
  simp [Instr.wellFormed, payloadFits] at w
  omega

theorem timeRead (m : Moment) (x : List Byte) : Statement (.timeRead m x) := by
  intro m' r p h w
  cases h
  simp [Instr.wellFormed, payloadFits] at w
  omega

theorem timeTrim (m : Moment) (x : List Byte) : Statement (.timeTrim m x) := by
  intro m' r p h w
  cases h
  simp [Instr.wellFormed, payloadFits] at w
  omega

theorem setClock (m : Moment) (x : List Byte) : Statement (.setClock m x) := by
  intro m' r p h w
  cases h
  simp [Instr.wellFormed, payloadFits] at w
  omega

theorem identity (m : Moment) (x : List Byte) : Statement (.identity m x) := by
  intro m' r p h w
  cases h
  simp [Instr.wellFormed, valueFits] at w
  simp
  omega

theorem slot0Key (m : Moment) (x : List Byte) : Statement (.slot0Key m x) := by
  intro m' r p h w
  cases h
  simp [Instr.wellFormed, valueFits] at w
  simp
  omega

theorem otsBurnEnd (m : Moment) : Statement (.otsBurnEnd m) := by
  intro m' r p h _
  cases h

theorem groupSlot (m : Moment) (x : List Byte) : Statement (.groupSlot m x) := by
  intro m' r p h w
  cases h
  simp [Instr.wellFormed, valueFits] at w
  simp
  omega

theorem openingBalance (m : Moment) (x : List Byte) : Statement (.openingBalance m x) := by
  intro m' r p h w
  cases h
  simp [Instr.wellFormed, valueFits] at w
  simp
  omega

theorem pulseWeight (m : Moment) (x : List Byte) : Statement (.pulseWeight m x) := by
  intro m' r p h w
  cases h
  simp [Instr.wellFormed, valueFits] at w
  simp
  omega

theorem absoluteBilling (m : Moment) (x : List Byte) : Statement (.absoluteBilling m x) := by
  intro m' r p h w
  cases h
  simp [Instr.wellFormed, valueFits] at w
  simp
  omega

theorem stallTime (m : Moment) (x : List Byte) : Statement (.stallTime m x) := by
  intro m' r p h w
  cases h
  simp [Instr.wellFormed, valueFits] at w
  simp
  omega

theorem reconnectMode (m : Moment) (x : List Byte) : Statement (.reconnectMode m x) := by
  intro m' r p h w
  cases h
  simp [Instr.wellFormed, valueFits] at w
  simp
  omega

theorem accountSettings (m : Moment) (x : List Byte) : Statement (.accountSettings m x) := by
  intro m' r p h w
  cases h
  simp [Instr.wellFormed, valueFits] at w
  simp
  omega

theorem loadLimits (m : Moment) (x : List Byte) : Statement (.loadLimits m x) := by
  intro m' r p h w
  cases h
  simp [Instr.wellFormed, valueFits] at w
  simp
  omega

theorem tamperActions (m : Moment) (x : List Byte) : Statement (.tamperActions m x) := by
  intro m' r p h w
  cases h
  simp [Instr.wellFormed, valueFits] at w
  simp
  omega

theorem activeTariffField (m : Moment) (x : List Byte) : Statement (.activeTariffField m x) := by
  intro m' r p h w
  cases h
  simp [Instr.wellFormed, valueFits] at w
  simp
  omega

theorem calendarField (m : Moment) (x : List Byte) : Statement (.calendarField m x) := by
  intro m' r p h w
  cases h
  simp [Instr.wellFormed, valueFits] at w
  simp
  omega

theorem commissionLock (m : Moment) (x : List Byte) : Statement (.commissionLock m x) := by
  intro m' r p h w
  cases h
  simp [Instr.wellFormed, payloadFits] at w
  omega

theorem commissionLockBurnEnd (m : Moment) : Statement (.commissionLockBurnEnd m) := by
  intro m' r p h _
  cases h

theorem vddGood (m : Moment) : Statement (.vddGood m) := by
  intro m' r p h _
  cases h

theorem vddLost (m : Moment) : Statement (.vddLost m) := by
  intro m' r p h _
  cases h

theorem vbatLost (m : Moment) : Statement (.vbatLost m) := by
  intro m' r p h _
  cases h

theorem rstnFall (m : Moment) : Statement (.rstnFall m) := by
  intro m' r p h _
  cases h

theorem pfwFall (m : Moment) : Statement (.pfwFall m) := by
  intro m' r p h _
  cases h

theorem pfwRise (m : Moment) : Statement (.pfwRise m) := by
  intro m' r p h _
  cases h

theorem startUp (m : Moment) (x : StartUpRun) : Statement (.startUp m x) := by
  intro m' r p h _
  cases h

theorem lossMarkBurnEnd (m : Moment) : Statement (.lossMarkBurnEnd m) := by
  intro m' r p h _
  cases h

theorem writeAddressed (m : Moment) (x : BitVec 7) : Statement (.writeAddressed m x) := by
  intro m' r p h _
  cases h

theorem writeWithNoRequest (m : Moment) : Statement (.writeWithNoRequest m) := by
  intro m' r p h _
  cases h

end Sys2Proof.Laws.Payloads
end

