-- ==== Sys2Proof/Laws/StartUp.lean ====
section
/-! SUPPORT. The start-up steps, said once: what the check leaves, the catch-up as the boundaries it delivers, and the
whole of a start-up, or what is left of one cut short, as its steps in their order (R203, R204, R72). -/

namespace Sys2Proof.Machine

/-- An evaluation of the friendly period records its value as the last handed and changes no other item (R67). -/
theorem evaluateFriendly_tcu (s : State) :
    (evaluateFriendly s).tcu = { s.tcu with lastFriendly := some (friendlyNow s.tcu) } := by
  unfold evaluateFriendly
  dsimp only
  split
  · rename_i h
    rw [← h]
  · simp

/-- A boundary moves the last processed day on and leaves the clock and the friendly value (R69). -/
theorem deliverBoundary_tcu (s : State) :
    (deliverBoundary s).tcu.lastDay = s.tcu.lastDay + 1 ∧ (deliverBoundary s).tcu.clock = s.tcu.clock ∧
      (deliverBoundary s).tcu.valid = s.tcu.valid ∧ (deliverBoundary s).tcu.lastFriendly = s.tcu.lastFriendly ∧
      (deliverBoundary s).tcu.cal = s.tcu.cal := by
  unfold deliverBoundary boundaryActivation boundaryOverride
  dsimp only
  (repeat' split) <;> simp

/-- `n` boundaries move the last processed day on by `n` (R72). -/
theorem deliverBoundaries_tcu (n : Nat) (s : State) :
    (deliverBoundaries n s).tcu.lastDay = s.tcu.lastDay + n ∧ (deliverBoundaries n s).tcu.clock = s.tcu.clock ∧
      (deliverBoundaries n s).tcu.valid = s.tcu.valid ∧
      (deliverBoundaries n s).tcu.lastFriendly = s.tcu.lastFriendly ∧
      (deliverBoundaries n s).tcu.cal = s.tcu.cal := by
  induction n generalizing s with
  | zero => simp [deliverBoundaries]
  | succ n ih =>
    obtain ⟨h1, h2, h3, h4, h5⟩ := deliverBoundary_tcu s
    obtain ⟨i1, i2, i3, i4, i5⟩ := ih (deliverBoundary s)
    refine ⟨by rw [deliverBoundaries, i1, h1]; omega, i2.trans h2, i3.trans h3, i4.trans h4, i5.trans h5⟩

/-- A step is taken while the part is STARTING and no loss mark burns (R203, R205). -/
theorem takeSteps_succ {n : Nat} {s : State} (hp : s.sdm.power = .starting) (hb : lossBurning s = false) :
    takeSteps (n + 1) s = takeSteps n (takeStep s) := by
  rw [takeSteps, if_pos ⟨hp, hb⟩]

/-- The check of an ordinary or a blank start leaves the marker SET and stands before the catch-up (R204). -/
theorem checkStep_starts {s : State} (h : s.sdm.marker = true ∨ s.ots.lock = false) :
    checkStep s = s.setSdm ⟨s.sdm.power, true, true, .catchUp⟩ := by
  rcases hm : s.sdm.marker with _ | _
  · have hl : s.ots.lock = false := by simpa [hm] using h
    simp [checkStep, startUpKind, hm, hl, setStep, State.setSdm]
  · simp [checkStep, startUpKind, hm, setStep, State.setSdm]

/-- The catch-up delivers the missed boundaries one by one (R72). -/
theorem takeSteps_catchUp {n k : Nat} {s : State} (hp : s.sdm.power = .starting) (hb : lossBurning s = false)
    (hs : s.sdm.nextStep = .catchUp) (hn : n ≤ missedDays s.tcu) :
    takeSteps (n + k) s = takeSteps k (deliverBoundaries n s) := by
  induction n generalizing s with
  | zero => rw [Nat.zero_add]; rfl
  | succ n ih =>
    have h1 : takeStep s = deliverBoundary s := by
      simp only [takeStep, hs, catchUpStep]
      rw [if_pos (by omega)]
    have h2 := deliverBoundary_tcu s
    have h3 : n ≤ missedDays (deliverBoundary s).tcu := by
      simp only [missedDays, h2] at hn ⊢
      split at hn
      · rename_i hv; simp only [hv]; split <;> simp_all; omega
      · omega
    rw [show n + 1 + k = (n + k) + 1 by omega, takeSteps_succ hp hb, h1]
    exact ih (by simpa using hp) (by simpa [lossBurning] using hb) (by simpa using hs) h3

/-- The boundaries that are due are the ones that the catch-up still has to deliver (R68, R72). -/
theorem deliverDue_eq (s : State) : deliverDue s = deliverBoundaries (missedDays s.tcu) s := by
  unfold deliverDue missedDays
  split <;> rfl

/-- Nothing is missed once the boundaries that are due have been delivered (R68). -/
theorem missedDays_deliverDue (s : State) : missedDays (deliverDue s).tcu = 0 := by
  rw [deliverDue_eq]
  simp only [missedDays, deliverBoundaries_tcu]
  split <;> omega

/-- What a step leaves of the power state and the store when it ends with a `setStep`. -/
theorem setStep_sdm (x : StartStep) (s : State) :
    (setStep x s).sdm = { s.sdm with stepsBegun := true, nextStep := x } := rfl

/-- An ordinary or a blank start that is not cut short: the check, the catch-up and the friendly value, VERIFY, the
acceptor, the pulse unit, the tamper monitor, and the end of the steps (table of R203). -/
theorem takeSteps_all {s : State} (hp : s.sdm.power = .starting) (hs : s.sdm.nextStep = .check)
    (hb : s.ots.burn = none) (hk : s.sdm.marker = true ∨ s.ots.lock = false) :
    takeSteps (allSteps s) s =
      endSteps (tamperStartUp (setStep .tamper (pulseStartUp (setStep .pulse (acceptorStartUp (setStep .acceptor
        (switchStartUp (setStep .verify (evaluateFriendly
          (deliverDue (s.setSdm ⟨s.sdm.power, true, true, .catchUp⟩))))))))))) := by
  have burning : ∀ t : State, t.ots = s.ots → lossBurning t = false := by
    intro t ht
    simp [lossBurning, ht, hb]
  have step : ∀ (n : Nat) (t : State), t.sdm.power = .starting → t.ots = s.ots →
      takeSteps (n + 1) t = takeSteps n (takeStep t) :=
    fun n t h1 h2 => takeSteps_succ h1 (burning t h2)
  have h0 : takeStep s = s.setSdm ⟨s.sdm.power, true, true, .catchUp⟩ := by
    simp only [takeStep, hs, checkStep_starts hk]
  have hm : missedDays (s.setSdm ⟨s.sdm.power, true, true, .catchUp⟩).tcu = missedDays s.tcu := rfl
  rw [allSteps, step _ s hp rfl, h0, ← hm]
  rw [takeSteps_catchUp (k := 5) (s := s.setSdm ⟨s.sdm.power, true, true, .catchUp⟩) hp (burning _ rfl) rfl le_rfl, ← deliverDue_eq]
  rw [step _ _ (by simpa using hp) (by simp)]
  rw [show takeStep (deliverDue (s.setSdm ⟨s.sdm.power, true, true, .catchUp⟩)) =
      setStep .verify (evaluateFriendly (deliverDue (s.setSdm ⟨s.sdm.power, true, true, .catchUp⟩))) by
    simp [takeStep, catchUpStep, missedDays_deliverDue]]
  rw [step _ _ (by simpa [setStep_sdm] using hp) (by simp), takeStep, setStep_sdm]
  rw [step _ _ (by simpa [setStep_sdm] using hp) (by simp), takeStep, setStep_sdm]
  rw [step _ _ (by simpa [setStep_sdm] using hp) (by simp), takeStep, setStep_sdm]
  rw [step _ _ (by simpa [setStep_sdm] using hp) (by simp), takeStep, setStep_sdm]
  rfl

/-- No step is taken once the part has left STARTING (R203). -/
theorem takeSteps_done {n : Nat} {s : State} (h : s.sdm.power ≠ .starting) : takeSteps n s = s := by
  cases n with
  | zero => rfl
  | succ n => rw [takeSteps, if_neg fun k => h k.1]

/-- The end of the steps leaves STARTING (R200). -/
theorem endSteps_power (s : State) : (endSteps s).sdm.power ≠ .starting := by
  unfold endSteps
  dsimp only
  split
  · simp [setPower]
  · simp only [enterHoldup, setPower, acceptorHoldup]
    split <;> simp [endEntry]

/-- The steps that are left from a given one on, past the check (table of R203). -/
def stepsFrom (x : StartStep) (s : State) : State :=
  let tamper := fun s => endSteps (tamperStartUp s)
  let pulse := fun s => tamper (setStep .tamper (pulseStartUp s))
  let acceptor := fun s => pulse (setStep .pulse (acceptorStartUp s))
  let verify := fun s => acceptor (setStep .acceptor (switchStartUp s))
  match x with
  | .tamper => tamper s
  | .pulse => pulse s
  | .acceptor => acceptor s
  | .verify => verify s
  | .check | .catchUp => verify (setStep .verify (evaluateFriendly (deliverDue s)))

/-- Steps that were cut short run on from where they stand (R203). -/
theorem takeSteps_resumed {s : State} (hp : s.sdm.power = .starting) (hb : s.ots.burn = none)
    (hn : s.sdm.nextStep ≠ .check) : takeSteps (allSteps s) s = stepsFrom s.sdm.nextStep s := by
  have burning : ∀ t : State, t.ots = s.ots → lossBurning t = false := by
    intro t ht
    simp [lossBurning, ht, hb]
  have step : ∀ (n : Nat) (t : State), t.sdm.power = .starting → t.ots = s.ots →
      takeSteps (n + 1) t = takeSteps n (takeStep t) :=
    fun n t h1 h2 => takeSteps_succ h1 (burning t h2)
  have t1 : ∀ n x, x.sdm.power = .starting → x.ots = s.ots → x.sdm.nextStep = .tamper →
      takeSteps (n + 1) x = stepsFrom .tamper x := by
    intro n x h1 h2 h3
    rw [step n x h1 h2]
    simp only [takeStep, h3]
    rw [takeSteps_done (endSteps_power _)]
    rfl
  have t2 : ∀ n x, x.sdm.power = .starting → x.ots = s.ots → x.sdm.nextStep = .pulse →
      takeSteps (n + 2) x = stepsFrom .pulse x := by
    intro n x h1 h2 h3
    rw [step (n + 1) x h1 h2]
    simp only [takeStep, h3]
    exact t1 n _ (by simpa [setStep_sdm] using h1) (by simpa using h2) rfl
  have t3 : ∀ n x, x.sdm.power = .starting → x.ots = s.ots → x.sdm.nextStep = .acceptor →
      takeSteps (n + 3) x = stepsFrom .acceptor x := by
    intro n x h1 h2 h3
    rw [step (n + 2) x h1 h2]
    simp only [takeStep, h3]
    exact t2 n _ (by simpa [setStep_sdm] using h1) (by simpa using h2) rfl
  have t4 : ∀ n x, x.sdm.power = .starting → x.ots = s.ots → x.sdm.nextStep = .verify →
      takeSteps (n + 4) x = stepsFrom .verify x := by
    intro n x h1 h2 h3
    rw [step (n + 3) x h1 h2]
    simp only [takeStep, h3]
    exact t3 n _ (by simpa [setStep_sdm] using h1) (by simpa using h2) rfl
  unfold allSteps
  cases hk : s.sdm.nextStep with
  | check => exact absurd hk hn
  | tamper => exact t1 (missedDays s.tcu + 5) s hp rfl hk
  | pulse => exact t2 (missedDays s.tcu + 4) s hp rfl hk
  | acceptor => exact t3 (missedDays s.tcu + 3) s hp rfl hk
  | verify => exact t4 (missedDays s.tcu + 2) s hp rfl hk
  | catchUp =>
    have hst : (deliverDue s).sdm.nextStep = .catchUp := by simpa using hk
    rw [takeSteps_catchUp (k := 6) hp (burning _ rfl) hk le_rfl, ← deliverDue_eq]
    rw [step 5 _ (by simpa using hp) (by simp)]
    rw [show takeStep (deliverDue s) = setStep .verify (evaluateFriendly (deliverDue s)) by
      simp only [takeStep, hst, catchUpStep, missedDays_deliverDue]
      rfl]
    exact t4 1 _ (by simpa [setStep_sdm] using hp) (by simp) rfl

end Sys2Proof.Machine
end

