-- ==== Sys2Proof/Laws/Supply.lean ====
section
/-! SUPPORT. The two resets, said once: what a MAIN reset forgets of the command it comes with, and the part after a
retention start and a MAIN reset together (R200 to R202). -/

namespace Sys2Proof.Machine

/-- What a command's moment leaves, whether or not the MAIN domain is held at its reset (R203). -/
theorem observe_fields (m : Moment) (n : Nat) (s : State) :
    (observe m n s).now = s.now + m.elapsed ∧ (observe m n s).pins = m.pins ∧
      (observe m n s).sdm.power = s.sdm.power ∧ (observe m n s).sdm.marker = s.sdm.marker ∧
      (observe m n s).ots = s.ots := by
  unfold observe
  dsimp only
  split <;>
    simp [State.setNow, State.setPins, State.setRcbLow, mainReset, State.setPiu, State.setTcu, State.setCda, State.setSwc,
      State.setTmp, State.setRpu, State.setLnk, State.setSdm]

/-- A MAIN reset forgets what the command's moment has done to the MAIN domain (R200). -/
theorem mainReset_observe (m : Moment) (n : Nat) (p : PowerState) (s : State) :
    mainReset (setPower p (observe m n s)) =
      mainReset (setPower p
        { s with
          now := s.now + m.elapsed, pins := m.pins, rcbLow := if s.pins.rcb then s.rcbLow else s.now }) := by
  unfold observe
  dsimp only
  generalize (if s.pins.rcb then s.rcbLow else s.now) = low'
  split <;>
  · obtain ⟨now, pins, low, sdm, ots, piu, acu, tcu, cda, swc, tmp, elg, rpu, lnk, pending⟩ := s
    simp only [setPower, mainReset, State.setNow, State.setPins, State.setRcbLow, State.setCda, State.setLnk, State.setSdm,
      State.setPiu, State.setTcu, State.setSwc, State.setTmp, State.setRpu, Cda.mainReset] <;> rfl

/-- The part after a MAIN reset and a retention start: a blank KEEP domain, with the One-Time Store as it stands and the
COMMISSION entry as the lock mark says (R201). -/
theorem retentionStart_mainReset (s : State) :
    retentionStart (mainReset s) =
      { State.reset with
        now := s.now
        pins := s.pins
        rcbLow := s.rcbLow
        sdm := ⟨s.sdm.power, false, false, .check⟩
        ots := s.ots
        swc :=
          { State.reset.swc with
            table := ⟨some ⟨false, 0, none⟩, none, none, none, if s.ots.lock then none else some ⟨false, 0, none⟩⟩
            lastPulseEnd := s.now
            lastPress := s.now }
        pending := s.pending } := by
  obtain ⟨now, pins, low, sdm, ots, piu, acu, tcu, cda, swc, tmp, elg, rpu, lnk, pending⟩ := s
  rfl

/-- A burn that is written leaves none under way (R202). -/
theorem burned_burn (x : Ots) : x.burned.burn = none := by
  unfold Ots.burned
  split
  · assumption
  · split <;> rfl

/-- A store with no burn under way is written as it stands. -/
theorem burned_of_none {x : Ots} (h : x.burn = none) : x.burned = x := by
  simp [Ots.burned, h]

end Sys2Proof.Machine
end

