-- ==== Sys2Proof/Laws/Verify.lean ====
section
/-! SUPPORT. What the start-up steps give, said once: the verification of VERIFY, the acceptor's state and CA, and MS
fallen, and that no later step takes any of it back (R105, R131, R203). -/

namespace Sys2Proof.Machine

/-- What later steps leave of earlier ones: the last verification, a switch that is out of VERIFY, and an MS condition
that has fallen. -/
def Settled (x y : State) : Prop :=
  y.swc.lastVerification = x.swc.lastVerification ∧ (x.swc.switch ≠ .verify → y.swc.switch ≠ .verify) ∧
    (x.tmp.latches.ms.condition = false → y.tmp.latches.ms.condition = false)

theorem Settled.refl (x : State) : Settled x x := ⟨rfl, id, id⟩

theorem Settled.trans {x y z : State} (h : Settled x y) (k : Settled y z) : Settled x z :=
  ⟨k.1.trans h.1, k.2.1 ∘ h.2.1, k.2.2 ∘ h.2.2⟩

/-- A change beside the switch and the latches. -/
theorem Settled.of_eq {x y : State} (h : y.swc = x.swc) (k : y.tmp.latches = x.tmp.latches) : Settled x y :=
  ⟨by rw [h], by rw [h]; exact id, by rw [k]; exact id⟩

/-- An entry into a switch state (R12, R131). -/
theorem enterSwitch_settled {new : SwitchState} (h : new ≠ .verify) (s : State) : Settled s (enterSwitch new s) := by
  by_cases hs : s.swc.switch = new
  · rw [enterSwitch_same hs]
    exact .refl _
  · refine ⟨by rw [enterSwitch_swc hs], fun _ => by rw [enterSwitch_swc hs]; exact h, fun hm => ?_⟩
    rw [enterSwitch_tmp hs]
    unfold latchesAfterLeaving
    dsimp only
    (repeat' split) <;> first | rfl | exact hm

/-- The beginning of an operation (R116). -/
theorem beginOperation_settled (t : Target) (s : State) : Settled s (beginOperation t s) := by
  let o : Operation := ⟨t, 1, .rest, none, 0⟩
  have h1 : Settled s (s.setSwc { s.swc with op := some o }) := ⟨rfl, id, id⟩
  have h2 := enterSwitch_settled (new := movingState t) (by cases t <;> simp [movingState])
    (s.setSwc { s.swc with op := some o })
  have h3 : ∀ x, Settled x (enterRest o x) := fun x => by unfold enterRest; split <;> exact ⟨rfl, id, id⟩
  exact (h1.trans h2).trans (h3 _)

/-- A change of an entry of the open-cause table (R114). -/
theorem changeEntry_settled (c : Cause) (e : Option Entry) (s : State) : Settled s (changeEntry c e s) := by
  have hx : Settled s (entryChanged c e s) := by
    obtain ⟨h, _⟩ := entryChanged_fields c e s
    refine ⟨by rw [h], by rw [h]; exact id, ?_⟩
    unfold entryChanged
    dsimp only
    split <;> simp
  obtain ⟨h1, h2, h3⟩ := changeEntry_cases c e s
  refine hx.trans ?_
  cases ha : s.swc.table.anyActive <;> cases hb : (s.swc.table.set c e).anyActive
  · rw [h3 (ha.trans hb.symm)]
    exact .refl _
  · rw [h1 ha hb]
    unfold activeAppeared
    (repeat' split) <;>
      first | exact .refl _ | exact beginOperation_settled _ _ | exact enterSwitch_settled (by simp) _
  · rw [h2 ha hb]
    unfold lastActiveLeft
    (repeat' split) <;>
      first | exact .refl _ | exact beginOperation_settled _ _ | exact enterSwitch_settled (by simp) _
  · rw [h3 (ha.trans hb.symm)]
    exact .refl _

/-- An evaluation of the TAMPER cause (R153). -/
theorem evaluateTamper_settled (s : State) : Settled s (evaluateTamper s) := by
  unfold evaluateTamper
  split
  exacts [changeEntry_settled _ _ _, changeEntry_settled _ _ _, .refl _]

/-- A condition other than MS that is handed (R145, R149 to R151). -/
theorem hand_settled {k : Kind} (hk : k ≠ .ms) (v : Bool) (p : Option Phase) (s : State) : Settled s (hand k v p s) := by
  have hn : ∀ x, Settled x (notify .tamper x) := fun x => .of_eq (by simp) (by simp)
  have hl : ∀ (l : Latch) x, Settled x (setLatch k l x) := fun l x =>
    ⟨rfl, id, by simp only [setLatch, State.setTmp_fields]; cases k <;> first | exact id | exact absurd rfl hk⟩
  have hr : ∀ x, Settled x (latchRecord k p x) := fun x => by
    unfold latchRecord
    exact .trans (y := append .tamperSet (some k) p none x) (.of_eq (by simp) (by simp)) (hl _ _)
  have hrise : Settled s (rise k p s) := by
    unfold rise
    dsimp only
    generalize hx : setLatch k { s.tmp.latches.get k with condition := k != .pw } s = x
    have h0 : Settled s x := hx ▸ hl _ s
    (repeat' split)
    · exact h0
    · exact h0.trans ((hl _ _).trans (hn _))
    · exact h0.trans (((hr x).trans (hn _)).trans (evaluateTamper_settled _))
    · exact h0.trans ((hr x).trans (hn _))
  unfold hand
  split
  · exact .refl _
  · split
    · exact hrise
    · exact hl _ _

/-- VERIFY leaves its verification and a switch out of VERIFY (R131). -/
theorem switchStartUp_verifies (s : State) :
    (switchStartUp s).swc.lastVerification = some ⟨foundOf s.pins, outOfPlace s.pins (!s.pins.aux)⟩ ∧
      (switchStartUp s).swc.switch ≠ .verify := by
  let y := s.setSwc { s.swc with lastVerification := some ⟨foundOf s.pins, outOfPlace s.pins (!s.pins.aux)⟩ }
  have he : ∀ new, new ≠ .verify → (enterSwitch new y).swc.switch ≠ .verify := by
    intro new hn
    by_cases h : y.swc.switch = new
    · rwa [enterSwitch_same h, h]
    · rwa [enterSwitch_swc h]
  have hb : ∀ t, (beginOperation t y).swc.switch ≠ .verify := by
    intro t
    by_cases h : y.swc.switch = movingState t
    · have hm : movingState t ≠ .verify := by cases t <;> simp [movingState]
      unfold beginOperation enterRest
      dsimp only
      rw [enterSwitch_same (by exact h)]
      split <;> exact fun k => hm (h.symm.trans k)
    · rw [beginOperation_swc h]
      cases t <;> simp [movingState]
  have hc : ∀ a i f, verifyChoice a i f ≠ .verify := by
    intro a i f
    cases a <;> cases i <;> cases f <;> simp [verifyChoice]
  unfold switchStartUp
  dsimp only
  split
  · exact ⟨(beginOperation_settled _ y).1, hb _⟩
  · exact ⟨(beginOperation_settled _ y).1, hb _⟩
  · exact ⟨(enterSwitch_settled (hc _ _ _) y).1, he _ (hc _ _ _)⟩

/-- The acceptor's step gives its state and the CA condition (R105). -/
theorem acceptorStartUp_gives (s : State) :
    (acceptorStartUp s).cda =
        { s.cda with
          acceptor := if s.cda.retired then .retired else if 0 < s.cda.lockoutLeft then .lockout else .idle } ∧
      (acceptorStartUp s).tmp.latches.ca.condition = decide (0 < s.cda.lockoutLeft) ∧
      Settled s (acceptorStartUp s) := by
  unfold acceptorStartUp
  dsimp only
  generalize hy : s.setCda
    { s.cda with
      acceptor := if s.cda.retired then .retired else if 0 < s.cda.lockoutLeft then .lockout else .idle } = y
  have h0 : Settled s y := hy ▸ .of_eq rfl rfl
  refine ⟨by rw [(hand_frame _ _ _ _).2.2.2.2.2.2.2.1, ← hy]; rfl, ?_, h0.trans (hand_settled (by simp) _ _ _)⟩
  obtain ⟨h1, h2, h3⟩ := hand_latches .ca (decide (0 < s.cda.lockoutLeft)) none y
  have hd : decide (0 < y.cda.lockoutLeft) = decide (0 < s.cda.lockoutLeft) := by rw [← hy]; rfl
  rw [hd]
  generalize decide (0 < s.cda.lockoutLeft) = v at *
  by_cases he : (y.tmp.latches.get .ca).condition = v
  · rw [h1 he]
    exact he
  · cases v
    · rw [h2 (by simpa using he) rfl]
      rfl
    · have h := ((h3 (by simpa using he) rfl).2 .ca).2.2 (by simp) (by simp)
      refine h.trans ?_
      simp only [Kinds.get_set, if_true, risenLatch]
      (repeat' split) <;> rfl

/-- The pulse unit's step leaves MS fallen and the CA condition as it was (R13). -/
theorem pulseStartUp_gives (s : State) :
    (pulseStartUp s).tmp.latches.ms.condition = false ∧ Settled s (pulseStartUp s) ∧
      (pulseStartUp s).tmp.latches.ca.condition = s.tmp.latches.ca.condition := by
  have hms : Settled s (hand .ms false none s) ∧ (hand .ms false none s).tmp.latches.ms.condition = false ∧
      (hand .ms false none s).tmp.latches.ca = s.tmp.latches.ca := by
    unfold hand
    split
    · rename_i h
      exact ⟨.refl _, h, rfl⟩
    · exact ⟨⟨rfl, id, fun _ => rfl⟩, rfl, rfl⟩
  have hca : ∀ v p (x : State), (hand .rv v p x).tmp.latches.ca.condition = x.tmp.latches.ca.condition := by
    intro v p x
    obtain ⟨h1, h2, h3⟩ := hand_latches .rv v p x
    by_cases he : (x.tmp.latches.get .rv).condition = v
    · rw [h1 he]
    · cases v
      · rw [h2 (by simpa using he) rfl]
        rfl
      · exact ((h3 (by simpa using he) rfl).2 .ca).2.2 (by simp) (by simp)
  have hrv := hand_settled (k := .rv) (by simp)
  unfold pulseStartUp
  dsimp only
  exact ⟨(hrv _ _ _).2.2 hms.2.1, hms.1.trans (hrv _ _ _), by rw [hca, hms.2.2]⟩

/-- The Tamper Monitor's step (R160). -/
theorem tamperStartUp_settled (s : State) : Settled s (tamperStartUp s) ∧
    (tamperStartUp s).tmp.latches.ca.condition = s.tmp.latches.ca.condition := by
  unfold tamperStartUp
  dsimp only
  generalize hy : s.setTmp { s.tmp with runDue := s.now } = y
  have h0 : Settled s y := hy ▸ ⟨rfl, id, id⟩
  have h1 : y.tmp.latches.ca.condition = s.tmp.latches.ca.condition := hy ▸ rfl
  have h2 := ((evaluateTamper_latches y).2 .ca).2.2 (by simp) (by simp)
  split
  · have hn : (notify .tamper (evaluateTamper y)).tmp = (evaluateTamper y).tmp := by simp
    exact ⟨(h0.trans (evaluateTamper_settled y)).trans (.of_eq (by simp) (by simp)), by rw [hn]; exact h2.trans h1⟩
  · exact ⟨h0.trans (evaluateTamper_settled y), h2.trans h1⟩

end Sys2Proof.Machine
end

