-- ==== Sys2Proof/Laws/Windows.lean ====
section
/-! SUPPORT. The sequence windows, said once: what joins a seen set, and which sequences pass the test (R92). -/

namespace Sys2Proof.Machine

/-- What a rising list holds after a number has joined it. -/
theorem mem_insertSorted (x y : Nat) (l : List Nat) : x ∈ insertSorted y l ↔ x = y ∨ x ∈ l := by
  induction l with
  | nil => simp [insertSorted]
  | cons z zs ih =>
    simp only [insertSorted]
    split_ifs <;> simp_all
    tauto

/-- A sequence passes the test above the top, and below it when unseen and within 32 (R92). -/
theorem windowTest_eq_none (t q : Nat) (seen : List Nat) :
    windowTest ⟨some t, seen⟩ q = none ↔ t < q ∨ q ≠ t ∧ q ∉ seen ∧ t ≤ q + 32 := by
  unfold windowTest
  dsimp only
  by_cases h1 : t < q
  · simp [h1]
  · by_cases h2 : q = t
    · simp [h2]
    · by_cases h3 : q ∈ seen
      · simp [h1, h3]
      · by_cases h4 : q + 32 < t
        · simp [h1, h2, h3, h4]
        · simp [h1, h2, h3, h4]
          omega

end Sys2Proof.Machine
end

