-- ==== Sys2Proof/Tests/Slice0.lean ====
section
/-! SUPPORT. The model's own tests: the checks on commands, one step of each command on a small state with values
from the spec's worked sequences, and for each statement with hypotheses a state that meets them. -/

namespace Sys2Proof.Tests

set_option Elab.async false

open Sys2Proof.Machine

/-! ## Small states -/

/-- The moment `n` ms after the last command, on the levels of reset. -/
def pause (n : Nat) : Moment := ⟨n, levelsAtReset⟩

/-- No time passed. -/
def quiet : Moment := pause 0

/-- An account in LOW: 1.00 of credit, a limit of 5.00, a threshold of 2.00, a cap of 500. -/
def demoAccount : Account := ⟨1000000, 0, false, 500, 200, 500, 1000000, 0, 0, false⟩

/-- An empty open-cause table. -/
def noCauses : CauseTable := ⟨none, none, none, none, none⟩

/-- A locked part in RUN at 10:00 of day 900, a Friday, with the supply closed and the link idle. -/
def running : State :=
  { State.reset with
    now := 100000
    sdm := ⟨.run, true, false, .check⟩
    ots := ⟨some (List.replicate 12 0), some 7, true, 0, none⟩
    acu := demoAccount
    tcu := { State.reset.tcu with clock := 77796000, valid := true, lastDay := 900, lastFriendly := some false }
    swc :=
      { State.reset.swc with
        switch := .closed, intended := .closed, held := .low, table := noCauses } }

/-- The same with a write transaction under way. -/
def listening : State := { running with lnk := { Lnk.mainReset with state := .receiving } }

/-- The same before the lock. -/
def unlocked : State := { listening with ots := .blank }

/-- The same with a reply held for 1,500 ms more. -/
def replying : State :=
  { running with
    lnk := { Lnk.mainReset with state := .replyReady, slot := replyFrame 0x81 0 [], holdTimer := some 1500 } }

/-- With the acceptor as `a`, and digits in its buffer. -/
def typing (a : AcceptorState) (ds : List (Fin 10)) (s : State) : State :=
  { s with cda := { s.cda with acceptor := a, buffer := ds, entryTimer := some 30000 } }

/-- With the switch in `sw` and an operation. -/
def moving (sw : SwitchState) (o : Operation) (s : State) : State :=
  { s with swc := { s.swc with switch := sw, op := some o } }

/-- With the power state `p`. -/
def inPower (p : PowerState) (s : State) : State := { s with sdm := { s.sdm with power := p } }

/-- With the clock at `n`. -/
def atClock (n : Nat) (s : State) : State := { s with tcu := { s.tcu with clock := n } }

/-- Whether a command answers a next state with `a` as its `f`. -/
def shows {α : Type} [DecidableEq α] (c : Instr) (s : State) (f : State → α) (a : α) : Bool :=
  match exec c s with
  | .next t => f t == a
  | _ => false

/-- Whether a request is answered with this frame. -/
def replies (c : Instr) (s : State) (frame : List Byte) : Bool := shows c s (·.lnk.slot) frame

/-! ## The checks on commands: an ill-formed command of each kind is refused -/

theorem test_wf_payload :
    (Instr.status quiet (List.replicate 38 0)).wellFormed = false ∧
    (Instr.status quiet (List.replicate 37 0)).wellFormed = true := by decide

theorem test_wf_value :
    (Instr.identity quiet (List.replicate 37 0)).wellFormed = false ∧
    (Instr.identity quiet (List.replicate 36 0)).wellFormed = true := by decide

theorem test_wf_keys_payload :
    (Instr.keys quiet (List.replicate 38 0x30) []).wellFormed = false := by decide

theorem test_wf_keys_between_above :
    (Instr.keys quiet [0x30] [(1, .secondTick quiet)]).wellFormed = false ∧
    (Instr.keys quiet [0x30] [(0, .secondTick quiet)]).wellFormed = true := by decide

theorem test_wf_keys_between_order :
    (Instr.keys quiet [0x30, 0x31] [(1, .secondTick quiet), (0, .secondTick quiet)]).wellFormed = false ∧
    (Instr.keys quiet [0x30, 0x31] [(0, .secondTick quiet), (1, .secondTick quiet)]).wellFormed = true := by decide

theorem test_wf_keys_between_read :
    (Instr.keys quiet [0x30] [(0, .readTransaction (pause 3) 0x2C 4 4)]).wellFormed = false ∧
    (Instr.keys quiet [0x30] [(0, .readTransaction (pause 4) 0x2C 4 4)]).wellFormed = true := by decide

theorem test_wf_frameError :
    (Instr.frameError quiet []).wellFormed = false ∧ (Instr.frameError quiet [0]).wellFormed = true := by decide

theorem test_wf_readTransaction :
    (Instr.readTransaction (pause 3) 0x2C 5 4).wellFormed = false ∧
    (Instr.readTransaction (pause 4) 0x2C 5 4).wellFormed = true := by decide

theorem test_wf_clockLowTimeout :
    (Instr.clockLowTimeout (pause 30) 31).wellFormed = false ∧
    (Instr.clockLowTimeout (pause 30) 30).wellFormed = true := by decide

theorem test_wf_commissionLock :
    (Instr.commissionLock quiet (List.replicate 38 0)).wellFormed = false := by decide

/-! ## Pulses and ticks -/

/-- The watt-hour of the worked sequence of chapter 1, at 180 micro-units. -/
theorem test_pulseEdge :
    shows (.pulseEdge quiet .p3)
        { running with
          piu := { running.piu with weight := .one, residue := 9, billedWh := 5000 }
          tcu := { running.tcu with active := { running.tcu.active with prices := #v[180, 0, 0, 0] } } }
        (fun t => (t.piu.residue, t.piu.billedWh, t.acu.balance, t.piu.imports.p3)) (0, 5001, 999820, 1) = true := by decide +kernel

theorem test_pulseEdge_rejected :
    shows (.pulseEdge (pause 9) .p1) { running with piu := { running.piu with lastPulse := ⟨some 100000, none, none⟩ } }
        (·.piu.imports.p1) 0 = true := by decide +kernel

theorem test_secondTick :
    shows (.secondTick quiet) { running with cda := { running.cda with lockoutLeft := 220 } }
        (fun t => (t.tcu.clock, t.cda.lockoutLeft)) (77796001, 219) = true := by decide +kernel

theorem test_clockWrap :
    shows (.clockWrap quiet) (atClock 4294967295 running)
        (fun t => (t.tcu.clock, t.tcu.valid)) (0, false) = true := by decide +kernel

theorem test_stallDetected :
    shows (.stallDetected ⟨0, { levelsAtReset with c := ⟨false, true, false⟩ }⟩ .p2)
        { running with piu := { running.piu with stallTimer := ⟨0, 899, 0⟩ } }
        (fun t => (t.piu.stallFlag.p2, t.tmp.latches.ms.condition, t.elg.nextSeq)) (true, true, 2) = true := by decide +kernel

/-- The first minute of the worked sequence of section 5.6. -/
theorem test_demandMinuteEnd :
    shows (.demandMinuteEnd quiet)
        { atClock 77796059 running with
          piu := { running.piu with demand := .running 1800 }
          swc := { running.swc with normalLimit := 10000 } }
        (fun t => (t.piu.lastDemand, t.piu.demand, t.swc.overCount))
        (some ⟨10800, 77796060⟩, .running 0, 1) = true := by decide +kernel

theorem test_demandMinuteEnd_trip :
    shows (.demandMinuteEnd quiet)
        { atClock 77796059 running with
          piu := { running.piu with demand := .running 2000 }
          swc := { running.swc with normalLimit := 10000, overCount := 1, tripsToday := 2 } }
        (fun t => (t.swc.switch, t.swc.tripsToday, penaltySeconds t.swc.table)) (.opening, 3, some 300) = true := by decide +kernel

/-- The boundary of the worked sequence of section 2.5. -/
theorem test_dayBoundary :
    shows (.dayBoundary quiet)
        { atClock 77846399 running with
          acu := ⟨1200000, 0, false, 500, 200, 500, 20000000, 0, 18800000, false⟩
          tcu :=
            { running.tcu with
              clock := 77846399
              active := { running.tcu.active with standing := 1500 } } }
        (·.acu) ⟨0, 300000, false, 500, 200, 500, 20000000, 0, 20300000, true⟩ = true := by decide +kernel

/-- A midnight at which a friendly period defers CREDIT and the boundary takes LOAD_LIMIT away, in AUTO mode: the
friendly evaluation comes first, so that LOAD_LIMIT leaves last and the switch is ARMED (log 44). -/
theorem test_midnightOrder :
    shows (.dayBoundary quiet)
        { running with
          tcu := { running.tcu with clock := 77846399, cal := { running.tcu.cal with restDays := 127, restFriendly := true } }
          acu := { demoAccount with balance := 0, credited := 0, opening := 0 }
          swc :=
            { running.swc with
              switch := .opened, auto := true, held := .exhausted
              table := { noCauses with credit := some ⟨false, 0, none⟩, loadLimit := some ⟨false, 0, some .untilBoundary⟩ } } }
        (fun t => (t.swc.switch, t.swc.table)) (.armed, { noCauses with credit := some ⟨true, 0, none⟩ }) = true := by
  decide +kernel

theorem test_lockoutEnd :
    shows (.lockoutEnd quiet)
        { running with cda := { running.cda with acceptor := .lockout, lockoutLeft := 1 } }
        (fun t => (t.cda.acceptor, t.cda.lockoutLeft)) (.idle, 0) = true := by decide +kernel

theorem test_penaltyEnd :
    shows (.penaltyEnd quiet)
        { running with
          swc :=
            { running.swc with
              switch := .opened
              table := { noCauses with loadLimit := some ⟨false, 5, some (.seconds 1)⟩ } } }
        (fun t => (t.swc.switch, t.swc.table)) (.armed, noCauses) = true := by decide +kernel

/-! ## The Code Acceptor -/

theorem test_entryTimeout :
    shows (.entryTimeout (pause 30000)) (typing .entry [1, 2] running)
        (fun t => (t.cda.acceptor, t.cda.buffer, t.cda.lastResult.map (·.outcome))) (.idle, [], some .entryTimeout) = true := by decide +kernel

/-- The fifth failure of the worked sequence of section 4.6. -/
theorem test_decodeEnd :
    shows (.decodeEnd quiet)
        { typing .decoding [1] running with
          ots := { running.ots with key0 := none }
          cda := { running.cda with acceptor := .decoding, streak := 4 } }
        (fun t => (t.cda.streak, t.cda.lockoutsToday, t.cda.lockoutLeft, t.cda.acceptor, t.elg.records.map (·.type)))
        (0, 1, 600, .lockout, [.lockoutStart, .tamperSet]) = true := by decide +kernel

/-- BACK on 13 digits, in the worked sequence of section 4.4. -/
theorem test_keys :
    replies (.keys quiet [0x08] []) (typing .entry (List.replicate 13 1) listening)
        [0x0A, 0x8F, 0x00, 0x01, 0x00, 0x01, 0x0C, 0x00, 0x00, 0xA8] = true := by decide +kernel

theorem test_keys_overlong :
    replies (.keys quiet [0x31] []) (typing .entry (List.replicate 24 1) listening)
        [0x0A, 0x8F, 0x00, 0x00, 0x05, 0x01, 0x18, 0x00, 0x00, 0x65] = true := by decide +kernel

/-- The table of the worked sequence of section 4.7, row by row. -/
theorem test_window :
    let w0 := SeqWindow.empty
    let w1 := windowAccept w0 100
    let w2 := windowAccept w1 97
    let w3 := windowAccept w2 68
    let w4 := windowAccept w3 110
    let w5 := windowAccept w4 105
    w2 = ⟨some 100, [97]⟩ ∧ windowTest w2 100 = some .duplicate ∧ windowTest w2 97 = some .duplicate ∧
      windowTest w2 67 = some .stale ∧ windowTest w2 68 = none ∧ w3 = ⟨some 100, [68, 97]⟩ ∧
      w4 = ⟨some 110, [97, 100]⟩ ∧ w5 = ⟨some 110, [97, 100, 105]⟩ ∧ windowTest w5 77 = some .stale ∧
      windowAccept w5 150 = ⟨some 150, []⟩ := by decide

/-- The window of the worked sequence of section 4.9. -/
theorem test_reinstate :
    let w := windowReinstate 5000 4990
    w.top = some 5000 ∧ w.seen.head? = some 4968 ∧ w.seen.getLast? = some 4999 ∧ w.seen.length = 32 ∧
      windowTest w 4981 = some .duplicate := by decide

/-- The account of the worked sequence of section 2.6, claim by claim. -/
theorem test_floor :
    let a : Account := ⟨-3000000, 0, true, 500, 200, 500, 10000000, 40000000, 53000000, false⟩
    let b := (a.setLimit 200).charge 1000
    let c := b.setLimit 800
    let d := (c.setLimit 0).setLimit 500
    (a.setLimit 200).balance = -2000000 ∧ (a.setLimit 200).arrears = 1000000 ∧ b.arrears = 1001000 ∧
      c.balance = -3001000 ∧ c.arrears = 0 ∧ d.balance = 0 ∧ d.arrears = 3001000 ∧ d.taken = false ∧
      d.state = .exhausted ∧ d.takeEmergency.balance = -3001000 ∧ d.takeEmergency.state = .emergency := by decide

/-- The credit of the worked sequence of section 2.5, and the cap of section 2.4. -/
theorem test_credit :
    let a : Account := ⟨-5000000, 100250, true, 500, 200, 500, 20000000, 0, 25100250, true⟩
    (a.credit 30000000).balance = 24899750 ∧ (a.credit 30000000).arrears = 0 ∧
      (a.credit 30000000).taken = false ∧ (a.credit 30000000).state = .inCredit ∧
      Account.capAllows 200000 ⟨99800100, 0, false, 0, 0, 100, 0, 0, 0, false⟩ = false ∧
      Account.capAllows 200000 ⟨99799850, 0, false, 0, 0, 100, 0, 0, 0, false⟩ = true := by decide

/-- The bands of the worked sequence of section 3.4. -/
theorem test_bands :
    let ps : List Point :=
      [⟨420, 1, true⟩, ⟨1020, 2, true⟩, ⟨1320, 0, true⟩, ⟨360, 3, false⟩, ⟨0, 0, false⟩]
    (scheduleBand ps 180, scheduleBand ps 390, scheduleBand ps 420, scheduleBand ps 1019, scheduleBand ps 1020,
      scheduleBand ps 1410) = (0, 0, 1, 1, 2, 0) := by decide

/-! ## The switch -/

theorem test_restEnd :
    shows (.restEnd (pause 3000)) { moving .opening ⟨.opened, 1, .rest, none, 0⟩ running with now := 0 }
        (fun t => (t.coDriven, t.ccDriven, t.swc.op.map (·.ends))) (true, false, some 3060) = true := by decide +kernel

theorem test_coilPulseEnd :
    shows (.coilPulseEnd (pause 60)) (moving .closing ⟨.closed, 1, .pulse, none, 100060⟩ running)
        (fun t => (t.ccDriven, t.swc.lastPulseEnd, t.swc.op.map (·.phase))) (false, 100060, some .settle) = true := by decide +kernel

/-- The third failure of the worked sequence of section 5.4. -/
theorem test_settleEnd :
    shows (.settleEnd
          ⟨500, { levelsAtReset with v := .all true, l := ⟨false, true, false⟩, aux := true }⟩)
        (moving .opening ⟨.opened, 3, .settle, none, 100500⟩ running)
        (fun t => (t.swc.switch, t.swc.lastVerification, t.elg.records.map (·.phase), t.swc.intended))
        (.fault, some ⟨.mixed, some .p2⟩, [some .p2], .opened) = true := by decide +kernel

/-- The levels with the push button pressed. -/
def pressing : Levels := { levelsAtReset with rcb := true }

/-- The switch ARMED, with the button's line at `rcb` after the last command and the last press at `t`. -/
def pressed (rcb : Bool) (t : Nat) : State :=
  { running with
    pins := { levelsAtReset with rcb := rcb }
    swc := { running.swc with switch := .armed, lastPress := t } }

theorem test_reconnectPress :
    shows (.reconnectPress ⟨60, pressing⟩ 50) (pressed false 0) (fun t => (t.swc.switch, t.swc.pressLatch, t.swc.lastPress))
      (.closing, false, 100060) = true := by decide +kernel

/-- The same high level gives no second press, and a line that is low, or was low too late, gives none (R122). -/
theorem test_reconnectPress_none :
    shows (.reconnectPress ⟨60, pressing⟩ 200) (pressed true 99900) (·.swc.switch) .armed = true ∧
      shows (.reconnectPress ⟨60, levelsAtReset⟩ 50) (pressed false 0) (·.swc.switch) .armed = true ∧
      shows (.reconnectPress ⟨60, pressing⟩ 61) (pressed false 0) (·.swc.switch) .armed = true ∧
      shows (.reconnectPress ⟨60, pressing⟩ 49) (pressed false 0) (·.swc.switch) .armed = true := by decide +kernel

/-- The line low, 20 ms later high, and 20 ms later a press claimed to be held for 50 ms: the line was low 40 ms ago, so
there is none; 10 ms later there is one (R122; log 42). -/
theorem test_reconnectPress_lowBefore :
    (match exec (.entryTimeout ⟨20, pressing⟩) (pressed false 0) with
      | .next t =>
        t.rcbLow == 100000 && shows (.reconnectPress ⟨20, pressing⟩ 50) t (·.swc.switch) .armed &&
          shows (.reconnectPress ⟨30, pressing⟩ 50) t (·.swc.switch) .closing
      | _ => false) = true := by decide +kernel

/-! ## Tamper -/

theorem test_runFilterSample :
    shows (.runFilterSample ⟨20, { levelsAtReset with cvs := true }⟩)
        { running with tmp := { running.tmp with runCvs := List.replicate 13 true } }
        (fun t => (t.tmp.latches.cv.condition, t.swc.table.tamper.isSome, t.swc.switch, t.elg.records.length))
        (true, true, .opening, 1) = true := by decide +kernel

theorem test_batteryFilterSample :
    shows (.batteryFilterSample ⟨500, { levelsAtReset with tcs := true }⟩)
        { inPower .battery running with tmp := { running.tmp with batteryTcs := List.replicate 3 true } }
        (fun t => (t.tmp.latches.tc.condition, t.rpu.notices)) (true, 512) = true := by decide +kernel

/-- The state after the partial clear of the worked sequence of section 6.7. -/
theorem test_partialClear :
    let l := running.tmp.latches
    let s : State :=
      { running with
        elg := ⟨[], 58⟩
        tmp :=
          { running.tmp with
            latches :=
              { l with
                cv := ⟨true, some ⟨1, none, 52⟩, 0⟩
                tc := ⟨false, some ⟨1, none, 53⟩, 2⟩
                mg := ⟨false, some ⟨1, none, 55⟩, 0⟩ } } }
    let r := effectClear .slot0 ⟨8, 7210, 15, 0⟩ s
    r.2 = some (.clear 6 1) ∧ r.1.elg.records.map (fun x => (x.seq, x.kind)) = [(58, some .tc), (59, some .mg)] ∧
      r.1.tmp.latches.cv.set.isSome = true ∧ r.1.tmp.latches.tc = ⟨false, none, 0⟩ := by decide +kernel

/-- A protected-write attempt at the same time of the timebase has the clear of PW refused (R156; log 41). -/
theorem test_clearAfterAttempt :
    let l := running.tmp.latches
    let s : State :=
      { running with tmp := { running.tmp with latches := { l with pw := ⟨false, some ⟨1, none, 52⟩, 0⟩ } } }
    (effectClear .slot0 ⟨8, 7210, 64, 0⟩ (pwAttempt s)).2 = some (.clear 0 64) ∧
      (effectClear .slot0 ⟨8, 7210, 64, 0⟩ (pwAttempt s)).1.tmp.latches.pw = ⟨false, some ⟨1, none, 52⟩, 1⟩ ∧
      (effectClear .slot0 ⟨8, 7210, 64, 0⟩ { pwAttempt s with now := 100001 }).2 = some (.clear 64 0) := by decide +kernel

/-! ## The link -/

theorem test_writeAddressed :
    shows (.writeAddressed quiet 0x2C) running (fun t => (t.lnk.state, t.lnk.addressAcked)) (.receiving, true) = true := by decide +kernel

theorem test_writeWithNoRequest :
    shows (.writeWithNoRequest quiet) listening (·.lnk.state) .idle = true := by decide +kernel

/-- The check value of this CRC-8 over the nine characters 1 to 9. -/
theorem test_crc8 : crc8 [0x31, 0x32, 0x33, 0x34, 0x35, 0x36, 0x37, 0x38, 0x39] = 0xF4 := by decide +kernel

theorem test_frameError :
    replies (.frameError quiet [0x03, 0x01, 0x39]) listening [0x04, 0xFF, 0x01, 0x7B] = true ∧
      replies (.frameError quiet [0x03, 0x15, 0x54]) listening [0x04, 0x80, 0x02, 0x13] = true := by decide +kernel

theorem test_readTransaction :
    shows (.readTransaction quiet 0x2C 6 0) running (·.lnk.sent) [0x04, 0x80, 0x0A, 0x2B, 0xFF, 0xFF] = true ∧
      shows (.readTransaction quiet 0x2C 4 0) replying (fun t => (t.lnk.sent, t.lnk.state)) ([0x04, 0x81, 0x00, 0x08], .idle) = true := by decide +kernel

theorem test_clockLowTimeout :
    shows (.clockLowTimeout ⟨30, { levelsAtReset with scl := false }⟩ 0) listening (·.lnk.state) .idle = true := by decide +kernel

/-- A START that finds a write under way ends it, and the write it begins is acknowledged (R187, R186; log 40). -/
theorem test_repeatedStart :
    shows (.writeAddressed quiet 0x2C) { listening with lnk := { listening.lnk with request := [3], returnReady := true } }
        (fun t => (t.lnk.state, t.lnk.returnReady, t.lnk.request, t.lnk.addressAcked)) (.receiving, true, [], true) = true ∧
      shows (.writeAddressed quiet 0x11) listening (·.lnk.state) .idle = true := by decide +kernel

/-- The hold timer stands still in a read of the reply alone: not in one to another address (R186, R191). -/
theorem test_holdTimer :
    shows (.readTransaction (pause 100) 0x11 4 100) replying (·.lnk.holdTimer) (some 1400) = true ∧
      shows (.readTransaction (pause 100) 0x2C 1 100) replying (·.lnk.holdTimer) (some 1500) = true ∧
      shows (.clockLowTimeout ⟨100, { levelsAtReset with scl := false }⟩ 30) replying (·.lnk.holdTimer) (some 1430) = true ∧
      shows (.clockLowTimeout ⟨100, { levelsAtReset with scl := false }⟩ 29) replying (·.lnk.holdTimer) (some 1400) = true := by
  decide +kernel

/-- A read that ends a write with no byte sends the kept reply, and the hold timer stands still in it (R187, R191). -/
theorem test_holdTimer_repeatedStart :
    shows (.readTransaction (pause 100) 0x2C 1 90)
      { replying with lnk := { replying.lnk with state := .receiving, returnReady := true } }
      (fun t => (t.lnk.state, t.lnk.sent, t.lnk.holdTimer)) (.replyReady, [0x04], some 1490) = true := by decide +kernel

/-- The events placed after the symbol refused come after the answer, whose hold timer has run by then (R84, R190). -/
theorem test_keysBetween :
    shows (.keys quiet [0x31, 0x31] [(1, .secondTick (pause 700))])
        { typing .decoding [] listening with cda := { (typing .decoding [] listening).cda with lockoutLeft := 9 } }
        (fun t => (t.lnk.slot, t.lnk.holdTimer, t.cda.lockoutLeft))
        (replyFrame 0x8F 0 [0, 4, 2, 0, 0, 9], some 1300, 8) = true ∧
      shows (.keys quiet [0x31] [(0, .secondTick (pause 700))]) listening
        (fun t => (t.lnk.holdTimer, t.tcu.clock, t.cda.buffer)) (some 2000, 77796001, [1]) = true := by decide +kernel

/-- The worked sequence of section 9.4: a KEYS request is read before it has been answered, and PENDING is sent; then its
reply of 10 bytes stands in the slot. -/
theorem test_keysPending :
    let code := 0x18 :: List.replicate 24 0x30 ++ [0x0D]
    shows (.keys quiet code [(0, .readTransaction (pause 2) 0x2C 4 2)]) listening
        (fun t => (t.lnk.sent, t.lnk.state, t.lnk.slot, t.lnk.holdTimer, t.cda.acceptor))
        (pendingFrame, .replyReady, replyFrame 0x8F 0 [26, 0, 2, 24, 0, 0], some 2000, .decoding) = true ∧
      shows (.keys quiet code [(25, .writeAddressed (pause 2) 0x2C)]) listening
        (fun t => (t.lnk.addressAcked, t.lnk.state, t.lnk.slot.length)) (false, .replyReady, 10) = true := by decide +kernel

/-- A read placed after the symbol refused fetches the reply (R84, R191). -/
theorem test_keysFetched :
    shows (.keys quiet [0x31, 0x31] [(1, .readTransaction quiet 0x2C 10 0)]) (typing .decoding [] listening)
        (fun t => (t.lnk.sent, t.lnk.state)) (replyFrame 0x8F 0 [0, 4, 2, 0, 0, 0], .idle) = true := by decide +kernel

theorem test_replyHoldTimeout :
    shows (.replyHoldTimeout (pause 1500)) replying (fun t => (t.lnk.state, t.rpu.notices)) (.idle, 768) = true := by decide +kernel

theorem test_identify :
    replies (.identify quiet []) listening [0x16, 0x81, 0x00, 0x01, 0x00, 0x00, 0x00, 0x00, 0x00, 0x00, 0x00, 0x00, 0x00, 0x00, 0x00, 0x00, 0x01, 0x01, 0x00, 0x01, 0x00, 0xF7] = true := by decide +kernel

theorem test_status :
    replies (.status quiet []) listening [0x15, 0x82, 0x00, 0x01, 0x01, 0x00, 0x00, 0x00, 0x00, 0x00, 0x00, 0x00, 0x00, 0x03, 0x01, 0x01, 0x00, 0x00, 0x02, 0x00, 0xE4] = true := by decide +kernel

/-- A reply in two frames: 60 payload bytes (R45, R190). -/
theorem test_readAccount :
    shows (.readAccount quiet []) listening (fun t => (t.lnk.slot, t.lnk.remainder))
        ([0x30, 0xC3, 0x00, 0x00, 0x00, 0x00, 0x00, 0x00, 0x0F, 0x42, 0x40, 0x00, 0x00, 0x00, 0x00, 0x00, 0x00, 0x00, 0x00, 0x00, 0x00, 0x00, 0x00, 0x00, 0x00, 0x00, 0x00, 0x00, 0x01, 0x00, 0x01, 0xF4, 0x00, 0x00, 0xC8, 0x00, 0x01, 0xF4, 0x00, 0x00, 0x00, 0x00, 0x00, 0x0F, 0x42, 0x40, 0x00, 0x35],
          [0x00, 0x00, 0x00, 0x00, 0x00, 0x00, 0x00, 0x00, 0x00, 0x00, 0x00, 0x00, 0x00, 0x00, 0x00, 0x00]) = true := by decide +kernel

theorem test_readEnergy :
    shows (.readEnergy quiet []) listening (fun t => (t.lnk.state, t.lnk.slot.length, t.lnk.remainder.length))
        (.replyReady, 48, 21) = true := by decide +kernel

theorem test_readTariff :
    replies (.readTariff quiet [1, 0]) listening [0x16, 0x85, 0x00, 0x00, 0x00, 0x00, 0x00, 0x00, 0x00, 0x00, 0x00, 0x00, 0x00, 0x00, 0x00, 0x00, 0x00, 0x00, 0x00, 0x00, 0x00, 0x0C] = true := by decide +kernel

theorem test_readCalendar :
    shows (.readCalendar quiet []) listening (fun t => (t.lnk.slot.length, t.lnk.remainder))
        (48, [0x00, 0x01, 0x00, 0x00, 0x00]) = true := by decide +kernel

theorem test_readSwitch :
    shows (.readSwitch quiet []) listening (fun t => (t.lnk.slot.take 4, t.lnk.remainder.length)) ([0x30, 0xC7, 0, 1], 18) = true := by decide +kernel

theorem test_readTamper :
    replies (.readTamper quiet [1]) listening [0x15, 0x88, 0x00, 0x01, 0x01, 0x00, 0x00, 0x00, 0x00, 0x00, 0x00, 0x00, 0x00, 0x00, 0x00, 0x00, 0x00, 0x00, 0x00, 0x00, 0xEA] = true := by decide +kernel

theorem test_readLog :
    replies (.readLog quiet [0, 0, 0, 0, 0]) listening [0x0F, 0x89, 0x00, 0x00, 0x00, 0x00, 0x00, 0x00, 0x00, 0x00, 0x00, 0x00, 0x00, 0x01, 0x56] = true := by decide +kernel

theorem test_readCodeResult :
    replies (.readCodeResult quiet [0]) listening [0x05, 0x8A, 0x00, 0x00, 0xC2] = true := by decide +kernel

theorem test_readNotices :
    replies (.readNotices quiet []) listening [0x08, 0x8B, 0x00, 0x02, 0x00, 0x03, 0xFF, 0xD2] = true ∧
      shows (.readNotices quiet []) listening (·.rpu.notices) 0 = true := by decide +kernel

theorem test_setAttentionMask :
    replies (.setAttentionMask quiet [0, 4]) listening [0x08, 0x8C, 0x00, 0x00, 0x04, 0x02, 0x00, 0x6C] = true ∧
      shows (.setAttentionMask quiet [4, 0]) listening (·.rpu.mask) 1023 = true := by decide +kernel

theorem test_snapshotLatch :
    replies (.snapshotLatch quiet [5]) listening [0x06, 0x8D, 0x00, 0x05, 0x00, 0xC5] = true ∧
      shows (.snapshotLatch quiet [5]) listening (fun t => (t.rpu.status.isSome, t.rpu.account.isSome)) (true, false) = true := by decide +kernel

theorem test_snapshotRead :
    replies (.snapshotRead quiet []) listening
        [0x16, 0x8E, 0x00, 0x03, 0x04, 0xA3, 0x12, 0xA0, 0x01, 0x00, 0x01, 0x01, 0x00, 0x00, 0x00, 0x00, 0x00, 0x00, 0x00, 0x00, 0x03, 0xD3] = true := by decide +kernel

theorem test_timeRead :
    replies (.timeRead quiet []) listening [0x14, 0x90, 0x00, 0x04, 0xA3, 0x12, 0xA0, 0x01, 0x03, 0x84, 0x04, 0x02, 0x58, 0x00, 0x00, 0x00, 0x03, 0x84, 0x00, 0xCD] = true := by decide +kernel

/-- Two rows of the worked sequence of section 3.3. -/
theorem test_timeTrim :
    replies (.timeTrim quiet [0x28]) listening [0x09, 0x91, 0x00, 0x04, 0xA3, 0x12, 0xC8, 0x28, 0xAE] = true ∧
      replies (.timeTrim quiet [0x1E]) { listening with tcu := { listening.tcu with trimUsed := 40 } } [0x04, 0x91, 0x07, 0x4A] = true := by decide +kernel

theorem test_setClock :
    replies (.setClock quiet [0x00, 0x00, 0x00, 0x05]) listening [0x04, 0x92, 0x04, 0x7C] = true ∧
      replies (.setClock quiet [0x04, 0xA3, 0x12, 0xA5]) unlocked [0x08, 0x92, 0x00, 0x04, 0xA3, 0x12, 0xA5, 0x68] = true := by decide +kernel

/-! ## Commissioning -/

theorem test_identity :
    shows (.identity quiet (List.replicate 12 9)) unlocked (fun t => (t.lnk.state, t.ots.burn.map (·.ends)))
        (.working, some 100005) = true := by decide +kernel

theorem test_slot0Key :
    shows (.slot0Key quiet (List.replicate 16 1)) unlocked (fun t => (t.lnk.state, t.ots.burn.isSome)) (.working, true) = true := by decide +kernel

theorem test_otsBurnEnd :
    shows (.otsBurnEnd (pause 5))
        { unlocked with
          ots := { Ots.blank with burn := some ⟨.slot0Key 3, 100005⟩ }
          lnk := { Lnk.mainReset with state := .working } }
        (fun t => (t.ots.key0, t.ots.burn, t.lnk.state)) (some 3, none, .replyReady) = true := by decide +kernel

theorem test_groupSlot :
    shows (.groupSlot quiet (2 :: List.replicate 16 1 ++ [9, 0, 5])) unlocked
        (fun t => (t.cda.groups.g2.enabled, t.cda.groups.g2.groupId, t.cda.groups.g2.mask)) (true, 9, 5) = true := by decide +kernel

theorem test_openingBalance :
    shows (.openingBalance quiet [0, 7, 0xD0]) unlocked (fun t => (t.acu.balance, t.acu.opening)) (20000000, 20000000) = true := by decide +kernel

theorem test_pulseWeight :
    shows (.pulseWeight quiet [1]) unlocked (·.piu.weight) .one = true ∧
      replies (.pulseWeight quiet [2]) unlocked [0x04, 0x93, 0x03, 0x7C] = true := by decide +kernel

theorem test_absoluteBilling :
    shows (.absoluteBilling quiet [0]) unlocked (·.piu.absolute) false = true := by decide +kernel

theorem test_stallTime :
    shows (.stallTime quiet [0, 60]) unlocked (·.piu.stallTime) 60 = true ∧
      replies (.stallTime quiet [0, 59]) unlocked [0x04, 0x93, 0x03, 0x7C] = true := by decide +kernel

theorem test_reconnectMode :
    shows (.reconnectMode quiet [1]) unlocked (·.swc.auto) true = true := by decide +kernel

theorem test_accountSettings :
    shows (.accountSettings quiet [0, 0, 1, 0, 0, 2, 0, 0, 3]) unlocked
        (fun t => (t.acu.limit, t.acu.threshold, t.acu.cap)) (1, 2, 3) = true := by decide +kernel

theorem test_loadLimits :
    shows (.loadLimits quiet [0, 0x27, 0x10, 0, 0, 0]) unlocked (fun t => (t.swc.normalLimit, t.swc.reducedLimit)) (10000, 0) = true := by decide +kernel

theorem test_tamperActions :
    shows (.tamperActions quiet [1, 1, 1, 1, 1, 1, 1, 1, 2]) unlocked (·.tmp.actions.cv) .record = true ∧
      replies (.tamperActions quiet [1, 1, 1, 1, 1, 1, 0, 1, 2]) unlocked [0x04, 0x93, 0x03, 0x7C] = true := by decide +kernel

theorem test_activeTariffField :
    shows (.activeTariffField quiet [0, 1, 0, 0, 250]) unlocked
        (fun t => (t.tcu.active.prices.toList, t.tcu.passive.prices.toList)) ([0, 250, 0, 0], [0, 250, 0, 0]) = true := by decide +kernel

theorem test_calendarField :
    shows (.calendarField quiet [12, 0, 0, 16]) unlocked
        (fun t => (t.tcu.cal.restDays, t.tcu.lastFriendly)) (16, some true) = true := by decide +kernel

theorem test_commissionLock :
    replies (.commissionLock quiet []) unlocked [0x05, 0x94, 0x05, 0x03, 0x04] = true ∧
      replies (.commissionLock quiet []) listening [0x04, 0x94, 0x04, 0x02] = true := by decide +kernel

theorem test_commissionLockBurnEnd :
    shows (.commissionLockBurnEnd (pause 5))
        { unlocked with
          ots := { Ots.blank with burn := some ⟨.lockMark, 100005⟩ }
          swc := { unlocked.swc with switch := .opened, table := { noCauses with commission := some ⟨false, 0, none⟩ } }
          lnk := { Lnk.mainReset with state := .working } }
        (fun t => (t.ots.lock, t.swc.table, t.swc.switch, t.elg, t.lnk.state))
        (true, noCauses, .armed, ⟨[], 1⟩, .replyReady) = true := by decide +kernel

/-- The lock restarts the log with the records of the kinds still active (R159, R172): here CV and RL. -/
theorem test_commissionLockBurnEnd_again :
    let active (r : Nat) : Latch := ⟨true, some ⟨5, none, r⟩, 9⟩
    let l := running.tmp.latches
    shows (.commissionLockBurnEnd (pause 5))
        { unlocked with
          ots := { Ots.blank with burn := some ⟨.lockMark, 100005⟩ }
          tmp :=
            { running.tmp with
              latches := { l with cv := active 7, tc := ⟨false, some ⟨5, none, 8⟩, 3⟩, rl := active 9 } } }
        (fun t => (t.elg.records.map fun r => (r.seq, r.kind, r.guarded), t.elg.nextSeq,
          [t.tmp.latches.cv, t.tmp.latches.tc, t.tmp.latches.rl]))
        ([(1, some .cv, true), (2, some .rl, true)], 3,
          [⟨true, some ⟨77796000, none, 1⟩, 0⟩, ⟨false, none, 0⟩, ⟨true, some ⟨77796000, none, 2⟩, 0⟩]) = true := by decide +kernel

/-! ## Supply -/

theorem test_vddGood :
    shows (.vddGood quiet) (inPower .off running) (fun t => (t.sdm.power, t.acu.cap, t.rpu.notices)) (.starting, 100000, 512) = true := by decide +kernel

theorem test_vddLost :
    shows (.vddLost quiet) running (fun t => (t.sdm.power, t.acu)) (.battery, demoAccount) = true := by decide +kernel

theorem test_vbatLost :
    shows (.vbatLost quiet) (inPower .battery running) (fun t => (t.sdm.power, t.sdm.marker)) (.off, false) = true := by decide +kernel

theorem test_rstnFall :
    shows (.rstnFall quiet) running (fun t => (t.sdm.power, t.swc.switch)) (.starting, .verify) = true := by decide +kernel

theorem test_pfwFall :
    shows (.pfwFall quiet) (typing .decoding [1] running) (fun t => (t.sdm.power, t.cda.acceptor, t.cda.buffer)) (.holdup, .idle, []) = true := by decide +kernel

theorem test_pfwRise :
    shows (.pfwRise quiet) (inPower .holdup running) (·.sdm.power) .starting = true := by decide +kernel

/-- The state at the start-up step of the worked sequence of section 3.6. -/
def afterOutage : State :=
  { inPower .starting running with
    acu := ⟨3000000, 0, false, 0, 100, 500, 3000000, 0, 0, false⟩
    rpu := .mainReset
    swc := { running.swc with switch := .verify, held := .inCredit }
    tcu :=
      { running.tcu with
        clock := 69405000, lastDay := 800, lastFriendly := none, actPending := true, actDay := 802
        untilDay := some 801
        active := { running.tcu.active with standing := 1200 }
        passive := { running.tcu.passive with standing := 1500 } } }

/-- Three midnights are caught up, as the table of the worked sequence says. -/
theorem test_startUp :
    shows (.startUp quiet ⟨false, none⟩) afterOutage
        (fun t => ((t.acu.balance, t.acu.arrears, t.acu.debited), t.tcu.lastDay, t.tcu.actPending, t.tcu.untilDay))
        ((0, 900000, 3900000), 803, false, none) = true := by decide +kernel

/-- The notices RESTART, DAY, TARIFF, ACCOUNT, LOW_ALARM and SWITCH, and the entry created DEFERRED. -/
theorem test_startUp_notices :
    shows (.startUp quiet ⟨false, none⟩) afterOutage
        (fun t => (t.sdm.power, t.swc.table.credit.map (·.deferred), t.rpu.notices)) (.run, some true, 715) = true := by decide +kernel

/-- The steps cut short after the check and two of the three midnights (R72). -/
theorem test_startUp_cut :
    shows (.startUp quiet ⟨false, some 3⟩) afterOutage
        (fun t => (t.tcu.lastDay, t.sdm, t.acu.balance)) (802, ⟨.starting, true, true, .catchUp⟩, 600000) = true := by
  decide +kernel

/-- The state in which they were cut. -/
def cutShort : State :=
  { afterOutage with
    sdm := ⟨.starting, true, true, .catchUp⟩
    tcu := { afterOutage.tcu with lastDay := 802 } }

/-- RSTN and VDD end the steps, which begin anew; what has been delivered stands (R200, R203). -/
theorem test_startUp_interrupted :
    shows (.rstnFall quiet) cutShort (fun t => (t.tcu.lastDay, t.sdm)) (802, ⟨.starting, true, false, .check⟩) = true ∧
      shows (.vddLost quiet) cutShort (fun t => (t.tcu.lastDay, t.sdm)) (802, ⟨.battery, true, false, .check⟩) = true ∧
      shows (.startUp quiet ⟨true, none⟩) cutShort (fun t => (t.tcu.lastDay, t.sdm.power)) (803, .holdup) = true := by
  decide +kernel

/-- In STARTING the tick is handled once the calendar's step has been taken (R51). -/
theorem test_tickInStarting :
    let s (x : StartStep) : State := { atClock 77846399 running with sdm := ⟨.starting, true, true, x⟩ }
    shows (.secondTick quiet) (s .acceptor) (fun t => (t.tcu.clock, t.tcu.lastDay)) (77846400, 901) = true ∧
      shows (.secondTick quiet) (s .catchUp) (fun t => (t.tcu.clock, t.tcu.lastDay)) (77846400, 900) = true := by
  decide +kernel

/-- The loss of the worked sequence of section 4.9. -/
theorem test_lossMarkBurnEnd :
    shows (.lossMarkBurnEnd (pause 5))
        { inPower .starting running with
          sdm := ⟨.starting, false, true, .check⟩
          ots := { running.ots with lossCount := 2, burn := some ⟨.lossMark, 100005⟩ } }
        (fun t => (t.ots.lossCount, t.cda.reinstate, t.tmp.latches.rl.condition, t.sdm.marker))
        (3, true, true, true) = true := by decide +kernel

/-! ## Codes that match a slot

The scramble and the digest have no body, so a code that matches is built from them: the word that carries the
fields and their digest, scrambled, and typed in decimal. -/

/-- The digits of a number, `n` of them. -/
def digitsOf : Nat → Nat → List (Fin 10)
  | 0, _ => []
  | n + 1, x => digitsOf n (x / 10) ++ [Fin.ofNat 10 x]

theorem natOfDigits_snoc (xs : List (Fin 10)) (d : Fin 10) :
    natOfDigits (xs ++ [d]) = natOfDigits xs * 10 + d.val := by
  simp [natOfDigits]

theorem natOfDigits_digitsOf (n : Nat) : ∀ x, x < 10 ^ n → natOfDigits (digitsOf n x) = x := by
  induction n with
  | zero => intro x h; simp at h; subst h; rfl
  | succ n ih =>
    intro x h
    rw [digitsOf, natOfDigits_snoc, ih (x / 10) (by omega)]
    simp [Fin.ofNat]
    omega

theorem length_digitsOf (n : Nat) : ∀ x, (digitsOf n x).length = n := by
  induction n with
  | zero => intro x; rfl
  | succ n ih => intro x; simp [digitsOf, ih]

/-- A slice of the covered bits, taken from a word with any check field. -/
theorem slice_append (n : BitVec 52) (c : BitVec 24) (i w : Nat) :
    (n ++ c : Code).extractLsb' (24 + i) w = n.extractLsb' i w := by
  apply BitVec.eq_of_getLsbD_eq
  intro k hk
  simp only [BitVec.getLsbD_extractLsb', hk, decide_true, Bool.true_and, BitVec.getLsbD_append]
  rw [if_neg (by omega)]
  congr 1
  omega

theorem coveredOf_append (n : BitVec 52) (c : BitVec 24) : coveredOf (n ++ c) = n :=
  (slice_append n c 0 52).trans (by simp)

theorem checkOf_append (n : BitVec 52) (c : BitVec 24) : checkOf (n ++ c) = c := by
  apply BitVec.eq_of_getLsbD_eq
  intro k hk
  simp only [checkOf, BitVec.getLsbD_extractLsb', hk, decide_true, Bool.true_and, Nat.zero_add,
    BitVec.getLsbD_append, if_true]

/-- The fields that 52 covered bits carry. -/
def fieldsIn (n : BitVec 52) : Fields :=
  ⟨(n.extractLsb' 48 4).toNat, (n.extractLsb' 32 16).toNat, (n.extractLsb' 8 24).toNat, (n.extractLsb' 0 8).toNat⟩

theorem fieldsOf_append (n : BitVec 52) (c : BitVec 24) : fieldsOf (n ++ c) = fieldsIn n := by
  have h1 := slice_append n c 48 4
  have h2 := slice_append n c 32 16
  have h3 := slice_append n c 8 24
  have h4 := slice_append n c 0 8
  simp only [Nat.reduceAdd] at h1 h2 h3 h4
  simp only [fieldsOf, fieldsIn, h1, h2, h3, h4]

/-- The key of slot 0 in `running`. -/
def demoKey : Key := 7

/-- The code that carries the covered bits `n` under `demoKey`. -/
def codeOf (n : BitVec 52) : Code := Config.scramble demoKey (n ++ Config.digest demoKey n)

/-- A code that does not match: its check field is another. -/
def wrongCode : Code := Config.scramble demoKey ((0 : BitVec 52) ++ (Config.digest demoKey 0 + 1))

/-- A code typed into the acceptor of `s`, which is decoding it since 10 ms. -/
def entered (v : Code) (s : State) : State :=
  { s with
    cda := { s.cda with acceptor := .decoding, buffer := digitsOf 24 v.toNat, decodeSince := s.now - 10 } }

theorem bufferCode_entered (v : Code) (s : State) : bufferCode (entered v s) = v := by
  have : v.toNat < 10 ^ 24 := by have := v.isLt; omega
  simp only [bufferCode, entered, natOfDigits_digitsOf 24 _ this]
  simp

theorem enabledSlots_entered (v : Code) (s : State) : enabledSlots (entered v s) = enabledSlots s := rfl

/-- A code built for slot 0 matches it, with the fields it carries. -/
theorem trySlots_codeOf (n : BitVec 52) (s : State) (hs : enabledSlots s = [(.slot0, demoKey)]) :
    trySlots (bufferCode (entered (codeOf n) s)) (enabledSlots (entered (codeOf n) s)) =
      (some (.slot0, fieldsIn n), 1) := by
  rw [bufferCode_entered, enabledSlots_entered, hs]
  simp only [trySlots, unscramble, codeOf, Equiv.symm_apply_apply, checkOf_append, coveredOf_append, if_true,
    fieldsOf_append]

theorem add_one_ne (x : BitVec 24) : x + 1 ≠ x := by
  intro h
  have := congrArg BitVec.toNat h
  have := x.isLt
  simp at *

/-- The wrong code matches no slot. -/
theorem trySlots_wrongCode (s : State) (hs : enabledSlots s = [(.slot0, demoKey)]) :
    trySlots (bufferCode (entered wrongCode s)) (enabledSlots (entered wrongCode s)) = (none, 1) := by
  rw [bufferCode_entered, enabledSlots_entered, hs]
  simp only [trySlots, unscramble, wrongCode, Equiv.symm_apply_apply, checkOf_append, coveredOf_append]
  rw [if_neg (add_one_ne _)]

/-- `running` has slot 0 alone enabled. -/
theorem enabledSlots_running : enabledSlots running = [(.slot0, demoKey)] := rfl

/-- The covered bits of a code (section 4.5). -/
def covered (cls : BitVec 4) (seq : BitVec 16) (value : BitVec 24) (selector : BitVec 8) : BitVec 52 :=
  cls ++ seq ++ value ++ selector

/-! ## States that meet the hypotheses of the statements -/

/-- A locked part before its start-up steps. -/
def starting : State := { inPower .starting running with swc := { running.swc with switch := .verify } }

/-- The levels with RSTN low. -/
def inReset : State := { State.reset with pins := { levelsAtReset with rstn := false } }

/-- Levels that show an open and a closed contactor. -/
def foundOpen : Levels := { levelsAtReset with v := .all true, aux := true }
def foundClosed : Levels := { levelsAtReset with v := .all true, l := .all true }

/-- A DEFERRED and an ACTIVE entry. -/
def anEntry (deferred : Bool) (penalty : Option Penalty) : Option Entry := some ⟨deferred, 0, penalty⟩

/-- The same with an ACTIVE order. -/
def ordered (s : State) : State :=
  { s with swc := { s.swc with table := { noCauses with order := anEntry false none } } }

theorem test_witness_StepRunsTheFrontCommand : State.reset.pending = [] := by decide

theorem test_witness_CommandsKeepTheQueue : ∃ t, exec (.status quiet []) listening = .next t := ⟨_, rfl⟩

theorem test_witness_AMomentPasses : resetHeld running = false ∧ resetHeld inReset = true := by decide

theorem test_witness_AccountLawfulKept :
    running.acu.Lawful ∧ ∃ t, step { running with pending := [.secondTick quiet] } = .next t :=
  ⟨⟨by decide, by decide, by decide⟩, _, rfl⟩

theorem test_witness_EnergyInRangeKept :
    running.piu.InRange ∧ ∃ t, step { running with pending := [.pulseEdge quiet .p1] } = .next t :=
  ⟨⟨fun n => by cases n <;> decide, by decide, by decide⟩, _, rfl⟩

theorem test_witness_LinkConsistentKept :
    replying.lnk.Consistent ∧ ∃ t, step { replying with pending := [.replyHoldTimeout (pause 1500)] } = .next t := by
  refine ⟨?_, _, rfl⟩
  unfold Lnk.Consistent
  decide

/-- A part whose phase 1 was last pulsed at `t`, with a weight of 1 dWh and a residue of `r`. -/
def pulsed (t r : Nat) : State :=
  { running with
    piu := { running.piu with lastPulse := ⟨some t, none, none⟩, weight := .one, residue := r, demand := .running 3 } }

theorem test_witness_PulseEdges :
    (∀ t0, (pulsed 99990 9).piu.lastPulse.get .p1 = some t0 → t0 + 10 ≤ (pulsed 99990 9).now + quiet.elapsed) ∧
      10 ≤ (pulsed 99990 9).piu.residue + weightDwh (pulsed 99990 9).piu.weight ∧
      ¬10 ≤ (pulsed 99990 8).piu.residue + weightDwh (pulsed 99990 8).piu.weight ∧
      (pulsed 99990 9).piu.demand = .running 3 ∧ running.piu.demand = .waiting ∧
      (inPower .off running).sdm.power = .off ∧ (inPower .holdup running).sdm.power = .holdup ∧
      (pulsed 99991 0).piu.lastPulse.get .p1 = some 99991 ∧ (pulsed 99991 0).now + quiet.elapsed < 99991 + 10 := by
  refine ⟨?_, by decide, by decide, by decide, by decide, by decide, by decide, by decide, by decide⟩
  intro t0 h
  cases h
  decide

theorem test_witness_SecondTicks :
    (inPower .off running).sdm.power = .off ∧ running.sdm.power ≠ .off ∧
      (some (⟨false, 0, some (.seconds 2)⟩ : Entry)) = anEntry false (some (.seconds 2)) ∧ 2 ≤ 2 ∧
      (running.tcu.clock + 1) % 60 ≠ 0 ∧ (atClock 4294967295 running).tcu.clock = 4294967295 := by decide

/-- A phase 2 under current whose stall timer stands at `n`. -/
def stalling (n : Nat) (a : Action) : State :=
  { running with
    piu := { running.piu with stallTimer := ⟨0, n, 0⟩ }
    tmp := { running.tmp with actions := { running.tmp.actions with ms := a } } }

theorem test_witness_StallIsDetected :
    let s := stalling 899 .record
    let m : Moment := ⟨0, { levelsAtReset with c := ⟨false, true, false⟩ }⟩
    s.sdm.power = .run ∧ s.swc.switch = .closed ∧ m.pins.c.get .p2 = true ∧ s.piu.stallFlag.get .p2 = false ∧
      s.piu.stallTime ≤ s.piu.stallTimer.get .p2 + 1 ∧ s.tmp.actions.ms ≠ .disconnect ∧
      s.piu.stallFlag = .all false ∧ s.tmp.latches.ms.condition = false ∧ s.tmp.latches.ms.set = none ∧
      s.tmp.actions.ms ≠ .off ∧ (stalling 899 .off).tmp.actions.ms = .off := by decide

/-- A window of `acc` dWh that ends with the next tick, at a normal limit of 60 W and a reduced one of 30 W, with
`many` minutes over the limit, `trips` trips and the account state held `held`. -/
def metered (acc many trips : Nat) (held : AccountState) (e : Option Entry) : State :=
  { atClock 77796059 running with
    piu := { running.piu with demand := .running acc }
    swc :=
      { running.swc with
        normalLimit := 60, reducedLimit := 30, overCount := many, tripsToday := trips, held := held
        table := { noCauses with loadLimit := e } } }

theorem test_witness_DemandMinuteEnds :
    let limit (s : State) : Nat :=
      if (s.swc.held = .emergency ∨ s.swc.held = .exhausted) ∧ s.swc.reducedLimit ≠ 0 then s.swc.reducedLimit
      else s.swc.normalLimit
    let s (acc many trips : Nat) : State := metered acc many trips .low none
    (s 11 1 2).sdm.power = .run ∧ clockAfterTick (s 11 1 2).tcu.clock % 60 = 0 ∧
      clockAfterTick (atClock 4294967295 running).tcu.clock % 60 = 0 ∧ running.piu.demand = .waiting ∧
      (s 11 1 2).piu.demand = .running 11 ∧ (s 11 1 2).swc.switch = .closed ∧ limit (s 11 1 2) = 60 ∧ 60 < 6 * 11 ∧
      ¬limit (s 10 1 2) < 6 * 10 ∧ limit (metered 10 0 0 .exhausted none) = 30 ∧
      (inPower .holdup (s 11 1 2)).sdm.power = .holdup ∧ (s 11 0 2).swc.overCount = 0 ∧ 1 ≤ (s 11 1 2).swc.overCount ∧
      (s 11 1 2).swc.table.loadLimit = none ∧ (s 11 1 2).swc.table.anyActive = false ∧
      min 255 ((s 11 1 2).swc.tripsToday + 1) = 3 ∧ min 255 ((s 11 1 3).swc.tripsToday + 1) = 4 ∧
      (metered 11 1 0 .low (anEntry true none)).swc.table.loadLimit = some ⟨true, 0, none⟩ ∧
      (ordered (s 11 1 2)).swc.table.anyActive = true ∧ (ordered (s 11 1 2)).swc.table.loadLimit = none := by decide

/-- The last second of day 900 with a LOAD_LIMIT entry of penalty `p`, and the switch OPEN. -/
def held (p : Penalty) : State :=
  { atClock 77846399 running with
    swc := { running.swc with switch := .opened, table := { noCauses with loadLimit := anEntry false (some p) } } }

theorem test_witness_DemandMinuteEnds_boundary :
    let s := held .untilBoundary
    s.sdm.power = .run ∧ s.tcu.valid = true ∧ s.tcu.clock + 1 < 2 ^ 32 ∧ s.tcu.lastDay < (s.tcu.clock + 1) / 86400 ∧
      s.swc.table.loadLimit = some ⟨false, 0, some .untilBoundary⟩ ∧ s.swc.switch = .opened ∧
      s.swc.table.credit = none ∧ entryActive s.swc.table.tamper = false ∧ entryActive s.swc.table.order = false ∧
      entryActive s.swc.table.commission = false ∧ s.tcu.lastDay + 1 = (s.tcu.clock + 1) / 86400 ∧
      s.tcu.active.standing = 0 ∧ s.tcu.untilDay = none ∧ running.swc.table.loadLimit = none ∧
      (held (.seconds 1)).swc.table.loadLimit = some ⟨false, 0, some (.seconds 1)⟩ ∧
      (held (.seconds 0)).swc.table.loadLimit = some ⟨false, 0, some (.seconds 0)⟩ := by decide

/-- The last second of day 900, with an activation for day `d` and an override until day `u`. -/
def lastSecond (d u : Nat) : State :=
  { running with
    tcu := { running.tcu with clock := 77846399, actPending := true, actDay := d, untilDay := some u } }

theorem test_witness_DayBoundaryIsDelivered :
    (lastSecond 901 901).tcu.valid = true ∧ (lastSecond 901 901).tcu.clock + 1 < 2 ^ 32 ∧
      (lastSecond 901 901).tcu.lastDay < ((lastSecond 901 901).tcu.clock + 1) / 86400 ∧
      (lastSecond 901 901).tcu.lastDay + 1 = ((lastSecond 901 901).tcu.clock + 1) / 86400 ∧
      (lastSecond 901 901).tcu.actPending = true ∧
      (lastSecond 901 901).tcu.actDay ≤ (lastSecond 901 901).tcu.lastDay + 1 ∧
      ¬(lastSecond 902 901).tcu.actDay ≤ (lastSecond 902 901).tcu.lastDay + 1 ∧
      (lastSecond 901 900).tcu.untilDay = some 900 ∧ (lastSecond 901 900).tcu.lastDay < 901 ∧
      dayOf running.tcu.clock ≤ running.tcu.lastDay := by decide

/-- A boundary that empties the account and activates the pending tariff: ACCOUNT, LOW_ALARM, TARIFF and DAY. -/
theorem test_dayBoundary_notices :
    shows (.dayBoundary quiet)
        { lastSecond 901 900 with
          tcu := { (lastSecond 901 900).tcu with active := { running.tcu.active with standing := 1000 } } }
        (fun t => (t.acu.state, t.swc.held, [0, 1, 6, 7].map t.rpu.notices.getLsbD))
        (.exhausted, .exhausted, [true, true, true, true]) = true := by decide +kernel

/-- A lockout with `n` seconds left, and an open switch held by a penalty of one second. -/
def serving (n : Nat) (p : PowerState) : State :=
  { inPower p running with
    cda := { running.cda with acceptor := .lockout, lockoutLeft := n }
    swc :=
      { running.swc with
        switch := .opened, table := { noCauses with loadLimit := anEntry false (some (.seconds 1)) } } }

theorem test_witness_LockoutAndPenaltyEnd :
    let s := serving 1 .run
    let t := serving 1 .battery
    s.sdm.power ≠ .off ∧ resetHeld s = false ∧ s.cda.lockoutLeft = 1 ∧ s.sdm.power ≠ .battery ∧
      s.cda.acceptor = .lockout ∧ t.sdm.power = .battery ∧ resetHeld t = false ∧ t.cda.lockoutLeft = 1 ∧
      s.swc.table.loadLimit = some ⟨false, 0, some (.seconds 1)⟩ ∧ s.swc.switch = .opened ∧
      entryActive s.swc.table.credit = false ∧ entryActive s.swc.table.tamper = false ∧
      entryActive s.swc.table.order = false ∧ entryActive s.swc.table.commission = false := by decide

theorem test_witness_EntryTimesOut :
    (typing .entry [1] running).sdm.power = .run ∧ (typing .entry [1] running).cda.entryTimer = some 30000 ∧
      30000 ≤ (pause 30000).elapsed := by decide

/-- A buffer of `n` ones in ENTRY while a write transaction is under way. -/
def ones (n : Nat) : State := typing .entry (List.replicate n 1) listening

theorem test_witness_KeySymbolsAreTaken :
    Listening listening ∧ listening.ots.lock = true ∧ listening.cda.acceptor = .idle ∧ listening.cda.buffer = [] ∧
      Listening (ones 23) ∧ (ones 23).cda.acceptor = .entry ∧ (ones 23).cda.buffer.length + [(1 : Fin 10)].length ≤ 24 ∧
      (ones 2).cda.buffer.length = 2 ∧ (ones 1).cda.buffer.length = 1 ∧ (ones 24).cda.buffer.length = 24 ∧
      (ones 3).cda.buffer ≠ [1, 1, 0] ∧ (ones 3).cda.buffer ≠ [1, 2, 0] ∧ (ones 3).cda.buffer.length = 3 ∧
      2 ^ 76 ≤ natOfDigits (typing .entry (digitsOf 24 (2 ^ 76)) listening).cda.buffer ∧
      (typing .entry (digitsOf 24 (2 ^ 76)) listening).cda.buffer.length = 24 ∧
      natOfDigits (typing .entry (digitsOf 24 (2 ^ 76 - 1)) listening).cda.buffer < 2 ^ 76 ∧
      (typing .entry (digitsOf 24 (2 ^ 76 - 1)) listening).cda.buffer.length = 24 := by decide +kernel

theorem test_witness_RefusedSymbolChangesNothing :
    Listening unlocked ∧ unlocked.ots.lock = false ∧ symbolOfByte 0x39 = some (.digit 9) ∧
      (typing .retired [] listening).cda.acceptor = .retired ∧ (typing .lockout [] listening).cda.acceptor = .lockout ∧
      (typing .decoding [] listening).cda.acceptor = .decoding ∧ Listening (ones 24) ∧
      (ones 24).ots.lock = true ∧ (ones 24).cda.acceptor = .entry ∧ (ones 24).cda.buffer.length = 24 ∧
      symbolOfByte 0x3A = none := by decide

theorem test_witness_LocalCommandsAreTaken :
    let s := typing .entry [1, 1, 0] listening
    let with' (a : Account) : State := { s with acu := a }
    Listening s ∧ s.ots.lock = true ∧ s.cda.acceptor = .entry ∧ s.cda.buffer = [1, 1, 0] ∧ s.acu.taken = false ∧
      s.acu.limit ≠ 0 ∧ s.acu.state ≠ .inCredit ∧ (with' demoAccount.takeEmergency).acu.taken = true ∧
      (with' { demoAccount with limit := 0 }).acu.limit = 0 ∧
      (with' { demoAccount with balance := 2000001 }).acu.state = .inCredit ∧
      (typing .entry [1, 2, 0] listening).cda.buffer = [1, 2, 0] := by decide

/-- A failure streak of `n`. -/
def failing (n : Nat) : State := { running with cda := { running.cda with streak := n } }

theorem test_witness_FailedDecodes (n : Nat) :
    (entered wrongCode (failing n)).sdm.power = .run ∧ (entered wrongCode (failing n)).cda.acceptor = .decoding ∧
      (trySlots (bufferCode (entered wrongCode (failing n))) (enabledSlots (entered wrongCode (failing n)))).1 = none ∧
      (entered wrongCode (failing n)).cda.decodeSince +
          10 * (enabledSlots (entered wrongCode (failing n))).length ≤
        (entered wrongCode (failing n)).now + quiet.elapsed ∧
      (entered wrongCode (failing n)).cda.streak = n ∧
      (entered wrongCode (failing n)).elg.records.length ≤ 30 := by
  refine ⟨rfl, rfl, ?_, ?_, rfl, Nat.zero_le _⟩
  · exact congrArg Prod.fst (trySlots_wrongCode (failing n) rfl)
  · rw [show enabledSlots (entered wrongCode (failing n)) = [(.slot0, demoKey)] from rfl]
    show 99990 + 10 * 1 ≤ 100000 + 0
    decide

/-- What a decode that matches slot 0 meets. -/
theorem decoding_codeOf (n : BitVec 52) (s : State) (hs : enabledSlots s = [(.slot0, demoKey)]) (hn : 10 ≤ s.now) :
    (entered (codeOf n) s).cda.acceptor = .decoding ∧
      trySlots (bufferCode (entered (codeOf n) s)) (enabledSlots (entered (codeOf n) s)) =
        (some (.slot0, fieldsIn n), 1) ∧
      (entered (codeOf n) s).cda.decodeSince + 10 * 1 ≤ (entered (codeOf n) s).now + quiet.elapsed := by
  refine ⟨rfl, trySlots_codeOf n s hs, ?_⟩
  show s.now - 10 + 10 * 1 ≤ s.now + 0
  omega

/-- A code of class 14 is refused. -/
theorem test_witness_ChecksAfterAMatch_refused :
    let n := covered 14 5 0 0
    trySlots (bufferCode (entered (codeOf n) running)) (enabledSlots (entered (codeOf n) running)) =
        (some (.slot0, fieldsIn n), 1) ∧
      verdict .slot0 (fieldsIn n) (entered (codeOf n) running) ≠ .accepted :=
  ⟨(decoding_codeOf _ running rfl (by decide)).2.1, by decide +kernel⟩

/-- A set CV latch whose condition has fallen. -/
def latchedClear : State :=
  { running with
    tmp := { running.tmp with latches := { running.tmp.latches with cv := ⟨false, some ⟨1, none, 1⟩, 255⟩ } } }

/-- A part that waits for its REINSTATE code. -/
def awaiting : State := { running with cda := { running.cda with reinstate := true } }

/-- A CREDIT, a TIME_SET and a REINSTATE code are accepted. -/
theorem test_witness_AcceptedCodeIsTakenWhole :
    (verdict .slot0 (fieldsIn (covered 0 5 100 0)) (entered (codeOf (covered 0 5 100 0)) running) = .accepted ∧
        (fieldsIn (covered 0 5 100 0)).cls = 0) ∧
      (verdict .slot0 (fieldsIn (covered 11 5 100 0)) (entered (codeOf (covered 11 5 100 0)) running) = .accepted ∧
        (fieldsIn (covered 11 5 100 0)).cls = 11) ∧
      verdict .slot0 (fieldsIn (covered 13 5 100 0)) (entered (codeOf (covered 13 5 100 0)) awaiting) = .accepted ∧
      (fieldsIn (covered 13 5 100 0)).cls = 13 := by decide +kernel

/-- The state of the last test meets the other hypotheses too, and those of CreditCodePaysArrearsFirst. -/
theorem test_witness_CreditCodePaysArrearsFirst :
    let n := covered 0 5 100 0
    let s := entered (codeOf n) running
    s.sdm.power = .run ∧ s.cda.acceptor = .decoding ∧
      trySlots (bufferCode s) (enabledSlots s) = (some (.slot0, fieldsIn n), 1) ∧
      s.cda.decodeSince + 10 * 1 ≤ s.now + quiet.elapsed ∧ verdict .slot0 (fieldsIn n) s = .accepted ∧
      (fieldsIn n).cls = 0 :=
  have h := decoding_codeOf (covered 0 5 100 0) running rfl (by decide)
  ⟨rfl, h.1, h.2.1, h.2.2, by decide +kernel, by decide⟩

/-- A code of each class from 1 to 13, each with the state in which slot 0 has it accepted. -/
theorem test_witness_CodesTakeEffect :
    let ok (n : BitVec 52) (s : State) : Bool := verdict .slot0 (fieldsIn n) (entered (codeOf n) s) == .accepted
    ok (covered 1 5 1 0) running = true ∧
      (ok (covered 2 5 0 0) running = true ∧ ok (covered 2 5 0 1) running = true ∧ ok (covered 2 5 1 2) running = true) ∧
      (ok (covered 3 5 7 0) running = true ∧ ok (covered 3 5 7 1) running = true) ∧
      (ok (covered 4 5 1000000 3) running = true ∧ ok (covered 4 5 16777215 4) running = true) ∧
      (ok (covered 5 5 1439 0) running = true ∧ ok (covered 5 5 1439 15) running = true) ∧
      ok (covered 6 5 49710 0) running = true ∧ ok (covered 7 5 1 20) running = true ∧
      (ok (covered 8 5 511 0) running = true ∧ ok (covered 8 5 1 0) latchedClear = true) ∧
      ok (covered 9 5 0 0) running = true := by decide +kernel

theorem test_witness_CodesTakeEffect_rest :
    let ok (n : BitVec 52) (s : State) : Bool := verdict .slot0 (fieldsIn n) (entered (codeOf n) s) == .accepted
    (ok (covered 10 5 0 0) running = true ∧ ok (covered 10 5 0 1) running = true ∧
        ok (covered 10 5 365 2) running = true ∧ ok (covered 10 5 0 3) running = true ∧
        ok (covered 10 5 0 4) running = true) ∧
      (ok (covered 11 5 0xFFFFFF 0) running = true ∧ ok (covered 11 5 0 0) running = true ∧
        ok (covered 11 5 86400 0) running = true ∧ ok (covered 11 5 0 0) { running with tcu := { running.tcu with valid := false } } = true ∧
        running.tcu.lastDay < (running.tcu.clock + 86400) / 86400 ∧ running.tcu.untilDay = none ∧
        (held .untilBoundary).swc.table.loadLimit = some ⟨false, 0, some .untilBoundary⟩ ∧
        (lastSecond 901 900).tcu.untilDay = some 900) ∧
      ok (covered 12 5 0 3) running = true ∧
      ok (covered 13 5 65535 0) awaiting = true ∧ awaiting.cda.retired = false := by decide +kernel

/-- The clauses of a clear (cleared, refused, and refused beside an attempt of the same moment), of an order to a FAULT
and to a switch in another state, of a cancel with the account exhausted, and of a retired part. -/
theorem test_witness_CodesTakeEffect_clauses :
    let n := covered 8 5 1 0
    let s := entered (codeOf n) latchedClear
    let exhausted : State := { running with swc := { running.swc with held := .exhausted } }
    let retired : State := { awaiting with cda := { awaiting.cda with retired := true } }
    s.sdm.power = .run ∧ verdict .slot0 (fieldsIn n) s = .accepted ∧ (fieldsIn n).value.testBit (kindNumber .cv) = true ∧
      (s.tmp.latches.get .cv).set.isSome = true ∧ (s.tmp.latches.get .cv).condition = false ∧
      s.tmp.pwAt ≠ some (s.now + quiet.elapsed) ∧ (pwAttempt running).tmp.pwAt = some (running.now + quiet.elapsed) ∧
      (moving .fault ⟨.closed, 3, .settle, none, 0⟩ running).swc.switch = .fault ∧ running.swc.switch ≠ .fault ∧
      (demoAccount.charge 1000000).state ≠ demoAccount.state ∧ (demoAccount.charge 10000).state = demoAccount.state ∧
      exhausted.swc.held = .exhausted ∧ running.swc.held ≠ .exhausted ∧ retired.cda.retired = true := by decide +kernel

theorem test_witness_TablesGiveTheirValues :
    let a := demoAccount
    let t := a.takeEmergency
    let x : Tcu := { running.tcu with cal := { running.tcu.cal with restDays := 127 } }
    let y : Tcu :=
      { running.tcu with active := { running.tcu.active with work := (Vector.replicate 8 ⟨600, 2, true⟩).set 7 ⟨601, 1, true⟩ } }
    let z : Tcu := { y with clock := 77760000 + 35999 }
    ((1000000 : Nat) : Int) ≤ a.balance - 0 ∧ a.balance - 0 < ((1000001 : Nat) : Int) ∧ a.taken = false ∧
      t.taken = true ∧ t.limit = 500 ∧ 0 ≤ t.balance ∧ (t.charge 2000000).balance < 0 ∧ 499 < t.limit ∧ t.limit < 501 ∧
      -((100 * 10000 : Nat) : Int) ≤ (t.charge 2000000).balance ∧ (t.charge 2000000).balance < -((99 * 10000 : Nat) : Int) ∧
      t.state = .emergency ∧ a.state = .low ∧ { a with balance := 2000001 }.state = .inCredit ∧
      { a with balance := 0 }.state = .exhausted ∧ State.reset.tcu.valid = false ∧ running.tcu.valid = true ∧
      x.cal.restDays.getLsbD (x.clock / 86400 % 7) = true ∧
      running.tcu.cal.restDays.getLsbD (running.tcu.clock / 86400 % 7) = false ∧
      y.clock % 86400 / 60 = 600 ∧ z.clock % 86400 / 60 = 599 ∧ (currentBand y, currentBand z) = (2, 1) ∧
      (∀ p ∈ running.tcu.active.work.toList, p.enabled = false) := by decide

/-- The values at the ends of the ranges of the argument rules and the class conditions. -/
theorem test_witness_TablesGiveTheirValues_codes :
    let s : State := running
    let top : State := atClock 4294967290 running
    argumentOk ⟨0, 1, 16777215, 0⟩ s = true ∧ argumentOk ⟨2, 1, 0, 2⟩ s = false ∧ argumentOk ⟨4, 1, 1000001, 3⟩ s = false ∧
      argumentOk ⟨5, 1, 16384, 0⟩ s = false ∧ argumentOk ⟨6, 1, 49711, 0⟩ s = false ∧
      argumentOk ⟨7, 1, 8388607, 16⟩ s = false ∧ argumentOk ⟨7, 1, 4194304 + 1439 * 2049, 19⟩ s = true ∧
      argumentOk ⟨8, 1, 512, 0⟩ s = false ∧ argumentOk ⟨9, 1, 1, 8⟩ s = false ∧ argumentOk ⟨9, 1, 0, 6⟩ s = false ∧
      argumentOk ⟨10, 1, 366, 2⟩ s = false ∧ argumentOk ⟨10, 1, 0, 5⟩ s = false ∧ argumentOk ⟨12, 1, 0, 4⟩ s = false ∧
      argumentOk ⟨13, 1, 65536, 0⟩ s = false ∧ argumentOk ⟨14, 1, 0, 0⟩ s = false ∧
      classCondition ⟨0, 1, 49900, 0⟩ s = none ∧ classCondition ⟨0, 1, 49901, 0⟩ s = some .cap ∧
      classCondition ⟨11, 1, 5, 0⟩ top = none ∧ classCondition ⟨11, 1, 6, 0⟩ top = some .argument ∧
      classCondition ⟨13, 1, 0, 0⟩ s = some .notRequired ∧ classCondition ⟨13, 1, 0, 0⟩ awaiting = none := by decide

/-- The values at the ends of the ranges of prices, points and calendar fields (section 9.7.4). -/
theorem test_witness_TablesGiveTheirValues_fields :
    let cal := running.tcu.cal
    let x := running.tcu.active
    (writePrice 3 1000000 x).isSome = true ∧ writePrice 3 1000001 x = none ∧ (writePrice 4 16777215 x).isSome = true ∧
      writePrice 5 0 x = none ∧ pointOfValue (8192 + 3 * 2048 + 1439) = some ⟨1439, 3, true⟩ ∧
      pointOfValue (2048 + 1) = some ⟨1, 1, false⟩ ∧ pointOfValue 16384 = none ∧ pointOfValue 1440 = none ∧
      (writePoint 7 0 x).isSome = true ∧ (writePoint 8 0 x).isSome = true ∧ (writePoint 15 0 x).isSome = true ∧
      writePoint 16 0 x = none ∧ (writeCalendar 11 49710 cal).isSome = true ∧ writeCalendar 11 49711 cal = none ∧
      (writeCalendar 12 127 cal).isSome = true ∧ writeCalendar 12 128 cal = none ∧ writeCalendar 15 0 cal = none ∧
      (writeCalendar 19 (4194304 + 1439 * 2048 + 3) cal).map (·.windows.toList.drop 3) = some [⟨3, 1439, true⟩] ∧
      writeCalendar 16 8388608 cal = none ∧ writeCalendar 16 1440 cal = none ∧ writeCalendar 16 (1440 * 2048) cal = none ∧
      (writeCalendar 20 1 cal).isSome = true ∧ writeCalendar 20 2 cal = none ∧ writeCalendar 21 0 cal = none := by decide

/-- A part whose slot-0 window stands at 5, with group 1 loaded for CREDIT alone. -/
def windowed : State :=
  { running with
    cda :=
      { running.cda with
        window0 := ⟨some 5, []⟩
        groups := { running.cda.groups with g1 := ⟨true, some 9, 1, 1, .empty⟩ } } }

/-- Slot 1 is tried before slot 0 where it is enabled, and neither is tried without a key (R85, R86). -/
theorem test_slotsTried :
    let dark : State :=
      { windowed with cda := { windowed.cda with groups := { windowed.cda.groups with g1 := ⟨false, some 9, 1, 1, .empty⟩ } } }
    enabledSlots windowed = [(.slot1, 9), (.slot0, 7)] ∧ enabledSlots dark = [(.slot0, 7)] ∧
      enabledSlots { windowed with ots := .blank } = [(.slot1, 9)] := by decide

/-- The bit places of the fields of a code (section 9.7.4). -/
theorem test_unscramble :
    unscramble demoKey (codeOf (covered 13 5 65535 3)) = some ⟨13, 5, 65535, 3⟩ := by
  unfold unscramble codeOf
  dsimp only
  rw [Equiv.symm_apply_apply, coveredOf_append, checkOf_append, fieldsOf_append, if_pos rfl]
  decide

theorem test_witness_ChecksAfterAMatch :
    (14 < 16) ∧ (15 < 16) ∧
    awaiting.cda.reinstate = true ∧ windowed.cda.reinstate = false ∧ maskHolds windowed .slot1 1 = false ∧
      maskHolds windowed .slot0 0 = true ∧ windowTest (slotWindow windowed .slot0) 5 = some .duplicate ∧
      windowTest (slotWindow windowed .slot0) 6 = none ∧ argumentOk ⟨0, 6, 0, 0⟩ windowed = false ∧
      argumentOk ⟨0, 6, 1, 0⟩ windowed = true ∧ classCondition ⟨0, 6, 1, 0⟩ windowed = none ∧
      classCondition ⟨0, 6, 16777215, 0⟩ windowed = some .cap := by decide

theorem test_witness_NoSequenceIsAcceptedTwice :
    windowTest ⟨some 40, [39]⟩ 8 = none ∧ windowTest ⟨some 40, [39]⟩ 41 = none ∧ windowTest .empty 0 = none ∧
      windowTest ⟨some 40, [39]⟩ 39 ≠ none ∧ windowTest ⟨some 40, [39]⟩ 7 ≠ none ∧ 7 + 32 < 40 ∧ 40 ≤ 8 + 32 ∧
      39 ∈ [39] ∧ 8 ∉ [39] := by decide

/-- A phase of an operation toward `t` at attempt `n`, ending at the present time. -/
def operating (t : Target) (n : Nat) (ph : OpPhase) : State :=
  moving (movingState t) ⟨t, n, ph, some .credit, 100000⟩ { running with swc := { running.swc with auto := true } }

theorem test_witness_CoilPulses :
    let s := operating .opened 1 .rest
    let t := operating .closed 1 .pulse
    s.sdm.power = .run ∧ s.swc.switch = .opening ∧ s.swc.op = some ⟨.opened, 1, .rest, some .credit, 100000⟩ ∧
      s.swc.lastPulseEnd + 3000 ≤ s.now + quiet.elapsed ∧ t.swc.switch = .closing ∧
      t.swc.op = some ⟨.closed, 1, .pulse, some .credit, 100000⟩ ∧ 100000 ≤ t.now + quiet.elapsed ∧
      s.coDriven = false ∧ t.ccDriven = true := by decide

theorem test_witness_SettleEndsInAVerification :
    let s := operating .opened 1 .settle
    let t := operating .closed 3 .settle
    s.sdm.power = .run ∧ s.swc.switch = movingState .opened ∧ t.swc.switch = movingState .closed ∧
      100000 ≤ s.now + quiet.elapsed ∧ foundOf foundOpen = .opened ∧ foundOf foundClosed = .closed ∧
      s.swc.table.anyActive = false ∧ (ordered s).swc.table.anyActive = true ∧ s.swc.auto = true ∧
      s.swc.op.map (·.releasedBy) = some (some .credit) ∧ foundOf foundClosed ≠ targetFound .opened ∧
      foundOf foundOpen ≠ targetFound .closed ∧ s.swc.op.map (·.attempt) = some 1 ∧
      t.swc.op.map (·.attempt) = some 3 := by decide

/-- An ARMED switch. -/
def armed : State := { running with swc := { running.swc with switch := .armed } }

theorem test_witness_ReconnectPressIsTakenOrDiscarded :
    let s := pressed false 0
    let was : State := { pressed true 100009 with rcbLow := 100010 }
    let m : Moment := ⟨60, pressing⟩
    mainPowered s.sdm.power = true ∧ resetHeld s = false ∧ 50 ≤ 60 ∧ m.pins.rcb = true ∧
      s.now + 60 ≤ s.now + m.elapsed ∧ s.now + m.elapsed < s.now + 61 ∧
      s.swc.lastPress + 60 < s.now + m.elapsed ∧ was.pins.rcb = true ∧ was.swc.lastPress + 50 < was.now + m.elapsed ∧
      was.rcbLow + 50 ≤ was.now + m.elapsed ∧ was.now + m.elapsed < was.rcbLow + 51 ∧
      (pressed true 100010).now + m.elapsed ≤ (pressed true 100010).swc.lastPress + 50 ∧
      s.pins.rcb = false ∧ s.sdm.power = .run ∧ s.swc.switch = .armed ∧ s.swc.table.anyActive = false ∧
      ¬(inPower .holdup s).sdm.power = .run ∧ (ordered s).swc.table.anyActive = true ∧ running.swc.switch ≠ .armed ∧
      mainPowered (inPower .battery s).sdm.power = false ∧ resetHeld inReset = true ∧ 49 < 50 ∧
      levelsAtReset.rcb = false := by decide

theorem test_witness_CausesMoveTheSwitch :
    let open' := serving 1 .run
    let auto : State := { ordered open' with swc := { (ordered open').swc with auto := true } }
    let exhausted : State := { running with swc := { running.swc with held := .exhausted } }
    running.swc.table.anyActive = false ∧ (running.swc.table.set .order (anEntry false none)).anyActive = true ∧
      (running.swc.table.set .order (anEntry true none)).anyActive = false ∧ running.swc.switch = .closed ∧
      running.sdm.power ≠ .holdup ∧ (inPower .holdup running).sdm.power = .holdup ∧ (pressed false 0).swc.switch = .armed ∧
      (operating .opened 1 .rest).swc.switch = .opening ∧ starting.swc.switch = .verify ∧
      open'.swc.table.anyActive = true ∧ (open'.swc.table.set .loadLimit none).anyActive = false ∧
      (auto.swc.table.set .order none).anyActive = false ∧ auto.swc.auto = true ∧ auto.swc.switch = .opened ∧
      causeState (anEntry true none) ≠ causeState (anEntry false none) ∧ exhausted.swc.held = .exhausted ∧
      exhausted.tcu.untilDay = none ∧ exhausted.swc.table.credit = none ∧
      (demoAccount.charge 1000000).state ≠ demoAccount.state ∧ (demoAccount.charge 0).state = demoAccount.state ∧
      (demoAccount.charge 1000000).state = .exhausted ∧ mainPowered running.sdm.power = true ∧
      mainPowered (inPower .battery running).sdm.power = false ∧ demoAccount.takeEmergency.taken ≠ demoAccount.taken ∧
      running.tcu.lastFriendly = some (friendlyNow running.tcu) ∧
      starting.tcu.lastFriendly ≠ some true := by decide

/-- A SO history of `n` seconds with live phases, with the switch OPEN and the condition at `c`. -/
def supplied (n : Nat) (c : Bool) : State :=
  { running with
    pins := { levelsAtReset with l := ⟨false, true, true⟩ }
    swc := { running.swc with switch := .opened }
    tmp :=
      { running.tmp with
        lastHanded := some .opened, soHistory := List.replicate n true
        latches := { running.tmp.latches with so := ⟨c, none, 0⟩ } } }

theorem test_witness_ConditionsAndVerifyByTheirTables :
    let p : State := { pulsed 99990 0 with piu := { (pulsed 99990 0).piu with history := ⟨List.replicate 11 .exporting, [], []⟩ } }
    let f : State := { running with piu := { running.piu with reverseFlag := ⟨true, false, false⟩ } }
    p.sdm.power = .run ∧ (p.piu.lastPulse.get .p1 = some 99990 ∧ 99990 + 10 ≤ p.now + quiet.elapsed) ∧
      anyPhase p.piu.reverseFlag = false ∧ p.tmp.latches.rv.condition = false ∧ p.tmp.actions.rv ≠ .off ∧
      p.tmp.latches.rv.set = none ∧ anyPhase f.piu.reverseFlag = true ∧
      shows (.pulseEdge ⟨0, { levelsAtReset with d := .all true }⟩ .p1) p
        (fun t => (t.piu.reverseFlag.p1, t.tmp.latches.rv)) (true, ⟨true, some ⟨77796000, some .p1, 1⟩, 0⟩) = true ∧
      running.swc.switch = .closed ∧ running.swc.switch ≠ .opened ∧ (pressed false 0).swc.switch ≠ .closed ∧
      (supplied 7 false).tmp.lastHanded = some .opened := by decide +kernel

theorem test_witness_ConditionsAndVerifyByTheirTables_supply :
    (supplied 7 false).sdm.power = .run ∧ (supplied 7 false).swc.switch = .opened ∧
      (supplied 7 false).tmp.lastHanded = some (supplied 7 false).swc.switch ∧
      8 ≤ (pushBounded 10 (supplied 7 false).tmp.soHistory true).count true ∧
      ¬8 ≤ (pushBounded 10 (supplied 6 false).tmp.soHistory true).count true ∧
      (supplied 0 true).tmp.latches.so.condition = true ∧ (supplied 7 false).tmp.actions.so ≠ .off ∧
      (supplied 7 false).tmp.latches.so.set = none ∧ (inPower .starting running).sdm.power ≠ .run ∧
      running.tmp.lastHanded = none ∧ (inPower .battery running).sdm.power ≠ .off := by decide

/-- A part before VERIFY, with the intended position `i`. -/
def verifying (i : Position) : State :=
  { starting with sdm := ⟨.starting, true, true, .verify⟩, swc := { starting.swc with intended := i } }

theorem test_witness_ConditionsAndVerifyByTheirTables_verify :
    (verifying .closed).sdm.power = .starting ∧ (verifying .closed).sdm.stepsBegun = true ∧
      (verifying .closed).sdm.nextStep = .verify ∧ foundOpen.vdd = true ∧ foundOpen.rstn = true ∧
      (verifying .closed).ots.burn = none ∧ (verifying .closed).swc.switch = .verify ∧
      (ordered (verifying .closed)).swc.table.anyActive = true ∧ (verifying .closed).swc.table.anyActive = false ∧
      foundOf foundOpen = .opened ∧ foundOf foundClosed = .closed ∧
      foundOf { foundClosed with aux := true } = .mixed ∧ (verifying .closed).swc.intended = .closed ∧
      (verifying .armed).swc.intended ≠ .closed := by decide

theorem test_witness_FilterSamples :
    running.sdm.power = .run ∧ running.tmp.runDue ≤ running.now + 0 ∧
      (inPower .battery running).sdm.power = .battery ∧ running.tmp.batteryDue ≤ running.now + 0 := by decide

theorem test_witness_HandedConditionsAreTaken :
    (Kind.cv ≠ .pw) ∧ (running.tmp.latches.get .cv).condition = false ∧ mainPowered running.sdm.power = true ∧
      running.tmp.actions.get .cv = .disconnect ∧ (running.tmp.latches.get .cv).set = none ∧
      (stalling 0 .off).tmp.actions.get .ms = .off ∧ (latchedClear.tmp.latches.get .cv).set ≠ none ∧
      (latchedClear.tmp.latches.get .cv).condition = false := by decide

/-- A log of `n` records, the first of them protected. -/
def logOf (n : Nat) : List LogRecord :=
  (List.range n).map fun k =>
    ⟨101 + k, 0, true, if k = 0 then .tamperSet else .lockoutStart, if k = 0 then some .cv else none, none,
      none, 0, 0, k == 0⟩

theorem test_witness_HandedConditionsAreTaken_falling :
    ((⟨true, none, 0⟩ : Latch).condition = true) ∧ (running.tmp.latches.get .cv).condition = false := by decide

/-- A part with a full log, whose first record is the TAMPER_SET record of the CV latch. -/
def logged : State :=
  { running with
    elg := ⟨logOf 32, 133⟩
    tmp := { running.tmp with latches := { running.tmp.latches with cv := ⟨true, some ⟨0, none, 101⟩, 0⟩ } } }

theorem test_witness_LogAgreesKept :
    logged.LogAgrees ∧ logged.elg.records.length = 32 ∧ (∃ t, step logged = .next t) ∧
      (∃ t, step { logged with pending := [.batteryFilterSample quiet] } = .next t) := by
  refine ⟨⟨by decide, by decide, by decide, by decide +kernel, by decide +kernel, ?_, ?_⟩, by decide, ⟨_, rfl⟩, ⟨_, rfl⟩⟩
  · intro r hr hg
    have h : ∀ r ∈ logged.elg.records, r.guarded = true →
        r.type = .tamperSet ∧ r.kind = some .cv ∧ 101 = r.seq := by decide +kernel
    exact ⟨(h r hr hg).1, .cv, ⟨0, none, 101⟩, (h r hr hg).2.1, rfl, (h r hr hg).2.2⟩
  · intro k l hl
    cases k <;> cases hl
    decide +kernel

theorem test_witness_AppendKeepsTheLog :
    (logOf 31).length < 32 ∧ (logOf 32).length = 32 ∧
      (logOf 32).take 1 ++ (logOf 32)[1] :: (logOf 32).drop 2 = logOf 32 ∧
      (∀ y ∈ (logOf 32).take 1, y.guarded = true) ∧ (logOf 32)[1].guarded = false := by decide

theorem test_witness_WritesAndTheirFrames :
    let at' (x : LinkState) : State := { running with lnk := { running.lnk with state := x } }
    resetHeld running = false ∧ running.sdm.power = .run ∧ running.lnk.state = .idle ∧
      replying.lnk.state = .replyReady ∧ listening.lnk.state = .receiving ∧ (at' .working).lnk.state = .working ∧
      (inPower .holdup running).sdm.power ≠ .run ∧ (inPower .holdup listening).lnk.state = .receiving ∧
      levelsAtReset.ads = false ∧ (0x2D : BitVec 7) ≠ 0x2C ∧ listening.lnk.returnReady = false := by decide

theorem test_witness_WritesAndTheirFrames_frames :
    requestOf (.setClock quiet [0, 0, 0, 5]) = some (quiet, .setClock, [0, 0, 0, 5]) ∧
      (∀ q between, Instr.setClock quiet [0, 0, 0, 5] = .keys quiet q between → between = []) ∧
      requestOf (.keys quiet [0x31] []) = some (quiet, .keys, [0x31]) ∧
      (∀ q between, Instr.keys quiet [0x31] [] = .keys quiet q between → between = []) ∧
      (List.replicate 37 (0 : Byte)).length ≤ 37 ∧ Listening unlocked ∧ unlocked.ots.lock = false ∧
      requestOf (.pulseWeight quiet [1, 1]) = some (quiet, .commissionWrite, 5 :: [1, 1]) ∧
      ([12, 16, 20, 3, 1, 1, 2, 1, 9, 6, 9, 5, 4] : List Nat)[(5 : Byte).toNat - 1]? ≠ some ([1, 1] : List Byte).length ∧
      (0 : Byte).toNat = 0 ∧ 13 < (14 : Byte).toNat ∧ (inPower .holdup listening).sdm.power = .holdup ∧
      (inPower .holdup listening).lnk.state = .receiving ∧ (2 : Byte).toNat < 3 ∧ 40 < (41 : Byte).toNat ∧
      ([1] : List Byte).length + 1 < (3 : Byte).toNat ∧
      ([3, 1, 0] : List Byte).take (3 : Byte).toNat = [3, 1] ++ [0] ∧ (0 : Byte) ≠ crc8 [3, 1] := by
  refine ⟨by decide, ?_, by decide, ?_, by decide +kernel⟩
  · intro q b h; cases h
  · intro q b h; cases h; rfl

/-- A decode of a wrong code under way while a write is received, with a streak of `n`. -/
def listeningDecode (n : Nat) : State := { entered wrongCode (failing n) with lnk := listening.lnk }

theorem test_witness_WritesAndTheirFrames_keys (n : Nat) :
    Listening (listeningDecode n) ∧ (listeningDecode n).ots.lock = true ∧ (listeningDecode n).cda.acceptor = .decoding ∧
      (trySlots (bufferCode (listeningDecode n)) (enabledSlots (listeningDecode n))).1 = none ∧
      (listeningDecode n).cda.decodeSince + 10 * (enabledSlots (listeningDecode n)).length ≤
        (listeningDecode n).now + quiet.elapsed + quiet.elapsed ∧
      (listeningDecode n).cda.streak = n := by
  refine ⟨⟨rfl, rfl⟩, rfl, rfl, ?_, ?_, rfl⟩
  · exact congrArg Prod.fst (trySlots_wrongCode (failing n) rfl)
  · rw [show enabledSlots (listeningDecode n) = [(.slot0, demoKey)] from rfl]
    show 99990 + 10 * 1 ≤ 100000 + 0 + 0
    decide

theorem test_witness_WritesAndRepliesThatComeToNothing :
    let low : Moment := ⟨30, { levelsAtReset with scl := false }⟩
    let s : State := { listening with lnk := { listening.lnk with clockLow := some 30 } }
    resetHeld listening = false ∧ listening.lnk.state = .receiving ∧ low.pins.scl = false ∧
      listening.lnk.clockLow = none ∧ 30 ≤ low.elapsed ∧ s.lnk.clockLow = some 30 ∧ s.lnk.state = .receiving ∧
      replying.sdm.power = .run ∧ replying.lnk.holdTimer = some 1500 ∧ 1500 ≤ (pause 1500).elapsed ∧
      replying.lnk.state = .replyReady ∧ resetHeld replying = false ∧ ¬30 ≤ 29 ∧ levelsAtReset.scl = true ∧
      (inPower .holdup replying).sdm.power = .holdup ∧ running.lnk.state ≠ .replyReady ∧
      ({ replying with lnk := { replying.lnk with state := .receiving, returnReady := true } } : State).lnk.state ≠
        .replyReady := by decide

/-- A long reply in the slot. -/
def replyingLong : State :=
  { replying with
    lnk := { replying.lnk with slot := replyFrame 0xC3 0 (List.replicate 44 1), remainder := [2, 3] } }

theorem test_witness_ReadFetchesTheReply :
    running.sdm.power = .run ∧ running.lnk.state = .idle ∧ replying.lnk.state = .replyReady ∧
      3 < replying.lnk.slot.length ∧ replying.lnk.slot.length ≤ 4 ∧ replying.lnk.remainder = [] ∧
      replyingLong.lnk.slot.length ≤ 48 ∧ replyingLong.lnk.remainder ≠ [] ∧ resetHeld inReset = true ∧
      resetHeld running = false ∧ listening.lnk.state = .receiving ∧ listening.lnk.returnReady = false ∧
      (inPower .holdup replying).sdm.power ≠ .run ∧ resetHeld (inPower .holdup replying) = false ∧
      Listening listening ∧ ([0x31, 0x0D] : List Byte).map symbolOfByte = ([.digit 1, .enter] : List Symbol).map some ∧
      (takeSymbols 0 [.digit 1] [] listening).refusal = none ∧
      (takeSymbols 0 [.digit 1] [] (typing .decoding [] listening)).refusal ≠ none ∧
      Listening (typing .decoding [] listening) ∧
      (0x2D : BitVec 7) ≠ (if levelsAtReset.ads then 0x2D else 0x2C) ∧
      ({ running with lnk := { running.lnk with state := .working } } : State).lnk.state = .working := by
  decide +kernel

theorem test_witness_FaultyFramesAreRefused :
    Listening listening ∧ (2 : Byte).toNat < 3 ∧ 40 < (41 : Byte).toNat ∧ ([1] : List Byte).length + 1 < (3 : Byte).toNat ∧
      ([3, 1, 0] : List Byte).take (3 : Byte).toNat = [3, 1] ++ [0] ∧ (0 : Byte) ≠ crc8 [3, 1] ∧ 20 < 21 ∧
      (List.replicate 37 (0 : Byte)).length ≤ 37 ∧ requestFrame 21 [] = 3 :: [21, crc8 [3, 21]] := by decide +kernel

theorem test_witness_RequestsTurnedAway :
    requestOf (.status quiet [0]) = some (quiet, .status, [0]) ∧ Listening listening ∧
      Request.status.takes 1 = false ∧ ¬(Request.status.commissioning = true ∧ listening.ots.lock = true) ∧
      requestOf (.status quiet []) = some (quiet, .status, []) ∧ Request.status.takes 0 = true ∧
      (inPower .holdup listening).sdm.power = .holdup ∧ (inPower .holdup listening).lnk.state = .receiving ∧
      Request.keys.takes 26 = true ∧ Request.keys.takes 27 = false ∧ Request.commissionWrite.takes 21 = true ∧
      Request.commissionWrite.takes 22 = false ∧
      requestOf (.pulseWeight quiet [1]) = some (quiet, .commissionWrite, [5, 1]) ∧
      Request.commissionWrite.takes 2 = true ∧ unlocked.ots.lock = false := by decide

theorem test_witness_LockRefusesCommissioning :
    requestOf (.commissionLock quiet []) = some (quiet, .commissionLock, []) ∧ listening.lnk.state = .receiving ∧
      listening.sdm.power = .run ∧ Request.commissionLock.commissioning = true ∧ listening.ots.lock = true ∧
      listening.tmp.actions.pw ≠ .off ∧ requestOf (.identity quiet [1]) = some (quiet, .commissionWrite, [1, 1]) := by
  decide

theorem test_witness_IdentityStatusAccountAndTimeAnswer : Listening listening ∧ Listening unlocked := by decide

theorem test_witness_OtherReadingsAnswer :
    Listening listening ∧ (1 : Byte).toNat ≤ 1 ∧ (2 : Byte).toNat ≤ 2 ∧ 1 < (2 : Byte).toNat ∧ 2 < (3 : Byte).toNat ∧
      kindNumber .rl = (8 : Byte).toNat ∧ (9 : Byte).toNat = 9 ∧ 9 < (10 : Byte).toNat ∧ (0 : Byte).toNat = 0 := by
  decide

theorem test_witness_NoticesAndMask :
    Listening listening ∧ (3 : Byte).toNat * 256 + (255 : Byte).toNat ≤ 1023 ∧
      1023 < (4 : Byte).toNat * 256 + (0 : Byte).toNat := by decide

/-- A Report Unit with the groups named latched. -/
def shot (a b c : Bool) : State :=
  { listening with
    rpu :=
      { listening.rpu with
        status := if a then some ⟨1, true, statusValues running⟩ else none
        account := if b then some ⟨1, true, demoAccount⟩ else none
        energy := if c then some ⟨1, true, energyValues running⟩ else none } }

theorem test_witness_Snapshots :
    Listening listening ∧ 1 ≤ (1 : Byte).toNat ∧ (7 : Byte).toNat ≤ 7 ∧ (0 : Byte).toNat = 0 ∧ 7 < (8 : Byte).toNat ∧
      (shot true true true).rpu.status = some ⟨1, true, statusValues running⟩ ∧
      (shot false true true).rpu.status = none ∧
      (shot false true true).rpu.account = some ⟨1, true, demoAccount⟩ ∧
      (shot false false true).rpu.account = none ∧
      (shot false false true).rpu.energy = some ⟨1, true, energyValues running⟩ ∧
      (shot false false false).rpu.energy = none := by decide

/-- A valid or invalid clock at `n`, with `u` trimmed today. -/
def trimmed (valid : Bool) (n : Nat) (u : Int) : State :=
  { listening with tcu := { listening.tcu with valid := valid, clock := n, trimUsed := u } }

theorem test_witness_TimeTrimByItsTable :
    Listening listening ∧ (0xC3 : Byte).toInt < -60 ∧ 60 < (61 : Byte).toInt ∧ -60 ≤ (0xC4 : Byte).toInt ∧
      (60 : Byte).toInt ≤ 60 ∧ (trimmed false 5 0).tcu.valid = false ∧ (trimmed true 5 0).tcu.valid = true ∧
      60 < (trimmed true 5 60).tcu.trimUsed + (1 : Byte).toInt ∧
      (trimmed true 5 (-60)).tcu.trimUsed + (0xFF : Byte).toInt < -60 ∧
      ((trimmed true 5 0).tcu.clock : Int) + (0xFA : Byte).toInt < 0 ∧
      4294967295 < ((trimmed true 4294967295 0).tcu.clock : Int) + (1 : Byte).toInt ∧ (0 : Byte).toInt = 0 ∧
      dayOf (listening.tcu.clock + 60) ≤ listening.tcu.lastDay ∧
      listening.tcu.lastDay < dayOf ((trimmed true 77846399 0).tcu.clock + 1) := by decide

theorem test_witness_SetClockIsTakenOrLocked :
    Listening listening ∧ listening.tcu.valid = true ∧ listening.ots.lock = true ∧ unlocked.tcu.valid = true ∧
      unlocked.ots.lock = false ∧ natOfBytes [4, 0xA3, 0x15, 0xA0] = 77796768 ∧
      unlocked.tcu.clock ≠ natOfBytes [4, 0xA3, 0x15, 0xA0] ∧
      natOfBytes [4, 0xA3, 0x15, 0xA0] / 86400 ≤ unlocked.tcu.lastDay ∧
      natOfBytes [4, 0xA3, 0x12, 0xA0] = unlocked.tcu.clock ∧ (trimmed false 5 0).tcu.valid = false ∧
      (lastSecond 0 905).tcu.untilDay = some 905 ∧ unlocked.tcu.untilDay = none := by decide

theorem test_witness_PulseAndSwitchSettingItems :
    Listening unlocked ∧ unlocked.ots.lock = false ∧ (2 : Byte) ≠ 1 ∧ (2 : Byte) ≠ 10 ∧ (1 : Byte).toNat ≤ 1 ∧
      1 < (2 : Byte).toNat ∧ 60 ≤ (0 : Byte).toNat * 256 + (60 : Byte).toNat ∧
      (14 : Byte).toNat * 256 + (16 : Byte).toNat ≤ 3600 ∧ (0 : Byte).toNat * 256 + (59 : Byte).toNat < 60 ∧
      3600 < (14 : Byte).toNat * 256 + (17 : Byte).toNat := by decide

theorem test_witness_AccountItems :
    Listening unlocked ∧ unlocked.ots.lock = false ∧
      unlocked.acu.cap * 1000000 < natOfBytes [0, 0xC3, 0x51] * 10000 ∧
      natOfBytes [0, 0xC3, 0x50] * 10000 ≤ unlocked.acu.cap * 1000000 ∧
      (unlocked.acu.reopen 500000000).state ≠ unlocked.acu.state ∧
      natOfBytes (([0, 0, 0, 0, 0, 0, 0, 0, 0] : List Byte).drop 6) = 0 ∧
      1 ≤ natOfBytes (([0, 0, 0, 0, 0, 0, 0, 0, 1] : List Byte).drop 6) ∧ unlocked.acu.taken = false := by decide

theorem test_witness_GroupSlotAndTamperActionItems :
    Listening unlocked ∧ unlocked.ots.lock = false ∧ (List.replicate 16 (1 : Byte)).length = 16 ∧
      3 < (4 : Byte).toNat ∧
      (∃ b ∈ ([3, 1, 1, 1, 1, 1, 1, 1, 2] : List Byte), 2 < b.toNat) ∧
      ([1, 1, 1, 1, 1, 1, 1, 1, 1] : List Byte).getD 8 0 ≠ 2 ∧
      ([1, 1, 1, 1, 1, 1, 0, 1, 2] : List Byte).getD 6 0 = 0 ∧
      (∀ b ∈ ([0, 0, 0, 0, 0, 0, 1, 0, 2] : List Byte), b.toNat ≤ 2) ∧
      ([0, 0, 0, 0, 0, 0, 1, 0, 2] : List Byte).getD 8 0 = 2 ∧
      ([0, 0, 0, 0, 0, 0, 1, 0, 2] : List Byte).getD 6 0 ≠ 0 := by decide

theorem test_witness_TariffAndCalendarItems :
    Listening unlocked ∧ unlocked.ots.lock = false ∧ natOfBytes [0x0F, 0x42, 0x40] ≤ 1000000 ∧
      1000000 < natOfBytes [0x0F, 0x42, 0x41] ∧ pointOfValue (natOfBytes [0, 0x25, 0x9F]) = some ⟨1439, 0, true⟩ ∧
      pointOfValue (natOfBytes [0, 0x25, 0xA0]) = none ∧
      (writeCalendar 0 49710 unlocked.tcu.cal).isSome = true ∧ writeCalendar 0 49711 unlocked.tcu.cal = none ∧
      (writeCalendar 20 1 unlocked.tcu.cal).isSome = true ∧ writeCalendar 13 0 unlocked.tcu.cal = none := by decide

/-- An unlocked part with its identity and its slot-0 key written, and a valid clock. -/
def fitted : State := { unlocked with ots := { running.ots with lock := false } }

theorem test_witness_OneTimeItemsAreBurned :
    Listening unlocked ∧ unlocked.ots.lock = false ∧ unlocked.ots.burn = none ∧ fitted.ots.identity.isSome = true ∧
      fitted.ots.key0.isSome = true ∧ unlocked.ots.identity = none ∧ unlocked.ots.key0 = none ∧
      (∃ b ∈ (10 :: List.replicate 11 0 : List Byte), 9 < b.toNat) ∧
      digitsOfBytes (List.replicate 12 9) = some (List.replicate 12 9) ∧ 5 ≤ (pause 5).elapsed := by decide

theorem test_witness_LockNeedsIdentityKeyAndClock :
    Listening fitted ∧ fitted.ots.lock = false ∧ fitted.ots.burn = none ∧ missingNeeds fitted = 0 ∧
      missingNeeds { unlocked with tcu := { unlocked.tcu with valid := false } } = 7 := by decide

/-- The burn of the lock mark, at its end. -/
def locking : State :=
  { fitted with
    ots := { fitted.ots with burn := some ⟨.lockMark, 100000⟩ }
    lnk := { Lnk.mainReset with state := .working } }

/-- The same with the MS latch set on phase 2 and its condition ACTIVE. -/
def stalled : State :=
  { locking with
    tmp :=
      { locking.tmp with
        actions := locking.tmp.actions.set .ms .record
        latches := { locking.tmp.latches with ms := ⟨true, some ⟨5, some .p2, 4⟩, 2⟩ } } }

theorem test_witness_LockTakesEffectWhole :
    resetHeld locking = false ∧ locking.ots.burn = some ⟨.lockMark, 100000⟩ ∧ 100000 ≤ locking.now + quiet.elapsed ∧
      locking.lnk.state = .working ∧ locking.tmp.latches.cv.condition = false ∧ locking.tmp.actions.get .cv ≠ .off ∧
      stalled.tmp.latches.ms.condition = true ∧ stalled.tmp.actions.get .ms ≠ .off ∧ stalled.ots = locking.ots ∧
      mainPowered stalled.sdm.power = true := by decide

theorem test_witness_SupplyComesAndGoes :
    (inPower .off running).sdm.power = .off ∧ (inPower .battery running).sdm.power = .battery ∧
      starting.sdm.power = .starting ∧ mainPowered running.sdm.power = true ∧ levelsAtReset.vbat = true ∧
      ({ levelsAtReset with vbat := false } : Levels).vbat = false ∧ running.ots.burn = none ∧
      mainPowered (inPower .battery running).sdm.power = false ∧ (inPower .battery running).ots.burn = none := by decide

theorem test_witness_SupplyComesAndGoes_steps :
    afterOutage.sdm = ⟨.starting, true, false, .check⟩ ∧ levelsAtReset.vdd = true ∧ levelsAtReset.rstn = true ∧
      levelsAtReset.pfw = true ∧ afterOutage.ots.burn = none ∧ afterOutage.tcu.valid = true ∧
      afterOutage.tcu.lastDay + 3 ≤ afterOutage.tcu.clock / 86400 ∧
      ¬afterOutage.tcu.lastDay + 4 ≤ afterOutage.tcu.clock / 86400 ∧ cutShort.sdm.power = .starting ∧
      cutShort.sdm.stepsBegun = true ∧ cutShort.sdm.nextStep = .catchUp ∧ cutShort.tcu.clock + 1 < 2 ^ 32 ∧
      (verifying .closed).sdm.nextStep ≠ .catchUp ∧ (verifying .closed).tcu.valid = true ∧
      (77846399 + 1) % 60 = 0 := by decide

theorem test_witness_ResetAndPowerFailPins :
    mainPowered running.sdm.power = true ∧ running.sdm.power = .run ∧ (inPower .holdup running).sdm.power = .holdup ∧
      levelsAtReset.vdd = true ∧ (typing .lockout [] running).cda.acceptor = .lockout ∧
      running.cda.acceptor ≠ .lockout ∧ running.cda.acceptor ≠ .retired := by decide

/-- A start-up cut short before the step `x`. -/
def resumed (x : StartStep) : State := { starting with sdm := ⟨.starting, true, true, x⟩ }

theorem test_witness_StartUpEntersRun :
    starting.sdm.power = .starting ∧ levelsAtReset.vdd = true ∧ levelsAtReset.rstn = true ∧
      levelsAtReset.pfw = true ∧ starting.ots.burn = none ∧ starting.sdm.marker = true ∧ State.reset.ots.lock = false ∧
      starting.tcu.valid = true ∧ State.reset.tcu.valid = false ∧ starting.sdm.nextStep = .check ∧
      (∀ x ∈ [StartStep.catchUp, .verify, .acceptor, .pulse, .tamper],
        (resumed x).sdm.nextStep = x ∧ (resumed x).sdm.stepsBegun = true ∧ (resumed x).sdm.nextStep ≠ .check) := by decide

/-- Steps cut short after VERIFY run on to RUN, with the verification of the step that was taken before. -/
theorem test_startUp_resumed :
    shows (.startUp (pause 1) ⟨false, none⟩) (resumed .acceptor)
        (fun t => (t.sdm.power, t.sdm.nextStep, t.swc.lastVerification, t.swc.switch)) (.run, .check, none, .verify) = true ∧
      shows (.startUp (pause 1) ⟨true, none⟩) (resumed .verify)
        (fun t => (t.sdm.power, t.swc.lastVerification.isSome)) (.holdup, true) = true := by decide +kernel

/-- A locked part whose retention is lost, with `n` loss marks. -/
def lost (n : Nat) : State :=
  { starting with sdm := ⟨.starting, false, false, .check⟩, ots := { running.ots with lossCount := n } }

theorem test_witness_RetentionLossIsBurned :
    (lost 15).sdm.power = .starting ∧ (lost 15).ots.burn = none ∧ (lost 15).sdm.marker = false ∧
      (lost 15).ots.lock = true ∧ (lost 15).ots.lossCount < 16 ∧ (lost 16).ots.lossCount = 16 ∧
      (lost 15).sdm.nextStep = .check ∧ 5 ≤ (pause 5).elapsed ∧ levelsAtReset.vdd = true ∧ levelsAtReset.rstn = true ∧
      levelsAtReset.pfw = true := by decide

/-- A loss mark that burns to 5 ms from now in a power state, with RL's condition as given. -/
def burning (p : PowerState) (rl : Bool) : State :=
  { inPower p (lost 15) with
    ots := { (lost 15).ots with burn := some ⟨.lossMark, 100005⟩ }
    tmp := { running.tmp with latches := { running.tmp.latches with rl := ⟨rl, none, 0⟩ } } }

theorem test_witness_RetentionLossIsBurned_end :
    (∀ rl, (burning .battery rl).ots.burn = some ⟨.lossMark, 100005⟩ ∧
      100005 ≤ (burning .battery rl).now + (pause 5).elapsed ∧ ¬100005 ≤ (burning .battery rl).now + (pause 4).elapsed ∧
      (burning .starting rl).tmp.latches.rl.condition = rl ∧ (burning .starting rl).tmp.latches.rl.set = none ∧
      (burning .starting rl).tmp.actions.rl ≠ .off) ∧
      (lost 15).ots.burn = none := by decide

/-! ## Codes, logs and histories -/

/-- The log of the worked sequence of section 7.4: 104 and 117 are protected, and the oldest unprotected goes. -/
theorem test_fullLog :
    let old : List LogRecord := (List.range 32).map fun k =>
      ⟨101 + k, 0, true, if k = 3 ∨ k = 16 then .tamperSet else .lockoutStart, if k = 3 then some .cv else none, none,
        none, 0, 0, k == 3 || k == 16⟩
    let s : State := { running with elg := ⟨old, 133⟩ }
    let s1 := append .lockoutStart none none none s
    let s2 := append .switchFault none (some .p2) none s1
    let s3 := append .tamperSet (some .mg) none none s2
    let s4 := append .lockoutStart none none none s3
    let s5 := append .tamperCleared (some .cv) none (some ⟨.slot0, 7300⟩) s4
    let s6 := append .switchFault none (some .p2) none (releaseRecord .cv 104 s5)
    s3.elg.records.map (·.seq) = (List.range 32).map (104 + ·) ∧
      s4.elg.records.map (·.seq) = 104 :: (List.range 31).map (106 + ·) ∧
      s5.elg.records.map (·.seq) = 104 :: (List.range 31).map (107 + ·) ∧
      s6.elg.records.map (·.seq) = (List.range 32).map (107 + ·) := by decide +kernel

/-- The reversed phase of the worked sequence of section 1.4. -/
theorem test_reverseFlag :
    let e : List Direction := List.replicate 12 .exporting
    let i (n : Nat) : List Direction := List.replicate n .importing
    reverseFlagAfter false (e.take 11) = false ∧ reverseFlagAfter false e = true ∧
      reverseFlagAfter true (e ++ i 4) = true ∧ reverseFlagAfter true (e.take 3 ++ i 13) = true ∧
      reverseFlagAfter true (e.take 2 ++ i 14) = false := by decide

end Sys2Proof.Tests
end

