-- ==== Sys2Proof/Proofs/AlarmOutput.lean ====
section
/-! The BZ output as a function of the alarm and the power state (R42). -/

namespace Sys2Proof.Machine

/-- In RUN the line BZ follows the alarm (R42). -/
theorem State.bz_of_run {s : State} (hrun : s.sdm.power = .run) : s.bz = s.acu.alarm := by
  simp [State.bz, hrun]

/-- Outside RUN the line BZ is released, whatever the alarm (R42). -/
theorem State.bz_of_not_run {s : State} (hrun : s.sdm.power ≠ .run) : s.bz = false := by
  simp [State.bz, hrun]

/-- Settles O35, by whether the power state is RUN. -/
theorem alarmOutput : Obligations.AlarmOutput := by
  intro s
  by_cases hrun : s.sdm.power = .run
  · simp [State.bz_of_run hrun, hrun]
  · simp [State.bz_of_not_run hrun, hrun]

end Sys2Proof.Machine
end

