-- ==== Sys2Proof/Proofs/DayType.lean ====
section
/-! The day type of a day number from its two reasons, the weekday and the holiday list (R60). -/

namespace Sys2Proof.Machine

/-- On a weekday of the rest weekdays set the day is REST, whatever the holiday list (R60). -/
theorem restDay_of_restWeekday {c : Calendar} {d : Nat} (hrest : c.restDays.getLsbD (d % 7) = true) :
    restDay c d = true := by
  simp [restDay, weekdayOf, hrest]

/-- On a weekday outside the rest weekdays set the holiday list alone decides (R60). -/
theorem restDay_iff_holiday_of_workWeekday {c : Calendar} {d : Nat}
    (hwork : ¬ c.restDays.getLsbD (d % 7) = true) :
    restDay c d = true ↔ some d ∈ c.holidays.toList := by
  simp [restDay, weekdayOf, hwork]

/-- Settles O37, by whether the weekday of the day is in the rest weekdays set. -/
theorem dayType : Obligations.DayType := by
  intro c d
  by_cases hrest : c.restDays.getLsbD (d % 7) = true
  · simp only [restDay_of_restWeekday hrest, hrest, true_or]
  · rw [restDay_iff_holiday_of_workWeekday hrest, or_iff_right hrest]
    exact exists_eq_right.symm

end Sys2Proof.Machine
end

