-- ==== Sys2Proof/Proofs/AttentionOutput.lean ====
section
/-! The ATN output as a function of the power state, the notice set and the attention mask (R180). -/

namespace Sys2Proof.Machine

/-- The power states in which the part works are RUN and HOLDUP. -/
theorem working_iff {p : PowerState} : working p = true ↔ p = .run ∨ p = .holdup := by
  cases p <;> simp [working]

/-- Two notice sets meet exactly where one of the ten kinds is in both. -/
theorem noticeSet_and_ne_zero_iff {a b : NoticeSet} :
    a &&& b ≠ 0 ↔ ∃ k < 10, a.getLsbD k = true ∧ b.getLsbD k = true := by
  have hapart : a &&& b = 0 ↔ ∀ k, ¬ (a.getLsbD k = true ∧ b.getLsbD k = true) := by
    simp [BitVec.zero_iff_eq_false]
  rw [ne_eq, hapart, not_forall_not]
  constructor
  · rintro ⟨k, ha, hb⟩
    exact ⟨k, BitVec.lt_of_getLsbD ha, ha, hb⟩
  · rintro ⟨k, -, hboth⟩
    exact ⟨k, hboth⟩

/-- The line ATN is low exactly in a working power state with the notice set and the attention mask meeting (R180). -/
theorem State.atnLow_iff {s : State} :
    s.atnLow = true ↔ working s.sdm.power = true ∧ s.rpu.notices &&& s.rpu.mask ≠ 0 := by
  rw [State.atnLow, Bool.and_eq_true, bne_iff_ne]

/-- Settles O36, by the power states that work and the kinds in which the notice set and the mask meet. -/
theorem attentionOutput : Obligations.AttentionOutput := by
  intro s
  rw [State.atnLow_iff, working_iff, noticeSet_and_ne_zero_iff]

end Sys2Proof.Machine
end

