-- ==== Sys2Proof/Proofs/Meter.lean ====
section
/-! What the switch can do to the Pulse Input Unit: it clears the stall flags and timers and touches nothing else (R12);
and the operations that act on the unit through the switch alone. -/

namespace Sys2Proof.Machine

/-- Two states of the unit differ in the stall timers and flags alone. -/
def Piu.SameMeter (x y : Piu) : Prop := ∃ timer flag, y = { x with stallTimer := timer, stallFlag := flag }

theorem Piu.SameMeter.refl (x : Piu) : x.SameMeter x := ⟨x.stallTimer, x.stallFlag, rfl⟩

theorem Piu.SameMeter.of_eq {x y : Piu} (h : y = x) : x.SameMeter y := h ▸ .refl x

theorem Piu.SameMeter.trans {x y z : Piu} (h : x.SameMeter y) (k : y.SameMeter z) : x.SameMeter z := by
  obtain ⟨t, f, rfl⟩ := h
  obtain ⟨t', f', rfl⟩ := k
  exact ⟨t', f', rfl⟩

/-- What such states share, field by field. -/
theorem Piu.SameMeter.fields {x y : Piu} (h : x.SameMeter y) :
    y.imports = x.imports ∧ y.exports = x.exports ∧ y.billedWh = x.billedWh ∧ y.residue = x.residue ∧
      y.weight = x.weight ∧ y.absolute = x.absolute ∧ y.stallTime = x.stallTime ∧ y.reverseFlag = x.reverseFlag ∧
      y.lastPulse = x.lastPulse ∧ y.history = x.history ∧ y.demand = x.demand ∧ y.lastDemand = x.lastDemand := by
  obtain ⟨t, f, rfl⟩ := h
  simp

/-- What holds of a changed table and is kept by entries into switch states, by operations that begin and by a released-by
field written, holds after a change of an entry (R114). -/
theorem changeEntry_keeps {P : State → Prop} {c : Cause} {e : Option Entry} {s : State} (h : P (entryChanged c e s))
    (hb : ∀ t x, P x → P (beginOperation t x)) (he : ∀ new x, new ≠ .verify → P x → P (enterSwitch new x))
    (hr : ∀ c x, P x → P (setReleasedBy c x)) : P (changeEntry c e s) := by
  obtain ⟨happeared, hleft, hstands⟩ := changeEntry_cases c e s
  cases ha : s.swc.table.anyActive <;> cases hn : (s.swc.table.set c e).anyActive
  · rwa [hstands (ha.trans hn.symm)]
  · rw [happeared ha hn, activeAppeared]
    split
    · split
      exacts [h, hb _ _ h]
    exacts [hr _ _ h, he _ _ (by simp) h, h, h, h, h]
  · rw [hleft ha hn, lastActiveLeft]
    split
    · exact hr _ _ h
    · split
      · split
        exacts [h, hb _ _ h]
      · exact he _ _ (by simp) h
    all_goals exact h
  · rwa [hstands (ha.trans hn.symm)]

/-! ## The switch and the causes -/

theorem enterSwitch_meter (new : SwitchState) (s : State) : s.piu.SameMeter (enterSwitch new s).piu := by
  by_cases h : s.swc.switch = new
  · exact .of_eq (by rw [enterSwitch_same h])
  · rw [enterSwitch_piu h]
    split
    exacts [⟨_, _, rfl⟩, .refl _]

theorem beginOperation_meter (t : Target) (s : State) : s.piu.SameMeter (beginOperation t s).piu := by
  have h := enterSwitch_meter (movingState t) (s.setSwc { s.swc with op := some ⟨t, 1, .rest, none, 0⟩ })
  simpa [beginOperation] using h

theorem changeEntry_meter (c : Cause) (e : Option Entry) (s : State) : s.piu.SameMeter (changeEntry c e s).piu := by
  refine changeEntry_keeps (P := fun x => s.piu.SameMeter x.piu) ?_ (fun t x h => h.trans (beginOperation_meter t x))
    (fun new x _ h => h.trans (enterSwitch_meter new x)) (fun c x h => by simpa using h)
  unfold entryChanged
  dsimp only
  split <;> exact .of_eq (by simp)

theorem evaluateCredit_meter (s : State) : s.piu.SameMeter (evaluateCredit s).piu := by
  unfold evaluateCredit
  split
  exacts [changeEntry_meter _ _ _, changeEntry_meter _ _ _, .refl _]

theorem evaluateTamper_meter (s : State) : s.piu.SameMeter (evaluateTamper s).piu := by
  unfold evaluateTamper
  split
  exacts [changeEntry_meter _ _ _, changeEntry_meter _ _ _, .refl _]

/-! ## Conditions and claims -/

theorem rise_meter (k : Kind) (p : Option Phase) (s : State) : s.piu.SameMeter (rise k p s).piu := by
  unfold rise
  dsimp only
  split
  · exact .of_eq (by simp)
  · split
    · exact .of_eq (by simp)
    · split
      · exact .trans (.of_eq (by simp)) (evaluateTamper_meter _)
      · exact .of_eq (by simp)

theorem hand_meter (k : Kind) (v : Bool) (p : Option Phase) (s : State) : s.piu.SameMeter (hand k v p s).piu := by
  unfold hand
  split
  · exact .refl _
  · split
    exacts [rise_meter k p s, .of_eq (by simp)]

theorem pwAttempt_meter (s : State) : s.piu.SameMeter (pwAttempt s).piu := by
  simpa [pwAttempt] using rise_meter .pw none s

theorem claim_meter (f : Account → Account) (s : State) : s.piu.SameMeter (claim f s).piu := by
  unfold claim
  dsimp only
  split
  · split <;> exact .of_eq (by simp)
  · refine .trans (.of_eq ?_) (evaluateCredit_meter _)
    split <;> simp

/-! ## The friendly period and the boundaries -/

theorem evaluateFriendly_meter (s : State) : s.piu.SameMeter (evaluateFriendly s).piu := by
  unfold evaluateFriendly handFriendly
  dsimp only
  split
  · exact .refl _
  · split
    · split
      exacts [.refl _, changeEntry_meter _ _ (s.setTcu _)]
    · exact .refl _

theorem boundarySwitch_meter (s : State) : s.piu.SameMeter (boundarySwitch s).piu := by
  unfold boundarySwitch
  dsimp only
  split
  · split
    exacts [changeEntry_meter _ _ (s.setSwc _), .refl _]
  · exact .refl _

theorem boundaryOverride_meter (day : Nat) (s : State) : s.piu.SameMeter (boundaryOverride day s).piu := by
  unfold boundaryOverride
  split
  · split
    exacts [evaluateCredit_meter (s.setTcu _), .refl _]
  · exact .refl _

theorem deliverBoundary_meter (s : State) : s.piu.SameMeter (deliverBoundary s).piu := by
  unfold deliverBoundary
  dsimp only
  have h1 := claim_meter (Account.charge (s.tcu.active.standing * Config.milli)) s
  generalize claim (Account.charge (s.tcu.active.standing * Config.milli)) s = s1 at h1 ⊢
  have h2 := h1.trans (boundarySwitch_meter (s1.setCda { s1.cda with lockoutsToday := 0 }))
  generalize boundarySwitch (s1.setCda { s1.cda with lockoutsToday := 0 }) = s2 at h2 ⊢
  have h3 := h2.trans (boundaryOverride_meter (s.tcu.lastDay + 1) (s2.setTcu { s2.tcu with trimUsed := 0 }))
  simpa using h3

theorem deliverBoundaries_meter (n : Nat) (s : State) : s.piu.SameMeter (deliverBoundaries n s).piu := by
  induction n generalizing s with
  | zero => exact .refl _
  | succ n ih => exact (deliverBoundary_meter s).trans (ih _)

theorem deliverDue_meter (s : State) : s.piu.SameMeter (deliverDue s).piu := by
  unfold deliverDue
  split
  exacts [deliverBoundaries_meter _ _, .refl _]

end Sys2Proof.Machine
end

