-- ==== Sys2Proof/Proofs/StepRelations.lean ====
section
/-! What a command can do, said once: a relation between states that the operations called by the commands keep is kept
by every command, and so by every step. -/

namespace Sys2Proof.Machine

/-- The relation holds between a state and what each operation that a command calls leaves of it. -/
structure StepClosed (R : State → State → Prop) : Prop where
  trans : ∀ {s t u}, R s t → R t u → R s u
  quiet : ∀ {s t : State}, t.acu = s.acu → t.piu = s.piu → t.tmp = s.tmp → t.elg = s.elg → t.pending = s.pending → R s t
  observe : ∀ m n s, R s (observe m n s)
  pulse : ∀ n d s, R s (acceptPulse n d s)
  tick : ∀ ps s, R s (tick ps s)
  decode : ∀ r s, R s (finishDecode r s)
  symbol : ∀ x s, R s (takeSymbol x s).2
  verify : ∀ o s, R s (verify o s)
  press : ∀ s, R s (samplePress s)
  runSample : ∀ s, R s (runSample s)
  batterySample : ∀ s, R s (batterySample s)
  pwAttempt : ∀ s, R s (pwAttempt s)
  item : ∀ {n owner}, ownerOfItem n = some owner → ∀ v s, R s (owner v s).2
  timeTrim : ∀ p s, R s (timeTrimOwner p s).2
  setClock : ∀ p s, R s (setClockOwner p s).2
  lockEvent : ∀ s, R s (lockEvent s)
  lossEvent : ∀ s, R s (lossEvent s)
  mainReset : ∀ s, R s (mainReset s)
  battery : ∀ s, R s (enterBattery s)
  retentionStart : ∀ s, R s (retentionStart s)
  startStep : ∀ s, R s (takeStep s)

namespace StepClosed

variable {R : State → State → Prop} (hR : StepClosed R)
include hR

theorem refl (s : State) : R s s := hR.quiet rfl rfl rfl rfl rfl

/-- A change of the link alone after the command's moment. -/
theorem of_link {m : Moment} {s t : State} (ht : ∃ l, t = { Machine.observe m 0 s with lnk := l }) : R s t := by
  obtain ⟨l, rfl⟩ := ht
  exact hR.trans (hR.observe m 0 s) (hR.quiet rfl rfl rfl rfl rfl)

/-! ## Codes and keys -/

theorem decodeEnd (m : Moment) (s : State) : R s (decodeEnd m s) := by
  unfold Machine.decodeEnd
  dsimp only
  split
  exacts [hR.trans (hR.observe m 0 s) (hR.decode _ _), hR.observe m 0 s]

theorem entryTimeout (m : Moment) (s : State) : R s (entryTimeout m s) := by
  unfold Machine.entryTimeout
  dsimp only
  split
  · refine hR.trans (hR.observe m 0 s) (hR.quiet ?_ ?_ ?_ ?_ ?_) <;> simp
  · exact hR.observe m 0 s

theorem enterHoldup (s : State) : R s (enterHoldup s) := by
  refine hR.quiet ?_ ?_ ?_ ?_ ?_ <;> simp

theorem pfwFall (m : Moment) (s : State) : R s (pfwFall m s) := by
  unfold Machine.pfwFall
  dsimp only
  split
  exacts [hR.trans (hR.observe _ 0 s) (hR.enterHoldup _), hR.observe _ 0 s]

theorem takeEvent (s : State) (e : KeysEvent) : R s (takeEvent s e) := by
  cases e with
  | decodeEnd m => exact hR.decodeEnd m s
  | entryTimeout m => exact hR.entryTimeout m s
  | secondTick m => exact hR.trans (hR.observe m 0 s) (hR.tick tickOrder _)
  | pfwFall m => exact hR.pfwFall m s
  | readTransaction m a n d => exact hR.of_link (readTransaction_link m a n d s)
  | writeAddressed m a => exact hR.of_link (writeAddressed_link m a s)
  | clockLowTimeout m d => exact hR.of_link (clockLowTimeout_link m d s)

theorem takeEvents (es : List (Nat × KeysEvent)) (s : State) : R s (takeEvents es s) := by
  unfold Machine.takeEvents
  induction es generalizing s with
  | nil => exact hR.refl s
  | cons e es ih => exact hR.trans (hR.takeEvent s e.2) (ih _)

theorem takeSymbols (xs : List Symbol) (i : Nat) (es : List (Nat × KeysEvent)) (s : State) :
    R s (takeSymbols i xs es s).state := by
  induction xs generalizing i es s with
  | nil => exact hR.refl s
  | cons x xs ih =>
    have h := hR.trans (hR.takeEvents (es.takeWhile fun e => decide (e.1 ≤ i)) s) (hR.symbol x _)
    unfold Machine.takeSymbols
    dsimp only
    split <;> rename_i he <;> rw [he] at h
    exacts [h, hR.trans h (ih _ _ _)]

theorem keysTaken (es : List (Nat × KeysEvent)) (p : List Byte) (s : State) : R s (keysTaken es p s).2.1 := by
  unfold Machine.keysTaken
  split
  exacts [hR.refl s, hR.takeSymbols _ _ _ _]

/-! ## Requests -/

theorem settleBurn (s : State) : R s (settleBurn s) := by
  unfold Machine.settleBurn
  split
  · exact hR.refl s
  · split
    exacts [hR.quiet rfl rfl rfl rfl rfl, hR.quiet rfl rfl rfl rfl rfl, hR.lockEvent s, hR.lossEvent s]

/-- What the owner of a request leaves (section 9.3). -/
theorem owner (r : Request) (p : List Byte) (s : State) : R s (ownerOf r p s).2 := by
  cases r
  case readTariff =>
    simp only [ownerOf, readTariffOwner]
    split <;> exact hR.refl s
  case readTamper =>
    simp only [ownerOf, readTamperOwner]
    split
    · exact hR.refl s
    · split <;> exact hR.refl s
  case readLog =>
    simp only [ownerOf, readLogOwner]
    split <;> exact hR.refl s
  case readCodeResult =>
    simp only [ownerOf, readCodeResultOwner]
    split <;> exact hR.refl s
  case readNotices => exact hR.quiet rfl rfl rfl rfl rfl
  case setAttentionMask =>
    simp only [ownerOf, setMaskOwner]
    split <;> exact hR.quiet rfl rfl rfl rfl rfl
  case snapshotLatch =>
    simp only [ownerOf, snapshotLatchOwner]
    split <;> exact hR.quiet rfl rfl rfl rfl rfl
  case snapshotRead =>
    simp only [ownerOf, snapshotReadOwner]
    split <;> exact hR.quiet rfl rfl rfl rfl rfl
  case keys => exact hR.keysTaken [] p s
  case timeTrim => exact hR.timeTrim p s
  case setClock => exact hR.setClock p s
  case commissionWrite =>
    simp only [ownerOf, commissionWriteOwner]
    split
    · rename_i ho
      exact hR.item ho _ s
    · exact hR.refl s
  case commissionLock =>
    simp only [ownerOf, commissionLockOwner]
    split
    · exact hR.trans (hR.settleBurn s) (hR.pwAttempt _)
    · split
      exacts [hR.trans (hR.settleBurn s) (hR.quiet rfl rfl rfl rfl rfl), hR.settleBurn s]
  all_goals exact hR.refl s

theorem placeReply (k : Nat) (a : Answer) (s : State) : R s (placeReply k a s) := by
  refine hR.quiet ?_ ?_ ?_ ?_ ?_ <;> simp

theorem serve {r : Request} {o : Owner} (ho : ∀ p s, R s (o p s).2) (p : List Byte) (s : State) : R s (serve r o p s) := by
  have h := hR.trans (hR.quiet (s := s) (t := enterWorking s) rfl rfl rfl rfl rfl) (ho p _)
  unfold Machine.serve
  split <;> rename_i he <;> rw [he] at h
  exacts [hR.trans h (hR.placeReply _ _ _), h]

theorem handRequest {r : Request} {handler : Handler} (hh : ∀ p s, R s (handler p s)) (p : List Byte) (s : State) :
    R s (handRequest r handler p s) := by
  unfold Machine.handRequest
  split
  · exact hR.trans (hR.pwAttempt s) (hR.placeReply _ _ _)
  · split
    · split
      exacts [hR.placeReply _ _ _, hh p s]
    · exact hR.placeReply _ _ _

theorem completeWrite (b : List Byte) (s : State) : R s (completeWrite b s) := by
  refine hR.quiet ?_ ?_ ?_ ?_ ?_ <;> simp

theorem request {r : Request} {handler : Handler} (hh : ∀ p s, R s (handler p s)) (p : List Byte) (s : State) :
    R s (request r handler p s) := by
  unfold Machine.request
  split
  · split
    · exact hR.trans (hR.completeWrite _ s) (hR.handRequest hh p _)
    · refine hR.quiet ?_ ?_ ?_ ?_ ?_ <;> simp
  · exact hR.refl s

/-- A request row whose owner is that of its request. -/
theorem requestRow (r : Request) (m : Moment) (p : List Byte) (s : State) :
    R s (Machine.request r (Machine.serve r (ownerOf r)) p (Machine.observe m 0 s)) :=
  hR.trans (hR.observe m 0 s) (hR.request (hR.serve (hR.owner r)) p _)

/-- The row of one item of COMMISSION_WRITE. -/
theorem itemRow {n : Nat} {o : Owner} (ho : ownerOfItem n = some o) (item : Nat) (m : Moment) (v : List Byte) (s : State) :
    R s (Machine.request .commissionWrite (Machine.serve .commissionWrite fun p s => o p.tail s)
      (BitVec.ofNat 8 item :: v) (Machine.observe m 0 s)) :=
  hR.trans (hR.observe m 0 s) (hR.request (hR.serve fun p s => hR.item ho p.tail s) _ _)

theorem serveKeys (es : List (Nat × KeysEvent)) (p : List Byte) (s : State) : R s (serveKeys es p s) := by
  have h := hR.trans (hR.quiet (s := s) (t := enterWorking s) rfl rfl rfl rfl rfl) (hR.keysTaken es p _)
  exact hR.trans (hR.trans h (hR.placeReply _ _ _)) (hR.takeEvents _ _)

/-- A write transaction given by its bytes (R187, R188). -/
theorem endWrite (bytes : List Byte) (s : State) : R s (endWrite bytes s) := by
  unfold Machine.endWrite
  split
  · exact hR.quiet rfl rfl rfl rfl rfl
  · refine hR.trans (hR.completeWrite (storedOf bytes) s) ?_
    unfold checkFrame
    split
    · split
      · exact hR.quiet rfl rfl rfl rfl rfl
      · exact hR.handRequest (hR.serve (hR.owner _)) _ _
    · exact hR.quiet rfl rfl rfl rfl rfl

theorem answerBurn (r : Request) (s : State) : R s (answerBurn r s) := by
  unfold Machine.answerBurn
  split
  exacts [hR.placeReply _ _ _, hR.refl s]

theorem otsBurnEnd (s : State) : R s (otsBurnEnd s) := by
  have h := hR.trans (hR.quiet (s := s) (t := s.setOts s.ots.burned) rfl rfl rfl rfl rfl)
    (hR.answerBurn .commissionWrite _)
  unfold Machine.otsBurnEnd
  split
  · split
    · split
      exacts [h, hR.refl s]
    · split
      exacts [h, hR.refl s]
    · exact hR.refl s
    · exact hR.refl s
  · exact hR.refl s

theorem lockBurnEnd (s : State) : R s (lockBurnEnd s) := by
  unfold Machine.lockBurnEnd
  split
  · split
    exacts [hR.trans (hR.lockEvent s) (hR.answerBurn _ _), hR.refl s]
  · exact hR.refl s

/-! ## Supply -/

theorem enterStarting (s : State) : R s (enterStarting s) :=
  hR.trans (hR.quiet (s := s) (t := setPower .starting s) rfl rfl rfl rfl rfl) (hR.mainReset _)

theorem enterOff (s : State) : R s (enterOff s) :=
  hR.trans (hR.trans (hR.quiet (s := s) (t := setPower .off (s.setOts s.ots.burned)) rfl rfl rfl rfl rfl)
    (hR.mainReset _)) (hR.retentionStart _)

theorem takeSteps (n : Nat) (s : State) : R s (takeSteps n s) := by
  induction n generalizing s with
  | zero => exact hR.refl s
  | succ n ih =>
    unfold Machine.takeSteps
    split
    exacts [hR.trans (hR.startStep s) (ih _), hR.refl s]

/-! ## Commands -/

/-- A command leaves what its operation leaves of the state after its moment. -/
theorem after {m : Moment} {s : State} {f : State → State} (hf : ∀ x, R x (f x)) : R s (f (Machine.observe m 0 s)) :=
  hR.trans (hR.observe m 0 s) (hf _)

/-- A command whose event may not have come about: its operation, or its moment alone. -/
theorem ite_after {m : Moment} {c : Prop} [Decidable c] {s t : State} {f : State → State} (hf : ∀ x, R x (f x))
    (h : (if c then Host.Outcome.next (f (Machine.observe m 0 s)) else .next (Machine.observe m 0 s) :
      Host.Outcome State Fault Refusal) = .next t) : R s t := by
  split at h <;> cases h
  exacts [hR.after hf, hR.observe m 0 s]

/-- A change of the controller's state alone. -/
theorem setSwc (x : Swc) (s : State) : R s (s.setSwc x) := hR.quiet rfl rfl rfl rfl rfl

theorem enterRest (o : Operation) (s : State) : R s (enterRest o s) := by
  refine hR.quiet ?_ ?_ ?_ ?_ ?_ <;> simp

theorem leaveReceiving (s : State) : R s (leaveReceiving s) := hR.quiet rfl rfl rfl rfl rfl

theorem execRestEnd {m : Moment} {s t : State} (h : execRestEnd m s = .next t) : R s t := by
  unfold Machine.execRestEnd at h
  dsimp only at h
  split at h
  · exact hR.ite_after (hR.enterRest _) h
  · cases h
    exact hR.observe m 0 s

theorem execCoilPulseEnd {m : Moment} {s t : State} (h : execCoilPulseEnd m s = .next t) : R s t := by
  unfold Machine.execCoilPulseEnd at h
  dsimp only at h
  split at h
  · split at h <;> cases h
    exacts [hR.trans (hR.observe m 0 s) (hR.setSwc _ _), hR.observe m 0 s]
  · cases h
    exact hR.observe m 0 s

theorem execSettleEnd {m : Moment} {s t : State} (h : execSettleEnd m s = .next t) : R s t := by
  unfold Machine.execSettleEnd at h
  dsimp only at h
  split at h
  · exact hR.ite_after (hR.verify _) h
  · cases h
    exact hR.observe m 0 s

theorem execReplyHoldTimeout {m : Moment} {s t : State} (h : execReplyHoldTimeout m s = .next t) : R s t := by
  unfold Machine.execReplyHoldTimeout at h
  dsimp only at h
  split at h <;> cases h
  · refine hR.trans (hR.observe m 0 s) (hR.quiet ?_ ?_ ?_ ?_ ?_) <;> simp
  · exact hR.observe m 0 s

theorem execVddGood {m : Moment} {s t : State} (h : execVddGood m s = .next t) : R s t := by
  have ho := hR.observe { m with pins := { m.pins with vdd := true } } 0 s
  unfold Machine.execVddGood at h
  dsimp only at h
  split at h <;> cases h
  exacts [hR.trans (hR.trans ho (hR.retentionStart _)) (hR.enterStarting _), hR.trans ho (hR.enterStarting _), ho, ho, ho]

theorem execVddLost {m : Moment} {s t : State} (h : execVddLost m s = .next t) : R s t := by
  have ho := hR.observe { m with pins := { m.pins with vdd := false } } 0 s
  unfold Machine.execVddLost at h
  dsimp only at h
  split at h
  · split at h <;> cases h
    exacts [hR.trans ho (hR.battery _), hR.trans ho (hR.enterOff _)]
  · cases h
    exact ho

theorem execStartUp {m : Moment} {run : StartUpRun} {s t : State} (h : execStartUp m run s = .next t) : R s t := by
  unfold Machine.execStartUp at h
  dsimp only at h
  split at h <;> cases h
  · refine hR.trans (hR.trans (hR.observe m 0 s) (hR.settleBurn _)) (hR.trans ?_ (hR.takeSteps _ _))
    split <;> exact hR.quiet rfl rfl rfl rfl rfl
  · exact hR.observe m 0 s

theorem execLossMarkBurnEnd {m : Moment} {s t : State} (h : execLossMarkBurnEnd m s = .next t) : R s t := by
  unfold Machine.execLossMarkBurnEnd at h
  dsimp only at h
  split at h
  · exact hR.ite_after hR.lossEvent h
  · cases h
    exact hR.observe m 0 s

/-- A command that answers a next state. -/
theorem exec {c : Instr} {s t : State} (h : exec c s = .next t) : R s t := by
  cases c
  case pulseEdge m n => exact hR.ite_after (f := fun x => acceptPulse n _ x) (hR.pulse n _) h
  case secondTick m => cases h; exact hR.after (hR.tick _)
  case clockWrap m => exact hR.ite_after (hR.tick _) h
  case stallDetected m n => exact hR.ite_after (hR.tick _) h
  case demandMinuteEnd m => exact hR.ite_after (hR.tick _) h
  case dayBoundary m => exact hR.ite_after (hR.tick _) h
  case lockoutEnd m => exact hR.ite_after (hR.tick _) h
  case penaltyEnd m => exact hR.ite_after (hR.tick _) h
  case entryTimeout m => cases h; exact hR.entryTimeout m s
  case decodeEnd m => cases h; exact hR.decodeEnd m s
  case keys m p es => cases h; exact hR.after (hR.request (hR.serveKeys es) p)
  case restEnd m => exact hR.execRestEnd h
  case coilPulseEnd m => exact hR.execCoilPulseEnd h
  case settleEnd m => exact hR.execSettleEnd h
  case reconnectPress m held =>
    exact hR.ite_after (f := fun x => samplePress (x.setSwc { x.swc with pressLatch := true, lastPress := x.now }))
      (fun x => hR.trans (hR.setSwc _ x) (hR.press _)) h
  case runFilterSample m => exact hR.ite_after hR.runSample h
  case batteryFilterSample m => exact hR.ite_after hR.batterySample h
  case frameError m bytes => exact hR.ite_after (hR.endWrite bytes) h
  case readTransaction m a n d => cases h; exact hR.of_link (readTransaction_link m a n d s)
  case clockLowTimeout m d => cases h; exact hR.of_link (clockLowTimeout_link m d s)
  case replyHoldTimeout m => exact hR.execReplyHoldTimeout h
  case identify m p => cases h; exact hR.requestRow .identify m p s
  case status m p => cases h; exact hR.requestRow .status m p s
  case readAccount m p => cases h; exact hR.requestRow .readAccount m p s
  case readEnergy m p => cases h; exact hR.requestRow .readEnergy m p s
  case readTariff m p => cases h; exact hR.requestRow .readTariff m p s
  case readCalendar m p => cases h; exact hR.requestRow .readCalendar m p s
  case readSwitch m p => cases h; exact hR.requestRow .readSwitch m p s
  case readTamper m p => cases h; exact hR.requestRow .readTamper m p s
  case readLog m p => cases h; exact hR.requestRow .readLog m p s
  case readCodeResult m p => cases h; exact hR.requestRow .readCodeResult m p s
  case readNotices m p => cases h; exact hR.requestRow .readNotices m p s
  case setAttentionMask m p => cases h; exact hR.requestRow .setAttentionMask m p s
  case snapshotLatch m p => cases h; exact hR.requestRow .snapshotLatch m p s
  case snapshotRead m p => cases h; exact hR.requestRow .snapshotRead m p s
  case timeRead m p => cases h; exact hR.requestRow .timeRead m p s
  case timeTrim m p => cases h; exact hR.requestRow .timeTrim m p s
  case setClock m p => cases h; exact hR.requestRow .setClock m p s
  case identity m v => cases h; exact hR.itemRow (n := 1) rfl 1 m v s
  case slot0Key m v => cases h; exact hR.itemRow (n := 2) rfl 2 m v s
  case otsBurnEnd m => cases h; exact hR.after hR.otsBurnEnd
  case groupSlot m v => cases h; exact hR.itemRow (n := 3) rfl 3 m v s
  case openingBalance m v => cases h; exact hR.itemRow (n := 4) rfl 4 m v s
  case pulseWeight m v => cases h; exact hR.itemRow (n := 5) rfl 5 m v s
  case absoluteBilling m v => cases h; exact hR.itemRow (n := 6) rfl 6 m v s
  case stallTime m v => cases h; exact hR.itemRow (n := 7) rfl 7 m v s
  case reconnectMode m v => cases h; exact hR.itemRow (n := 8) rfl 8 m v s
  case accountSettings m v => cases h; exact hR.itemRow (n := 9) rfl 9 m v s
  case loadLimits m v => cases h; exact hR.itemRow (n := 10) rfl 10 m v s
  case tamperActions m v => cases h; exact hR.itemRow (n := 11) rfl 11 m v s
  case activeTariffField m v => cases h; exact hR.itemRow (n := 12) rfl 12 m v s
  case calendarField m v => cases h; exact hR.itemRow (n := 13) rfl 13 m v s
  case commissionLock m p => cases h; exact hR.requestRow .commissionLock m p s
  case commissionLockBurnEnd m => cases h; exact hR.after hR.lockBurnEnd
  case vddGood m => exact hR.execVddGood h
  case vddLost m => exact hR.execVddLost h
  case vbatLost m => exact hR.ite_after hR.enterOff h
  case rstnFall m => exact hR.ite_after hR.enterStarting h
  case pfwFall m => cases h; exact hR.pfwFall m s
  case pfwRise m => exact hR.ite_after hR.enterStarting h
  case startUp m run => exact hR.execStartUp h
  case lossMarkBurnEnd m => exact hR.execLossMarkBurnEnd h
  case writeAddressed m a => cases h; exact hR.of_link (writeAddressed_link m a s)
  case writeWithNoRequest m => exact hR.ite_after hR.leaveReceiving h

end StepClosed

/-- A step is the command at the front of the queue, or nothing (log 22). -/
theorem step_next {s t : State} (h : step s = .next t) :
    t = s ∨ ∃ c rest, s.pending = c :: rest ∧ exec c { s with pending := rest } = .next t := by
  unfold step at h
  split at h
  · cases h
    exact .inl rfl
  · rename_i c rest hp
    exact .inr ⟨c, rest, hp, h⟩

end Sys2Proof.Machine
end

