-- ==== Sys2Proof/Proofs/PulseUnit.lean ====
section
/-! The Pulse Input Unit after an accepted pulse, field by field (R3 to R5, R8, R9, R12, R14). -/

namespace Sys2Proof.Machine

/-- The things of the phases are replaced phase by phase. -/
@[simp] theorem Phases.get_set {α : Type} (x : Phases α) (n k : Phase) (a : α) :
    (x.set n a).get k = if k = n then a else x.get k := by
  cases n <;> cases k <;> rfl

/-- The registers count the pulse's direction alone (R4), and the rest of the unit does not see it. -/
theorem registersAfter_eq (n : Phase) (d : Direction) (x : Piu) :
    registersAfter n d x =
      { x with
        imports :=
          if d = .importing then x.imports.set n ((x.imports.get n + weightDwh x.weight) % Config.registerTop)
          else x.imports
        exports :=
          if d = .exporting then x.exports.set n ((x.exports.get n + weightDwh x.weight) % Config.registerTop)
          else x.exports } := by
  cases d <;> rfl

/-- The billing counts after a pulse (R5). -/
theorem billingAfter_eq (d : Direction) (x : Piu) :
    billingAfter d x =
      { x with
        residue :=
          if completesWh d x then x.residue + weightDwh x.weight - 10
          else if billable d x then x.residue + weightDwh x.weight else x.residue
        billedWh := if completesWh d x then (x.billedWh + 1) % Config.billedTop else x.billedWh } := by
  unfold billingAfter
  split
  · rfl
  · split <;> rfl

/-- The unit after an accepted pulse, its billing judged on the unit before it. -/
theorem piuAfterPulse_eq (n : Phase) (d : Direction) (now : Nat) (x : Piu) :
    piuAfterPulse n d now x =
      { x with
        imports :=
          if d = .importing then x.imports.set n ((x.imports.get n + weightDwh x.weight) % Config.registerTop)
          else x.imports
        exports :=
          if d = .exporting then x.exports.set n ((x.exports.get n + weightDwh x.weight) % Config.registerTop)
          else x.exports
        residue :=
          if completesWh d x then x.residue + weightDwh x.weight - 10
          else if billable d x then x.residue + weightDwh x.weight else x.residue
        billedWh := if completesWh d x then (x.billedWh + 1) % Config.billedTop else x.billedWh
        history := x.history.set n (pushBounded 16 (x.history.get n) d)
        reverseFlag :=
          x.reverseFlag.set n (reverseFlagAfter (x.reverseFlag.get n) (pushBounded 16 (x.history.get n) d))
        lastPulse := x.lastPulse.set n (some now)
        stallTimer := x.stallTimer.set n 0
        stallFlag := x.stallFlag.set n false
        demand := demandAfter x } := by
  simp only [piuAfterPulse, historyAfter, registersAfter_eq, billingAfter_eq]
  rfl

theorem weightDwh_cases (w : PulseWeight) : weightDwh w = 1 ∨ weightDwh w = 10 := by
  cases w <;> simp [weightDwh]

/-- A pulse is not billed without completing a watt-hour but where the residue still holds it (R5). -/
theorem residue_of_incomplete {d : Direction} {x : Piu} (h : ¬completesWh d x = true) (hb : billable d x = true) :
    x.residue + weightDwh x.weight < 10 := by
  simpa [completesWh, hb] using h

/-- An accepted pulse keeps the registers below their top, by the remainder, and the residue a digit (R4, R5). -/
theorem piuAfterPulse_inRange {x : Piu} (h : x.InRange) (n : Phase) (d : Direction) (now : Nat) :
    (piuAfterPulse n d now x).InRange := by
  obtain ⟨hreg, hbill, hres⟩ := h
  have hreg' : ∀ y, y % Config.registerTop < 2 ^ 48 := fun y => Nat.mod_lt y (by decide)
  have hbill' : ∀ y, y % Config.billedTop < 2 ^ 64 := fun y => Nat.mod_lt y (by decide)
  rw [piuAfterPulse_eq]
  refine ⟨fun k => ⟨?_, ?_⟩, ?_, ?_⟩ <;> dsimp only
  · split
    · rw [Phases.get_set]
      split
      exacts [hreg' _, (hreg k).1]
    · exact (hreg k).1
  · split
    · rw [Phases.get_set]
      split
      exacts [hreg' _, (hreg k).2]
    · exact (hreg k).2
  · split
    exacts [hbill' _, hbill]
  · have hw := weightDwh_cases x.weight
    split
    · omega
    · rename_i hc
      split
      · have := residue_of_incomplete hc ‹_›
        omega
      · exact hres

end Sys2Proof.Machine
end

