-- ==== Sys2Proof/Proofs/AccountAndEnergy.lean ====
section
/-! Every command keeps the account laws, the ranges of the energy counts and the queue (R1, R21, R23, R24). -/

namespace Sys2Proof.Machine

/-- What every operation of the part keeps: the account laws, the ranges of the energy counts, and the queue. -/
structure Kept (s t : State) : Prop where
  lawful : s.acu.Lawful → t.acu.Lawful
  inRange : s.piu.InRange → t.piu.InRange
  pending : t.pending = s.pending

/-- Two states of the unit share their energy counts. -/
def Piu.SameEnergy (x y : Piu) : Prop :=
  y.imports = x.imports ∧ y.exports = x.exports ∧ y.billedWh = x.billedWh ∧ y.residue = x.residue

theorem Piu.SameMeter.energy {x y : Piu} (h : x.SameMeter y) : x.SameEnergy y := by
  obtain ⟨t, f, rfl⟩ := h
  exact ⟨rfl, rfl, rfl, rfl⟩

theorem Piu.InRange.of_energy {x y : Piu} (h : x.InRange) (he : x.SameEnergy y) : y.InRange := by
  obtain ⟨hi, hx, hb, hr⟩ := he
  simpa only [Piu.InRange, hi, hx, hb, hr] using h

namespace Kept

theorem trans {s t u : State} (h : Kept s t) (k : Kept t u) : Kept s u :=
  ⟨k.lawful ∘ h.lawful, k.inRange ∘ h.inRange, k.pending.trans h.pending⟩

theorem of_energy {s t : State} (ha : t.acu = s.acu) (hp : s.piu.SameEnergy t.piu) (hq : t.pending = s.pending) :
    Kept s t := ⟨by rw [ha]; exact id, fun h => h.of_energy hp, hq⟩

theorem of_meter {s t : State} (ha : t.acu = s.acu) (hp : s.piu.SameMeter t.piu) (hq : t.pending = s.pending) :
    Kept s t := of_energy ha hp.energy hq

theorem of_eq {s t : State} (ha : t.acu = s.acu) (hp : t.piu = s.piu) (hq : t.pending = s.pending) : Kept s t :=
  of_meter ha (.of_eq hp) hq

theorem refl (s : State) : Kept s s := of_eq rfl rfl rfl

/-- An operation on a state in which neither the account nor an energy count has been touched. -/
theorem after {s t u : State} (k : Kept t u) (ha : t.acu = s.acu) (hp : s.piu.SameEnergy t.piu)
    (hq : t.pending = s.pending) : Kept s u := (of_energy ha hp hq).trans k

/-- The same the other way round. -/
theorem before {s t u : State} (k : Kept s t) (ha : u.acu = t.acu) (hp : u.piu = t.piu) (hq : u.pending = t.pending) :
    Kept s u := k.trans (of_eq ha hp hq)

end Kept

/-! ## The shared operations -/

theorem claim_kept {f : Account → Account} {s : State} (hf : s.acu.Lawful → (f s.acu).Lawful) : Kept s (claim f s) :=
  ⟨fun h => claim_lawful (hf h), fun h => h.of_energy (claim_meter f s).energy, by simp⟩

theorem changeEntry_kept_laws (c : Cause) (e : Option Entry) (s : State) : Kept s (changeEntry c e s) :=
  .of_meter (by simp) (changeEntry_meter c e s) (by simp)

theorem enterSwitch_kept (new : SwitchState) (s : State) : Kept s (enterSwitch new s) :=
  .of_meter (by simp) (enterSwitch_meter new s) (by simp)

theorem beginOperation_kept (t : Target) (s : State) : Kept s (beginOperation t s) :=
  .of_meter (by simp) (beginOperation_meter t s) (by simp)

theorem evaluateCredit_kept (s : State) : Kept s (evaluateCredit s) :=
  .of_meter (by simp) (evaluateCredit_meter s) (by simp)

theorem evaluateTamper_kept (s : State) : Kept s (evaluateTamper s) :=
  .of_meter (by simp) (evaluateTamper_meter s) (by simp)

theorem hand_kept (k : Kind) (v : Bool) (p : Option Phase) (s : State) : Kept s (hand k v p s) :=
  .of_meter (by simp) (hand_meter k v p s) (by simp)

theorem pwAttempt_kept (s : State) : Kept s (pwAttempt s) := .of_meter (by simp) (pwAttempt_meter s) (by simp)

theorem evaluateFriendly_kept (s : State) : Kept s (evaluateFriendly s) :=
  .of_meter (by simp) (evaluateFriendly_meter s) (by simp)

theorem deliverBoundary_kept (s : State) : Kept s (deliverBoundary s) := by
  refine ⟨fun h => ?_, fun h => h.of_energy (deliverBoundary_meter s).energy, by simp⟩
  rw [(deliverBoundary_fields s).2.1, Account.lawful_alarmAfter]
  exact h.charge _

theorem deliverDue_kept (s : State) : Kept s (deliverDue s) := by
  have hn : ∀ n x, Kept x (deliverBoundaries n x) := by
    intro n
    induction n with
    | zero => exact .refl
    | succ n ih => exact fun x => (deliverBoundary_kept x).trans (ih _)
  unfold deliverDue
  split
  exacts [hn _ _, .refl _]

theorem changeClock_kept (c : Nat) (s : State) : Kept s (changeClock c s) :=
  .after ((deliverDue_kept _).trans (evaluateFriendly_kept _)) rfl ⟨rfl, rfl, rfl, rfl⟩ rfl

theorem validateClock_kept (c : Nat) (s : State) : Kept s (validateClock c s) :=
  .after (evaluateFriendly_kept _) rfl ⟨rfl, rfl, rfl, rfl⟩ rfl

theorem setSwc_kept (x : Swc) (s : State) : Kept s (s.setSwc x) := .of_eq rfl rfl rfl

theorem setTmp_kept (x : Tmp) (s : State) : Kept s (s.setTmp x) := .of_eq rfl rfl rfl

/-! ## Pulses and ticks -/

theorem acceptPulse_kept (n : Phase) (d : Direction) (s : State) : Kept s (acceptPulse n d s) := by
  have hpulse : Kept s (s.setPiu (piuAfterPulse n d s.now s.piu)) :=
    ⟨id, fun h => piuAfterPulse_inRange h n d s.now, rfl⟩
  unfold acceptPulse
  dsimp only
  refine hpulse.trans ?_
  generalize s.setPiu (piuAfterPulse n d s.now s.piu) = s1
  have hdebit : Kept s1 (if completesWh d s.piu = true then claim (Account.charge (currentPrice s1.tcu)) s1 else s1) := by
    split
    exacts [claim_kept fun h => h.charge _, .refl _]
  refine hdebit.trans ?_
  generalize (if completesWh d s.piu = true then claim (Account.charge (currentPrice s1.tcu)) s1 else s1) = s2
  have hrv : ∀ b, Kept s2 (handReverse b n s2) := by
    intro b
    unfold handReverse
    dsimp only
    split
    exacts [.refl _, hand_kept _ _ _ _]
  split
  exacts [(hrv _).trans (hand_kept _ _ _ _), hrv _]

theorem demandMinute_kept (w : Nat) (s : State) : Kept s (demandMinute w s) := by
  have hswc : ∀ x, Kept s (s.setSwc x) := fun _ => .of_eq rfl rfl rfl
  unfold demandMinute
  dsimp only
  split
  · split
    · unfold trip
      dsimp only
      split
      exacts [.of_eq rfl rfl rfl, (hswc _).trans (changeEntry_kept_laws _ _ _)]
    · exact hswc _
  · exact hswc _

theorem tickPart_kept (a b : Bool) (p : TickPart) (s : State) : Kept s (tickPart a b p s) := by
  cases p with
  | lockout =>
    simp only [tickPart, lockoutEnds]
    split
    · split
      exacts [(hand_kept _ _ _ _).trans (.of_eq rfl rfl rfl), hand_kept _ _ _ _]
    · exact .refl _
  | penalty =>
    simp only [tickPart, penaltyEnds]
    split
    · split
      exacts [changeEntry_kept_laws _ _ _, .refl _]
    · exact .refl _
  | stall first =>
    simp only [tickPart, stallStep]
    split
    · split
      · exact .after (hand_kept _ _ _ _) rfl ⟨rfl, rfl, rfl, rfl⟩ rfl
      · exact .of_energy rfl ⟨rfl, rfl, rfl, rfl⟩ rfl
    · exact .refl _
  | supply =>
    simp only [tickPart, supplySecond]
    split
    exacts [.after (hand_kept _ _ _ _) rfl ⟨rfl, rfl, rfl, rfl⟩ rfl, .refl _]
  | demand =>
    simp only [tickPart, minuteEnds]
    split
    · split
      · exact .of_energy rfl ⟨rfl, rfl, rfl, rfl⟩ rfl
      · exact .after (demandMinute_kept _ _) rfl ⟨rfl, rfl, rfl, rfl⟩ rfl
    · exact .refl _
  | calendar =>
    simp only [tickPart, calendarTick]
    split
    · refine .trans ?_ (deliverDue_kept _)
      split
      exacts [evaluateFriendly_kept _, .refl _]
    · exact .refl _

theorem tickParts_kept (a b : Bool) (ps : List TickPart) (s : State) :
    Kept s (ps.foldl (fun t p => tickPart a b p t) s) := by
  induction ps generalizing s with
  | nil => exact .refl _
  | cons p ps ih => exact (tickPart_kept a b p s).trans (ih _)

theorem tick_kept (ps : List TickPart) (s : State) : Kept s (tick ps s) := by
  unfold tick
  split
  exacts [.refl _, .trans (.of_eq (by simp) (by simp) (by simp)) (tickParts_kept _ _ _ _)]

/-! ## The switch and the tamper filters -/

theorem verify_kept (o : Operation) (s : State) : Kept s (verify o s) := by
  unfold verify
  dsimp only
  refine (setSwc_kept { s.swc with lastVerification := some (verification o.target s.pins) } s).trans ?_
  split
  · split
    · unfold passOpen
      split
      · exact enterSwitch_kept _ _
      · split
        exacts [beginOperation_kept _ _, enterSwitch_kept _ _]
    · unfold passClose
      split
      exacts [beginOperation_kept _ _, enterSwitch_kept _ _]
  · split
    · exact .of_eq (by simp) (by simp) (by simp)
    · exact (enterSwitch_kept .fault _).before (by simp [operationFault]) (by simp [operationFault]) (by simp)

theorem switchStartUp_kept (s : State) : Kept s (switchStartUp s) := by
  unfold switchStartUp
  dsimp only
  refine (setSwc_kept { s.swc with lastVerification := some ⟨foundOf s.pins, outOfPlace s.pins (!s.pins.aux)⟩ } s).trans ?_
  split
  exacts [beginOperation_kept _ _, beginOperation_kept _ _, enterSwitch_kept _ _]

theorem samplePress_kept (s : State) : Kept s (samplePress s) := by
  unfold samplePress
  dsimp only
  split
  exacts [.after (beginOperation_kept _ _) rfl ⟨rfl, rfl, rfl, rfl⟩ rfl, .of_eq rfl rfl rfl]

theorem runSample_kept (s : State) : Kept s (runSample s) :=
  (setTmp_kept (runSamples s.pins s.tmp) s).trans
    (((hand_kept _ _ _ _).trans (hand_kept _ _ _ _)).trans (hand_kept _ _ _ _))

theorem batterySample_kept (s : State) : Kept s (batterySample s) :=
  (setTmp_kept (batterySamples s.pins s.tmp) s).trans ((hand_kept _ _ _ _).trans (hand_kept _ _ _ _))

/-! ## Codes and keys -/

theorem effectClear_kept (i : Slot) (f : Fields) (s : State) : Kept s (effectClear i f s).1 := by
  unfold effectClear
  dsimp only
  have hc : Kept s ((namedKinds f.value).foldl (fun s k => clearKind ⟨i, f.seq⟩ k s) s) :=
    .of_eq (by simp) (by simp) (by simp)
  refine (hc.trans (evaluateTamper_kept _)).trans ?_
  split
  exacts [.refl _, .of_eq (by simp) (by simp) (by simp)]

theorem effectOrder_kept (f : Fields) (s : State) : Kept s (effectOrder f s) := by
  unfold effectOrder
  split
  · exact changeEntry_kept_laws _ _ _
  · unfold orderHoldOpen
    split
    exacts [.refl _, changeEntry_kept_laws _ _ _]
  · exact .after (evaluateCredit_kept _) rfl ⟨rfl, rfl, rfl, rfl⟩ rfl
  · exact .after (evaluateCredit_kept _) rfl ⟨rfl, rfl, rfl, rfl⟩ rfl
  · unfold orderRetry
    split
    exacts [beginOperation_kept _ _, .refl _]

/-- A threshold and a cap are no part of the account laws. -/
theorem lawful_settings {a : Account} (h : a.Lawful) (threshold cap : Nat) (alarm : Bool) :
    ({ a with threshold := threshold, cap := cap, alarm := alarm } : Account).Lawful := h

theorem effectSetting_kept (f : Fields) (s : State) : Kept s (effectSetting f s) := by
  unfold effectSetting
  split
  exacts [claim_kept fun h => h.setLimit _, claim_kept fun h => lawful_settings h _ _ _,
    claim_kept fun h => lawful_settings h _ _ _]

theorem applyEffect_kept (i : Slot) (f : Fields) (s : State) : Kept s (applyEffect i f s).1 := by
  unfold applyEffect
  split
  · exact claim_kept fun h => h.credit _
  · exact claim_kept fun h => h.charge _
  · exact effectSetting_kept f s
  · exact .of_eq (by simp) (by simp) (by simp)
  · exact .of_eq (by simp) (by simp) (by simp)
  · exact .of_eq (by simp) (by simp) (by simp)
  · exact .of_eq (by simp) (by simp) (by simp)
  · unfold effectCalendar
    split
    exacts [.after (evaluateFriendly_kept _) rfl ⟨rfl, rfl, rfl, rfl⟩ rfl, .refl _]
  · exact effectClear_kept i f s
  · unfold effectAction
    split
    exacts [.after (evaluateTamper_kept _) rfl ⟨rfl, rfl, rfl, rfl⟩ rfl, .refl _]
  · exact effectOrder_kept f s
  · unfold effectTimeSet
    dsimp only
    split
    · split
      exacts [.refl _, changeClock_kept _ _]
    · exact validateClock_kept _ _
  · exact .of_eq (by simp) (by simp) (by simp)
  · unfold effectReinstate
    dsimp only
    split
    · exact .of_eq (by simp) (by simp) (by simp)
    · exact .trans (.of_eq (by simp) (by simp) (by simp)) (hand_kept _ _ _ _)
  · exact .refl _

theorem acceptCode_kept (i : Slot) (f : Fields) (s : State) : Kept s (acceptCode i f s) := by
  unfold acceptCode
  dsimp only
  generalize hx : (setWindow i (windowAccept (slotWindow s i) f.seq) s).setCda _ = x
  have hwindow : Kept s x := hx ▸ .of_eq (by simp) (by simp) (by simp)
  exact (hwindow.trans (applyEffect_kept i f x)).before (by simp) (by simp) (by simp)

theorem checkFailed_kept (s : State) : Kept s (checkFailed s) := by
  unfold checkFailed
  dsimp only
  split
  · exact .of_eq (by simp) (by simp) (by simp)
  · unfold beginLockout
    dsimp only
    exact .trans (.of_eq (by simp) (by simp) (by simp)) (hand_kept _ _ _ _)

theorem finishDecode_kept (r : Option (Slot × Fields)) (s : State) : Kept s (finishDecode r s) := by
  unfold finishDecode
  split
  · exact checkFailed_kept s
  · split
    exacts [acceptCode_kept _ _ _, .of_eq (by simp) (by simp) (by simp)]

/-- A granted command 110 finds emergency credit not taken (R32). -/
theorem untaken_of_granted {a : Account} (h : a.emergencyAnswer = .granted) : a.taken = false := by
  unfold Account.emergencyAnswer at h
  split at h
  · cases h
  · simp_all

theorem takeLocal_kept (c : LocalCommand) (s : State) : Kept s (takeLocal c s).1 := by
  unfold takeLocal
  split
  · split
    · rename_i hg
      exact claim_kept fun h => h.takeEmergency (untaken_of_granted hg)
    · exact .refl _
  · exact claim_kept (f := fun a => { a with alarm := false }) fun h => lawful_settings h _ _ _

theorem enterLocal_kept (s : State) : Kept s (enterLocal s) := by
  unfold enterLocal
  split
  · exact .of_eq (by simp) (by simp) (by simp)
  · rename_i c _
    exact (takeLocal_kept c s).before (by simp) (by simp) (by simp)

theorem takeSymbol_kept (x : Symbol) (s : State) : Kept s (takeSymbol x s).2 := by
  unfold takeSymbol
  split
  · exact .refl _
  · cases x with
    | digit d => dsimp only; split <;> exact .of_eq (by simp) (by simp) (by simp)
    | back => exact .of_eq (by simp) (by simp) (by simp)
    | cancel => exact .of_eq (by simp) (by simp) (by simp)
    | enter =>
      dsimp only
      unfold takeEnter
      split
      · exact .of_eq (by simp) (by simp) (by simp)
      · split
        exacts [enterLocal_kept s, .of_eq (by simp) (by simp) (by simp)]

/-! ## Commissioning and the clock requests -/

theorem tamperLockStep_kept (s : State) : Kept s (tamperLockStep s) := by
  unfold tamperLockStep
  dsimp only
  have hl : Kept s (kindList.foldl (fun s k => lockKind k s) s) := .of_eq (by simp) (by simp) (by simp)
  refine (hl.trans (evaluateTamper_kept _)).trans ?_
  split
  exacts [.of_eq (by simp) (by simp) (by simp), .refl _]

theorem lockEvent_kept (s : State) : Kept s (lockEvent s) := by
  unfold lockEvent
  dsimp only
  refine .trans (t := (s.setOts s.ots.burned).setElg .restart) (.of_eq rfl rfl rfl) ((tamperLockStep_kept _).trans ?_)
  split
  exacts [changeEntry_kept_laws _ _ _, .refl _]

theorem lossEvent_kept (s : State) : Kept s (lossEvent s) := by
  unfold lossEvent
  dsimp only
  exact .trans (.of_eq (by simp) (by simp) (by simp)) (hand_kept _ _ _ _)

theorem settleBurn_kept (s : State) : Kept s (settleBurn s) := by
  unfold settleBurn
  split
  · exact .refl _
  · split
    exacts [.of_eq rfl rfl rfl, .of_eq rfl rfl rfl, lockEvent_kept s, lossEvent_kept s]

theorem itemOf_kept {n : Nat} {o : Owner} {v : List Byte} {s : State} (ho : Kept s (o v s).2) :
    Kept s (itemOf n o v s).2 := by
  unfold itemOf
  split
  exacts [ho, .refl _]

theorem openingBalanceItem_kept (v : List Byte) (s : State) : Kept s (openingBalanceItem v s).2 := by
  have hc : Kept s (claim (Account.reopen (natOfBytes v * Config.hundredth)) s) := claim_kept fun _ => .reopen _ _
  simp only [openingBalanceItem, itemOf, taken, refuseArgument]
  split_ifs
  exacts [.refl _, hc, .refl _]

theorem item_kept {n : Nat} {owner : Owner} (ho : ownerOfItem n = some owner) (v : List Byte) (s : State) :
    Kept s (owner v s).2 := by
  unfold ownerOfItem at ho
  split at ho <;> cases ho
  case h_4 => exact openingBalanceItem_kept v s
  all_goals refine itemOf_kept ?_; dsimp only
  · refine (settleBurn_kept s).trans ?_
    split
    · exact .refl _
    · split
      exacts [.of_eq rfl rfl rfl, .refl _]
  · refine (settleBurn_kept s).trans ?_
    split
    exacts [.refl _, .of_eq rfl rfl rfl]
  · split
    exacts [.of_eq rfl rfl rfl, .refl _]
  · split
    exacts [.of_energy rfl ⟨rfl, rfl, rfl, rfl⟩ rfl, .of_energy rfl ⟨rfl, rfl, rfl, rfl⟩ rfl, .refl _]
  · split
    exacts [.of_energy rfl ⟨rfl, rfl, rfl, rfl⟩ rfl, .refl _]
  · split
    exacts [.of_energy rfl ⟨rfl, rfl, rfl, rfl⟩ rfl, .refl _]
  · split
    exacts [.of_eq rfl rfl rfl, .refl _]
  · split
    exacts [claim_kept fun h => h.setSettings _ _ _, .refl _]
  · exact .of_eq rfl rfl rfl
  · split
    exacts [.after (evaluateTamper_kept _) rfl ⟨rfl, rfl, rfl, rfl⟩ rfl, .refl _]
  · split
    exacts [.of_eq rfl rfl rfl, .refl _]
  · split
    exacts [.after (evaluateFriendly_kept _) rfl ⟨rfl, rfl, rfl, rfl⟩ rfl, .refl _]

theorem timeTrimOwner_kept (p : List Byte) (s : State) : Kept s (timeTrimOwner p s).2 := by
  unfold timeTrimOwner
  dsimp only
  split_ifs
  all_goals first
    | exact .refl _
    | exact .after (changeClock_kept _ _) rfl ⟨rfl, rfl, rfl, rfl⟩ rfl

theorem setClockOwner_kept (p : List Byte) (s : State) : Kept s (setClockOwner p s).2 := by
  unfold setClockOwner
  split
  · exact .refl _
  · dsimp only
    unfold writeClock
    split
    · split
      exacts [.refl _, changeClock_kept _ _]
    · exact validateClock_kept _ _

/-! ## Supply -/

theorem mainReset_kept (s : State) : Kept s (mainReset s) :=
  .of_energy (by simp) ⟨rfl, rfl, rfl, rfl⟩ (by simp)

theorem retentionStart_inRange (x : Piu) : x.retentionStart.InRange := by
  simp only [Piu.InRange, Piu.retentionStart, Phases.all]
  exact ⟨fun n => by cases n <;> decide, by decide, by decide⟩

theorem retentionStart_kept (s : State) : Kept s (retentionStart s) :=
  ⟨fun _ => Account.Lawful.retentionStart, fun _ => retentionStart_inRange s.piu, by simp⟩

theorem observe_kept (m : Moment) (n : Nat) (s : State) : Kept s (observe m n s) := by
  unfold observe
  dsimp only
  split
  · exact .after (mainReset_kept _) rfl ⟨rfl, rfl, rfl, rfl⟩ rfl
  · exact .of_eq rfl rfl rfl

theorem tamperStartUp_kept (s : State) : Kept s (tamperStartUp s) := by
  unfold tamperStartUp
  dsimp only
  refine (setTmp_kept { s.tmp with runDue := s.now } s).trans ((evaluateTamper_kept _).trans ?_)
  split
  exacts [.of_eq (by simp) (by simp) (by simp), .refl _]

theorem checkStep_kept (s : State) : Kept s (checkStep s) := by
  unfold checkStep
  split
  · exact .of_eq rfl rfl rfl
  · exact .of_eq rfl rfl rfl
  · exact .of_eq rfl rfl rfl
  · exact .before (t := retire s) (.after (hand_kept _ _ _ _) rfl ⟨rfl, rfl, rfl, rfl⟩ rfl) rfl rfl rfl

theorem takeStep_kept (s : State) : Kept s (takeStep s) := by
  unfold takeStep
  split
  · exact checkStep_kept s
  · unfold catchUpStep
    split
    exacts [deliverBoundary_kept s, (evaluateFriendly_kept s).before rfl rfl rfl]
  · exact (switchStartUp_kept s).before rfl rfl rfl
  · exact .before (t := acceptorStartUp s) (.after (hand_kept _ _ _ _) rfl ⟨rfl, rfl, rfl, rfl⟩ rfl) rfl rfl rfl
  · exact .before (t := pulseStartUp s) ((hand_kept .ms false none s).trans (hand_kept _ _ _ _)) rfl rfl rfl
  · exact (tamperStartUp_kept s).before (by simp) (by simp) (by simp)

/-- The three are kept by every operation that a command calls. -/
theorem kept_closed : StepClosed Kept where
  trans := .trans
  quiet ha hp _ _ hq := .of_eq ha hp hq
  observe := observe_kept
  pulse := acceptPulse_kept
  tick := tick_kept
  decode := finishDecode_kept
  symbol := takeSymbol_kept
  verify := verify_kept
  press := samplePress_kept
  runSample := runSample_kept
  batterySample := batterySample_kept
  pwAttempt := pwAttempt_kept
  item := item_kept
  timeTrim := timeTrimOwner_kept
  setClock := setClockOwner_kept
  lockEvent := lockEvent_kept
  lossEvent := lossEvent_kept
  mainReset := mainReset_kept
  battery s := .before (.after (mainReset_kept (setPower .battery s)) rfl ⟨rfl, rfl, rfl, rfl⟩ rfl) rfl rfl rfl
  retentionStart := retentionStart_kept
  startStep := takeStep_kept

/-! ## The statements -/

/-- Settles O6: a claim changes the record by a lawful function, and no other operation but a retention start does. -/
theorem accountLawfulKept : Obligations.AccountLawfulKept := by
  intro s t hs h
  rcases step_next h with rfl | ⟨c, rest, -, hc⟩
  exacts [hs, (kept_closed.exec hc).lawful hs]

/-- Settles O7: an accepted pulse counts modulo the tops, and no other operation but a retention start counts. -/
theorem energyInRangeKept : Obligations.EnergyInRangeKept := by
  intro s t hs h
  rcases step_next h with rfl | ⟨c, rest, -, hc⟩
  exacts [hs, (kept_closed.exec hc).inRange hs]

/-- Settles O2, by the operations that the command calls. -/
theorem commandsKeepTheQueue : Obligations.CommandsKeepTheQueue :=
  fun _ _ _ h => (kept_closed.exec h).pending

end Sys2Proof.Machine
end

