-- ==== Sys2Proof/Proofs/LogAgrees.lean ====
section
/-! Every step keeps the Evidence Log in agreement with the set latches, and what an agreeing log is like when it is full
(R165, R168, R169, R171). -/

namespace Sys2Proof.Machine

/-- Every operation that a command calls keeps the agreement. -/
theorem logAgrees_closed : StepClosed fun s t => s.LogAgrees → t.LogAgrees where
  trans h k := k ∘ h
  quiet _ _ ht he _ h := h.of_tmp he ht
  observe m n _ := observe_logAgrees m n
  pulse n d _ := acceptPulse_logAgrees n d
  tick ps _ := tick_logAgrees ps
  decode r _ := finishDecode_logAgrees r
  symbol x _ := takeSymbol_logAgrees x
  verify o _ := verify_logAgrees o
  press _ := samplePress_logAgrees
  runSample _ := runSample_logAgrees
  batterySample _ := batterySample_logAgrees
  pwAttempt _ := pwAttempt_logAgrees
  item ho v _ := ownerOfItem_logAgrees ho v
  timeTrim p _ := ownerOf_logAgrees .timeTrim p
  setClock p _ := ownerOf_logAgrees .setClock p
  lockEvent s _ := lockEvent_logAgrees s
  lossEvent _ := lossEvent_logAgrees
  mainReset _ := mainReset_logAgrees
  battery _ := enterBattery_logAgrees
  retentionStart s _ := retentionStart_logAgrees s
  startStep _ := takeStep_logAgrees

/-- The oldest unprotected record of a list that holds one: every record before it is protected (R168). -/
theorem exists_oldest_unguarded {rs : List LogRecord} (h : ∃ r ∈ rs, r.guarded = false) :
    ∃ before x after, rs = before ++ x :: after ∧ (∀ y ∈ before, y.guarded = true) ∧ x.guarded = false := by
  induction rs with
  | nil => simp at h
  | cons r rs ih =>
    cases hr : r.guarded
    · exact ⟨[], r, rs, rfl, by simp, hr⟩
    · obtain ⟨y, hy, hg⟩ := h
      have hrest : y ∈ rs := by
        rcases List.mem_cons.mp hy with rfl | hy
        exacts [by simp [hr] at hg, hy]
      obtain ⟨before, x, after, rfl, hb, hx⟩ := ih ⟨y, hrest, hg⟩
      exact ⟨r :: before, x, after, rfl, by simpa [hr] using hb, hx⟩

/-- Settles O33: the operations of the blocks keep the agreement, and nine protected records leave one to lose in a full
list. -/
theorem logAgreesKept : Obligations.LogAgreesKept := by
  refine ⟨fun s t hs h => ?_, fun s hs => ⟨hs.guarded_le_nine, ?_⟩⟩
  · rcases step_next h with rfl | ⟨c, rest, -, hc⟩
    exacts [hs, logAgrees_closed.exec hc hs]
  · rcases Nat.lt_or_ge s.elg.records.length 32 with hl | hl
    · exact .inl hl
    · exact .inr ⟨Nat.le_antisymm hs.1 hl, exists_oldest_unguarded (Elg.Agrees.exists_unguarded hs (by omega))⟩

end Sys2Proof.Machine
end

