-- ==== Sys2Proof/Proofs/LinkConsistent.lean ====
section
/-! Every step keeps the link consistent (R185): the slot, the remainder and the hold timer hold a reply exactly where the
link's state says so. -/

namespace Sys2Proof.Machine

/-- The link holds no reply and no timer of one. -/
def Lnk.Bare (x : Lnk) : Prop := x.slot = [] ∧ x.remainder = [] ∧ x.holdTimer = none

/-- The states of the link in which a reply stands in the slot. -/
def Lnk.Holds (x : Lnk) : Prop := x.state = .replyReady ∨ x.state = .receiving ∧ x.returnReady = true

theorem Lnk.consistent_of_holds {x : Lnk} (h : x.Holds) (hs : x.slot ≠ []) (ht : x.holdTimer.isSome = true) :
    x.Consistent := (if_pos h).mpr ⟨hs, ht⟩

theorem Lnk.consistent_of_bare {x : Lnk} (h : ¬x.Holds) (hb : x.Bare) : x.Consistent := (if_neg h).mpr hb

theorem Lnk.Consistent.filled {x : Lnk} (h : x.Consistent) (hh : x.Holds) : x.slot ≠ [] ∧ x.holdTimer.isSome = true :=
  (if_pos hh).mp h

theorem Lnk.Consistent.bare {x : Lnk} (h : x.Consistent) (hh : ¬x.Holds) : x.Bare := (if_neg hh).mp h

/-- A consistent link with an empty slot is bare. -/
theorem Lnk.Consistent.bare_of_slot {x : Lnk} (h : x.Consistent) (hs : x.slot = []) : x.Bare :=
  h.bare fun hh => (h.filled hh).1 hs

/-- What the last transaction showed on SDA has no part in it. -/
theorem Lnk.Consistent.of_shown {x : Lnk} (h : x.Consistent) (acked : Bool) (bytes : Nat) (sent : List Byte) :
    ({ x with addressAcked := acked, bytesAcked := bytes, sent := sent } : Lnk).Consistent := h

theorem Lnk.Consistent.mainReset : Lnk.mainReset.Consistent := by
  simp [Lnk.Consistent, Lnk.mainReset]

/-- An operation that leaves the link as it was. -/
theorem consistent_of_eq {s t : State} (h : s.lnk.Consistent) (hl : t.lnk = s.lnk) : t.lnk.Consistent := hl ▸ h

/-! ## Time, and the commands of the link -/

theorem observe_consistent (m : Moment) (n : Nat) {s : State} (h : s.lnk.Consistent) : (observe m n s).lnk.Consistent := by
  by_cases hheld : resetHeld s = true
  · simp only [observe, hheld, if_true]
    exact Lnk.Consistent.mainReset
  · simp only [observe, hheld]
    by_cases hh : s.lnk.Holds
    · obtain ⟨hs, ht⟩ := h.filled hh
      exact Lnk.consistent_of_holds hh hs (by simpa using ht)
    · obtain ⟨hs, hr, ht⟩ := h.bare hh
      refine Lnk.consistent_of_bare hh ⟨hs, hr, ?_⟩
      show s.lnk.holdTimer.map _ = none
      rw [ht]
      rfl

/-- The link leaves RECEIVING for its return state with what it kept (R187, R189). -/
theorem leaveReceiving_consistent {s : State} (h : s.lnk.Consistent) (hr : s.lnk.state = .receiving) :
    (leaveReceiving s).lnk.Consistent := by
  cases hk : s.lnk.returnReady
  · obtain hb := h.bare (by simp [Lnk.Holds, hr, hk])
    refine Lnk.consistent_of_bare ?_ hb
    simp [Lnk.Holds, leaveReceiving, returnState, hk]
  · obtain ⟨hs, ht⟩ := h.filled (.inr ⟨hr, hk⟩)
    refine Lnk.consistent_of_holds (.inl ?_) hs ht
    simp [leaveReceiving, returnState, hk]

theorem restart_consistent {s : State} (h : s.lnk.Consistent) : (restart s).lnk.Consistent := by
  unfold restart
  split
  exacts [leaveReceiving_consistent h ‹_›, h]

theorem writeAddressed_consistent (m : Moment) (a : BitVec 7) {s : State} (h : s.lnk.Consistent) :
    (writeAddressed m a s).lnk.Consistent := by
  have hr := restart_consistent (observe_consistent m 0 h)
  unfold writeAddressed
  generalize restart (observe m 0 s) = x at hr ⊢
  dsimp only
  split
  · split
    · rename_i hc
      rcases hc.2 with hi | hi
      · have hb := hr.bare (by simp [Lnk.Holds, hi])
        exact Lnk.consistent_of_bare (by simp [Lnk.Holds, hi]) hb
      · obtain ⟨hs, ht⟩ := hr.filled (.inl hi)
        exact Lnk.consistent_of_holds (.inr ⟨rfl, by simp [hi]⟩) hs ht
    · exact hr.of_shown _ _ _
  · exact hr

theorem frameOf_ne_nil (bs : List Byte) : frameOf bs ≠ [] := by simp [frameOf]

theorem replyFrame_ne_nil (k st : Nat) (p : List Byte) : replyFrame k st p ≠ [] := frameOf_ne_nil _

theorem readReply_consistent (n : Nat) {s : State} (h : s.lnk.Consistent) (hr : s.lnk.state = .replyReady) :
    (readReply n s).lnk.Consistent := by
  obtain ⟨hs, ht⟩ := h.filled (.inl hr)
  unfold readReply
  dsimp only
  split
  · exact Lnk.consistent_of_holds (.inl hr) hs ht
  · split
    · rename_i hrem
      exact Lnk.consistent_of_bare (by simp [Lnk.Holds]) ⟨rfl, hrem, rfl⟩
    · exact Lnk.consistent_of_holds (.inl hr) (replyFrame_ne_nil _ _ _) rfl

theorem readTransaction_consistent (m : Moment) (a : BitVec 7) (n d : Nat) {s : State} (h : s.lnk.Consistent) :
    (readTransaction m a n d s).lnk.Consistent := by
  have hr := restart_consistent (observe_consistent m (holdPause m a d s) h)
  unfold readTransaction
  generalize restart (observe m (holdPause m a d s) s) = x at hr ⊢
  dsimp only
  split
  · split
    · split
      · exact hr.of_shown _ _ _
      · exact readReply_consistent n hr ‹_›
      · exact hr.of_shown _ _ _
      · exact hr.of_shown _ _ _
    · exact hr.of_shown _ _ _
  · exact hr

theorem clockLowTimeout_consistent (m : Moment) (d : Nat) {s : State} (h : s.lnk.Consistent) :
    (clockLowTimeout m d s).lnk.Consistent := by
  unfold clockLowTimeout
  dsimp only
  generalize (working s.sdm.power && s.lnk.state == .replyReady && !m.pins.scl &&
    decide (Config.clockLowTime ≤ d)) = abandoned
  have ho := observe_consistent m (if abandoned then d else 0) h
  by_cases hc : (observe m (if abandoned then d else 0) s).lnk.state = .receiving ∧
      (observe m (if abandoned then d else 0) s).lnk.clockLow = some 0
  · rw [if_pos hc]
    exact leaveReceiving_consistent ho hc.1
  · rw [if_neg hc]
    exact ho

theorem execReplyHoldTimeout_consistent {m : Moment} {s t : State} (h : s.lnk.Consistent)
    (hx : execReplyHoldTimeout m s = .next t) : t.lnk.Consistent := by
  have ho := observe_consistent m 0 h
  unfold execReplyHoldTimeout at hx
  dsimp only at hx
  split at hx <;> cases hx
  · rw [(notify_frame _ _).2.2.2.2.2.2.2.2.2.2.2.2.1]
    refine Lnk.consistent_of_bare ?_ ⟨rfl, rfl, rfl⟩
    simp only [State.setLnk_fields, Lnk.Holds]
    split <;> simp_all
  · exact ho

/-! ## Events and requests -/

/-- A placed reply stands in the slot, whatever stood there (R190). -/
theorem placeReply_consistent (k : Nat) (a : Answer) (s : State) : (placeReply k a s).lnk.Consistent := by
  unfold placeReply
  split <;> exact Lnk.consistent_of_holds (.inl rfl) (replyFrame_ne_nil _ _ _) rfl

theorem placeFrame_consistent {frame : List Byte} (h : frame ≠ []) (rest : List Byte) (s : State) :
    (placeFrame frame rest s).lnk.Consistent := Lnk.consistent_of_holds (.inl rfl) h rfl

theorem pfwFall_consistent (m : Moment) {s : State} (h : s.lnk.Consistent) : (pfwFall m s).lnk.Consistent := by
  have ho := observe_consistent { m with pins := { m.pins with pfw := false } } 0 h
  unfold pfwFall
  dsimp only
  split
  exacts [consistent_of_eq ho (by simp), ho]

theorem takeEvent_consistent (e : KeysEvent) {s : State} (h : s.lnk.Consistent) : (takeEvent s e).lnk.Consistent := by
  cases e with
  | decodeEnd m =>
    refine consistent_of_eq (observe_consistent m 0 h) ?_
    simp only [takeEvent, decodeEnd]
    split <;> simp
  | entryTimeout m =>
    refine consistent_of_eq (observe_consistent m 0 h) ?_
    simp only [takeEvent, entryTimeout]
    split <;> simp
  | secondTick m => exact consistent_of_eq (observe_consistent m 0 h) (by simp [takeEvent, secondTick])
  | pfwFall m => exact pfwFall_consistent m h
  | readTransaction m a n d => exact readTransaction_consistent m a n d h
  | writeAddressed m a => exact writeAddressed_consistent m a h
  | clockLowTimeout m d => exact clockLowTimeout_consistent m d h

theorem takeEvents_consistent (es : List (Nat × KeysEvent)) {s : State} (h : s.lnk.Consistent) :
    (takeEvents es s).lnk.Consistent := by
  unfold takeEvents
  induction es generalizing s with
  | nil => exact h
  | cons e es ih => exact ih (takeEvent_consistent e.2 h)

/-- A link that has completed a frame holds no reply (R188). -/
theorem completeWrite_bare (b : List Byte) {s : State} (h : s.lnk.Consistent) : (completeWrite b s).lnk.Bare := by
  unfold completeWrite discardKept
  dsimp only
  split
  · obtain ⟨hs, hr, ht⟩ := h.bare_of_slot ‹_›
    exact ⟨hs, hr, ht⟩
  · simp [Lnk.Bare]

/-- The link waits in WORKING with nothing in its slot. -/
theorem enterWorking_consistent {s : State} (h : s.lnk.Bare) : (enterWorking s).lnk.Consistent :=
  Lnk.consistent_of_bare (by simp [Lnk.Holds, enterWorking]) h

/-- An owner other than KEYS has no hand in the link. -/
theorem serve_consistent {r : Request} {o : Owner} (ho : ∀ p s, (o p s).2.lnk = s.lnk) (p : List Byte) {s : State}
    (h : s.lnk.Bare) : (serve r o p s).lnk.Consistent := by
  have hw := ho p (enterWorking s)
  unfold serve
  split <;> rename_i he <;> rw [he] at hw
  exacts [placeReply_consistent _ _ _, consistent_of_eq (enterWorking_consistent h) hw]

theorem takeSymbols_consistent (xs : List Symbol) (i : Nat) (es : List (Nat × KeysEvent)) {s : State}
    (h : s.lnk.Consistent) : (takeSymbols i xs es s).state.lnk.Consistent := by
  induction xs generalizing i es s with
  | nil => exact h
  | cons x xs ih =>
    have hs : (takeSymbol x (takeEvents (es.takeWhile fun e => decide (e.1 ≤ i)) s)).2.lnk.Consistent :=
      consistent_of_eq (takeEvents_consistent (es.takeWhile fun e => decide (e.1 ≤ i)) h) (by simp)
    unfold takeSymbols
    dsimp only
    split <;> rename_i he <;> rw [he] at hs
    exacts [hs, ih _ _ hs]

theorem serveKeys_consistent (es : List (Nat × KeysEvent)) (p : List Byte) (s : State) :
    (serveKeys es p s).lnk.Consistent := takeEvents_consistent _ (placeReply_consistent _ _ _)

theorem settleBurn_lnk (s : State) : (settleBurn s).lnk = s.lnk := by simp

/-- The owners of the items have no hand in the link. -/
theorem item_lnk {n : Nat} {owner : Owner} (ho : ownerOfItem n = some owner) (v : List Byte) (s : State) :
    (owner v s).2.lnk = s.lnk := by
  unfold ownerOfItem at ho
  split at ho <;> cases ho
  all_goals
    simp only [identityItem, slot0KeyItem, groupSlotItem, openingBalanceItem, pulseWeightItem, absoluteBillingItem,
      stallTimeItem, reconnectModeItem, accountSettingsItem, loadLimitsItem, tamperActionsItem, activeTariffItem,
      calendarItem, itemOf, refuseArgument, taken]
    (repeat' split) <;> simp

/-- Nor has any other owner. -/
theorem owner_lnk {r : Request} (hk : r ≠ .keys) (p : List Byte) (s : State) : (ownerOf r p s).2.lnk = s.lnk := by
  cases r
  case keys => exact absurd rfl hk
  case commissionWrite =>
    simp only [ownerOf, commissionWriteOwner]
    split
    exacts [item_lnk ‹_› _ _, rfl]
  case commissionLock =>
    simp only [ownerOf, commissionLockOwner]
    (repeat' split) <;> simp
  case setClock =>
    simp only [ownerOf, setClockOwner]
    split <;> simp
  case identify | status | readAccount | readEnergy | readCalendar | readSwitch | timeRead | readNotices => rfl
  all_goals
    simp only [ownerOf, readTariffOwner, readTamperOwner, readLogOwner, readCodeResultOwner, setMaskOwner,
      snapshotLatchOwner, snapshotReadOwner, timeTrimOwner, refuseArgument]
    (repeat' split) <;> simp

/-- The handing of a frame by the checks of R188, whatever its handler makes of a bare link. -/
theorem handRequest_consistent {r : Request} {handler : Handler}
    (hh : ∀ p (s : State), s.lnk.Bare → (handler p s).lnk.Consistent) (p : List Byte) {s : State} (h : s.lnk.Bare) :
    (handRequest r handler p s).lnk.Consistent := by
  unfold handRequest
  split
  · exact placeReply_consistent _ _ _
  · split
    · split
      exacts [placeReply_consistent _ _ _, hh p s h]
    · exact placeReply_consistent _ _ _

theorem request_consistent {r : Request} {handler : Handler}
    (hh : ∀ p (s : State), s.lnk.Bare → (handler p s).lnk.Consistent) (p : List Byte) {s : State} (h : s.lnk.Consistent) :
    (request r handler p s).lnk.Consistent := by
  unfold request
  split
  · split
    · exact handRequest_consistent hh p (completeWrite_bare _ h)
    · exact placeFrame_consistent (replyFrame_ne_nil _ _ _) _ _
  · exact h

/-- Every owner of the catalogue, KEYS by its own handler. -/
theorem serve_owner_consistent (r : Request) (p : List Byte) (s : State) (h : s.lnk.Bare) :
    (serve r (ownerOf r) p s).lnk.Consistent := by
  by_cases hk : r = .keys
  · subst hk
    rw [show ownerOf .keys = keysOwner from rfl, ← serveKeys_nil]
    exact serveKeys_consistent [] p s
  · exact serve_consistent (owner_lnk hk) p h

theorem requestRow_consistent (r : Request) (m : Moment) (p : List Byte) {s : State} (h : s.lnk.Consistent) :
    (request r (serve r (ownerOf r)) p (observe m 0 s)).lnk.Consistent :=
  request_consistent (serve_owner_consistent r) p (observe_consistent m 0 h)

theorem itemRow_consistent {n : Nat} {o : Owner} (ho : ownerOfItem n = some o) (item : Nat) (m : Moment) (v : List Byte)
    {s : State} (h : s.lnk.Consistent) :
    (request .commissionWrite (serve .commissionWrite fun p s => o p.tail s) (BitVec.ofNat 8 item :: v)
      (observe m 0 s)).lnk.Consistent :=
  request_consistent (fun _ _ hb => serve_consistent (fun p s => item_lnk ho p.tail s) _ hb) _ (observe_consistent m 0 h)

theorem endWrite_consistent (bytes : List Byte) {s : State} (h : s.lnk.Consistent) (hr : s.lnk.state = .receiving) :
    (endWrite bytes s).lnk.Consistent := by
  unfold endWrite
  split
  · exact leaveReceiving_consistent h hr
  · unfold checkFrame
    split
    · split
      · exact placeFrame_consistent (replyFrame_ne_nil _ _ _) _ _
      · exact handRequest_consistent (serve_owner_consistent _) _ (completeWrite_bare _ h)
    · exact placeFrame_consistent (replyFrame_ne_nil _ _ _) _ _

theorem answerBurn_consistent (r : Request) {s : State} (h : s.lnk.Consistent) : (answerBurn r s).lnk.Consistent := by
  unfold answerBurn
  split
  exacts [placeReply_consistent _ _ _, h]

theorem otsBurnEnd_consistent {s : State} (h : s.lnk.Consistent) : (otsBurnEnd s).lnk.Consistent := by
  have ha : (answerBurn .commissionWrite (s.setOts s.ots.burned)).lnk.Consistent :=
    answerBurn_consistent _ (consistent_of_eq h rfl)
  unfold otsBurnEnd
  (repeat' split) <;> first | exact ha | exact h

theorem lockBurnEnd_consistent {s : State} (h : s.lnk.Consistent) : (lockBurnEnd s).lnk.Consistent := by
  unfold lockBurnEnd
  split
  · split
    exacts [answerBurn_consistent _ (consistent_of_eq h (by simp)), h]
  · exact h

/-! ## Every command -/

/-- A MAIN reset leaves an idle link with nothing in its slot (R185, R200). -/
theorem enterStarting_consistent (s : State) : (enterStarting s).lnk.Consistent := Lnk.Consistent.mainReset

/-- A command that, after its moment, has no hand in the link. -/
theorem consistent_of_kept {m : Moment} {s t : State} (h : s.lnk.Consistent) (ht : t.lnk = (observe m 0 s).lnk) :
    t.lnk.Consistent := consistent_of_eq (observe_consistent m 0 h) ht

theorem exec_consistent {c : Instr} {s t : State} (h : s.lnk.Consistent) (hx : exec c s = .next t) :
    t.lnk.Consistent := by
  have hite : ∀ {m : Moment} {p : Prop} [Decidable p] {u : State}, (u.lnk = (observe m 0 s).lnk) →
      (if p then Host.Outcome.next u else .next (observe m 0 s) : Host.Outcome State Fault Refusal) = .next t →
      t.lnk.Consistent := by
    intro m p _ u hu hx
    split at hx <;> cases hx
    exacts [consistent_of_kept h hu, observe_consistent m 0 h]
  have hreset : ∀ {m : Moment} {p : Prop} [Decidable p] {u : State}, u.lnk = .mainReset →
      (if p then Host.Outcome.next u else .next (observe m 0 s) : Host.Outcome State Fault Refusal) = .next t →
      t.lnk.Consistent := by
    intro m p _ u hu hx
    split at hx <;> cases hx
    exacts [hu ▸ Lnk.Consistent.mainReset, observe_consistent m 0 h]
  cases c
  case pulseEdge m n => exact hite (acceptPulse_frame ..).2.2.2.2.2.2.2.1 hx
  case secondTick m => cases hx; exact takeEvent_consistent (.secondTick m) h
  case clockWrap m => exact hite (by simp) hx
  case stallDetected m n => exact hite (by simp) hx
  case demandMinuteEnd m => exact hite (by simp) hx
  case dayBoundary m => exact hite (by simp) hx
  case lockoutEnd m => exact hite (by simp) hx
  case penaltyEnd m => exact hite (by simp) hx
  case entryTimeout m => cases hx; exact takeEvent_consistent (.entryTimeout m) h
  case decodeEnd m => cases hx; exact takeEvent_consistent (.decodeEnd m) h
  case keys m p es =>
    cases hx
    exact request_consistent (fun p s _ => serveKeys_consistent es p s) p (observe_consistent m 0 h)
  case restEnd m =>
    simp only [exec, execRestEnd] at hx
    split at hx
    exacts [hite (by simp) hx, by cases hx; exact observe_consistent m 0 h]
  case coilPulseEnd m =>
    simp only [exec, execCoilPulseEnd] at hx
    split at hx
    exacts [hite (by simp) hx, by cases hx; exact observe_consistent m 0 h]
  case settleEnd m =>
    simp only [exec, execSettleEnd] at hx
    split at hx
    exacts [hite (by simp) hx, by cases hx; exact observe_consistent m 0 h]
  case reconnectPress m held => exact hite (by simp) hx
  case runFilterSample m => exact hite (by simp) hx
  case batteryFilterSample m => exact hite (by simp) hx
  case frameError m bytes =>
    simp only [exec, execFrameError] at hx
    split at hx <;> cases hx
    exacts [endWrite_consistent _ (observe_consistent m 0 h) ‹_›, observe_consistent m 0 h]
  case readTransaction m a n d => cases hx; exact readTransaction_consistent m a n d h
  case clockLowTimeout m d => cases hx; exact clockLowTimeout_consistent m d h
  case replyHoldTimeout m => exact execReplyHoldTimeout_consistent h hx
  case identify m p => cases hx; exact requestRow_consistent .identify m p h
  case status m p => cases hx; exact requestRow_consistent .status m p h
  case readAccount m p => cases hx; exact requestRow_consistent .readAccount m p h
  case readEnergy m p => cases hx; exact requestRow_consistent .readEnergy m p h
  case readTariff m p => cases hx; exact requestRow_consistent .readTariff m p h
  case readCalendar m p => cases hx; exact requestRow_consistent .readCalendar m p h
  case readSwitch m p => cases hx; exact requestRow_consistent .readSwitch m p h
  case readTamper m p => cases hx; exact requestRow_consistent .readTamper m p h
  case readLog m p => cases hx; exact requestRow_consistent .readLog m p h
  case readCodeResult m p => cases hx; exact requestRow_consistent .readCodeResult m p h
  case readNotices m p => cases hx; exact requestRow_consistent .readNotices m p h
  case setAttentionMask m p => cases hx; exact requestRow_consistent .setAttentionMask m p h
  case snapshotLatch m p => cases hx; exact requestRow_consistent .snapshotLatch m p h
  case snapshotRead m p => cases hx; exact requestRow_consistent .snapshotRead m p h
  case timeRead m p => cases hx; exact requestRow_consistent .timeRead m p h
  case timeTrim m p => cases hx; exact requestRow_consistent .timeTrim m p h
  case setClock m p => cases hx; exact requestRow_consistent .setClock m p h
  case identity m v => cases hx; exact itemRow_consistent (n := 1) rfl 1 m v h
  case slot0Key m v => cases hx; exact itemRow_consistent (n := 2) rfl 2 m v h
  case otsBurnEnd m => cases hx; exact otsBurnEnd_consistent (observe_consistent m 0 h)
  case groupSlot m v => cases hx; exact itemRow_consistent (n := 3) rfl 3 m v h
  case openingBalance m v => cases hx; exact itemRow_consistent (n := 4) rfl 4 m v h
  case pulseWeight m v => cases hx; exact itemRow_consistent (n := 5) rfl 5 m v h
  case absoluteBilling m v => cases hx; exact itemRow_consistent (n := 6) rfl 6 m v h
  case stallTime m v => cases hx; exact itemRow_consistent (n := 7) rfl 7 m v h
  case reconnectMode m v => cases hx; exact itemRow_consistent (n := 8) rfl 8 m v h
  case accountSettings m v => cases hx; exact itemRow_consistent (n := 9) rfl 9 m v h
  case loadLimits m v => cases hx; exact itemRow_consistent (n := 10) rfl 10 m v h
  case tamperActions m v => cases hx; exact itemRow_consistent (n := 11) rfl 11 m v h
  case activeTariffField m v => cases hx; exact itemRow_consistent (n := 12) rfl 12 m v h
  case calendarField m v => cases hx; exact itemRow_consistent (n := 13) rfl 13 m v h
  case commissionLock m p => cases hx; exact requestRow_consistent .commissionLock m p h
  case commissionLockBurnEnd m => cases hx; exact lockBurnEnd_consistent (observe_consistent m 0 h)
  case vddGood m =>
    have ho := observe_consistent { m with pins := { m.pins with vdd := true } } 0 h
    simp only [exec, execVddGood] at hx
    split at hx <;> cases hx
    exacts [enterStarting_consistent _, enterStarting_consistent _, ho, ho, ho]
  case vddLost m =>
    simp only [exec, execVddLost] at hx
    split at hx
    · split at hx <;> cases hx <;> exact Lnk.Consistent.mainReset
    · cases hx
      exact observe_consistent _ 0 h
  case vbatLost m => exact hreset rfl hx
  case rstnFall m => exact hreset rfl hx
  case pfwFall m => cases hx; exact pfwFall_consistent m h
  case pfwRise m => exact hreset rfl hx
  case startUp m run =>
    simp only [exec, execStartUp] at hx
    split at hx <;> cases hx
    · refine consistent_of_kept (m := m) h ((takeSteps_frame _ _).2.2.2.1.trans ?_)
      split <;> exact settleBurn_lnk _
    · exact observe_consistent m 0 h
  case lossMarkBurnEnd m =>
    simp only [exec, execLossMarkBurnEnd] at hx
    split at hx
    exacts [hite (by simp) hx, by cases hx; exact observe_consistent m 0 h]
  case writeAddressed m a => cases hx; exact writeAddressed_consistent m a h
  case writeWithNoRequest m =>
    simp only [exec, execWriteWithNoRequest] at hx
    split at hx <;> cases hx
    exacts [leaveReceiving_consistent (observe_consistent m 0 h) ‹_›, observe_consistent m 0 h]

/-- Settles O8, by the operations of the link that a command calls; the other blocks have no hand in it. -/
theorem linkConsistentKept : Obligations.LinkConsistentKept := by
  intro s t hs h
  rcases step_next h with rfl | ⟨c, rest, -, hc⟩
  exacts [hs, exec_consistent (s := { s with pending := rest }) hs hc]

end Sys2Proof.Machine
end

