-- ==== Sys2Proof/Proofs/Moments.lean ====
section
/-! The queue, the moment of a command, and the part after reset; and the entries that end in a result alone. -/

namespace Sys2Proof.Machine

/-! ## What the moment leaves in a working part -/

/-- A moment in RUN or HOLDUP, field by field. -/
theorem observe_working {s : State} (m : Moment) (h : s.sdm.power = .run ∨ s.sdm.power = .holdup) :
    observe m 0 s =
      { s with
        now := s.now + m.elapsed
        pins := m.pins
        rcbLow := if s.pins.rcb then s.rcbLow else s.now
        cda := { s.cda with entryTimer := s.cda.entryTimer.map (· - m.elapsed) }
        lnk := { s.lnk with holdTimer := s.lnk.holdTimer.map (· - m.elapsed), clockLow := clockLowAfter m s.lnk } } :=
  observe_running m (resetHeld_working h)

theorem mainPowered_working {p : PowerState} (h : p = .run ∨ p = .holdup) : mainPowered p = true := by
  rcases h with rfl | rfl <;> rfl

/-- A notice joins the set while the MAIN domain is powered (R177). -/
theorem notify_powered {n : Notice} {s : State} (h : mainPowered s.sdm.power = true) :
    notify n s = { s with rpu := s.rpu.withNotice n } := if_pos h

/-- A result that ends its entry, in a part whose MAIN domain is powered (R101, R102). -/
theorem endEntry_writeResult (o : CodeOutcome) (code : Option CodeRef) (d : Option Detail) {s : State}
    (h : mainPowered s.sdm.power = true) :
    endEntry (writeResult o code d s) =
      { s with
        cda :=
          { s.cda with
            acceptor := .idle
            buffer := []
            entryTimer := none
            lastResult := some ⟨o, code, s.tcu.clock, d⟩
            resultNumber := if s.cda.resultNumber < 255 then s.cda.resultNumber + 1 else 1 }
        rpu := { s.rpu with notices := s.rpu.notices ||| 4 } } := by
  rw [writeResult, notify_powered (by exact h)]
  rfl

/-! ## The obligations -/

/-- Settles O1, by the definition of a step: it takes its command from the front. -/
theorem stepRunsTheFrontCommand : Obligations.StepRunsTheFrontCommand :=
  ⟨fun _ _ => rfl, fun s h => by rw [step, h]⟩

/-- Settles O3, by the two branches of a moment. -/
theorem aMomentPasses : Obligations.AMomentPasses := by
  intro m s
  refine ⟨fun h => observe_running m h, fun h => ?_⟩
  simp only [observe, h, if_true]
  rfl

/-- Settles O4, by evaluation of the state after reset. -/
theorem resetIsABlankStartingPart : Obligations.ResetIsABlankStartingPart := by
  refine ⟨rfl, rfl, rfl, rfl, rfl, rfl, rfl, rfl, rfl, rfl, rfl, rfl, rfl, rfl, rfl, rfl⟩

/-- Settles O5, by the values of the blocks after reset. -/
theorem invariantsHoldAtReset : Obligations.InvariantsHoldAtReset := by
  refine ⟨⟨by decide, by decide, by decide⟩, ⟨fun n => ?_, by decide, by decide⟩, Lnk.Consistent.mainReset,
    Elg.Agrees.restart fun k => ?_⟩
  · cases n <;> decide
  · cases k <;> rfl

/-- Settles O15, by the moment at which the timer has run out and the result that ends its entry. -/
theorem entryTimesOut : Obligations.EntryTimesOut := by
  intro m s left hp ht hle
  have hm := mainPowered_working hp
  have h0 : (observe m 0 s).cda.entryTimer = some 0 := by
    simp [observe_working m hp, ht, Nat.sub_eq_zero_of_le hle]
  refine congrArg Host.Outcome.next ((if_pos h0).trans ?_)
  rw [endEntry_writeResult _ _ _ (by simpa [observe_working m hp] using hm), observe_working m hp]

end Sys2Proof.Machine
end

