-- ==== Sys2Proof/Proofs/Conditions.lean ====
section
/-! What a condition that is handed brings beside its latch: the record, the notice and the TAMPER cause (R145, R149 to
R153); and what an append does to the list of records (R168). -/

namespace Sys2Proof.Machine

theorem Tmp.SameLatches.trans {x y z : Tmp} (h : x.SameLatches y) (k : y.SameLatches z) : x.SameLatches z :=
  ⟨k.1.trans h.1, fun j => ⟨(k.2 j).1.trans (h.2 j).1, (k.2 j).2.1.trans (h.2 j).2.1,
    fun a b => ((k.2 j).2.2 a b).trans ((h.2 j).2.2 a b)⟩⟩

/-! ## The TAMPER cause -/

/-- Whether the TAMPER cause is required depends on the set latches and the actions alone (R153). -/
theorem tamperRequired_eq {x y : Tmp} (ha : y.actions = x.actions)
    (hs : ∀ k, (y.latches.get k).set = (x.latches.get k).set) : tamperRequired y = tamperRequired x := by
  simp [tamperRequired, ha, hs]

/-- The TAMPER entry after an evaluation (R111, R153). -/
theorem evaluateTamper_table (s : State) :
    (evaluateTamper s).swc.table =
      { s.swc.table with
        tamper :=
          if tamperRequired s.tmp = true then
            match s.swc.table.tamper with
            | some e => some e
            | none => some ⟨false, s.tcu.clock, none⟩
          else none } := by
  unfold evaluateTamper
  cases ht : s.swc.table
  rename_i credit loadLimit tamper order commission
  cases tamperRequired s.tmp <;> cases tamper <;> simp [ht, CauseTable.set]

/-- After an evaluation the table holds a TAMPER entry exactly where one is required (R153). -/
theorem evaluateTamper_required (s : State) :
    (evaluateTamper s).swc.table.tamper.isSome = tamperRequired (evaluateTamper s).tmp := by
  obtain ⟨ha, hs⟩ := evaluateTamper_latches s
  rw [evaluateTamper_table, tamperRequired_eq ha fun k => (hs k).1]
  cases tamperRequired s.tmp <;> cases s.swc.table.tamper <;> rfl

theorem tamperRequired_of_set {x : Tmp} {k : Kind} (hs : (x.latches.get k).set.isSome = true)
    (ha : x.actions.get k = .disconnect) : tamperRequired x = true := by
  refine List.any_eq_true.mpr ⟨k, ?_, by simp [hs, ha]⟩
  cases k <;> decide

/-! ## A condition that rises -/

/-- A condition that rises while its action is OFF is its latch's alone (R149). -/
theorem rise_off {k : Kind} {s : State} (p : Option Phase) (h : s.tmp.actions.get k = .off) :
    rise k p s = setLatch k { s.tmp.latches.get k with condition := k != .pw } s := if_pos h

/-- A condition that rises while its latch is set is counted there (R150). -/
theorem rise_repeated {k : Kind} {s : State} (p : Option Phase) (h : s.tmp.actions.get k ≠ .off)
    (hs : (s.tmp.latches.get k).set ≠ none) :
    rise k p s = notify .tamper (setLatch k
      { s.tmp.latches.get k with
        condition := k != .pw, repeats := min 255 ((s.tmp.latches.get k).repeats + 1) } s) := by
  obtain ⟨x, hx⟩ := Option.ne_none_iff_exists'.mp hs
  have e (l : Latch) (l' : Latch) : setLatch k l' (setLatch k l s) = setLatch k l' s := by
    cases k <;> rfl
  simp only [rise, e]
  rw [if_neg (by simpa [setLatch] using h), if_pos (by simp [setLatch, hx])]
  simp [setLatch]

/-- A condition that rises finds its latch clear: the latch is set with its record, and a disconnecting action calls for
the TAMPER cause (R150, R153). -/
theorem rise_fresh {k : Kind} {s : State} (p : Option Phase) (h : s.tmp.actions.get k ≠ .off)
    (hs : (s.tmp.latches.get k).set = none) :
    ∃ u, rise k p s = (if s.tmp.actions.get k = .disconnect then evaluateTamper u else u) ∧
      u = notify .tamper (latchRecord k p (setLatch k { s.tmp.latches.get k with condition := k != .pw } s)) := by
  refine ⟨_, ?_, rfl⟩
  simp only [rise]
  rw [if_neg (by simpa [setLatch] using h), if_neg (by simp [setLatch, hs])]
  simp [setLatch, latchRecord]

theorem notify_tamper_bit {s : State} (hm : mainPowered s.sdm.power = true) :
    (notify .tamper s).rpu.notices.getLsbD 5 = true := by
  rw [notify_rpu, if_pos hm, Rpu.withNotice_bit]
  simp [noticeNumber]

/-- A condition that rises is announced, unless its action is OFF (R150). -/
theorem rise_noticed {k : Kind} {s : State} (p : Option Phase) (h : s.tmp.actions.get k ≠ .off)
    (hm : mainPowered s.sdm.power = true) : (rise k p s).rpu.notices.getLsbD 5 = true := by
  by_cases hs : (s.tmp.latches.get k).set = none
  · obtain ⟨u, hu, rfl⟩ := rise_fresh p h hs
    rw [hu]
    split
    · rw [(evaluateTamper_noticed _).bit (by decide)]
      exact notify_tamper_bit (by simpa using hm)
    · exact notify_tamper_bit (by simpa using hm)
  · rw [rise_repeated p h hs]
    exact notify_tamper_bit (by simpa using hm)

/-- The table after a condition has risen for a kind whose action is to disconnect (R153). -/
theorem rise_disconnects {k : Kind} {s : State} (p : Option Phase) (ha : s.tmp.actions.get k = .disconnect)
    (hs : (s.tmp.latches.get k).set = none) : (rise k p s).swc.table.tamper.isSome = true := by
  have hne : s.tmp.actions.get k ≠ .off := by simp [ha]
  obtain ⟨hact, hl⟩ := rise_latches k p s
  obtain ⟨u, hu, -⟩ := rise_fresh p hne hs
  have hset : ((rise k p s).tmp.latches.get k).set.isSome = true := by
    rw [(hl k).1]
    simp [risenLatch, ha, hs]
  have hacts : (rise k p s).tmp.actions.get k = .disconnect := by rw [hact]; exact ha
  have hr := tamperRequired_of_set hset hacts
  rw [hu, if_pos ha] at hr ⊢
  exact (evaluateTamper_required u).trans hr

/-! ## The obligations -/

/-- Settles O32, by the three ways in which a condition rises, the one in which it falls, and the one that is no
change. -/
theorem handedConditionsAreTaken : Obligations.HandedConditionsAreTaken := by
  refine ⟨fun k p s hk hc hm => ?_, fun k p s => ⟨fun hc => ?_, fun v hv => if_pos hv⟩⟩
  · have ht : hand k true p s = rise k p s := by simp [hand, hc]
    have hpw : (k != .pw) = true := by simpa using hk
    obtain ⟨-, hl⟩ := rise_latches k p s
    obtain ⟨hset, hrep, -⟩ := hl k
    dsimp only
    rw [ht]
    refine ⟨fun ha => ?_, fun ha hs => ⟨?_, ?_, ?_, rise_noticed p ha hm, fun hd => rise_disconnects p hd hs⟩,
      fun ha hs => ⟨?_, ?_, ?_, ?_, rise_noticed p ha hm⟩⟩
    · rw [rise_off p ha, hpw]
    · rw [rise_elg, if_pos ⟨ha, hs⟩]
      rfl
    · rw [hset]
      simp [risenLatch, ha, hs]
    · rw [hrep]
      simp [risenLatch, ha, hs]
    · rw [hset]
      simp [risenLatch, ha]
      split <;> simp_all
    · rw [hrep]
      simp [risenLatch, ha, Option.ne_none_iff_isSome.mp hs]
    · rw [rise_elg, if_neg fun h => hs h.2]
    · rw [rise_repeated p ha hs]
      simp
  · simp [hand, hc, fall, setLatch, State.setTmp]

/-- A list whose oldest unprotected record is known loses that record. -/
theorem dropUnguarded_split {before : List LogRecord} {x : LogRecord} (after : List LogRecord)
    (hb : ∀ y ∈ before, y.guarded = true) (hx : x.guarded = false) :
    dropUnguarded (before ++ x :: after) = before ++ after := by
  induction before with
  | nil => simp [dropUnguarded, hx]
  | cons y ys ih => simp [dropUnguarded, hb y, ih fun z hz => hb z (List.mem_cons_of_mem y hz)]

/-- Settles O34, by the record that an append makes and the place that it finds in the list. -/
theorem appendKeepsTheLog : Obligations.AppendKeepsTheLog := by
  intro ty k p c s
  refine ⟨rfl, rfl, fun h => ?_, fun before x after hlen hrs hb hx => ?_⟩
  · simp [append, Elg.join, Config.logSize, h, makeRecord]
  · simp only [append, State.setElg_fields, Elg.join, Config.logSize, hlen, lt_irrefl, if_false]
    rw [hrs, dropUnguarded_split after hb hx]
    rfl

end Sys2Proof.Machine
end

