-- ==== Sys2Proof/Proofs/WindowsAndCoils.lean ====
section
/-! The sequence windows (R92, R93), and the coils with the phases that drive them (R116, R117). -/

namespace Sys2Proof.Machine

/-! ## Windows -/

/-- The window after the acceptance of a sequence that passes: its top, and what it has seen (R93). -/
theorem windowAccept_above {t q : Nat} (seen : List Nat) (h : t < q) :
    (windowAccept ⟨some t, seen⟩ q).top = some q ∧
      ∀ x, x ∈ (windowAccept ⟨some t, seen⟩ q).seen ↔ (x = t ∨ x ∈ seen) ∧ q ≤ x + 32 := by
  simp [windowAccept, h, mem_insertSorted]

theorem windowAccept_below {t q : Nat} (seen : List Nat) (h : q < t) :
    (windowAccept ⟨some t, seen⟩ q).top = some t ∧
      ∀ x, x ∈ (windowAccept ⟨some t, seen⟩ q).seen ↔ x = q ∨ x ∈ seen := by
  simp [windowAccept, h, Nat.lt_asymm h, mem_insertSorted]

/-- A sequence that a window with a top refuses: the top itself, a seen one below it, or one too far below (R92). -/
theorem windowTest_refuses {t q : Nat} {seen : List Nat} :
    windowTest ⟨some t, seen⟩ q ≠ none ↔ q = t ∨ q < t ∧ (q ∈ seen ∨ q + 32 < t) := by
  rw [Ne, windowTest_eq_none]
  grind

theorem windowTest_duplicate {t q : Nat} {seen : List Nat} (h : q = t ∨ q < t ∧ q ∈ seen) :
    windowTest ⟨some t, seen⟩ q = some .duplicate := by
  have hle : ¬t < q := by omega
  have hseen : q = t ∨ q ∈ seen := h.imp_right And.right
  simp [windowTest, hle, hseen]

theorem windowTest_stale {t q : Nat} {seen : List Nat} (h : q + 32 < t) (hn : q ∉ seen) :
    windowTest ⟨some t, seen⟩ q = some .stale := by
  have hle : ¬t < q := by omega
  have hne : q ≠ t := by omega
  simp [windowTest, hle, hne, hn, h]

/-- An accepted sequence is a duplicate from then on. -/
theorem windowTest_accepted {w : SeqWindow} {r : Nat} (h : windowTest w r = none) :
    windowTest (windowAccept w r) r = some .duplicate := by
  obtain ⟨top, seen⟩ := w
  cases top with
  | none => simp [windowAccept, windowTest]
  | some t =>
    rcases (windowTest_eq_none t r seen).mp h with hlt | ⟨hne, -, -⟩
    · obtain ⟨htop, -⟩ := windowAccept_above seen hlt
      generalize windowAccept ⟨some t, seen⟩ r = w' at htop
      obtain ⟨top', seen'⟩ := w'
      cases htop
      exact windowTest_duplicate (.inl rfl)
    · rcases Nat.lt_or_gt_of_ne hne with hlt | hgt
      · obtain ⟨htop, hmem⟩ := windowAccept_below seen hlt
        generalize windowAccept ⟨some t, seen⟩ r = w' at htop hmem
        obtain ⟨top', seen'⟩ := w'
        cases htop
        exact windowTest_duplicate (.inr ⟨hlt, (hmem r).mpr (.inl rfl)⟩)
      · obtain ⟨htop, -⟩ := windowAccept_above seen hgt
        generalize windowAccept ⟨some t, seen⟩ r = w' at htop
        obtain ⟨top', seen'⟩ := w'
        cases htop
        exact windowTest_duplicate (.inl rfl)

/-- A sequence that is refused stays refused when another is accepted. -/
theorem windowTest_stays_refused {w : SeqWindow} {q r : Nat} (h : windowTest w r = none) (hq : windowTest w q ≠ none) :
    windowTest (windowAccept w r) q ≠ none := by
  obtain ⟨top, seen⟩ := w
  cases top with
  | none => exact absurd rfl hq
  | some t =>
    have hrefused := windowTest_refuses.mp hq
    rcases Nat.lt_trichotomy t r with hlt | heq | hgt
    · obtain ⟨htop, hmem⟩ := windowAccept_above seen hlt
      generalize windowAccept ⟨some t, seen⟩ r = w' at htop hmem
      obtain ⟨top', seen'⟩ := w'
      cases htop
      have := hmem q
      exact windowTest_refuses.mpr (by grind)
    · exact absurd h (by rw [windowTest_duplicate (.inl heq.symm)]; simp)
    · obtain ⟨htop, hmem⟩ := windowAccept_below seen hgt
      generalize windowAccept ⟨some t, seen⟩ r = w' at htop hmem
      obtain ⟨top', seen'⟩ := w'
      cases htop
      have := hmem q
      exact windowTest_refuses.mpr (by grind)

/-- Settles O25, by the lines of the two window tables, and the two ways in which an accepted window keeps refusing. -/
theorem noSequenceIsAcceptedTwice : Obligations.NoSequenceIsAcceptedTwice := by
  refine ⟨fun q => ⟨rfl, rfl⟩, fun t q seen => ⟨fun h => ?_, windowTest_duplicate, windowTest_stale, fun h1 h2 h3 => ?_,
    windowAccept_above seen, windowAccept_below seen⟩, fun w q r h => ⟨windowTest_accepted h, windowTest_stays_refused h⟩⟩
  · exact (windowTest_eq_none t q seen).mpr (.inl h)
  · exact (windowTest_eq_none t q seen).mpr (.inr ⟨by omega, h3, h2⟩)

/-! ## Coils -/

theorem inPhase_iff {x : Swc} {ph : OpPhase} :
    inPhase x ph = true ↔ (x.switch = .opening ∨ x.switch = .closing) ∧ ∃ o, x.op = some o ∧ o.phase = ph := by
  cases ho : x.op <;> simp [inPhase, ho]

/-- A coil is driven in the PULSE phase of an operation toward its side (R117). -/
theorem coilDriven_iff {x : Swc} {t : Target} :
    coilDriven x t = true ↔ inPhase x .pulse = true ∧ ∃ o, x.op = some o ∧ o.target = t := by
  cases ho : x.op <;> simp [coilDriven, ho]

/-- Outside the PULSE phase no coil is driven. -/
theorem coilDriven_of_not_pulse {x : Swc} {o : Operation} (t : Target) (ho : x.op = some o) (h : o.phase ≠ .pulse) :
    coilDriven x t = false := by
  rw [Bool.eq_false_iff, Ne, coilDriven_iff, inPhase_iff]
  rintro ⟨⟨-, o', ho', hp⟩, -⟩
  cases ho.symm.trans ho'
  exact h hp

/-- In the PULSE phase the coil of the operation's side is driven, and it alone (R117). -/
theorem coils_pulse {s : State} {o : Operation} (hm : mainPowered s.sdm.power = true)
    (hs : s.swc.switch = .opening ∨ s.swc.switch = .closing) (ho : s.swc.op = some o) (h : o.phase = .pulse) :
    s.coDriven = (o.target == .opened) ∧ s.ccDriven = (o.target == .closed) := by
  have hp : inPhase s.swc .pulse = true := inPhase_iff.mpr ⟨hs, o, ho, h⟩
  simp [State.coDriven, State.ccDriven, coilDriven, hm, hp, ho]

theorem coils_released {s : State} {o : Operation} (ho : s.swc.op = some o) (h : o.phase ≠ .pulse) :
    s.coDriven = false ∧ s.ccDriven = false := by
  simp [State.coDriven, State.ccDriven, coilDriven_of_not_pulse _ ho h]

/-- Settles O26, by the record that each end of a phase leaves and what it says of the coils. -/
theorem coilPulses : Obligations.CoilPulses := by
  refine ⟨fun m s o hp hs ho hph hle => ?_, fun m s o hp hs ho hph hle => ?_, fun s => ⟨fun ⟨hco, hcc⟩ => ?_, fun h => ?_⟩⟩
  · have hobs := observe_working (s := s) m (.inl hp)
    have hin : inPhase (observe m 0 s).swc .rest = true := by
      rw [hobs]
      exact inPhase_iff.mpr ⟨hs, o, ho, hph⟩
    have hrun : operates (observe m 0 s).sdm.power = true := by simp [hobs, hp, operates, mainPowered]
    refine ⟨_, ?_, rfl, coils_pulse (o := { o with phase := .pulse, ends := s.now + m.elapsed + 60 }) ?_ hs rfl rfl⟩
    · simp only [exec, execRestEnd]
      rw [show (observe m 0 s).swc.op = some o by rw [hobs]; exact ho]
      dsimp only
      rw [if_pos ⟨hin, hrun⟩, hobs]
      simp [enterRest, Config.restTime, Config.pulseTime, hle, State.setSwc]
    · rw [hobs]
      exact mainPowered_working (.inl hp)
  · have hobs := observe_working (s := s) m hp
    have hin : inPhase (observe m 0 s).swc .pulse = true := by
      rw [hobs]
      exact inPhase_iff.mpr ⟨hs, o, ho, hph⟩
    have hm : mainPowered (observe m 0 s).sdm.power = true := by rw [hobs]; exact mainPowered_working hp
    refine ⟨_, ?_, rfl, coils_released rfl (by simp)⟩
    simp only [exec, execCoilPulseEnd]
    rw [show (observe m 0 s).swc.op = some o by rw [hobs]; exact ho]
    dsimp only
    rw [if_pos ⟨hin, hm, by rw [hobs]; exact hle⟩, hobs]
    simp [Config.settleTime, State.setSwc]
  · obtain ⟨-, o, ho, hto⟩ := coilDriven_iff.mp ((Bool.and_eq_true _ _).mp hco).2
    obtain ⟨-, o', ho', hto'⟩ := coilDriven_iff.mp ((Bool.and_eq_true _ _).mp hcc).2
    cases ho.symm.trans ho'
    cases hto.symm.trans hto'
  · have hdriven (t : Target) (h : (mainPowered s.sdm.power && coilDriven s.swc t) = true) :
        mainPowered s.sdm.power = true ∧ ∃ o, s.swc.op = some o ∧ o.phase = .pulse := by
      obtain ⟨hm, hc⟩ := (Bool.and_eq_true _ _).mp h
      exact ⟨hm, (inPhase_iff.mp (coilDriven_iff.mp hc).1).2⟩
    exact h.elim (hdriven .opened) (hdriven .closed)

end Sys2Proof.Machine
end

