-- ==== Sys2Proof/Proofs/SupplyPins.lean ====
section
/-! The events of the supply pins (R200 to R202, R206): what each leaves of the part. -/

namespace Sys2Proof.Machine

/-- The part as a command's moment finds it, before its own effect: the time, the pins and the last low of RCB. -/
def atMoment (m : Moment) (s : State) : State :=
  { s with now := s.now + m.elapsed, pins := m.pins, rcbLow := if s.pins.rcb then s.rcbLow else s.now }

/-- An entry into STARTING forgets what the moment did to the MAIN domain (R200). -/
theorem enterStarting_observe (m : Moment) (s : State) :
    enterStarting (observe m 0 s) = enterStarting (atMoment m s) := mainReset_observe m 0 .starting s

theorem enterBattery_observe (m : Moment) (s : State) :
    enterBattery (observe m 0 s) = enterBattery (atMoment m s) := by
  rw [enterBattery, mainReset_observe]
  rfl

/-- The entry into OFF: a blank part but for its One-Time Store, whose burn is written (R200, R205). -/
theorem enterOff_eq (s : State) :
    enterOff s =
      { State.reset with
        now := s.now
        pins := s.pins
        rcbLow := s.rcbLow
        sdm := ⟨.off, false, false, .check⟩
        ots := s.ots.burned
        swc :=
          { State.reset.swc with
            table :=
              ⟨some ⟨false, 0, none⟩, none, none, none, if s.ots.burned.lock then none else some ⟨false, 0, none⟩⟩
            lastPulseEnd := s.now
            lastPress := s.now }
        pending := s.pending } := by
  rw [enterOff, retentionStart_mainReset]
  rfl

/-- The entry into OFF depends on the time, the pins, RCB, the One-Time Store and the queue alone. -/
theorem enterOff_observe (m : Moment) (s : State) : enterOff (observe m 0 s) = enterOff (atMoment m s) := by
  have hrcb : (observe m 0 s).rcbLow = (atMoment m s).rcbLow := by
    unfold observe
    dsimp only
    split <;> rfl
  obtain ⟨hnow, hpins, -, -, hots⟩ := observe_fields m 0 s
  have hq : (observe m 0 s).pending = s.pending := by simp
  rw [enterOff_eq, enterOff_eq, hnow, hpins, hots, hq, hrcb]
  rfl

/-- A retention start comes before a MAIN reset or after it alike. -/
theorem enterStarting_retentionStart (s : State) :
    enterStarting (retentionStart s) = retentionStart (enterStarting s) := by
  obtain ⟨now, pins, low, sdm, ots, piu, acu, tcu, cda, swc, tmp, elg, rpu, lnk, pending⟩ := s
  rfl

/-! ## The commands -/

theorem exec_vddGood (m : Moment) (s : State) :
    let m' := { m with pins := { m.pins with vdd := true } }
    (s.sdm.power = .off → exec (.vddGood m) s = .next (retentionStart (enterStarting (atMoment m' s)))) ∧
      (s.sdm.power = .battery → exec (.vddGood m) s = .next (enterStarting (atMoment m' s))) ∧
      (s.sdm.power = .starting ∨ s.sdm.power = .run ∨ s.sdm.power = .holdup →
        exec (.vddGood m) s = .next (observe m' 0 s)) := by
  intro m'
  have hp := (observe_fields m' 0 s).2.2.1
  have hm : observe { m with pins := { m.pins with vdd := true } } 0 s = observe m' 0 s := rfl
  refine ⟨fun h => ?_, fun h => ?_, fun h => ?_⟩
  · simp only [exec, execVddGood, hm, hp, h, enterStarting_retentionStart, enterStarting_observe]
  · simp only [exec, execVddGood, hm, hp, h, enterStarting_observe]
  · rcases h with h | h | h <;> simp only [exec, execVddGood, hm, hp, h]

theorem exec_vddLost (m : Moment) (s : State) :
    let m' := { m with pins := { m.pins with vdd := false } }
    exec (.vddLost m) s =
      if mainPowered s.sdm.power then
        if m.pins.vbat then .next (enterBattery (atMoment m' s)) else .next (enterOff (atMoment m' s))
      else .next (observe m' 0 s) := by
  intro m'
  obtain ⟨-, hpins, hp, -, -⟩ := observe_fields m' 0 s
  simp only [exec, execVddLost]
  rw [show observe { m with pins := { m.pins with vdd := false } } 0 s = observe m' 0 s from rfl, hp, hpins,
    enterBattery_observe, enterOff_observe]

theorem exec_vbatLost (m : Moment) (s : State) :
    let m' := { m with pins := { m.pins with vbat := false } }
    exec (.vbatLost m) s =
      if s.sdm.power = .battery then .next (enterOff (atMoment m' s)) else .next (observe m' 0 s) := by
  intro m'
  have hp := (observe_fields m' 0 s).2.2.1
  simp only [exec, execVbatLost]
  rw [show observe { m with pins := { m.pins with vbat := false } } 0 s = observe m' 0 s from rfl, hp, enterOff_observe]

theorem exec_rstnFall (m : Moment) {s : State} (h : mainPowered s.sdm.power = true) :
    exec (.rstnFall m) s = .next (enterStarting (atMoment { m with pins := { m.pins with rstn := false } } s)) := by
  obtain hp := (observe_fields { m with pins := { m.pins with rstn := false } } 0 s).2.2.1
  simp only [exec, execRstnFall]
  rw [hp, if_pos h, enterStarting_observe]

/-- The acceptor's step at the entry into HOLDUP (R104). -/
theorem acceptorHoldup_eq (s : State) :
    acceptorHoldup s =
      { s with
        cda :=
          { s.cda with
            acceptor :=
              if s.cda.acceptor = .lockout ∨ s.cda.acceptor = .retired then s.cda.acceptor else .idle
            buffer := []
            entryTimer := none } } := by
  unfold acceptorHoldup
  cases h : s.cda.acceptor <;> simp [endEntry, State.setCda, h]

/-- Settles O58, by the part that each of the three edges leaves. -/
theorem resetAndPowerFailPins : Obligations.ResetAndPowerFailPins := by
  intro m s
  refine ⟨fun h => ⟨_, exec_rstnFall m h, rfl, rfl, rfl, rfl, rfl, rfl, rfl, rfl, rfl, rfl, rfl⟩, fun h => ?_,
    fun h hv => ?_⟩
  · have hexec : exec (.pfwFall m) s = .next (acceptorHoldup (setPower .holdup
        (observe { m with pins := { m.pins with pfw := false } } 0 s))) := by
      simp only [exec, execPfwFall, pfwFall]
      rw [(observe_fields _ 0 s).2.2.1, if_pos h]
      rfl
    refine ⟨_, hexec, ?_⟩
    rw [acceptorHoldup_eq, observe_working _ (.inl h)]
    refine ⟨rfl, rfl, rfl, fun hl => if_pos hl, fun h1 h2 => if_neg (not_or.mpr ⟨h1, h2⟩), rfl, rfl, rfl, rfl, rfl, rfl,
      rfl, rfl, rfl, rfl, rfl⟩
  · refine ⟨enterStarting (atMoment { m with pins := { m.pins with pfw := true } } s), ?_, rfl, rfl, rfl, rfl, rfl, rfl,
      rfl, rfl, rfl⟩
    obtain ⟨-, hpins, hp, -, -⟩ := observe_fields { m with pins := { m.pins with pfw := true } } 0 s
    simp only [exec, execPfwRise]
    rw [hp, hpins, if_pos ⟨h, hv⟩, enterStarting_observe]

end Sys2Proof.Machine
end

