-- ==== Sys2Proof/Proofs/Claims.lean ====
section
/-! A claim on the account, said once: what it hands on to the Switch Controller, and the notices that it sets (R25, R40,
R43, R44). -/

namespace Sys2Proof.Machine

/-- The alarm has no part in the account state, the floor or the emergency credit (R22). -/
theorem Account.alarmAfter_cases (a b : Account) : ∃ alarm, a.alarmAfter b = { b with alarm := alarm } := by
  unfold Account.alarmAfter
  split
  exacts [⟨b.alarm, rfl⟩, ⟨_, rfl⟩]

@[simp] theorem Account.alarmAfter_state (a b : Account) : (a.alarmAfter b).state = b.state := by
  obtain ⟨x, h⟩ := a.alarmAfter_cases b
  rw [h]
  rfl

/-- Beside the alarm the account after a claim is what the claim says. -/
theorem Account.alarmAfter_fields (a b : Account) :
    (a.alarmAfter b).balance = b.balance ∧ (a.alarmAfter b).arrears = b.arrears ∧ (a.alarmAfter b).taken = b.taken ∧
      (a.alarmAfter b).limit = b.limit ∧ (a.alarmAfter b).threshold = b.threshold ∧ (a.alarmAfter b).cap = b.cap ∧
      (a.alarmAfter b).opening = b.opening ∧ (a.alarmAfter b).credited = b.credited ∧
      (a.alarmAfter b).debited = b.debited := by
  obtain ⟨x, h⟩ := a.alarmAfter_cases b
  rw [h]
  simp

/-- A claim that changes the account state hands it on, and the CREDIT cause is evaluated (R43, R109). -/
theorem claim_changed {f : Account → Account} {s : State} (h : (f s.acu).state ≠ s.acu.state) :
    ∃ u, claim f s = evaluateCredit u ∧ u.swc = { s.swc with held := (f s.acu).state } ∧ u.tcu = s.tcu ∧
      u.tmp = s.tmp ∧ u.piu = s.piu := by
  simp only [claim, h, if_false]
  refine ⟨_, rfl, ?_, ?_, ?_, ?_⟩ <;> split <;> simp

/-- A claim that changes neither the account state nor the emergency credit changes the account alone. -/
theorem claim_same {f : Account → Account} {s : State} (h : (f s.acu).state = s.acu.state)
    (ht : (f s.acu).taken = s.acu.taken) : claim f s = s.setAcu (s.acu.alarmAfter (f s.acu)) := by
  simp [claim, h, ht]

theorem evaluateCredit_trips (s : State) : (evaluateCredit s).swc.tripsToday = s.swc.tripsToday := by
  unfold evaluateCredit
  split <;> simp

/-- A claim can change the CREDIT entry alone, and leaves the trips of the day (R43, R109). -/
theorem claim_table (f : Account → Account) (s : State) :
    (∃ e, (claim f s).swc.table = { s.swc.table with credit := e }) ∧
      (claim f s).swc.tripsToday = s.swc.tripsToday := by
  by_cases h : (f s.acu).state = s.acu.state
  · rw [(claim_unchanged f h).1]
    exact ⟨⟨_, rfl⟩, rfl⟩
  · obtain ⟨u, hu, hswc, -⟩ := claim_changed h
    rw [hu, evaluateCredit_table, evaluateCredit_trips, hswc]
    exact ⟨⟨_, rfl⟩, rfl⟩

/-- What a claim hands on (R43, R109). -/
theorem claim_stateHanded (f : Account → Account) (s : State) : StateHanded s (claim f s) := by
  have hst : (claim f s).acu.state = (f s.acu).state := by simp
  refine ⟨fun h => (claim_unchanged f (hst.symm.trans h)).1, fun h => ?_⟩
  obtain ⟨u, hu, hswc, htcu, -⟩ := claim_changed (hst ▸ h)
  rw [hst]
  have htable := evaluateCredit_table u
  rw [hswc, htcu] at htable
  refine ⟨by rw [hu, evaluateCredit_held, hswc], ?_⟩
  rw [hu]
  exact htable

/-- The notices ACCOUNT and LOW_ALARM of a claim (R44). -/
theorem claimedRpu_bits {b : Account} {s : State} (hm : mainPowered s.sdm.power = true) :
    ((claimedRpu b s).notices.getLsbD 0 = true ↔
      s.rpu.notices.getLsbD 0 = true ∨ b.state ≠ s.acu.state ∨ b.taken ≠ s.acu.taken) ∧
    ((claimedRpu b s).notices.getLsbD 1 = true ↔
      s.rpu.notices.getLsbD 1 = true ∨ b.state ≠ s.acu.state ∧ b.state ≠ .inCredit) ∧
    ∀ i, 2 ≤ i → (claimedRpu b s).notices.getLsbD i = s.rpu.notices.getLsbD i := by
  have hne (i : Nat) (h : 2 ≤ i) : (i == 0) = false ∧ (i == 1) = false := by simp; omega
  unfold claimedRpu
  rw [if_pos hm]
  by_cases hs : b.state = s.acu.state
  · rw [if_pos hs]
    by_cases ht : b.taken = s.acu.taken
    · simp [hs, ht]
    · rw [if_neg ht]
      simp only [Rpu.withNotice_bit, noticeNumber]
      exact ⟨by simp [ht], by simp [hs], fun i hi => by simp [hne i hi]⟩
  · rw [if_neg hs]
    by_cases hc : b.state = .inCredit
    · rw [if_pos hc]
      simp only [Rpu.withNotice_bit, noticeNumber]
      exact ⟨by simp [hs], by simp [hc], fun i hi => by simp [hne i hi]⟩
    · rw [if_neg hc]
      simp only [Rpu.withNotice_bit, noticeNumber]
      exact ⟨by simp [hs], by simp [hs, hc], fun i hi => by simp [hne i hi]⟩

theorem claim_claimNoticed (f : Account → Account) {s : State} (hm : mainPowered s.sdm.power = true) :
    ClaimNoticed s (claim f s) := by
  have hn := claim_noticed f s
  obtain ⟨h0, h1, -⟩ := claimedRpu_bits (b := f s.acu) hm
  have hst : (claim f s).acu.state = (f s.acu).state := by simp
  have htk : (claim f s).acu.taken = (f s.acu).taken := by
    rw [claim_acu]
    exact (Account.alarmAfter_fields _ _).2.2.1
  refine ⟨?_, ?_⟩
  · rw [hn.bit (by decide), h0, hst, htk]
  · rw [hn.bit (by decide), h1, hst]

end Sys2Proof.Machine
end

