-- ==== Sys2Proof/Proofs/Ticks.lean ====
section
/-! The parts of a second tick, said once: what each keeps of the clock, the account, the counts, the acceptor, the
notices and the load-limit entry (R51, R68, R89, R113). -/

namespace Sys2Proof.Machine

/-! ## The entries of the open-cause table -/

/-- A condition that is handed can change the TAMPER entry alone (R153). -/
theorem rise_table (k : Kind) (p : Option Phase) (s : State) :
    ∃ e, (rise k p s).swc.table = { s.swc.table with tamper := e } := by
  by_cases ha : s.tmp.actions.get k = .off
  · exact ⟨_, by rw [rise_off p ha]; rfl⟩
  by_cases hs : (s.tmp.latches.get k).set = none
  · obtain ⟨u, hu, hx⟩ := rise_fresh p ha hs
    have ht : u.swc.table = s.swc.table := by simp [hx]
    rw [hu]
    split
    exacts [⟨_, by rw [evaluateTamper_table, ht]⟩, ⟨_, ht⟩]
  · exact ⟨s.swc.table.tamper, by rw [rise_repeated p ha hs]; simp⟩

theorem hand_table (k : Kind) (v : Bool) (p : Option Phase) (s : State) :
    ∃ e, (hand k v p s).swc.table = { s.swc.table with tamper := e } := by
  unfold hand
  split
  · exact ⟨_, rfl⟩
  · split
    exacts [rise_table k p s, ⟨_, rfl⟩]

theorem evaluateFriendly_table (s : State) :
    (∃ e, (evaluateFriendly s).swc.table = { s.swc.table with credit := e }) ∧
      (evaluateFriendly s).swc.tripsToday = s.swc.tripsToday := by
  unfold evaluateFriendly handFriendly
  dsimp only
  split
  · exact ⟨⟨_, rfl⟩, rfl⟩
  · split
    · split
      exacts [⟨⟨_, rfl⟩, rfl⟩, ⟨⟨_, by rw [changeEntry_table]; rfl⟩, by simp⟩]
    · exact ⟨⟨_, rfl⟩, rfl⟩

/-- The LOAD_LIMIT entry after a boundary: one held until it is taken back (R127). -/
def boundaryLimit (x : Option Entry) : Option Entry :=
  x.bind fun e => if e.penalty = some .untilBoundary then none else some e

theorem boundaryLimit_idem (x : Option Entry) : boundaryLimit (boundaryLimit x) = boundaryLimit x := by
  cases x with
  | none => rfl
  | some e => by_cases h : e.penalty = some .untilBoundary <;> simp [boundaryLimit, h]

theorem boundaryLimit_of_ne {x : Option Entry} (h : ∀ e, x = some e → e.penalty ≠ some .untilBoundary) :
    boundaryLimit x = x := by
  cases x with
  | none => rfl
  | some e => simp [boundaryLimit, h e rfl]

theorem boundarySwitch_swc (s : State) :
    (boundarySwitch s).swc.tripsToday = 0 ∧
      (boundarySwitch s).swc.table = { s.swc.table with loadLimit := boundaryLimit s.swc.table.loadLimit } := by
  rcases ht : s.swc.table with ⟨cr, ll, ta, or, co⟩
  unfold boundarySwitch
  cases ll with
  | none => simp [ht, boundaryLimit]
  | some e => by_cases h : e.penalty = some .untilBoundary <;> simp [ht, h, boundaryLimit, CauseTable.set]

theorem boundaryOverride_table (day : Nat) (s : State) :
    (∃ e, (boundaryOverride day s).swc.table = { s.swc.table with credit := e }) ∧
      (boundaryOverride day s).swc.tripsToday = s.swc.tripsToday := by
  unfold boundaryOverride
  split
  · split
    exacts [⟨⟨_, evaluateCredit_table _⟩, evaluateCredit_trips _⟩, ⟨⟨_, rfl⟩, rfl⟩]
  · exact ⟨⟨_, rfl⟩, rfl⟩

/-- A boundary takes the trips of the day back, and a penalty held until it (R127). -/
theorem deliverBoundary_swc (s : State) :
    (deliverBoundary s).swc.tripsToday = 0 ∧
      (deliverBoundary s).swc.table.loadLimit = boundaryLimit s.swc.table.loadLimit := by
  unfold deliverBoundary
  dsimp only
  obtain ⟨e1, h1⟩ := (claim_table (Account.charge (s.tcu.active.standing * Config.milli)) s).1
  generalize claim (Account.charge (s.tcu.active.standing * Config.milli)) s = s1 at h1 ⊢
  obtain ⟨h2, h2'⟩ := boundarySwitch_swc (s1.setCda { s1.cda with lockoutsToday := 0 })
  generalize boundarySwitch (s1.setCda { s1.cda with lockoutsToday := 0 }) = s2 at h2 h2' ⊢
  obtain ⟨⟨e3, h3⟩, h3'⟩ := boundaryOverride_table (s.tcu.lastDay + 1) (s2.setTcu { s2.tcu with trimUsed := 0 })
  generalize boundaryOverride (s.tcu.lastDay + 1) (s2.setTcu { s2.tcu with trimUsed := 0 }) = s3 at h3 h3' ⊢
  have h4 : (boundaryActivation (s.tcu.lastDay + 1) s3).swc = s3.swc := by
    unfold boundaryActivation
    split <;> simp
  simp only [notify_frame, State.setTcu_fields, h4, h3, h3', h2, h2', h1, State.setCda_fields, and_self]

/-- So do the boundaries of several days (R127). -/
theorem deliverBoundaries_swc (n : Nat) (s : State) :
    (deliverBoundaries (n + 1) s).swc.tripsToday = 0 ∧
      (deliverBoundaries (n + 1) s).swc.table.loadLimit = boundaryLimit s.swc.table.loadLimit := by
  induction n generalizing s with
  | zero => exact deliverBoundary_swc s
  | succ n ih =>
    obtain ⟨h1, h2⟩ := ih (deliverBoundary s)
    exact ⟨h1, h2.trans (by rw [(deliverBoundary_swc s).2, boundaryLimit_idem])⟩

theorem deliverDue_loadLimit {s : State} (h : ∀ e, s.swc.table.loadLimit = some e → e.penalty ≠ some .untilBoundary) :
    (deliverDue s).swc.table.loadLimit = s.swc.table.loadLimit := by
  rw [deliverDue_eq]
  cases missedDays s.tcu with
  | zero => rfl
  | succ n => rw [(deliverBoundaries_swc n s).2, boundaryLimit_of_ne h]

/-! ## Notices other than SWITCH and TAMPER -/

/-- No notice has joined the set but, it may be, SWITCH and TAMPER. -/
def QuietNotices (x y : Rpu) : Prop := ∀ i, i ≠ 3 → i ≠ 5 → y.notices.getLsbD i = x.notices.getLsbD i

theorem SwitchNoticed.quiet {x y : Rpu} (h : SwitchNoticed x y) : QuietNotices x y := fun _ h3 _ => h.bit h3

theorem QuietNotices.trans {x y z : Rpu} (h : QuietNotices x y) (k : QuietNotices y z) : QuietNotices x z :=
  fun i h3 h5 => (k i h3 h5).trans (h i h3 h5)

theorem QuietNotices.of_eq {x y : Rpu} (h : y = x) : QuietNotices x y := fun _ _ _ => by rw [h]

theorem notify_tamper_quiet (s : State) : QuietNotices s.rpu (notify .tamper s).rpu := fun i _ h5 => by
  rw [notify_rpu]
  split
  · simp [Rpu.withNotice_bit, noticeNumber, h5]
  · rfl

theorem hand_quiet (k : Kind) (v : Bool) (p : Option Phase) (s : State) : QuietNotices s.rpu (hand k v p s).rpu := by
  have hset (l : Latch) (x : State) : (setLatch k l x).rpu = x.rpu := rfl
  have hrec (x : State) : (latchRecord k p x).rpu = x.rpu := by simp
  unfold hand
  split
  · exact .of_eq rfl
  · split
    · by_cases ha : s.tmp.actions.get k = .off
      · exact .of_eq (by rw [rise_off p ha]; rfl)
      by_cases hs : (s.tmp.latches.get k).set = none
      · obtain ⟨u, hu, hx⟩ := rise_fresh p ha hs
        have h1 : QuietNotices s.rpu u.rpu := by
          rw [hx]
          exact (QuietNotices.of_eq (by simp)).trans (notify_tamper_quiet _)
        rw [hu]
        split
        exacts [h1.trans (evaluateTamper_noticed u).quiet, h1]
      · rw [rise_repeated p ha hs]
        exact (QuietNotices.of_eq (by simp)).trans (notify_tamper_quiet _)
    · exact .of_eq rfl

/-! ## The parts of a tick -/

/-- What the parts of a tick keep when each of them keeps it. -/
theorem tickParts_rel {R : State → State → Prop} (hrefl : ∀ s, R s s) (htrans : ∀ {s t u}, R s t → R t u → R s u)
    {a b : Bool} {ps : List TickPart} (h : ∀ p ∈ ps, ∀ s, R s (tickPart a b p s)) (s : State) :
    R s (ps.foldl (fun t p => tickPart a b p t) s) := by
  induction ps generalizing s with
  | nil => exact hrefl s
  | cons p ps ih =>
    exact htrans (h p List.mem_cons_self s) (ih (fun q hq => h q (List.mem_cons_of_mem p hq)) _)

/-- Every part but the calendar's leaves the account, the calendar, the lockouts of the day, and the notices but for SWITCH
and TAMPER. -/
def BesideCalendar (s t : State) : Prop :=
  t.acu = s.acu ∧ t.tcu = s.tcu ∧ t.cda.lockoutsToday = s.cda.lockoutsToday ∧ QuietNotices s.rpu t.rpu

theorem BesideCalendar.refl (s : State) : BesideCalendar s s := ⟨rfl, rfl, rfl, .of_eq rfl⟩

theorem BesideCalendar.trans {s t u : State} (h : BesideCalendar s t) (k : BesideCalendar t u) : BesideCalendar s u :=
  ⟨k.1.trans h.1, k.2.1.trans h.2.1, k.2.2.1.trans h.2.2.1, h.2.2.2.trans k.2.2.2⟩

theorem demandMinute_noticed (w : Nat) (s : State) : SwitchNoticed s.rpu (demandMinute w s).rpu := by
  unfold demandMinute
  dsimp only
  split
  · split
    · unfold trip
      dsimp only
      split
      exacts [.refl _, changeEntry_noticed _ _ (s.setSwc _)]
    · exact .refl _
  · exact .refl _

theorem tickPart_besideCalendar (a b : Bool) {p : TickPart} (hp : p ≠ .calendar) (s : State) :
    BesideCalendar s (tickPart a b p s) := by
  cases p with
  | lockout =>
    simp only [tickPart, lockoutEnds]
    split
    · split <;> exact ⟨by simp, by simp, by simp, hand_quiet .ca false none s⟩
    · exact .refl _
  | penalty =>
    simp only [tickPart, penaltyEnds]
    split
    · split
      exacts [⟨by simp, by simp, by simp, (changeEntry_noticed _ _ _).quiet⟩, .refl _]
    · exact .refl _
  | stall first =>
    refine ⟨by simp [tickPart], by simp [tickPart], by simp [tickPart], ?_⟩
    simp only [tickPart, stallStep]
    split
    · split
      exacts [hand_quiet _ _ _ (s.setPiu _), .of_eq rfl]
    · exact .of_eq rfl
  | supply =>
    refine ⟨by simp [tickPart], by simp [tickPart], by simp [tickPart], ?_⟩
    simp only [tickPart, supplySecond]
    split
    exacts [hand_quiet _ _ _ (s.setTmp _), .of_eq rfl]
  | demand =>
    refine ⟨by simp [tickPart], by simp [tickPart], by simp [tickPart], ?_⟩
    simp only [tickPart, minuteEnds]
    split
    · split
      exacts [.of_eq rfl, (demandMinute_noticed _ (s.setPiu _)).quiet]
    · exact .of_eq rfl
  | calendar => exact absurd rfl hp

/-- Every part but the demand window's touches the Pulse Input Unit in its stall timers and flags alone. -/
theorem tickPart_meter (a b : Bool) {p : TickPart} (hp : p ≠ .demand) (s : State) :
    s.piu.SameMeter (tickPart a b p s).piu := by
  cases p with
  | lockout =>
    simp only [tickPart, lockoutEnds]
    split
    · split <;> exact hand_meter .ca false none s
    · exact .refl _
  | penalty =>
    simp only [tickPart, penaltyEnds]
    split
    · split
      exacts [changeEntry_meter _ _ _, .refl _]
    · exact .refl _
  | stall first =>
    simp only [tickPart, stallStep]
    split
    · split
      · exact .trans ⟨_, _, rfl⟩ (hand_meter _ _ _ _)
      · exact ⟨_, _, rfl⟩
    · exact .refl _
  | supply =>
    simp only [tickPart, supplySecond]
    split
    exacts [hand_meter _ _ _ (s.setTmp _), .refl _]
  | demand => exact absurd rfl hp
  | calendar =>
    simp only [tickPart, calendarTick]
    split
    · refine .trans ?_ (deliverDue_meter _)
      split
      exacts [evaluateFriendly_meter _, .refl _]
    · exact .refl _

theorem demandMinute_meter (w : Nat) (s : State) : s.piu.SameMeter (demandMinute w s).piu := by
  unfold demandMinute
  dsimp only
  split
  · split
    · unfold trip
      dsimp only
      split
      exacts [.refl _, changeEntry_meter _ _ (s.setSwc _)]
    · exact .refl _
  · exact .refl _

/-- No part of a tick counts energy. -/
theorem tickPart_energy (a b : Bool) (p : TickPart) (s : State) : s.piu.SameEnergy (tickPart a b p s).piu := by
  by_cases hp : p = .demand
  · subst hp
    simp only [tickPart, minuteEnds]
    split
    · split
      · exact ⟨rfl, rfl, rfl, rfl⟩
      · exact (demandMinute_meter _ (s.setPiu _)).energy
    · exact ⟨rfl, rfl, rfl, rfl⟩
  · exact (tickPart_meter a b hp s).energy

/-- What a tick's parts leave of the Code Acceptor: all but the entry that a lockout's end empties and the lockouts of
the day, which a boundary resets (R69, R89). -/
def AcceptorKept (x y : Cda) : Prop :=
  ∃ acceptor buffer timer today,
    y = { x with acceptor := acceptor, buffer := buffer, entryTimer := timer, lockoutsToday := today }

theorem AcceptorKept.refl (x : Cda) : AcceptorKept x x := ⟨_, _, _, _, rfl⟩

theorem AcceptorKept.of_eq {x y : Cda} (h : y = x) : AcceptorKept x y := h ▸ .refl x

theorem AcceptorKept.trans {x y z : Cda} (h : AcceptorKept x y) (k : AcceptorKept y z) : AcceptorKept x z := by
  obtain ⟨a, b, c, d, rfl⟩ := h
  obtain ⟨a', b', c', d', rfl⟩ := k
  exact ⟨a', b', c', d', rfl⟩

theorem deliverDue_cda (s : State) :
    (deliverDue s).cda = s.cda ∨ (deliverDue s).cda = { s.cda with lockoutsToday := 0 } := by
  rw [deliverDue_eq]
  cases missedDays s.tcu with
  | zero => exact .inl rfl
  | succ n => exact .inr (deliverBoundaries_fields n s).2.2

theorem deliverDue_acceptorKept (s : State) : AcceptorKept s.cda (deliverDue s).cda := by
  rcases deliverDue_cda s with h | h <;> rw [h] <;> exact ⟨_, _, _, _, rfl⟩

theorem tickPart_acceptorKept (a b : Bool) (p : TickPart) (s : State) : AcceptorKept s.cda (tickPart a b p s).cda := by
  cases p with
  | lockout =>
    have hh : (hand .ca false none s).cda = s.cda := by simp
    simp only [tickPart, lockoutEnds]
    split
    · split
      · rw [State.setCda_fields _ _ |>.1, hh]
        exact ⟨_, _, _, _, rfl⟩
      · exact .of_eq hh
    · exact .refl _
  | calendar =>
    simp only [tickPart, calendarTick]
    split
    · refine .trans (.of_eq ?_) (deliverDue_acceptorKept _)
      split <;> simp
    · exact .refl _
  | penalty => exact .of_eq (by simp only [tickPart]; split <;> simp)
  | stall first => exact .of_eq (by simp [tickPart])
  | supply => exact .of_eq (by simp [tickPart])
  | demand => exact .of_eq (by simp [tickPart])

/-- The clock stands still in the parts of a tick. -/
theorem tickPart_clock (a b : Bool) (p : TickPart) (s : State) :
    (tickPart a b p s).tcu.clock = s.tcu.clock ∧ (tickPart a b p s).tcu.valid = s.tcu.valid := by
  by_cases hp : p = .calendar
  · subst hp
    simp only [tickPart, calendarTick, deliverDue_eq]
    split
    · rw [(deliverBoundaries_tcu _ _).2.1, (deliverBoundaries_tcu _ _).2.2.1]
      split
      exacts [by rw [evaluateFriendly_tcu]; exact ⟨rfl, rfl⟩, ⟨rfl, rfl⟩]
    · exact ⟨rfl, rfl⟩
  · rw [(tickPart_besideCalendar a b hp s).2.1]
    exact ⟨rfl, rfl⟩

/-- Between whole minutes, and with no penalty at its end, a tick's parts keep a LOAD_LIMIT entry that no boundary takes
back. -/
theorem tickPart_loadLimit (a : Bool) (p : TickPart) {s : State} (hmin : s.tcu.clock % 60 ≠ 0)
    (hpen : ∀ e, s.swc.table.loadLimit = some e → e.penalty ≠ some .untilBoundary) :
    (tickPart a false p s).swc.table.loadLimit = s.swc.table.loadLimit := by
  have hw : wholeMinute s = false := by simpa [wholeMinute] using hmin
  have hhand (k : Kind) (v : Bool) (q : Option Phase) (x : State) :
      (hand k v q x).swc.table.loadLimit = x.swc.table.loadLimit := by
    obtain ⟨e, he⟩ := hand_table k v q x
    rw [he]
  cases p with
  | lockout =>
    simp only [tickPart, lockoutEnds]
    split
    · split <;> exact hhand _ _ _ _
    · rfl
  | penalty => rfl
  | stall first =>
    simp only [tickPart, stallStep]
    split
    · split
      exacts [hhand _ _ _ _, rfl]
    · rfl
  | supply =>
    simp only [tickPart, supplySecond]
    split
    exacts [hhand _ _ _ _, rfl]
  | demand => simp [tickPart, minuteEnds, hw]
  | calendar =>
    simp only [tickPart, calendarTick, hw]
    split
    exacts [deliverDue_loadLimit hpen, rfl]

/-- A tick in a part that is not OFF: its counting, then its parts (R51). -/
theorem tick_eq {s : State} (ps : List TickPart) (h : s.sdm.power ≠ .off) :
    tick ps s = ps.foldl (fun t p => tickPart (lockoutDue s) (penaltyDue s) p t) (countTick s) := if_neg h

/-- The counting of a tick (R51, R89, R113). -/
theorem countTick_fields (s : State) :
    (countTick s).tcu =
        { s.tcu with
          clock := clockAfterTick s.tcu.clock
          valid := s.tcu.valid && decide (s.tcu.clock + 1 < 2 ^ 32) } ∧
      (countTick s).cda = { s.cda with lockoutLeft := s.cda.lockoutLeft - 1 } ∧
      (countTick s).swc = { s.swc with table := countPenalty s.swc.table } := ⟨rfl, rfl, rfl⟩

end Sys2Proof.Machine
end

