-- ==== Sys2Proof/Proofs/SecondTicks.lean ====
section
/-! The ordinary tick and the tick from the top clock value (R51, R89, R113). -/

namespace Sys2Proof.Machine

/-- What a command's moment keeps even where the MAIN domain is held at its reset: the KEEP items (R203). -/
theorem observe_keeps (m : Moment) (s : State) :
    (observe m 0 s).tcu = { s.tcu with lastFriendly := (observe m 0 s).tcu.lastFriendly } ∧
      (observe m 0 s).swc.table = s.swc.table ∧ (observe m 0 s).cda.lockoutLeft = s.cda.lockoutLeft ∧
      s.piu.SameEnergy (observe m 0 s).piu ∧ (observe m 0 s).tmp.latches = s.tmp.latches ∧
      (observe m 0 s).tmp.actions = s.tmp.actions := by
  obtain ⟨hrun, hheld⟩ := aMomentPasses m s
  cases hr : resetHeld s
  · rw [hrun hr]
    exact ⟨rfl, rfl, rfl, ⟨rfl, rfl, rfl, rfl⟩, rfl, rfl⟩
  · rw [hheld hr]
    exact ⟨rfl, rfl, rfl, ⟨rfl, rfl, rfl, rfl⟩, rfl, rfl⟩

theorem Piu.SameEnergy.trans {x y z : Piu} (h : x.SameEnergy y) (k : y.SameEnergy z) : x.SameEnergy z :=
  ⟨k.1.trans h.1, k.2.1.trans h.2.1, k.2.2.1.trans h.2.2.1, k.2.2.2.trans h.2.2.2⟩

theorem tickParts_energy (a b : Bool) (ps : List TickPart) (s : State) :
    s.piu.SameEnergy (ps.foldl (fun t p => tickPart a b p t) s).piu :=
  tickParts_rel (R := fun s t => s.piu.SameEnergy t.piu) (fun _ => ⟨rfl, rfl, rfl, rfl⟩) (fun h k => h.trans k)
    (fun p _ s => tickPart_energy a b p s) s

theorem tickParts_clock (a b : Bool) (ps : List TickPart) (s : State) :
    (ps.foldl (fun t p => tickPart a b p t) s).tcu.clock = s.tcu.clock ∧
      (ps.foldl (fun t p => tickPart a b p t) s).tcu.valid = s.tcu.valid :=
  tickParts_rel (R := fun s t => t.tcu.clock = s.tcu.clock ∧ t.tcu.valid = s.tcu.valid) (fun _ => ⟨rfl, rfl⟩)
    (fun h k => ⟨k.1.trans h.1, k.2.trans h.2⟩) (fun p _ s => tickPart_clock a b p s) s

theorem tickParts_acceptorKept (a b : Bool) (ps : List TickPart) (s : State) :
    AcceptorKept s.cda (ps.foldl (fun t p => tickPart a b p t) s).cda :=
  tickParts_rel (R := fun s t => AcceptorKept s.cda t.cda) (fun _ => .refl _) (fun h k => h.trans k)
    (fun p _ s => tickPart_acceptorKept a b p s) s

theorem tickParts_besideCalendar (a b : Bool) {ps : List TickPart} (h : TickPart.calendar ∉ ps) (s : State) :
    BesideCalendar s (ps.foldl (fun t p => tickPart a b p t) s) :=
  tickParts_rel .refl .trans (fun _ hp s => tickPart_besideCalendar a b (fun he => h (he ▸ hp)) s) s

theorem tickParts_meter (a b : Bool) {ps : List TickPart} (h : TickPart.demand ∉ ps) (s : State) :
    s.piu.SameMeter (ps.foldl (fun t p => tickPart a b p t) s).piu :=
  tickParts_rel (R := fun s t => s.piu.SameMeter t.piu) (fun _ => .refl _) (fun h k => h.trans k)
    (fun _ hp s => tickPart_meter a b (fun he => h (he ▸ hp)) s) s

/-- A LOAD_LIMIT entry whose penalty runs on, between whole minutes. -/
theorem tickParts_loadLimit (a : Bool) (ps : List TickPart) {s : State} (hmin : s.tcu.clock % 60 ≠ 0)
    (hpen : ∀ e, s.swc.table.loadLimit = some e → e.penalty ≠ some .untilBoundary) :
    (ps.foldl (fun t p => tickPart a false p t) s).swc.table.loadLimit = s.swc.table.loadLimit := by
  induction ps generalizing s with
  | nil => rfl
  | cons p ps ih =>
    have h1 := tickPart_loadLimit a p hmin hpen
    have h2 := (tickPart_clock a false p s).1
    rw [List.foldl_cons, ih (by rwa [h2]) (by rwa [h1]), h1]

theorem countPenalty_loadLimit {t : CauseTable} {e : Entry} {n : Nat} (h : t.loadLimit = some e)
    (hp : e.penalty = some (.seconds n)) :
    (countPenalty t).loadLimit = some { e with penalty := some (.seconds (n - 1)) } := by
  simp [countPenalty, h, hp, CauseTable.set]

/-- What a tick gives in a part that is not OFF, whatever the order of its parts. -/
theorem tick_counts (ps : List TickPart) {s : State} (h : s.sdm.power ≠ .off) :
    (tick ps s).tcu.clock = clockAfterTick s.tcu.clock ∧
      (tick ps s).tcu.valid = (s.tcu.valid && decide (s.tcu.clock + 1 < 2 ^ 32)) ∧
      (tick ps s).cda.lockoutLeft = s.cda.lockoutLeft - 1 ∧ s.piu.SameEnergy (tick ps s).piu := by
  rw [tick_eq ps h]
  obtain ⟨hclock, hvalid⟩ := tickParts_clock (lockoutDue s) (penaltyDue s) ps (countTick s)
  obtain ⟨_, _, _, _, hcda⟩ := tickParts_acceptorKept (lockoutDue s) (penaltyDue s) ps (countTick s)
  exact ⟨hclock, hvalid, by rw [hcda]; rfl, tickParts_energy _ _ ps (countTick s)⟩

theorem tick_acceptorKept (ps : List TickPart) {s : State} (h : s.sdm.power ≠ .off) :
    AcceptorKept { s.cda with lockoutLeft := s.cda.lockoutLeft - 1 } (tick ps s).cda := by
  rw [tick_eq ps h]
  exact tickParts_acceptorKept _ _ ps (countTick s)

/-- Where a tick makes the clock invalid, its calendar's part can change the friendly value alone. -/
theorem calendarTick_invalid {s : State} (h : s.tcu.valid = false) :
    ∃ v, (calendarTick s).tcu = { s.tcu with lastFriendly := v } ∧ (calendarTick s).acu = s.acu := by
  have hd (x : State) (hx : x.tcu.valid = false) : deliverDue x = x := by simp [deliverDue, hx]
  unfold calendarTick
  split
  · split
    · rw [hd _ (by rw [evaluateFriendly_tcu]; exact h)]
      exact ⟨_, evaluateFriendly_tcu s, by simp⟩
    · rw [hd _ h]
      exact ⟨_, rfl, rfl⟩
  · exact ⟨_, rfl, rfl⟩

/-- The order of the parts at a tick that a wrap of the clock or a day boundary makes a command of its own (log 7). -/
def calendarFirst : List TickPart := [.calendar, .lockout, .penalty, .stall .p1, .supply, .demand]

/-- Settles O10, by what the counting of a tick gives and its parts keep. -/
theorem secondTicks : Obligations.SecondTicks := by
  refine ⟨fun m s => ⟨fun hp => ?_, fun hp => ?_⟩, fun m s hp hc => ?_⟩
  · refine congrArg Host.Outcome.next (if_pos ?_)
    rw [(observe_fields m 0 s).2.2.1, hp]
  · obtain ⟨htcu, htab, hleft, henergy, -, -⟩ := observe_keeps m s
    have hpo : (observe m 0 s).sdm.power ≠ .off := by rw [(observe_fields m 0 s).2.2.1]; exact hp
    obtain ⟨c1, c2, c3, c4⟩ := tick_counts tickOrder hpo
    obtain ⟨e1, e2, e3, e4⟩ := henergy.trans c4
    have hclock : (observe m 0 s).tcu.clock = s.tcu.clock := by rw [htcu]
    have hvalid : (observe m 0 s).tcu.valid = s.tcu.valid := by rw [htcu]
    refine ⟨tick tickOrder (observe m 0 s), rfl, by rw [c1, hclock]; rfl, by rw [c2, hvalid, hclock], by rw [c3, hleft],
      fun e n he hn h2 hmin => ?_, e1, e2, e3, e4, by simp, by simp, by simp, ?_, by simp⟩
    · have hll := countPenalty_loadLimit (he : s.swc.table.loadLimit = some e) hn
      have hdue : penaltyDue (observe m 0 s) = false := by
        have hne : n ≠ 1 := by omega
        simp [penaltyDue, penaltySeconds, htab, he, hn, hne]
      have hct : (countTick (observe m 0 s)).swc.table.loadLimit =
          some { e with penalty := some (.seconds (n - 1)) } := by rw [← hll, ← htab]; rfl
      rw [c1] at hmin
      rw [tick_eq _ hpo, hdue, tickParts_loadLimit _ _ hmin, hct]
      intro e' he'
      cases hct.symm.trans he'
      simp
    · rw [(tick_frame _ _).2.1]
      exact (observe_fields m 0 s).2.1
  · obtain ⟨htcu, -⟩ := observe_keeps m s
    have hpo : (observe m 0 s).sdm.power ≠ .off := by rw [(observe_fields m 0 s).2.2.1]; exact hp
    have hclock : (observe m 0 s).tcu.clock = 4294967295 := by rw [htcu]; exact hc
    obtain ⟨c1, c2, -, -⟩ := tick_counts calendarFirst hpo
    have hexec : exec (.clockWrap m) s = .next (tick calendarFirst (observe m 0 s)) := by
      refine if_pos ?_
      rw [hclock]
      rfl
    have hinv : (countTick (observe m 0 s)).tcu.valid = false := by
      simp [countTick_fields, hclock]
    obtain ⟨v, h1, h2⟩ := calendarTick_invalid hinv
    obtain ⟨hb1, hb2, -, -⟩ := tickParts_besideCalendar (lockoutDue (observe m 0 s)) (penaltyDue (observe m 0 s))
      (ps := [.lockout, .penalty, .stall .p1, .supply, .demand]) (by decide) (calendarTick (countTick (observe m 0 s)))
    have ht : tick calendarFirst (observe m 0 s) =
        [TickPart.lockout, .penalty, .stall .p1, .supply, .demand].foldl
          (fun t p => tickPart (lockoutDue (observe m 0 s)) (penaltyDue (observe m 0 s)) p t)
          (calendarTick (countTick (observe m 0 s))) := tick_eq calendarFirst hpo
    rw [← ht] at hb1 hb2
    refine ⟨_, hexec, by rw [c1, hclock]; rfl, by rw [c2, hclock]; simp, ?_, ?_, ?_, by simp, by simp, by simp⟩
    · rw [hb2, h1, (countTick_fields _).1, htcu]
    · rw [hb2, h1, (countTick_fields _).1, htcu]
    · rw [hb1, h2]
      simp

end Sys2Proof.Machine
end

