-- ==== Sys2Proof/Proofs/LockoutAndPenalty.lean ====
section
/-! The ticks that end a lockout and a penalty (R89, R113, R114). -/

namespace Sys2Proof.Machine

/-- A condition handed as INACTIVE is INACTIVE, and nothing else changes (R145, R151). -/
theorem hand_false (k : Kind) (p : Option Phase) (s : State) : hand k false p s = fall k s := by
  unfold hand
  split
  · rename_i h
    unfold fall setLatch
    rw [← h]
    cases k <;> rfl
  · rfl

/-- The end of a lockout (R89). -/
theorem lockoutEnds_eq (s : State) :
    lockoutEnds s =
      { s with
        tmp := { s.tmp with latches := { s.tmp.latches with ca := { s.tmp.latches.ca with condition := false } } }
        cda :=
          if mainPowered s.sdm.power = true ∧ s.cda.acceptor = .lockout then
            { s.cda with acceptor := .idle, buffer := [], entryTimer := none }
          else s.cda } := by
  unfold lockoutEnds
  rw [hand_false]
  by_cases h : mainPowered s.sdm.power = true ∧ s.cda.acceptor = .lockout
  · rw [if_pos h]
    exact if_pos h
  · rw [if_neg h]
    exact if_neg h

/-- The end of a lockout counts nothing in the acceptor (R89). -/
theorem lockoutEnds_counts (s : State) :
    (lockoutEnds s).cda.lockoutLeft = s.cda.lockoutLeft ∧ (lockoutEnds s).cda.streak = s.cda.streak := by
  rw [lockoutEnds_eq]
  dsimp only
  split <;> exact ⟨rfl, rfl⟩

/-- The last ACTIVE entry leaves an open switch, by a cause that never closes it (R114, R123). -/
theorem changeEntry_arms {c : Cause} {s : State} (hc : c ≠ .credit) (ho : c ≠ .order) (hs : s.swc.switch = .opened)
    (h1 : s.swc.table.anyActive = true) (h2 : (s.swc.table.set c none).anyActive = false) :
    (changeEntry c none s).swc.switch = .armed ∧ (changeEntry c none s).swc.intended = .armed := by
  have hsw : (entryChanged c none s).swc.switch = .opened := by rw [(entryChanged_fields c none s).1]; exact hs
  rw [(changeEntry_cases c none s).2.1 h1 h2, lastActiveLeft_swc, hsw]
  simp [hc, ho]

/-- A table whose LOAD_LIMIT entry is the one ACTIVE entry, before and after it leaves. -/
theorem loadLimit_alone {t : CauseTable} {e : Entry} (he : t.loadLimit = some e) (hd : e.deferred = false)
    (hcr : entryActive t.credit = false) (hta : entryActive t.tamper = false) (hor : entryActive t.order = false)
    (hco : entryActive t.commission = false) : t.anyActive = true ∧ (t.set .loadLimit none).anyActive = false := by
  have h1 : entryActive (some e) = true := by simp [entryActive, hd]
  have h2 : entryActive none = false := rfl
  simp [CauseTable.anyActive, CauseTable.set, he, h1, h2, hcr, hta, hor, hco]

/-- Settles O14, by the part of each tick that comes first. -/
theorem lockoutAndPenaltyEnd : Obligations.LockoutAndPenaltyEnd := by
  refine ⟨fun m s hp hr hl => ?_, fun m s e hp hr he hpen => ?_⟩
  · have hobs := observe_running m hr
    have hpo : (observe m 0 s).sdm.power ≠ .off := by rw [hobs]; exact hp
    have hdue : lockoutDue (observe m 0 s) = true := by simp [lockoutDue, hobs, hl]
    have hpd : penaltyDue (observe m 0 s) = (penaltySeconds s.swc.table == some 1) := by rw [hobs]; rfl
    refine ⟨lockoutEnds (countTick (observe m 0 s)), ?_, ?_⟩
    · refine (if_pos hdue).trans (congrArg Host.Outcome.next ?_)
      rw [tick_eq _ hpo, hdue, hpd]
      rfl
    · obtain ⟨hleft, hstreak⟩ := lockoutEnds_counts (countTick (observe m 0 s))
      refine ⟨?_, ?_⟩
      · rw [hleft, (countTick_fields _).2.1, hobs]
        exact Nat.sub_eq_zero_of_le hl.le
      rw [hstreak, lockoutEnds_eq, (countTick_fields _).2.1, hobs]
      have hm : mainPowered s.sdm.power = true ↔ s.sdm.power ≠ .battery := by
        cases h : s.sdm.power <;> simp_all [mainPowered]
      refine ⟨rfl, rfl, fun h1 h2 => ?_, fun h => ?_, rfl, rfl, rfl, rfl, rfl, rfl⟩
      · show (Cda.acceptor (ite _ _ _) = _ ∧ Cda.buffer (ite _ _ _) = _)
        rw [if_pos ⟨hm.mpr h1, h2⟩]
        exact ⟨rfl, rfl⟩
      · show Cda.acceptor (ite _ _ _) = _
        rw [if_neg fun ⟨k1, k2⟩ => h.elim (hm.mp k1) fun h => h k2]
  · have hobs := observe_running m hr
    have hpo : (observe m 0 s).sdm.power ≠ .off := by rw [hobs]; exact hp
    have hps : penaltySeconds s.swc.table = some 1 := by simp [penaltySeconds, he, hpen]
    have hdue : penaltyDue (observe m 0 s) = true := by simp [penaltyDue, hobs, hps]
    have hld : lockoutDue (observe m 0 s) = (s.cda.lockoutLeft == 1) := by rw [hobs]; rfl
    have hct : (countTick (observe m 0 s)).swc =
        { s.swc with
          table := { s.swc.table with loadLimit := some { e with penalty := some (.seconds 0) } } } := by
      rw [(countTick_fields _).2.2, hobs]
      simp [countPenalty, he, hpen, CauseTable.set]
    have hu : penaltyEnds (countTick (observe m 0 s)) = changeEntry .loadLimit none (countTick (observe m 0 s)) := by
      refine if_pos ?_
      simp [hct, penaltySeconds]
    refine ⟨penaltyEnds (countTick (observe m 0 s)), ?_, ?_⟩
    · refine (if_pos hdue).trans (congrArg Host.Outcome.next ?_)
      rw [tick_eq _ hpo, hdue, hld]
      rfl
    · rw [hu, changeEntry_table, hct]
      refine ⟨rfl, fun hs hd hcr hta hor hco => ?_, by simp [hobs], by simp [hobs], by simp [hobs], ?_⟩
      · obtain ⟨h1, h2⟩ := loadLimit_alone (t := (countTick (observe m 0 s)).swc.table)
          (e := { e with penalty := some (.seconds 0) }) (by rw [hct]) hd (by rw [hct]; exact hcr)
          (by rw [hct]; exact hta) (by rw [hct]; exact hor) (by rw [hct]; exact hco)
        exact changeEntry_arms (by simp) (by simp) (by rw [hct]; exact hs) h1 h2
      · rw [(changeEntry_meter _ _ _).fields.1, hobs]
        rfl

end Sys2Proof.Machine
end

