-- ==== Sys2Proof/Proofs/DayBoundary.lean ====
section
/-! The tick past midnight: each boundary that is due, with its standing charge, its resets and its notices (R26, R44,
R68 to R71). -/

namespace Sys2Proof.Machine

/-- Two states that a run of boundaries finds, or leaves, alike: they differ in the clock, the friendly value, and the
notices SWITCH and TAMPER, beside what no boundary concerns. -/
structure SameDay (s t : State) : Prop where
  acu : t.acu = s.acu
  lockouts : t.cda.lockoutsToday = s.cda.lockoutsToday
  tcu : ∃ clock valid friendly, t.tcu = { s.tcu with clock := clock, valid := valid, lastFriendly := friendly }
  notices : QuietNotices s.rpu t.rpu

theorem SameDay.refl (s : State) : SameDay s s := ⟨rfl, rfl, ⟨_, _, _, rfl⟩, .of_eq rfl⟩

theorem SameDay.trans {s t u : State} (h : SameDay s t) (k : SameDay t u) : SameDay s u := by
  obtain ⟨c, v, f, ht⟩ := h.tcu
  obtain ⟨c', v', f', hu⟩ := k.tcu
  exact ⟨k.acu.trans h.acu, k.lockouts.trans h.lockouts, ⟨c', v', f', by rw [hu, ht]⟩, h.notices.trans k.notices⟩

/-- The boundaries taken do not depend on what no boundary concerns. -/
theorem BoundariesTaken.congr {day : Nat} {s s' t t' : State} (h : BoundariesTaken day s t) (hs : SameDay s' s)
    (ht : SameDay t t') : BoundariesTaken day s' t' := by
  obtain ⟨_, _, _, hs1⟩ := hs.tcu
  obtain ⟨_, _, _, ht1⟩ := ht.tcu
  have bit (n : Nat) (h3 : n ≠ 3) (h5 : n ≠ 5) := And.intro (hs.notices n h3 h5) (ht.notices n h3 h5)
  obtain ⟨s0, t0⟩ := bit 0 (by decide) (by decide)
  obtain ⟨s1, t1⟩ := bit 1 (by decide) (by decide)
  obtain ⟨s6, t6⟩ := bit 6 (by decide) (by decide)
  obtain ⟨s7, t7⟩ := bit 7 (by decide) (by decide)
  simp only [BoundariesTaken, ClaimNoticed, chargedDays, List.forall_mem_cons, List.not_mem_nil, false_imp_iff,
    implies_true, and_true, hs1, hs.acu, hs.lockouts, s0, s1, s6, s7] at h
  simpa only [BoundariesTaken, ClaimNoticed, chargedDays, List.forall_mem_cons, List.not_mem_nil, false_imp_iff,
    implies_true, and_true, ht1, ht.acu, ht.lockouts, t0, t1, t6, t7] using h

theorem evaluateFriendly_sameDay (s : State) : SameDay s (evaluateFriendly s) :=
  ⟨by simp, by simp, ⟨_, _, _, evaluateFriendly_tcu s⟩, (evaluateFriendly_noticed s).quiet⟩

/-- The counting of a tick is nothing to the boundaries. -/
theorem countTick_sameDay (s : State) : SameDay s (countTick s) := ⟨rfl, rfl, ⟨_, _, _, rfl⟩, .of_eq rfl⟩

/-- The calendar's part of a tick in a part whose calendar runs on a valid clock (R68). -/
theorem calendarTick_taken {s : State} (hr : calendarRuns s.sdm = true) (hv : s.tcu.valid = true)
    (hm : mainPowered s.sdm.power = true) : BoundariesTaken (dayOf s.tcu.clock) s (calendarTick s) := by
  have htaken (x : State) (h : SameDay s x) (hc : x.tcu.clock = s.tcu.clock) (hv : x.tcu.valid = true)
      (hp : x.sdm = s.sdm) : BoundariesTaken (dayOf s.tcu.clock) s (deliverDue x) := by
    rw [← hc]
    exact (deliverDue_taken x hv (by rwa [hp])).congr h (.refl _)
  unfold calendarTick
  rw [if_pos hr]
  split
  · exact htaken _ (evaluateFriendly_sameDay s) (by rw [evaluateFriendly_tcu]) (by rw [evaluateFriendly_tcu]; exact hv)
      (by simp)
  · exact htaken _ (.refl s) rfl hv rfl

theorem calendarRuns_working {x : Sdm} (h : x.power = .run ∨ x.power = .holdup) : calendarRuns x = true := by
  rcases h with h | h <;> simp [calendarRuns, h, working]

/-- One day's charge (R26, R69). -/
theorem chargedDays_one (x : Tcu) (a : Account) :
    chargedDays x 1 a = a.alarmAfter (a.charge (x.active.standing * 1000)) := by
  simp [chargedDays]

/-- DAY_BOUNDARY in a working part is a tick with the calendar's part first (log 7). -/
theorem exec_dayBoundary {m : Moment} {s : State} (hp : s.sdm.power = .run ∨ s.sdm.power = .holdup)
    (hv : s.tcu.valid = true) (hc : s.tcu.clock + 1 < 2 ^ 32) (hd : s.tcu.lastDay < (s.tcu.clock + 1) / 86400) :
    exec (.dayBoundary m) s = .next (tick calendarFirst (observe m 0 s)) := by
  rw [observe_working m hp]
  simp only [exec, execDayBoundary, observe_working m hp]
  exact if_pos ⟨calendarRuns_working hp, hv, hc, hd⟩

/-- Settles O13, by the boundaries that the calendar's part delivers first and the other parts leave standing. -/
theorem dayBoundaryIsDelivered : Obligations.DayBoundaryIsDelivered := by
  intro m s hp hv hc hd
  have hobs := observe_working (s := s) m hp
  have hpo : (observe m 0 s).sdm.power ≠ .off := by
    rw [hobs]
    rcases hp with hp | hp <;> simp [hp]
  generalize hx : countTick (observe m 0 s) = x
  have hclock : x.tcu.clock = s.tcu.clock + 1 := by
    rw [← hx, (countTick_fields _).1, hobs]
    exact if_pos hc
  have hvalid : x.tcu.valid = true := by
    rw [← hx, (countTick_fields _).1, hobs]
    exact Bool.and_eq_true_iff.mpr ⟨hv, decide_eq_true hc⟩
  have hsame : SameDay s x := by
    refine .trans ?_ (hx ▸ countTick_sameDay (observe m 0 s))
    rw [hobs]
    exact ⟨rfl, rfl, ⟨_, _, _, rfl⟩, .of_eq rfl⟩
  have hsdm : x.sdm = s.sdm := by rw [← hx, hobs]; rfl
  have htake := calendarTick_taken (s := x) (by rw [hsdm]; exact calendarRuns_working hp) hvalid
    (by rw [hsdm]; exact mainPowered_working hp)
  obtain ⟨r1, r2, r3, r4⟩ := tickParts_besideCalendar (lockoutDue (observe m 0 s)) (penaltyDue (observe m 0 s))
    (ps := [.lockout, .penalty, .stall .p1, .supply, .demand]) (by decide) (calendarTick x)
  have htick : tick calendarFirst (observe m 0 s) = [TickPart.lockout, .penalty, .stall .p1, .supply, .demand].foldl
      (fun t p => tickPart (lockoutDue (observe m 0 s)) (penaltyDue (observe m 0 s)) p t) (calendarTick x) := by
    rw [← hx]
    exact tick_eq calendarFirst hpo
  rw [← htick] at r1 r2 r3 r4
  obtain ⟨c1, -, -, c4⟩ := tick_counts calendarFirst hpo
  obtain ⟨_, _, _, _, hcda⟩ := tick_acceptorKept calendarFirst hpo
  have hframe := tick_frame calendarFirst (observe m 0 s)
  have hexec := exec_dayBoundary (m := m) hp hv hc hd
  generalize tick calendarFirst (observe m 0 s) = t at *
  have hday := htake.congr (hsame) (t' := t) ⟨r1, r3, ⟨_, _, _, by rw [r2]⟩, r4⟩
  rw [hclock] at hday
  obtain ⟨-, hforward, -⟩ := id hday
  obtain ⟨d1, d2, d3, d4, d5, d6, d7, d8, d9, d10⟩ := hforward hd
  have hacu1 (hone : s.tcu.lastDay + 1 = (s.tcu.clock + 1) / 86400) :
      t.acu = s.acu.alarmAfter (s.acu.charge (s.tcu.active.standing * 1000)) := by
    have h1 : (s.tcu.clock + 1) / 86400 - s.tcu.lastDay = 1 := by omega
    rw [← chargedDays_one, ← h1]
    exact d3
  refine ⟨t, hexec, ?_, d1, d2, d4, hday, d10, d9, fun hone => ⟨d8 hone.symm, hacu1 hone, ?_, ?_, ?_⟩, ?_⟩
  · rw [c1, hobs]
    exact if_pos hc
  · rw [hone]
    exact d5
  · rw [hone]
    exact fun h => (d6 h).1
  · intro u hu
    rw [hone, d7, hu]
    rfl
  · obtain ⟨e1, e2, -, -⟩ := c4
    rw [e1, e2, hcda, hframe.2.2.2.2.1, hframe.2.2.2.1, hframe.2.2.2.2.2.2, hobs]
    exact ⟨rfl, rfl, rfl, rfl, rfl, rfl, rfl, rfl⟩

end Sys2Proof.Machine
end

