-- ==== Sys2Proof/Proofs/StallTick.lean ====
section
/-! The tick at which a phase is found stalled (R11, R12). -/

namespace Sys2Proof.Machine

/-- A condition whose action is not to disconnect leaves the switch, and with it the Pulse Input Unit (R153). -/
theorem hand_piu {k : Kind} {s : State} (v : Bool) (p : Option Phase) (h : s.tmp.actions.get k ≠ .disconnect) :
    (hand k v p s).piu = s.piu := by
  unfold hand
  split
  · rfl
  · split
    · by_cases ha : s.tmp.actions.get k = .off
      · rw [rise_off p ha]
        rfl
      by_cases hs : (s.tmp.latches.get k).set = none
      · obtain ⟨u, hu, hx⟩ := rise_fresh p ha hs
        rw [hu, if_neg h, hx]
        simp
      · rw [rise_repeated p ha hs]
        simp
    · rfl

/-- The stall timers and flags after the step of a working part, before MS is handed (R11). -/
def stallCounted (closed : Bool) (s : State) : State :=
  s.setPiu
    { s.piu with
      stallTimer := ⟨stallTimerAfter .p1 closed s.pins s.piu, stallTimerAfter .p2 closed s.pins s.piu,
        stallTimerAfter .p3 closed s.pins s.piu⟩
      stallFlag := ⟨s.piu.stallFlag.p1 || stallsAt .p1 closed s.pins s.piu,
        s.piu.stallFlag.p2 || stallsAt .p2 closed s.pins s.piu, s.piu.stallFlag.p3 || stallsAt .p3 closed s.pins s.piu⟩ }

theorem stallCounted_get (n : Phase) (closed : Bool) (s : State) :
    (stallCounted closed s).piu.stallTimer.get n = stallTimerAfter n closed s.pins s.piu ∧
      (stallCounted closed s).piu.stallFlag.get n = (s.piu.stallFlag.get n || stallsAt n closed s.pins s.piu) := by
  cases n <;> exact ⟨rfl, rfl⟩

theorem anyPhase_of_get {x : Phases Bool} {n : Phase} (h : x.get n = true) : anyPhase x = true := by
  cases n <;> simp_all [anyPhase, Phases.get]

/-- The stall step of a working part (R11, R12). -/
theorem stallStep_working {first : Phase} {s : State} (hw : working s.sdm.power = true) :
    let x := stallCounted (s.swc.switch == .closed) s
    stallStep first s =
      if (!anyPhase s.piu.stallFlag && anyPhase x.piu.stallFlag) = true then
        hand .ms true ((phasesFrom first).find? fun n => stallsAt n (s.swc.switch == .closed) s.pins s.piu) x
      else x := if_pos hw

/-- The stall step that finds phase `first` stalled: MS is handed with it where no phase was stalled before (R12). -/
theorem stallStep_stalled {first : Phase} {s : State} (hw : working s.sdm.power = true)
    (h : stallsAt first (s.swc.switch == .closed) s.pins s.piu = true) :
    stallStep first s =
      if anyPhase s.piu.stallFlag = true then stallCounted (s.swc.switch == .closed) s
      else hand .ms true (some first) (stallCounted (s.swc.switch == .closed) s) := by
  have hfind : ((phasesFrom first).find? fun n => stallsAt n (s.swc.switch == .closed) s.pins s.piu) = some first := by
    cases first <;> simp [phasesFrom, h]
  have hany : anyPhase (stallCounted (s.swc.switch == .closed) s).piu.stallFlag = true :=
    anyPhase_of_get (n := first) (by rw [(stallCounted_get _ _ _).2, h, Bool.or_true])
  rw [stallStep_working hw, hany, hfind]
  cases anyPhase s.piu.stallFlag <;> rfl

/-- Settles O11, by the step that comes first in its tick. -/
theorem stallIsDetected : Obligations.StallIsDetected := by
  intro m n s hp hcl hc hf hst
  have hobs := observe_working (s := s) m hp
  have hpo : (observe m 0 s).sdm.power ≠ .off := by
    rw [hobs]
    rcases hp with hp | hp <;> simp [hp]
  have htimer : stallTimerAfter n true m.pins s.piu = s.piu.stallTimer.get n + 1 := by simp [stallTimerAfter, hf, hc]
  have hstall : stallsAt n true m.pins s.piu = true := by simp [stallsAt, hf, htimer, hst]
  have hdue : (observe m 0 s).swc.switch = .closed := by rw [hobs]; exact hcl
  generalize hx : countTick (observe m 0 s) = x
  have hxs : x.piu = s.piu ∧ x.pins = m.pins ∧ x.tmp = s.tmp ∧ x.sdm = s.sdm ∧ x.elg = s.elg ∧ x.swc.switch = .closed ∧
      x.tcu.clock = clockAfterTick s.tcu.clock := by
    rw [← hx, hobs]
    exact ⟨rfl, rfl, rfl, rfl, rfl, hcl, rfl⟩
  obtain ⟨xpiu, xpins, xtmp, xsdm, xelg, xswitch, xclock⟩ := hxs
  have hclosed : (x.swc.switch == .closed) = true := by rw [xswitch]; rfl
  have hstep := stallStep_stalled (first := n) (s := x) (by rw [xsdm]; exact working_iff.mpr hp)
    (by rw [hclosed, xpins, xpiu]; exact hstall)
  rw [hclosed, xpiu] at hstep
  obtain ⟨ht, hflag⟩ := stallCounted_get n true x
  rw [xpins, xpiu, htimer] at ht
  rw [xpins, xpiu, hstall, Bool.or_true] at hflag
  have hmeter := tickPart_meter false false (p := .stall n) (by simp) x
  obtain ⟨e1, e2, -⟩ := hmeter.fields
  refine ⟨stallStep n x, ?_, ?_, ?_, ?_, ?_, ?_, fun hact => ?_, fun hall hcond hset => ⟨fun hact => ?_, fun hact => ?_⟩⟩
  · have hl : lockoutDue (observe m 0 s) = (s.cda.lockoutLeft == 1) := by rw [hobs]; rfl
    have hpd : penaltyDue (observe m 0 s) = (penaltySeconds s.swc.table == some 1) := by rw [hobs]; rfl
    rw [← hl, ← hpd, ← hx]
    refine (if_pos ⟨?_, ?_⟩).trans (congrArg Host.Outcome.next (tick_eq _ hpo))
    · rw [hobs]
      exact working_iff.mpr hp
    · rw [hdue, hobs]
      exact hstall
  · rw [(stallStep_frame n x).2.2.2.2.2.2.1, xclock]
  · rw [(stallStep_frame n x).2.2.2.2.2.1, ← hx, hobs]
    rfl
  · rw [(stallStep_frame n x).2.2.2.2.1, ← hx, hobs]
    rfl
  · exact e1.trans (by rw [xpiu])
  · exact e2.trans (by rw [xpiu])
  · have hu : (stallStep n x).piu = (stallCounted true x).piu := by
      rw [hstep]
      split
      · rfl
      · exact hand_piu _ _ (by rw [show (stallCounted true x).tmp = x.tmp from rfl, xtmp]; exact hact)
    rw [hu]
    exact ⟨hflag, ht⟩
  · rw [hstep, hall, if_neg (by simp [anyPhase, Phases.all])]
    obtain ⟨-, -, h3⟩ := hand_latches .ms true (some n) (stallCounted true x)
    have hms : (stallCounted true x).tmp = s.tmp := xtmp
    rw [hms] at h3
    obtain ⟨-, hk⟩ := h3 hcond rfl
    obtain ⟨hk1, -, -⟩ := hk .ms
    have hseq : (stallCounted true x).elg = s.elg := xelg
    have hclk : (stallCounted true x).tcu.clock = clockAfterTick s.tcu.clock := xclock
    refine ⟨⟨clockAfterTick s.tcu.clock, some n, s.elg.nextSeq⟩, hk1.trans ?_, rfl, rfl, rfl⟩
    have ha : s.tmp.actions.get .ms ≠ .off := hact
    have hs : (s.tmp.latches.get .ms).set = none := hset
    simp [risenLatch, hms, ha, hs, hseq, hclk]
  · rw [hstep, hall, if_neg (by simp [anyPhase, Phases.all])]
    have hms : (stallCounted true x).tmp = s.tmp := xtmp
    have hr : hand .ms true (some n) (stallCounted true x) = rise .ms (some n) (stallCounted true x) := by
      simp only [hand, hms]
      rw [if_neg (by rw [show (s.tmp.latches.get .ms).condition = false from hcond]; simp)]
      rfl
    rw [hr, rise_off _ (by rw [hms]; exact hact), hms]
    simp only [setLatch, State.setTmp_fields, Kinds.set, hms]
    exact congrArg (fun y => (⟨true, y, s.tmp.latches.ms.repeats⟩ : Latch)) hset

end Sys2Proof.Machine
end

