-- ==== Sys2Proof/Proofs/DemandMinute.lean ====
section
/-! The tick that ends a demand minute, with the over-limit count and the trip (R14, R124 to R126, R132); and what a day
boundary takes back of the load limit (R127). -/

namespace Sys2Proof.Machine

/-! ## The demand minute -/

theorem effectiveLimit_eq (x : Swc) :
    effectiveLimit x =
      if (x.held = .emergency ∨ x.held = .exhausted) ∧ x.reducedLimit ≠ 0 then x.reducedLimit else x.normalLimit := by
  simp [effectiveLimit]

/-- The entry of a trip, in a table that held one (R126). -/
theorem countPenalty_trip {t : CauseTable} {e : Entry} (h : t.loadLimit = some e) (p : Option Penalty) :
    ∃ e', (countPenalty t).loadLimit = some e' ∧
      (countPenalty t).set .loadLimit (some { e' with penalty := p }) =
        { t with loadLimit := some { e with penalty := p } } := by
  rcases hp : e.penalty with _ | n | _
  · exact ⟨e, by simp [countPenalty, h, hp], by simp [countPenalty, h, hp, CauseTable.set]⟩
  · exact ⟨_, countPenalty_loadLimit h hp, by simp [countPenalty, h, hp, CauseTable.set]⟩
  · exact ⟨e, by simp [countPenalty, h, hp], by simp [countPenalty, h, hp, CauseTable.set]⟩

theorem countPenalty_none {t : CauseTable} (h : t.loadLimit = none) : countPenalty t = t := by simp [countPenalty, h]

/-- The switch leaves CLOSED for an operation, with the stall flags and timers cleared (R12, R116). -/
theorem beginOperation_piu {t : Target} {s : State} (h : s.swc.switch ≠ movingState t) :
    (beginOperation t s).piu =
      if s.swc.switch = .closed then { s.piu with stallFlag := .all false, stallTimer := .all 0 } else s.piu := by
  have h' : (s.setSwc { s.swc with op := some ⟨t, 1, .rest, none, 0⟩ }).swc.switch ≠ movingState t := h
  have hb := enterSwitch_piu h'
  simpa [beginOperation] using hb

theorem entryChanged_piu (c : Cause) (e : Option Entry) (s : State) : (entryChanged c e s).piu = s.piu := by
  unfold entryChanged
  dsimp only
  split <;> simp

/-- A first ACTIVE entry opens a closed switch, but not in HOLDUP (R114, R132). -/
theorem changeEntry_opens {c : Cause} {e : Option Entry} {s : State} (hs : s.swc.switch = .closed)
    (h1 : s.swc.table.anyActive = false) (h2 : (s.swc.table.set c e).anyActive = true) (hp : s.sdm.power ≠ .holdup) :
    (changeEntry c e s).swc =
        { s.swc with
          table := s.swc.table.set c e, switch := .opening, intended := .opened, overCount := 0
          op := some (firstAttempt .opened s.swc.lastPulseEnd s.now) } ∧
      (changeEntry c e s).piu = { s.piu with stallFlag := .all false, stallTimer := .all 0 } := by
  obtain ⟨f1, f2, f3⟩ := entryChanged_fields c e s
  have hsw : (entryChanged c e s).swc.switch = .closed := by rw [f1]; exact hs
  have hpw : (entryChanged c e s).sdm.power ≠ .holdup := by rw [f3]; exact hp
  rw [(changeEntry_cases c e s).1 h1 h2]
  refine ⟨?_, ?_⟩
  · rw [activeAppeared_swc, hsw]
    simp only [if_neg hpw, f1, f2]
  · have hb : activeAppeared (entryChanged c e s) = beginOperation .opened (entryChanged c e s) := by
      simp only [activeAppeared, hsw, if_neg hpw]
    rw [hb, beginOperation_piu (by rw [hsw]; decide), if_pos hsw, entryChanged_piu]

/-- A closed switch stands where an ACTIVE entry was in the table before, or in HOLDUP (R114, R132). -/
theorem changeEntry_stands {c : Cause} {e : Option Entry} {s : State} (hs : s.swc.switch = .closed)
    (h2 : (s.swc.table.set c e).anyActive = true) (h : s.swc.table.anyActive = true ∨ s.sdm.power = .holdup) :
    (changeEntry c e s).swc = { s.swc with table := s.swc.table.set c e } := by
  obtain ⟨f1, f2, f3⟩ := entryChanged_fields c e s
  cases h1 : s.swc.table.anyActive
  · have hp : s.sdm.power = .holdup := h.resolve_left (by simp [h1])
    rw [(changeEntry_cases c e s).1 h1 h2, activeAppeared_swc, f1]
    simp only [hs, f3, hp, if_true]
  · rw [(changeEntry_cases c e s).2.2 (h1.trans h2.symm), f1]

/-- The window that a demand minute of a working part closes, or one that starts (R14). -/
theorem minuteEnds_working {s : State} (hw : working s.sdm.power = true) (hm : s.tcu.clock % 60 = 0) :
    (s.piu.demand = .waiting → minuteEnds s = s.setPiu { s.piu with demand := .running 0 }) ∧
      ∀ acc, s.piu.demand = .running acc →
        minuteEnds s = demandMinute (6 * acc)
          (s.setPiu { s.piu with demand := .running 0, lastDemand := some ⟨6 * acc, s.tcu.clock⟩ }) := by
  have hc : (working s.sdm.power && wholeMinute s) = true := by simp [hw, wholeMinute, hm]
  refine ⟨fun h => ?_, fun acc h => ?_⟩ <;> unfold minuteEnds <;> rw [if_pos hc, h]

/-- A demand minute over the limit counts, or trips at the second (R125). -/
theorem demandMinute_cases (w : Nat) (s : State) :
    (¬(s.swc.switch = .closed ∧ effectiveLimit s.swc ≠ 0 ∧ effectiveLimit s.swc < w) →
      demandMinute w s = s.setSwc { s.swc with overCount := 0 }) ∧
    (s.swc.switch = .closed ∧ effectiveLimit s.swc ≠ 0 ∧ effectiveLimit s.swc < w →
      (s.swc.overCount = 0 → demandMinute w s = s.setSwc { s.swc with overCount := 1 }) ∧
      (1 ≤ s.swc.overCount → demandMinute w s = trip s)) := by
  refine ⟨fun h => if_neg h, fun h => ⟨fun h0 => ?_, fun h1 => ?_⟩⟩
  · refine (if_pos h).trans ((if_neg (by omega)).trans ?_)
    rw [h0]
  · exact (if_pos h).trans (if_pos (by omega))

/-- A trip with an entry present gives it a new penalty; with none it adds one (R126). -/
theorem trip_cases (s : State) :
    let trips := min 255 (s.swc.tripsToday + 1)
    let x := s.setSwc { s.swc with overCount := 0, tripsToday := trips }
    (∀ e, s.swc.table.loadLimit = some e →
      trip s = x.setSwc
        { x.swc with table := s.swc.table.set .loadLimit (some { e with penalty := some (tripPenalty trips) }) }) ∧
    (s.swc.table.loadLimit = none →
      trip s = changeEntry .loadLimit (some ⟨false, s.tcu.clock, some (tripPenalty trips)⟩) x) := by
  refine ⟨fun e h => ?_, fun h => ?_⟩ <;> simp [trip, h]

theorem anyActive_set {t : CauseTable} {c : Cause} {e : Entry} (h : e.deferred = false) :
    (t.set c (some e)).anyActive = true := by
  cases c <;> simp [CauseTable.set, CauseTable.anyActive, entryActive, h]

/-- The controller's own state after a working part's demand minute, with the penalty counted down by the same tick (table
of R125, R126). -/
theorem demandMinute_table {s x : State} {w : Nat} (hswc : x.swc = { s.swc with table := countPenalty s.swc.table }) :
    let limit : Nat :=
      if (s.swc.held = .emergency ∨ s.swc.held = .exhausted) ∧ s.swc.reducedLimit ≠ 0 then s.swc.reducedLimit
      else s.swc.normalLimit
    let trips := min 255 (s.swc.tripsToday + 1)
    let u := demandMinute w x
    (¬(s.swc.switch = .closed ∧ limit ≠ 0 ∧ limit < w) →
      u.swc = { s.swc with overCount := 0, table := countPenalty s.swc.table }) ∧
    (s.swc.switch = .closed ∧ limit ≠ 0 ∧ limit < w →
      (s.swc.overCount = 0 → u.swc = { s.swc with overCount := 1, table := countPenalty s.swc.table }) ∧
      (1 ≤ s.swc.overCount →
        (∀ e, s.swc.table.loadLimit = some e →
          u.swc =
            { s.swc with
              overCount := 0
              tripsToday := trips
              table := { s.swc.table with loadLimit := some { e with penalty := some (tripPenalty trips) } } }) ∧
        (s.swc.table.loadLimit = none →
          u.swc.overCount = 0 ∧ u.swc.tripsToday = trips ∧
          u.swc.table = { s.swc.table with loadLimit := some ⟨false, x.tcu.clock, some (tripPenalty trips)⟩ } ∧
          (s.swc.table.anyActive = false → x.sdm.power = .run →
            u.swc.switch = .opening ∧ u.swc.intended = .opened ∧ u.piu.stallFlag = .all false ∧
              u.piu.stallTimer = .all 0 ∧
              ∃ o, u.swc.op = some o ∧ o.target = .opened ∧ o.attempt = 1 ∧ o.releasedBy = none) ∧
          (s.swc.table.anyActive = true ∨ x.sdm.power = .holdup →
            u.swc.switch = .closed ∧ u.swc.intended = s.swc.intended ∧ u.swc.op = s.swc.op)))) := by
  have hlimit : effectiveLimit x.swc =
      if (s.swc.held = .emergency ∨ s.swc.held = .exhausted) ∧ s.swc.reducedLimit ≠ 0 then s.swc.reducedLimit
      else s.swc.normalLimit := by rw [effectiveLimit_eq, hswc]
  obtain ⟨hbelow, habove⟩ := demandMinute_cases w x
  obtain ⟨htripped, hfresh⟩ := trip_cases x
  rw [hlimit, hswc] at hbelow habove
  refine ⟨fun h => ?_, fun h => ⟨fun h0 => ?_, fun h1 => ⟨fun e he => ?_, fun hn => ?_⟩⟩⟩
  · rw [hbelow h]
    rfl
  · rw [(habove h).1 h0]
    rfl
  · obtain ⟨e', he', hset⟩ := countPenalty_trip he (some (tripPenalty (min 255 (s.swc.tripsToday + 1))))
    rw [(habove h).2 h1, htripped e' (by rw [hswc]; exact he')]
    simp only [State.setSwc_fields, hswc, hset]
  · have hcp := countPenalty_none hn
    have hx : x.swc = s.swc := by rw [hswc, hcp]
    have htrips : x.swc.tripsToday = s.swc.tripsToday := by rw [hx]
    have hany := anyActive_set (t := s.swc.table) (c := .loadLimit)
      (e := ⟨false, x.tcu.clock, some (tripPenalty (min 255 (s.swc.tripsToday + 1)))⟩) rfl
    rw [(habove h).2 h1, hfresh (by rw [hx]; exact hn), htrips, hx]
    generalize hy : x.setSwc { s.swc with overCount := 0, tripsToday := min 255 (s.swc.tripsToday + 1) } = y
    have hyswc : y.swc = { s.swc with overCount := 0, tripsToday := min 255 (s.swc.tripsToday + 1) } := by rw [← hy]; rfl
    have hysdm : y.sdm = x.sdm := by rw [← hy]; rfl
    have hcl : y.swc.switch = .closed := by rw [hyswc]; exact h.1
    have htab : y.swc.table = s.swc.table := by rw [hyswc]
    have hrest (ha : s.swc.table.anyActive = true ∨ x.sdm.power = .holdup) :=
      changeEntry_stands (c := .loadLimit) hcl (by rw [htab]; exact hany) (by rw [htab, hysdm]; exact ha)
    have hopen (ha : s.swc.table.anyActive = false) (hp : x.sdm.power ≠ .holdup) :=
      changeEntry_opens (c := .loadLimit) hcl (by rw [htab]; exact ha) (by rw [htab]; exact hany) (by rw [hysdm]; exact hp)
    refine ⟨?_, ?_, ?_, fun ha hp => ?_, fun ha => ?_⟩
    · by_cases ha : s.swc.table.anyActive = true ∨ x.sdm.power = .holdup
      · rw [hrest ha, hyswc]
      · rw [(hopen (by simpa using fun h => ha (.inl h)) fun h => ha (.inr h)).1]
    · simp [hyswc]
    · rw [changeEntry_table, htab]
      rfl
    · obtain ⟨h1, h2⟩ := hopen ha (by rw [hp]; simp)
      rw [h1, h2]
      obtain ⟨o1, o2, o3, -⟩ := firstAttempt_fields .opened y.swc.lastPulseEnd y.now
      exact ⟨rfl, rfl, rfl, rfl, _, rfl, o1, o2, o3⟩
    · rw [hrest ha, hyswc]
      exact ⟨h.1, rfl, rfl⟩

/-! ## What a day boundary takes back -/

/-- A claim of nothing changes nothing. -/
theorem claim_charge_zero (s : State) : claim (Account.charge 0) s = s := by
  have h : Account.charge 0 s.acu = s.acu := by simp [Account.charge]
  rw [claim_same (by rw [h]) (by rw [h]), h]
  simp [Account.alarmAfter, State.setAcu]

/-- A boundary with no charge, no override and no CREDIT entry arms an open switch that a penalty alone held (R114,
R127). -/
theorem deliverBoundary_arms {s : State} {e : Entry} (hst : s.tcu.active.standing = 0) (hu : s.tcu.untilDay = none)
    (hs : s.swc.switch = .opened) (he : s.swc.table.loadLimit = some e) (hp : e.penalty = some .untilBoundary)
    (h1 : s.swc.table.anyActive = true) (h2 : (s.swc.table.set .loadLimit none).anyActive = false) :
    (deliverBoundary s).swc.switch = .armed ∧ (deliverBoundary s).swc.intended = .armed := by
  have hclaim : claim (Account.charge (s.tcu.active.standing * Config.milli)) s = s := by
    rw [hst, Nat.zero_mul, claim_charge_zero]
  have hact (d : Nat) (x : State) : (boundaryActivation d x).swc = x.swc := by
    unfold boundaryActivation
    split <;> simp
  unfold deliverBoundary
  dsimp only
  rw [hclaim]
  generalize hx : (s.setCda { s.cda with lockoutsToday := 0 }).setSwc { s.swc with tripsToday := 0 } = x
  have hxs : x.swc = { s.swc with tripsToday := 0 } := by rw [← hx]; rfl
  have hb : boundarySwitch (s.setCda { s.cda with lockoutsToday := 0 }) = changeEntry .loadLimit none x := by
    have hxl : x.swc.table.loadLimit = some e := by rw [hxs]; exact he
    simp only [boundarySwitch, State.setCda_fields, hx, hxl, hp, if_true]
  have hxu : x.tcu = s.tcu := by rw [← hx]; rfl
  have ho (d : Nat) : boundaryOverride d ((changeEntry .loadLimit none x).setTcu
      { (changeEntry .loadLimit none x).tcu with trimUsed := 0 }) = (changeEntry .loadLimit none x).setTcu
      { (changeEntry .loadLimit none x).tcu with trimUsed := 0 } := by
    simp [boundaryOverride, hxu, hu]
  have harm := changeEntry_arms (c := .loadLimit) (s := x) (by decide) (by decide) (by rw [hxs]; exact hs)
    (by rw [hxs]; exact h1) (by rw [hxs]; exact h2)
  rw [hb, ho]
  simpa [hact] using harm

/-- The calendar's part of a tick to a new day, as the controller sees it: the trips of the day and a penalty held until
the boundary are taken back (R127). -/
theorem calendarTick_swc {s : State} (hr : calendarRuns s.sdm = true) (hv : s.tcu.valid = true)
    (hd : s.tcu.lastDay < dayOf s.tcu.clock) :
    (calendarTick s).swc.tripsToday = 0 ∧
      (calendarTick s).swc.table.loadLimit = boundaryLimit s.swc.table.loadLimit := by
  have hdeliver (x : State) (h : x.tcu.lastDay = s.tcu.lastDay ∧ x.tcu.clock = s.tcu.clock ∧ x.tcu.valid = true) :
      ∃ n, deliverDue x = deliverBoundaries (n + 1) x := by
    obtain ⟨h1, h2, h3⟩ := h
    refine ⟨dayOf s.tcu.clock - s.tcu.lastDay - 1, ?_⟩
    rw [deliverDue, if_pos h3, h1, h2]
    congr 1
    omega
  unfold calendarTick
  rw [if_pos hr]
  split
  · obtain ⟨n, hn⟩ := hdeliver (evaluateFriendly s) (by rw [evaluateFriendly_tcu]; exact ⟨rfl, rfl, hv⟩)
    obtain ⟨e, he⟩ := (evaluateFriendly_table s).1
    obtain ⟨h1, h2⟩ := deliverBoundaries_swc n (evaluateFriendly s)
    rw [hn, h1, h2, he]
    exact ⟨rfl, rfl⟩
  · obtain ⟨n, hn⟩ := hdeliver s ⟨rfl, rfl, hv⟩
    rw [hn]
    exact deliverBoundaries_swc n s

/-- A friendly evaluation with no CREDIT entry records its value alone (R67). -/
theorem evaluateFriendly_noCredit {s : State} (h : s.swc.table.credit = none) :
    ∃ v, evaluateFriendly s = s.setTcu { s.tcu with lastFriendly := v } := by
  unfold evaluateFriendly handFriendly
  dsimp only
  split
  · exact ⟨s.tcu.lastFriendly, rfl⟩
  · refine ⟨some (friendlyNow s.tcu), ?_⟩
    simp only [State.setTcu_fields, h]

/-- The tick to the next day, where a penalty alone held an open switch (R114, R127). -/
theorem calendarTick_arms {s : State} {e : Entry} (hr : calendarRuns s.sdm = true) (hv : s.tcu.valid = true)
    (hd : s.tcu.lastDay + 1 = dayOf s.tcu.clock) (hst : s.tcu.active.standing = 0) (hu : s.tcu.untilDay = none)
    (hs : s.swc.switch = .opened) (he : s.swc.table.loadLimit = some e) (hp : e.penalty = some .untilBoundary)
    (hdf : e.deferred = false) (hcr : s.swc.table.credit = none) (hta : entryActive s.swc.table.tamper = false)
    (hor : entryActive s.swc.table.order = false) (hco : entryActive s.swc.table.commission = false) :
    (calendarTick s).swc.switch = .armed ∧ (calendarTick s).swc.intended = .armed := by
  have hcr' : entryActive s.swc.table.credit = false := by rw [hcr]; rfl
  obtain ⟨h1, h2⟩ := loadLimit_alone he hdf hcr' hta hor hco
  have hdeliver (x : State) (h : ∃ v, x = s.setTcu { s.tcu with lastFriendly := v }) :
      deliverDue x = deliverBoundary x := by
    obtain ⟨v, rfl⟩ := h
    have h1 : dayOf s.tcu.clock - s.tcu.lastDay = 1 := by omega
    refine (if_pos hv).trans ?_
    exact congrArg (fun n => deliverBoundaries n _) h1
  have harm (x : State) (h : ∃ v, x = s.setTcu { s.tcu with lastFriendly := v }) :
      (deliverDue x).swc.switch = .armed ∧ (deliverDue x).swc.intended = .armed := by
    rw [hdeliver x h]
    obtain ⟨v, rfl⟩ := h
    exact deliverBoundary_arms hst hu hs he hp h1 h2
  unfold calendarTick
  rw [if_pos hr]
  split
  exacts [harm _ (evaluateFriendly_noCredit hcr), harm _ ⟨s.tcu.lastFriendly, rfl⟩]

/-! ## The obligation -/

/-- The order of the parts at a tick that ends a demand minute (log 7). -/
def demandFirst : List TickPart := [.demand, .lockout, .penalty, .stall .p1, .supply, .calendar]

theorem exec_demandMinuteEnd {m : Moment} {s : State} (hp : s.sdm.power = .run ∨ s.sdm.power = .holdup)
    (hc : clockAfterTick s.tcu.clock % 60 = 0) :
    exec (.demandMinuteEnd m) s = .next (tick demandFirst (observe m 0 s)) := by
  rw [observe_working m hp]
  simp only [exec, execDemandMinuteEnd, observe_working m hp]
  exact if_pos ⟨working_iff.mpr hp, hc⟩

/-- Settles O12: the demand window's part of the tick comes first, and the calendar's at a day boundary. -/
theorem demandMinuteEnds : Obligations.DemandMinuteEnds := by
  refine ⟨fun m s hp hmin => ?_, fun m s hp hv hc hd => ?_⟩
  · have hobs := observe_working (s := s) m hp
    have hpo : (observe m 0 s).sdm.power ≠ .off := by
      rw [hobs]
      rcases hp with hp | hp <;> simp [hp]
    have hl : lockoutDue (observe m 0 s) = (s.cda.lockoutLeft == 1) := by rw [hobs]; rfl
    have hpd : penaltyDue (observe m 0 s) = (penaltySeconds s.swc.table == some 1) := by rw [hobs]; rfl
    generalize hx : countTick (observe m 0 s) = x
    have hxs : x.piu = s.piu ∧ x.sdm = s.sdm ∧ x.swc = { s.swc with table := countPenalty s.swc.table } ∧
        x.tcu.clock = clockAfterTick s.tcu.clock := by
      rw [← hx, hobs]
      exact ⟨rfl, rfl, rfl, rfl⟩
    obtain ⟨xpiu, xsdm, xswc, xclock⟩ := hxs
    have htick : tick demandFirst (observe m 0 s) = [TickPart.lockout, .penalty, .stall .p1, .supply, .calendar].foldl
        (fun x p => tickPart (s.cda.lockoutLeft == 1) (penaltySeconds s.swc.table == some 1) p x) (minuteEnds x) := by
      rw [tick_eq demandFirst hpo, hl, hpd, hx]
      rfl
    obtain ⟨c1, -, -, e1, e2, -, -⟩ := tick_counts demandFirst hpo
    obtain ⟨hwait, hrun⟩ := minuteEnds_working (s := x) (by rw [xsdm]; exact working_iff.mpr hp) (by rw [xclock]; exact hmin)
    obtain ⟨-, -, -, -, -, -, -, -, -, -, k11, k12⟩ := (tickParts_meter (s.cda.lockoutLeft == 1)
      (penaltySeconds s.swc.table == some 1) (ps := [.lockout, .penalty, .stall .p1, .supply, .calendar]) (by decide)
      (minuteEnds x)).fields
    rw [← htick] at k11 k12
    obtain ⟨-, -, -, t4, t5, -, t7⟩ := tick_frame demandFirst (observe m 0 s)
    have hexec := exec_demandMinuteEnd (m := m) hp hmin
    rw [xpiu] at hwait hrun
    have hdemand : (minuteEnds x).piu.demand = .running 0 ∧
        (s.piu.demand = .waiting → (minuteEnds x).piu.lastDemand = s.piu.lastDemand) ∧
        ∀ acc, s.piu.demand = .running acc →
          (minuteEnds x).piu.lastDemand = some ⟨6 * acc, clockAfterTick s.tcu.clock⟩ := by
      have hmeter (acc : Nat) := (demandMinute_meter (6 * acc) (x.setPiu
        { s.piu with demand := .running 0, lastDemand := some ⟨6 * acc, x.tcu.clock⟩ })).fields
      cases hdm : s.piu.demand with
      | waiting =>
        rw [hwait hdm]
        exact ⟨rfl, fun _ => rfl, by simp⟩
      | running acc =>
        obtain ⟨-, -, -, -, -, -, -, -, -, -, d1, d2⟩ := hmeter acc
        rw [hrun acc hdm]
        refine ⟨d1, by simp, fun acc' h => ?_⟩
        cases h
        exact d2.trans (by rw [← xclock]; rfl)
    obtain ⟨d1, d2, d3⟩ := hdemand
    refine ⟨_, minuteEnds x, hexec, htick, k11.trans d1, fun h => ⟨k12.trans (d2 h), ?_⟩, fun acc h => ⟨k12.trans (d3 acc h), ?_⟩,
      c1.trans (by rw [hobs]), e1.trans (by rw [hobs]), e2.trans (by rw [hobs]), t5.trans (by rw [hobs]),
      t4.trans (by rw [hobs]), t7.trans (by rw [hobs])⟩
    · rw [hwait h]
      exact xswc
    · rw [hrun acc h]
      have htab := demandMinute_table (s := s) (w := 6 * acc) (x := x.setPiu
        { s.piu with demand := .running 0, lastDemand := some ⟨6 * acc, x.tcu.clock⟩ }) xswc
      simp only [State.setPiu_fields, xclock, xsdm, tripPenalty] at htab ⊢
      exact htab
  · have hobs := observe_working (s := s) m hp
    have hpo : (observe m 0 s).sdm.power ≠ .off := by
      rw [hobs]
      rcases hp with hp | hp <;> simp [hp]
    have hl : lockoutDue (observe m 0 s) = (s.cda.lockoutLeft == 1) := by rw [hobs]; rfl
    have hpd : penaltyDue (observe m 0 s) = (penaltySeconds s.swc.table == some 1) := by rw [hobs]; rfl
    generalize hx : countTick (observe m 0 s) = x
    have hxs : x.sdm = s.sdm ∧ x.swc = { s.swc with table := countPenalty s.swc.table } ∧
        x.tcu.clock = s.tcu.clock + 1 ∧ x.tcu.valid = true ∧ x.tcu.lastDay = s.tcu.lastDay ∧
        x.tcu.active = s.tcu.active ∧ x.tcu.untilDay = s.tcu.untilDay := by
      rw [← hx, hobs]
      exact ⟨rfl, rfl, if_pos hc, Bool.and_eq_true_iff.mpr ⟨hv, decide_eq_true hc⟩, rfl, rfl, rfl⟩
    obtain ⟨xsdm, xswc, xclock, xvalid, xday, xactive, xuntil⟩ := hxs
    have hr : calendarRuns x.sdm = true := by rw [xsdm]; exact calendarRuns_working hp
    obtain ⟨u1, u2⟩ := calendarTick_swc hr xvalid (by rw [xday, xclock]; exact hd)
    refine ⟨calendarTick x, ?_, u1, fun h => ?_, fun e he => ⟨fun h => ?_, fun n h => ?_, ?_⟩⟩
    · rw [exec_dayBoundary hp hv hc hd, tick_eq calendarFirst hpo, hl, hpd, hx]
      rfl
    · rw [u2, xswc, countPenalty_none h, h]
      rfl
    · rw [u2, xswc]
      simp [countPenalty, he, h, boundaryLimit]
    · rw [u2, xswc, countPenalty_loadLimit he h]
      simp [boundaryLimit]
    · intro hpen hdf hs hcr hta hor hco hnext hst hu
      have htab : countPenalty s.swc.table = s.swc.table := by simp [countPenalty, he, hpen]
      refine calendarTick_arms (e := e) hr xvalid (by rw [xday, xclock]; exact hnext) (by rw [xactive]; exact hst)
        (by rw [xuntil]; exact hu) (by rw [xswc]; exact hs) ?_ hpen hdf ?_ ?_ ?_ ?_ <;> rw [xswc, htab]
      exacts [he, hcr, hta, hor, hco]

end Sys2Proof.Machine
end

