-- ==== Sys2Proof/Proofs/SupplyComesAndGoes.lean ====
section
/-! The supply comes and goes (R200 to R202, R205), start-up steps cut short (R72, R203), and the tick in STARTING (R51). -/

namespace Sys2Proof.Machine

/-! ## START_UP -/

/-- The part as START_UP takes its steps: after its moment, with PFW low where it fell meanwhile. -/
def startedAt (m : Moment) (fell : Bool) (s : State) : State :=
  if fell then (observe m 0 s).setPins { (observe m 0 s).pins with pfw := false } else observe m 0 s

/-- What START_UP's moment and the fall of PFW leave of the part. -/
theorem startedAt_fields (m : Moment) (fell : Bool) (s : State) :
    (startedAt m fell s).sdm = (observe m 0 s).sdm ∧ (startedAt m fell s).ots = s.ots ∧
      (startedAt m fell s).tcu = (observe m 0 s).tcu ∧ (startedAt m fell s).acu = s.acu ∧
      (startedAt m fell s).cda = (observe m 0 s).cda ∧ (startedAt m fell s).swc = (observe m 0 s).swc ∧
      (startedAt m fell s).tmp = (observe m 0 s).tmp ∧ (startedAt m fell s).lnk = (observe m 0 s).lnk ∧
      (startedAt m fell s).pending = s.pending ∧
      (startedAt m fell s).pins = if fell then { m.pins with pfw := false } else m.pins := by
  have hp := (observe_fields m 0 s).2.1
  unfold startedAt
  cases fell <;> simp [hp]

/-- START_UP with no burn under way takes its steps where VDD is good, RSTN high, and PFW high or the steps begun (R203). -/
theorem exec_startUp {m : Moment} {run : StartUpRun} {s : State} (hp : s.sdm.power = .starting)
    (hv : m.pins.vdd = true) (hr : m.pins.rstn = true) (hb : s.ots.burn = none)
    (h : m.pins.pfw = true ∨ (observe m 0 s).sdm.stepsBegun = true) :
    exec (.startUp m run) s =
      .next (takeSteps (run.stop.getD (allSteps (startedAt m run.pfwFell s))) (startedAt m run.pfwFell s)) := by
  obtain ⟨-, hpins, hpo, -, -⟩ := observe_fields m 0 s
  have hready : stepsReady (observe m 0 s) = true := by
    simp [stepsReady, hpo, hp, hpins, hv, hr, lossBurning, hb, h]
  have hsettle : settleBurn (observe m 0 s) = observe m 0 s := by simp [settleBurn, hb]
  refine (if_pos hready).trans ?_
  rw [hsettle]
  unfold startedAt
  cases run.pfwFell <;> rfl

/-- Where the check is the next step, the held reset changes nothing of where the steps stand. -/
theorem observe_check (m : Moment) {s : State} (h : s.sdm.nextStep = .check) : (observe m 0 s).sdm.nextStep = .check := by
  obtain ⟨hrun, hheld⟩ := aMomentPasses m s
  cases hr : resetHeld s
  · rw [hrun hr]
    exact h
  · rw [hheld hr]
    rfl

/-- The steps begin at the check of an ordinary or a blank start: after it come the boundaries that were missed (R72,
R204). -/
theorem takeSteps_begin {s : State} {n : Nat} (hp : s.sdm.power = .starting) (hs : s.sdm.nextStep = .check)
    (hb : s.ots.burn = none) (hk : s.sdm.marker = true ∨ s.ots.lock = false) (hn : n ≤ missedDays s.tcu) :
    takeSteps (n + 1) s = deliverBoundaries n (s.setSdm ⟨.starting, true, true, .catchUp⟩) := by
  have hbn : lossBurning s = false := by simp [lossBurning, hb]
  have hstep : takeStep s = s.setSdm ⟨.starting, true, true, .catchUp⟩ := by
    simp only [takeStep, hs, checkStep_starts hk, hp]
  rw [takeSteps_succ hp hbn, hstep]
  have h := takeSteps_catchUp (n := n) (k := 0) (s := s.setSdm ⟨.starting, true, true, .catchUp⟩) rfl
    (by simpa [lossBurning] using hbn) rfl hn
  rwa [Nat.add_zero] at h

/-! ## The tick in STARTING -/

theorem deliverDue_tcu (s : State) (hv : s.tcu.valid = true) :
    (deliverDue s).tcu.lastDay = max s.tcu.lastDay (dayOf s.tcu.clock) := by
  rw [deliverDue, if_pos hv, (deliverBoundaries_tcu _ _).1]
  omega

theorem deliverDue_friendly (s : State) : (deliverDue s).tcu.lastFriendly = s.tcu.lastFriendly := by
  rw [deliverDue_eq, (deliverBoundaries_tcu _ _).2.2.2.1]

/-- The calendar's part of a tick where the calendar runs (R51, R67, R68). -/
theorem calendarTick_runs {s : State} (h : calendarRuns s.sdm = true) :
    (s.tcu.valid = true → (calendarTick s).tcu.lastDay = max s.tcu.lastDay (dayOf s.tcu.clock)) ∧
      (s.tcu.clock % 60 = 0 → (calendarTick s).tcu.lastFriendly = some (friendlyNow s.tcu)) := by
  unfold calendarTick
  rw [if_pos h]
  refine ⟨fun hv => ?_, fun hm => ?_⟩
  · split
    · rw [deliverDue_tcu _ (by rw [evaluateFriendly_tcu]; exact hv), evaluateFriendly_tcu]
    · exact deliverDue_tcu s hv
  · rw [if_pos (by simp [wholeMinute, hm]), deliverDue_friendly, evaluateFriendly_tcu]

/-- The tick in STARTING: the calendar's part alone, and it only once the calendar's step has been taken (R51). -/
theorem starting_tick (m : Moment) {s : State} (hp : s.sdm.power = .starting) (hb : s.sdm.stepsBegun = true)
    (hc : s.tcu.clock + 1 < 2 ^ 32) :
    ∃ t, exec (.secondTick m) s = .next t ∧ t.tcu.clock = s.tcu.clock + 1 ∧
      (s.sdm.nextStep = .check ∨ s.sdm.nextStep = .catchUp →
        t.tcu.lastDay = s.tcu.lastDay ∧ t.tcu.lastFriendly = s.tcu.lastFriendly ∧ t.acu = s.acu) ∧
      (s.sdm.nextStep ≠ .check → s.sdm.nextStep ≠ .catchUp →
        (s.tcu.valid = true → t.tcu.lastDay = max s.tcu.lastDay ((s.tcu.clock + 1) / 86400)) ∧
        ((s.tcu.clock + 1) % 60 = 0 →
          t.tcu.lastFriendly = some (friendlyNow { s.tcu with clock := s.tcu.clock + 1 }))) := by
  have hobs := observe_running (s := s) m (by simp [resetHeld, hb])
  have hpo : (observe m 0 s).sdm.power ≠ .off := by simp [hobs, hp]
  obtain ⟨c1, -⟩ := tick_counts tickOrder hpo
  have hclock : clockAfterTick (observe m 0 s).tcu.clock = s.tcu.clock + 1 := by rw [hobs]; exact if_pos hc
  have hx := tickParts_besideCalendar (lockoutDue (observe m 0 s)) (penaltyDue (observe m 0 s))
    (ps := [.lockout, .penalty, .stall .p1, .supply, .demand]) (by decide) (countTick (observe m 0 s))
  have hxf := tickParts_frame (lockoutDue (observe m 0 s)) (penaltyDue (observe m 0 s))
    [.lockout, .penalty, .stall .p1, .supply, .demand] (countTick (observe m 0 s))
  have htick := tick_eq tickOrder hpo
  rw [show tickOrder = [TickPart.lockout, .penalty, .stall .p1, .supply, .demand] ++ [.calendar] from rfl,
    List.foldl_append] at htick
  generalize [TickPart.lockout, .penalty, .stall .p1, .supply, .demand].foldl
    (fun t p => tickPart (lockoutDue (observe m 0 s)) (penaltyDue (observe m 0 s)) p t) (countTick (observe m 0 s)) = x
    at hx hxf htick
  have ht : tick tickOrder (observe m 0 s) = calendarTick x := htick
  have hxt : x.tcu = { s.tcu with clock := s.tcu.clock + 1 } := by
    rw [hx.2.1, (countTick_fields _).1, hclock, hobs]
    simp only [hc, decide_true, Bool.and_true]
  have hxa : x.acu = s.acu := by rw [hx.1, hobs]; rfl
  have hxs : x.sdm = s.sdm := by rw [hxf.2.2.2.1, hobs]; rfl
  refine ⟨_, rfl, c1.trans hclock, fun h => ?_, fun h1 h2 => ?_⟩
  · have hno : calendarTick x = x := by
      refine if_neg ?_
      rw [hxs]
      rcases h with h | h <;> simp [calendarRuns, hp, h, working, StartStep.afterCalendar]
    show (tick tickOrder (observe m 0 s)).tcu.lastDay = _ ∧ (tick tickOrder (observe m 0 s)).tcu.lastFriendly = _ ∧
      (tick tickOrder (observe m 0 s)).acu = _
    rw [ht, hno, hxt, hxa]
    exact ⟨rfl, rfl, rfl⟩
  · have hr : calendarRuns x.sdm = true := by
      rw [hxs]
      cases hn : s.sdm.nextStep <;> simp_all [calendarRuns, StartStep.afterCalendar]
    obtain ⟨r1, r2⟩ := calendarTick_runs hr
    rw [← ht, hxt] at r1 r2
    exact ⟨r1, r2⟩

/-! ## The obligation -/

/-- The steps cut short after the check and `n` boundaries, and what a loss of VDD and a fall of RSTN leave of them (R72,
R203). -/
theorem steps_cut_short (m m' : Moment) {s : State} (fell : Bool) (n : Nat) (hp : s.sdm.power = .starting)
    (hs : s.sdm.nextStep = .check) (hv : m.pins.vdd = true) (hr : m.pins.rstn = true) (hpf : m.pins.pfw = true)
    (hb : s.ots.burn = none) (hk : s.sdm.marker = true) (hval : s.tcu.valid = true)
    (hn : s.tcu.lastDay + n ≤ s.tcu.clock / 86400) :
    ∃ t u w, exec (.startUp m ⟨fell, some (n + 1)⟩) s = .next t ∧ t.sdm = ⟨.starting, true, true, .catchUp⟩ ∧
      t.tcu.lastDay = s.tcu.lastDay + n ∧ t.tcu.clock = s.tcu.clock ∧ (n = 0 → t.acu = s.acu) ∧
      (n = 1 → t.acu = s.acu.alarmAfter (s.acu.charge (s.tcu.active.standing * 1000))) ∧ t.ots = s.ots ∧
      t.pending = s.pending ∧
      exec (.vddLost m') t = .next u ∧ exec (.rstnFall m') t = .next w ∧
      (m'.pins.vbat = true → u.sdm = ⟨.battery, true, false, .check⟩ ∧ u.acu = t.acu ∧ u.elg = t.elg ∧
        u.tcu = { t.tcu with lastFriendly := none }) ∧
      w.sdm = ⟨.starting, true, false, .check⟩ ∧ w.acu = t.acu ∧ w.elg = t.elg ∧
      w.tcu = { t.tcu with lastFriendly := none } := by
  obtain ⟨f1, f2, f3, f4, -, -, -, -, f9, -⟩ := startedAt_fields m fell s
  obtain ⟨-, -, opower, omarker, -⟩ := observe_fields m 0 s
  obtain ⟨otcu, -⟩ := observe_keeps m s
  have hexec := exec_startUp (run := ⟨fell, some (n + 1)⟩) hp hv hr hb (.inl hpf)
  have hbegin := takeSteps_begin (s := startedAt m fell s) (n := n) (by rw [f1, opower]; exact hp)
    (by rw [f1]; exact observe_check m hs) (by rw [f2]; exact hb) (.inl (by rw [f1, omarker]; exact hk))
    (by
      rw [f3, otcu]
      have hd : n ≤ dayOf s.tcu.clock - s.tcu.lastDay := by
        unfold dayOf Config.daySeconds
        omega
      simpa [missedDays, hval] using hd)
  generalize hy : (startedAt m fell s).setSdm ⟨.starting, true, true, .catchUp⟩ = y at hbegin
  have hys : y.sdm = ⟨.starting, true, true, .catchUp⟩ ∧ y.acu = s.acu ∧ y.ots = s.ots ∧ y.pending = s.pending ∧
      y.tcu = (observe m 0 s).tcu := by
    rw [← hy]
    exact ⟨rfl, f4, f2, f9, f3⟩
  obtain ⟨ysdm, yacu, yots, ypend, ytcu⟩ := hys
  rw [otcu] at ytcu
  obtain ⟨-, -, -, d4, d5, -, -, d8⟩ := deliverBoundaries_frame n y
  obtain ⟨b1, b2, -⟩ := deliverBoundaries_tcu n y
  rw [ytcu] at b1 b2
  have hacu0 (h : n = 0) : (deliverBoundaries n y).acu = s.acu := by
    subst h
    exact yacu
  have hacu1 (h : n = 1) :
      (deliverBoundaries n y).acu = s.acu.alarmAfter (s.acu.charge (s.tcu.active.standing * 1000)) := by
    subst h
    rw [(deliverBoundaries_fields 0 y).2.1, chargedDays_one, ytcu, yacu]
  have hexec' : exec (.startUp m ⟨fell, some (n + 1)⟩) s = .next (deliverBoundaries n y) :=
    hexec.trans (congrArg Host.Outcome.next hbegin)
  generalize deliverBoundaries n y = t at *
  have hsdm : t.sdm = ⟨.starting, true, true, .catchUp⟩ := d4.trans ysdm
  have hm : mainPowered t.sdm.power = true := by rw [hsdm]; rfl
  obtain ⟨u, hu, hbat⟩ : ∃ u, exec (.vddLost m') t = .next u ∧ (m'.pins.vbat = true → u = enterBattery
      (atMoment { m' with pins := { m'.pins with vdd := false } } t)) := by
    have h := exec_vddLost m' t
    dsimp only at h
    rw [if_pos hm] at h
    split at h
    exacts [⟨_, h, fun _ => rfl⟩, ⟨_, h, fun hvb => absurd hvb ‹_›⟩]
  refine ⟨t, u, _, hexec', hsdm, b1, b2, hacu0, hacu1, d5.trans yots, d8.trans ypend, hu, exec_rstnFall m' hm,
    fun hvb => ?_, ?_⟩
  · rw [hbat hvb]
    refine ⟨?_, rfl, rfl, rfl⟩
    exact congrArg (fun x : Sdm => (⟨.battery, x.marker, false, .check⟩ : Sdm)) hsdm
  · refine ⟨?_, rfl, rfl, rfl⟩
    exact congrArg (fun x : Sdm => (⟨.starting, x.marker, false, .check⟩ : Sdm)) hsdm

/-- Settles O57, by the part that each edge of the supply leaves, the steps cut short, and the tick in STARTING. -/
theorem supplyComesAndGoes : Obligations.SupplyComesAndGoes := by
  refine ⟨fun m s => ?_, fun m s => ?_, fun m s => ?_, fun m m' s fell n hp hs hv hr hpf hb hk hval hn => ?_,
    fun m s hp hb hc => ?_⟩
  · obtain ⟨h1, h2, h3⟩ := exec_vddGood m s
    refine ⟨fun h => (h1 h).trans ?_, fun h => (h2 h).trans rfl, h3⟩
    rw [enterStarting, retentionStart_mainReset]
    rfl
  · have h := exec_vddLost m s
    dsimp only at h
    refine ⟨fun hm hvb => ?_, fun hm hvb hb => ?_, fun hm hvb => ?_, fun hm => ?_⟩
    · rw [h, if_pos hm, if_pos hvb]
      rfl
    · rw [h, if_pos hm, if_neg (by simp [hvb]), enterOff_eq, show (atMoment _ s).ots = s.ots from rfl, burned_of_none hb]
      rfl
    · rw [h, if_pos hm, if_neg (by simp [hvb]), enterOff_eq]
      exact ⟨_, rfl, rfl, burned_burn _, rfl⟩
    · rw [h, if_neg (by simp [hm])]
  · have h := exec_vbatLost m s
    dsimp only at h
    refine ⟨fun hp hb => ?_, fun hp => ?_, fun hp => ?_⟩
    · rw [h, if_pos hp, enterOff_eq, show (atMoment _ s).ots = s.ots from rfl, burned_of_none hb]
      rfl
    · rw [h, if_pos hp, enterOff_eq]
      exact ⟨_, rfl, rfl, burned_burn _, rfl⟩
    · rw [h, if_neg hp]
  · exact steps_cut_short m m' fell n hp hs hv hr hpf hb hk hval hn
  · exact starting_tick m hp hb hc

end Sys2Proof.Machine
end

