-- ==== Sys2Proof/Proofs/StartUpSteps.lean ====
section
/-! What the start-up steps leave, from any of them to their end (R105, R131, R203, R204), and the retention loss that
burns a mark instead (R205). -/

namespace Sys2Proof.Machine

/-! ## The conditions that a step leaves -/

/-- A condition that is handed leaves the condition of every other kind, but for MS and SO, which a change of the switch
can take. -/
theorem hand_condition {j k : Kind} (hj : j ≠ k) (hm : j ≠ .ms) (hs : j ≠ .so) (v : Bool) (p : Option Phase) (s : State) :
    ((hand k v p s).tmp.latches.get j).condition = (s.tmp.latches.get j).condition := by
  obtain ⟨h1, h2, h3⟩ := hand_latches k v p s
  cases hc : (s.tmp.latches.get k).condition <;> cases v
  · rw [h1 hc]
  · have h := ((h3 hc rfl).2 j).2.2 hm hs
    simpa [hj] using h
  · rw [h2 hc rfl]
    simp [hj]
  · rw [h1 hc]

/-- A condition that is handed is held, but for that of a protected-write attempt (R147). -/
theorem hand_condition_self {k : Kind} (hp : k ≠ .pw) (hm : k ≠ .ms) (hs : k ≠ .so) (v : Bool) (p : Option Phase)
    (s : State) : ((hand k v p s).tmp.latches.get k).condition = v := by
  obtain ⟨h1, h2, h3⟩ := hand_latches k v p s
  cases hc : (s.tmp.latches.get k).condition <;> cases v
  · rw [h1 hc]
    exact hc
  · have h := ((h3 hc rfl).2 k).2.2 hm hs
    simp only [Kinds.get_set, if_true] at h
    rw [h]
    unfold risenLatch
    dsimp only
    have hk : (k != .pw) = true := by simpa using hp
    (repeat' split) <;> exact hk
  · rw [h2 hc rfl]
    simp
  · rw [h1 hc]
    exact hc

/-- What the switch does leaves every condition but those of MS and SO. -/
theorem deliverDue_latches (s : State) : s.tmp.SameLatches (deliverDue s).tmp := by
  have hcredit (x : State) : x.tmp.SameLatches (evaluateCredit x).tmp := by
    unfold evaluateCredit
    split
    exacts [changeEntry_latches _ _ _, changeEntry_latches _ _ _, .refl _]
  have hclaim (f : Account → Account) (x : State) : x.tmp.SameLatches (claim f x).tmp := by
    by_cases h : (f x.acu).state = x.acu.state
    · refine .of_eq ?_
      simp only [claim, h, if_true]
      split <;> simp
    · obtain ⟨u, hu, -, -, htmp, -⟩ := claim_changed h
      rw [hu, ← htmp]
      exact hcredit u
  have hswitch (x : State) : x.tmp.SameLatches (boundarySwitch x).tmp := by
    unfold boundarySwitch
    dsimp only
    split
    · split
      exacts [changeEntry_latches _ _ _, .refl _]
    · exact .refl _
  have hoverride (d : Nat) (x : State) : x.tmp.SameLatches (boundaryOverride d x).tmp := by
    unfold boundaryOverride
    split
    · split
      exacts [hcredit _, .refl _]
    · exact .refl _
  have hact (d : Nat) (x : State) : (boundaryActivation d x).tmp = x.tmp := by
    unfold boundaryActivation
    split <;> simp
  have hone (x : State) : x.tmp.SameLatches (deliverBoundary x).tmp := by
    unfold deliverBoundary
    dsimp only
    have h1 := hclaim (Account.charge (x.tcu.active.standing * Config.milli)) x
    generalize claim (Account.charge (x.tcu.active.standing * Config.milli)) x = x1 at h1 ⊢
    have h2 := h1.trans (hswitch (x1.setCda { x1.cda with lockoutsToday := 0 }))
    generalize boundarySwitch (x1.setCda { x1.cda with lockoutsToday := 0 }) = x2 at h2 ⊢
    have h3 := h2.trans (hoverride (x.tcu.lastDay + 1) (x2.setTcu { x2.tcu with trimUsed := 0 }))
    simpa [hact] using h3
  have hmany (n : Nat) (x : State) : x.tmp.SameLatches (deliverBoundaries n x).tmp := by
    induction n generalizing x with
    | zero => exact .refl _
    | succ n ih => exact (hone x).trans (ih _)
  rw [deliverDue_eq]
  exact hmany _ _

theorem evaluateFriendly_latches (s : State) : s.tmp.SameLatches (evaluateFriendly s).tmp := by
  unfold evaluateFriendly handFriendly
  dsimp only
  split
  · exact .refl _
  · split
    · split
      exacts [.refl _, changeEntry_latches _ _ _]
    · exact .refl _

theorem switchStartUp_latches (s : State) : s.tmp.SameLatches (switchStartUp s).tmp := by
  unfold switchStartUp
  dsimp only
  split
  exacts [beginOperation_latches _ _, beginOperation_latches _ _, enterSwitch_latches _ _]

/-- The kinds whose condition no start-up step after the acceptor's can change: all but RV, MS and SO. -/
def Kind.StepKept (k : Kind) : Prop := k ≠ .rv ∧ k ≠ .ms ∧ k ≠ .so

theorem pulseStartUp_condition {k : Kind} (h : k.StepKept) (s : State) :
    ((pulseStartUp s).tmp.latches.get k).condition = (s.tmp.latches.get k).condition := by
  obtain ⟨h1, h2, h3⟩ := h
  unfold pulseStartUp
  dsimp only
  rw [hand_condition h1 h2 h3, hand_condition h2 h2 h3]

theorem tamperStartUp_condition {k : Kind} (h : k.StepKept) (s : State) :
    ((tamperStartUp s).tmp.latches.get k).condition = (s.tmp.latches.get k).condition := by
  obtain ⟨-, h2, h3⟩ := h
  have he := ((evaluateTamper_latches (s.setTmp { s.tmp with runDue := s.now })).2 k).2.2 h2 h3
  unfold tamperStartUp
  dsimp only
  split
  · rw [(notify_frame _ _).2.2.2.2.2.2.2.2.2.2.1]
    exact he
  · exact he

/-! ## From a step to the end -/

/-- The power state that the end of the steps gives (R200, R203). -/
def endPower (p : Levels) : PowerState := if p.pfw then .run else .holdup

/-- What the rest of the steps leaves of a part past its catch-up: the power state, the marker, the account and the
calendar, and what earlier steps gave. -/
structure StepsEnd (x t : State) : Prop where
  sdm : t.sdm = ⟨endPower x.pins, x.sdm.marker, false, .check⟩
  tcu : t.tcu = x.tcu
  acu : t.acu = x.acu
  ots : t.ots = x.ots
  lnk : t.lnk = x.lnk
  pending : t.pending = x.pending
  settled : Settled x t

/-- A step before the rest. -/
theorem StepsEnd.after {x y t : State} (h : StepsEnd y t) (hp : y.pins = x.pins) (hm : y.sdm.marker = x.sdm.marker)
    (ht : y.tcu = x.tcu) (ha : y.acu = x.acu) (ho : y.ots = x.ots) (hl : y.lnk = x.lnk) (hq : y.pending = x.pending)
    (hs : Settled x y) : StepsEnd x t :=
  ⟨by rw [h.sdm, hp, hm], h.tcu.trans ht, h.acu.trans ha, h.ots.trans ho, h.lnk.trans hl, h.pending.trans hq,
    hs.trans h.settled⟩

theorem endSteps_eq (s : State) :
    endSteps s =
      if s.pins.pfw then s.setSdm ⟨.run, s.sdm.marker, false, .check⟩
      else acceptorHoldup (s.setSdm ⟨.holdup, s.sdm.marker, false, .check⟩) := by
  unfold endSteps enterHoldup setPower
  rfl

theorem endSteps_end (s : State) : StepsEnd s (endSteps s) := by
  refine ⟨?_, by simp, by simp, by simp, by simp, by simp, .of_eq (by simp) (by simp)⟩
  rw [endSteps_eq, endPower]
  split
  · rfl
  · rw [acceptorHoldup_eq]
    rfl

/-- What the acceptor's state is after its start-up step (R105). -/
def startedAcceptor (x : Cda) : AcceptorState :=
  if x.retired then .retired else if 0 < x.lockoutLeft then .lockout else .idle

/-- An acceptor's state that its start-up step can give stays, in RUN and in HOLDUP (R104). -/
theorem endSteps_acceptor {s : State} {x : Cda} (h : s.cda.acceptor = startedAcceptor x) :
    (endSteps s).cda.acceptor = startedAcceptor x ∧ (endSteps s).cda.retired = s.cda.retired := by
  rw [endSteps_eq]
  split
  · exact ⟨h, rfl⟩
  · rw [acceptorHoldup_eq]
    refine ⟨?_, rfl⟩
    show (if s.cda.acceptor = .lockout ∨ s.cda.acceptor = .retired then s.cda.acceptor else .idle) = _
    rw [h]
    unfold startedAcceptor
    cases x.retired <;> by_cases hl : 0 < x.lockoutLeft <;> simp [hl]

theorem stepsFrom_tamper (s : State) : StepsEnd s (stepsFrom .tamper s) :=
  (endSteps_end (tamperStartUp s)).after (by simp) (by simp) (by simp) (by simp) (by simp) (by simp) (by simp)
    (tamperStartUp_settled s).1

theorem setStep_settled (x : StartStep) (s : State) : Settled s (setStep x s) := .of_eq rfl rfl

theorem stepsFrom_pulse (s : State) : StepsEnd s (stepsFrom .pulse s) :=
  (stepsFrom_tamper (setStep .tamper (pulseStartUp s))).after (by simp) (by simp [setStep_sdm]) (by simp) (by simp)
    (by simp) (by simp) (by simp) ((pulseStartUp_gives s).2.1.trans (setStep_settled _ _))

theorem stepsFrom_acceptor (s : State) : StepsEnd s (stepsFrom .acceptor s) :=
  (stepsFrom_pulse (setStep .pulse (acceptorStartUp s))).after (by simp) (by simp [setStep_sdm]) (by simp) (by simp)
    (by simp) (by simp) (by simp) ((acceptorStartUp_gives s).2.2.trans (setStep_settled _ _))

/-- The steps from VERIFY leave its verification and a switch out of VERIFY (R131). -/
theorem stepsFrom_verify (s : State) :
    let t := stepsFrom .verify s
    t.sdm = ⟨endPower s.pins, s.sdm.marker, false, .check⟩ ∧ t.tcu = s.tcu ∧ t.acu = s.acu ∧ t.ots = s.ots ∧
      t.lnk = s.lnk ∧ t.pending = s.pending ∧
      t.swc.lastVerification = some ⟨foundOf s.pins, outOfPlace s.pins (!s.pins.aux)⟩ ∧ t.swc.switch ≠ .verify := by
  have h := stepsFrom_acceptor (setStep .acceptor (switchStartUp s))
  obtain ⟨hv, hs⟩ := switchStartUp_verifies s
  obtain ⟨k1, k2, -⟩ := h.settled
  refine ⟨h.sdm.trans (by simp [setStep_sdm]), h.tcu.trans (by simp), h.acu.trans (by simp),
    h.ots.trans (by simp), h.lnk.trans (by simp), h.pending.trans (by simp), ?_, ?_⟩
  · exact k1.trans (by simpa using hv)
  · exact k2 (by simpa using hs)

/-- The pulse unit's step and the rest leave MS fallen, and the other conditions and the acceptor's state as they were. -/
theorem stepsFrom_pulse_gives (s : State) :
    (stepsFrom .pulse s).tmp.latches.ms.condition = false ∧
      (∀ k, k.StepKept → ((stepsFrom .pulse s).tmp.latches.get k).condition = (s.tmp.latches.get k).condition) ∧
      ∀ x : Cda, s.cda.acceptor = startedAcceptor x →
        (stepsFrom .pulse s).cda.acceptor = startedAcceptor x ∧ (stepsFrom .pulse s).cda.retired = s.cda.retired := by
  obtain ⟨hms, -, -⟩ := pulseStartUp_gives s
  refine ⟨?_, fun k hk => ?_, fun x hx => ?_⟩
  · exact (stepsFrom_tamper (setStep .tamper (pulseStartUp s))).settled.2.2 (by simpa using hms)
  · have hend (y : State) : (endSteps y).tmp = y.tmp := by simp
    show ((endSteps (tamperStartUp (setStep .tamper (pulseStartUp s)))).tmp.latches.get k).condition = _
    rw [hend, tamperStartUp_condition hk]
    exact pulseStartUp_condition hk s
  · have h := endSteps_acceptor (s := tamperStartUp (setStep .tamper (pulseStartUp s))) (x := x) (by simpa using hx)
    exact ⟨h.1, h.2.trans (by simp)⟩

/-- The acceptor's step and the rest (R105). -/
theorem stepsFrom_acceptor_gives (s : State) :
    (stepsFrom .acceptor s).cda.acceptor = startedAcceptor s.cda ∧
      (stepsFrom .acceptor s).cda.retired = s.cda.retired ∧
      (stepsFrom .acceptor s).tmp.latches.ca.condition = decide (0 < s.cda.lockoutLeft) ∧
      (stepsFrom .acceptor s).tmp.latches.ms.condition = false ∧
      ∀ k, k ≠ .ca → k.StepKept →
        ((stepsFrom .acceptor s).tmp.latches.get k).condition = (s.tmp.latches.get k).condition := by
  obtain ⟨hcda, hca, -⟩ := acceptorStartUp_gives s
  obtain ⟨h1, h2, h3⟩ := stepsFrom_pulse_gives (setStep .pulse (acceptorStartUp s))
  obtain ⟨a1, a2⟩ := h3 s.cda (by rw [(setStep_frame _ _).2.2.2.2.2.2.2.1, hcda]; rfl)
  refine ⟨a1, a2.trans ?_, (h2 .ca ⟨by decide, by decide, by decide⟩).trans ?_, h1, fun k hk hs => (h2 k hs).trans ?_⟩
  · rw [(setStep_frame _ _).2.2.2.2.2.2.2.1, hcda]
  · exact hca
  · exact hand_condition hk hs.2.1 hs.2.2 _ _ (s.setCda _)

/-- The switch's step leaves the acceptor. -/
theorem stepsFrom_verify_gives (s : State) :
    (stepsFrom .verify s).cda.acceptor = startedAcceptor s.cda ∧
      (stepsFrom .verify s).cda.retired = s.cda.retired ∧
      (stepsFrom .verify s).tmp.latches.ca.condition = decide (0 < s.cda.lockoutLeft) ∧
      (stepsFrom .verify s).tmp.latches.ms.condition = false ∧
      ∀ k, k ≠ .ca → k.StepKept →
        ((stepsFrom .verify s).tmp.latches.get k).condition = (s.tmp.latches.get k).condition := by
  obtain ⟨h1, h2, h3, h4, h5⟩ := stepsFrom_acceptor_gives (setStep .acceptor (switchStartUp s))
  have hcda : (setStep .acceptor (switchStartUp s)).cda = s.cda := by simp
  rw [hcda] at h1 h2 h3
  exact ⟨h1, h2, h3, h4, fun k hk hs => (h5 k hk hs).trans (((switchStartUp_latches s).2 k).2.2 hs.2.1 hs.2.2)⟩

/-- What the catch-up's step leaves (R67, R72). -/
theorem caughtUp_fields (s : State) :
    let y := setStep .verify (evaluateFriendly (deliverDue s))
    y.tcu.lastFriendly = some (friendlyNow y.tcu) ∧ y.tcu.clock = s.tcu.clock ∧
      (s.tcu.valid = true → y.tcu.lastDay = max s.tcu.lastDay (dayOf s.tcu.clock)) ∧
      (s.tcu.valid = false → y.tcu.lastDay = s.tcu.lastDay ∧ y.acu = s.acu) ∧
      y.pins = s.pins ∧ y.sdm.marker = s.sdm.marker ∧ y.ots = s.ots ∧ y.lnk = s.lnk ∧ y.pending = s.pending ∧
      AcceptorKept s.cda y.cda ∧ y.cda.lockoutLeft = s.cda.lockoutLeft ∧ y.cda.retired = s.cda.retired ∧
      ∀ k, k.StepKept → (y.tmp.latches.get k).condition = (s.tmp.latches.get k).condition := by
  intro y
  have htcu : y.tcu = { (deliverDue s).tcu with lastFriendly := some (friendlyNow (deliverDue s).tcu) } :=
    evaluateFriendly_tcu _
  have hcda : y.cda = (deliverDue s).cda := by simp [y]
  have hl := (deliverDue_latches s).trans (evaluateFriendly_latches _)
  refine ⟨by rw [htcu]; rfl, ?_, fun hv => ?_, fun hv => ?_, by simp [y], by simp [y, setStep_sdm], by simp [y],
    by simp [y], by simp [y], by rw [hcda]; exact deliverDue_acceptorKept s, ?_, ?_, fun k hk => ?_⟩
  · rw [htcu, deliverDue_eq]
    exact (deliverBoundaries_tcu _ _).2.1
  · rw [htcu]
    exact deliverDue_tcu s hv
  · have hd : deliverDue s = s := by simp [deliverDue, hv]
    rw [htcu, hd]
    refine ⟨rfl, ?_⟩
    have : y.acu = (deliverDue s).acu := by simp [y]
    rw [this, hd]
  · obtain ⟨_, _, _, _, h⟩ := deliverDue_acceptorKept s
    rw [hcda, h]
  · obtain ⟨_, _, _, _, h⟩ := deliverDue_acceptorKept s
    rw [hcda, h]
  · exact (hl.2 k).2.2 hk.2.1 hk.2.2

end Sys2Proof.Machine
end

