-- ==== Sys2Proof/Proofs/StartUps.lean ====
section
/-! START_UP to its end, from the check or from where it was cut short (R203, R204, R105, R72), and the retention loss
(R205). -/

namespace Sys2Proof.Machine

/-- The steps of an ordinary or a blank start that begin at the check are those from the catch-up on, with the marker
SET. -/
theorem takeSteps_check {s : State} (hp : s.sdm.power = .starting) (hs : s.sdm.nextStep = .check)
    (hb : s.ots.burn = none) (hk : s.sdm.marker = true ∨ s.ots.lock = false) :
    takeSteps (allSteps s) s = stepsFrom .catchUp (s.setSdm ⟨.starting, true, true, .catchUp⟩) := by
  rw [takeSteps_all hp hs hb hk, hp]
  rfl

/-- The steps from the catch-up on (R72, R131, R105). -/
theorem stepsFrom_catchUp (s : State) :
    let t := stepsFrom .catchUp s
    t.sdm = ⟨endPower s.pins, s.sdm.marker, false, .check⟩ ∧ t.tcu.clock = s.tcu.clock ∧ t.ots = s.ots ∧
      t.lnk = s.lnk ∧ t.pending = s.pending ∧ t.tcu.lastFriendly = some (friendlyNow t.tcu) ∧
      (s.tcu.valid = true → t.tcu.lastDay = max s.tcu.lastDay (dayOf s.tcu.clock)) ∧
      (s.tcu.valid = false → t.tcu.lastDay = s.tcu.lastDay ∧ t.acu = s.acu) ∧
      t.swc.lastVerification = some ⟨foundOf s.pins, outOfPlace s.pins (!s.pins.aux)⟩ ∧ t.swc.switch ≠ .verify ∧
      t.cda.acceptor = startedAcceptor s.cda ∧ t.cda.retired = s.cda.retired ∧
      t.tmp.latches.ca.condition = decide (0 < s.cda.lockoutLeft) ∧ t.tmp.latches.ms.condition = false ∧
      ∀ k, k ≠ .ca → k.StepKept → (t.tmp.latches.get k).condition = (s.tmp.latches.get k).condition := by
  obtain ⟨c1, c2, c3, c4, c5, c6, c7, c8, c9, -, c11, c12, c13⟩ := caughtUp_fields s
  obtain ⟨v1, v2, v3, v4, v5, v6, v7, v8⟩ := stepsFrom_verify (setStep .verify (evaluateFriendly (deliverDue s)))
  obtain ⟨g1, g2, g3, g4, g5⟩ := stepsFrom_verify_gives (setStep .verify (evaluateFriendly (deliverDue s)))
  have ht : stepsFrom .catchUp s = stepsFrom .verify (setStep .verify (evaluateFriendly (deliverDue s))) := rfl
  dsimp only
  rw [ht]
  generalize setStep .verify (evaluateFriendly (deliverDue s)) = y at *
  refine ⟨by rw [v1, c5, c6], by rw [v2, c2], v4.trans c7, v5.trans c8, v6.trans c9, by rw [v2, c1], fun hv => by rw [v2, c3 hv],
    fun hv => ⟨by rw [v2, (c4 hv).1], v3.trans (c4 hv).2⟩, by rw [v7, c5], v8, g1.trans ?_, g2.trans c12,
    by rw [g3, c11], g4, fun k hk hs => (g5 k hk hs).trans (c13 k hs)⟩
  unfold startedAcceptor
  rw [c11, c12]

/-- The steps from any of them on, past the check (table of R203). -/
theorem stepsFrom_gives {x : StartStep} (hx : x ≠ .check) (s : State) :
    let t := stepsFrom x s
    (t.sdm = ⟨endPower s.pins, s.sdm.marker, false, .check⟩ ∧ t.tcu.clock = s.tcu.clock ∧ t.ots = s.ots ∧
      t.lnk = s.lnk ∧ t.pending = s.pending) ∧
    (x = .catchUp → t.tcu.lastFriendly = some (friendlyNow t.tcu) ∧
      (s.tcu.valid = true → t.tcu.lastDay = max s.tcu.lastDay (dayOf s.tcu.clock)) ∧
      (s.tcu.valid = false → t.tcu.lastDay = s.tcu.lastDay ∧ t.acu = s.acu)) ∧
    (x ≠ .catchUp → t.tcu = s.tcu ∧ t.acu = s.acu) ∧
    (x = .catchUp ∨ x = .verify →
      t.swc.lastVerification = some ⟨foundOf s.pins, outOfPlace s.pins (!s.pins.aux)⟩ ∧ t.swc.switch ≠ .verify) ∧
    (x ≠ .catchUp → x ≠ .verify → t.swc.lastVerification = s.swc.lastVerification) ∧
    (x = .catchUp ∨ x = .verify ∨ x = .acceptor →
      t.cda.acceptor = startedAcceptor s.cda ∧ t.tmp.latches.ca.condition = decide (0 < s.cda.lockoutLeft)) ∧
    (x ≠ .tamper → t.tmp.latches.ms.condition = false) := by
  have hend {t : State} (h : StepsEnd s t) : t.sdm = ⟨endPower s.pins, s.sdm.marker, false, .check⟩ ∧
      t.tcu.clock = s.tcu.clock ∧ t.ots = s.ots ∧ t.lnk = s.lnk ∧ t.pending = s.pending :=
    ⟨h.sdm, by rw [h.tcu], h.ots, h.lnk, h.pending⟩
  cases x
  case check => exact absurd rfl hx
  case catchUp =>
    obtain ⟨e1, e2, e3, e4, e5, e6, e7, e8, e9, e10, e11, -, e13, e14, -⟩ := stepsFrom_catchUp s
    exact ⟨⟨e1, e2, e3, e4, e5⟩, fun _ => ⟨e6, e7, e8⟩, fun h => absurd rfl h, fun _ => ⟨e9, e10⟩, fun h => absurd rfl h,
      fun _ => ⟨e11, e13⟩, fun _ => e14⟩
  case verify =>
    obtain ⟨v1, v2, v3, v4, v5, v6, v7, v8⟩ := stepsFrom_verify s
    obtain ⟨g1, -, g3, g4, -⟩ := stepsFrom_verify_gives s
    exact ⟨⟨v1, by rw [v2], v4, v5, v6⟩, by simp, fun _ => ⟨v2, v3⟩, fun _ => ⟨v7, v8⟩, fun _ h => absurd rfl h,
      fun _ => ⟨g1, g3⟩, fun _ => g4⟩
  case acceptor =>
    have h := stepsFrom_acceptor s
    obtain ⟨g1, -, g3, g4, -⟩ := stepsFrom_acceptor_gives s
    exact ⟨hend h, by simp, fun _ => ⟨h.tcu, h.acu⟩, by simp, fun _ _ => h.settled.1, fun _ => ⟨g1, g3⟩, fun _ => g4⟩
  case pulse =>
    have h := stepsFrom_pulse s
    exact ⟨hend h, by simp, fun _ => ⟨h.tcu, h.acu⟩, by simp, fun _ _ => h.settled.1, by simp,
      fun _ => (stepsFrom_pulse_gives s).1⟩
  case tamper =>
    have h := stepsFrom_tamper s
    exact ⟨hend h, by simp, fun _ => ⟨h.tcu, h.acu⟩, by simp, fun _ _ => h.settled.1, by simp, fun k => absurd rfl k⟩

/-- What START_UP's moment leaves for its steps: the pins, but for a PFW that fell, and the KEEP items. -/
theorem startedAt_steps (m : Moment) (fell : Bool) (s : State) :
    foundOf (startedAt m fell s).pins = foundOf m.pins ∧
      outOfPlace (startedAt m fell s).pins (!(startedAt m fell s).pins.aux) = outOfPlace m.pins (!m.pins.aux) ∧
      endPower (startedAt m fell s).pins = (if fell = true ∨ m.pins.pfw = false then .holdup else .run) ∧
      startedAcceptor (startedAt m fell s).cda = startedAcceptor s.cda ∧
      (startedAt m fell s).cda.lockoutLeft = s.cda.lockoutLeft := by
  obtain ⟨-, -, -, -, hcda, -, -, -, -, hpins⟩ := startedAt_fields m fell s
  obtain ⟨hrun, hheld⟩ := aMomentPasses m s
  have hc : startedAcceptor (observe m 0 s).cda = startedAcceptor s.cda ∧
      (observe m 0 s).cda.lockoutLeft = s.cda.lockoutLeft := by
    cases hr : resetHeld s
    · rw [hrun hr]
      exact ⟨rfl, rfl⟩
    · rw [hheld hr]
      exact ⟨rfl, rfl⟩
  rw [hcda, hpins]
  refine ⟨?_, ?_, ?_, hc⟩
  · cases fell <;> rfl
  · cases fell <;> rfl
  · cases fell <;> cases h : m.pins.pfw <;> simp [endPower, h]

/-- Settles O59, by the steps in their order, from the check or from where they stand. -/
theorem startUpEntersRun : Obligations.StartUpEntersRun := by
  intro m s fell hp hv hr hb
  obtain ⟨p1, p2, p3, p4, p5⟩ := startedAt_steps m fell s
  obtain ⟨f1, f2, f3, f4, f5, f6, f7, f8, f9, -⟩ := startedAt_fields m fell s
  obtain ⟨-, -, opower, omarker, -⟩ := observe_fields m 0 s
  obtain ⟨otcu, -⟩ := observe_keeps m s
  have hclock : (startedAt m fell s).tcu.clock = s.tcu.clock := by rw [f3, otcu]
  have hvalid : (startedAt m fell s).tcu.valid = s.tcu.valid := by rw [f3, otcu]
  have hday : (startedAt m fell s).tcu.lastDay = s.tcu.lastDay := by rw [f3, otcu]
  refine ⟨fun hs hpf hk => ?_, fun hs hbegun => ?_⟩
  · have hexec := exec_startUp (run := ⟨fell, none⟩) hp hv hr hb (.inl hpf)
    have hsteps := takeSteps_check (s := startedAt m fell s) (by rw [f1, opower, hp]) (by rw [f1]; exact observe_check m hs)
      (by rw [f2, hb]) (by rw [f1, omarker, f2]; exact hk)
    obtain ⟨e1, e2, e3, e4, e5, e6, e7, e8, e9, e10, e11, -, e13, e14, -⟩ :=
      stepsFrom_catchUp ((startedAt m fell s).setSdm ⟨.starting, true, true, .catchUp⟩)
    have hexec' := hexec.trans (congrArg Host.Outcome.next hsteps)
    generalize stepsFrom .catchUp ((startedAt m fell s).setSdm ⟨.starting, true, true, .catchUp⟩) = t at *
    simp only [State.setSdm_fields] at e1 e2 e3 e4 e5 e7 e8 e9 e11 e13
    rw [hclock, hday, hvalid] at e7
    rw [hvalid, hday, f4] at e8
    refine ⟨t, hexec', ⟨by rw [e1], by rw [e1], e2.trans hclock, e3.trans f2, e4.trans f8, e5.trans f9⟩, ⟨e6, e7, e8⟩,
      ?_, by rw [e1], e10, by rw [e9, p1, p2], ⟨e11.trans p4, by rw [e13, p5]⟩, e14⟩
    rw [e1, p3]
    cases fell <;> simp [hpf]
  · have hobs := observe_running (s := s) m (by simp [resetHeld, hbegun])
    have hbegun' : (observe m 0 s).sdm.stepsBegun = true := by rw [hobs]; exact hbegun
    have hstep : (startedAt m fell s).sdm.nextStep = s.sdm.nextStep := by rw [f1, hobs]
    have hexec := exec_startUp (run := ⟨fell, none⟩) hp hv hr hb (.inr hbegun')
    have hsteps := takeSteps_resumed (s := startedAt m fell s) (by rw [f1, opower, hp]) (by rw [f2, hb])
      (by rw [hstep]; exact hs)
    rw [hstep] at hsteps
    have hexec' := hexec.trans (congrArg Host.Outcome.next hsteps)
    obtain ⟨⟨e1, e2, e3, e4, e5⟩, e6, e7, e8, e9, e10, e11⟩ := stepsFrom_gives hs (startedAt m fell s)
    generalize stepsFrom s.sdm.nextStep (startedAt m fell s) = t at *
    rw [hclock, hday, hvalid, f4] at e6
    rw [f3, hobs, f4] at e7
    rw [p1, p2] at e8
    rw [f6, hobs] at e9
    rw [p4, p5] at e10
    exact ⟨t, hexec', ⟨by rw [e1], by rw [e1], e2.trans hclock, e3.trans f2, e4.trans f8, e5.trans f9⟩, by rw [e1, p3],
      by rw [e1, f1, omarker], e6, e7, e8, e9, e10, e11⟩

/-! ## The retention loss -/

/-- A retention loss burns its mark and waits (R204, R205). -/
theorem takeSteps_loss {s : State} {n : Nat} (hp : s.sdm.power = .starting) (hs : s.sdm.nextStep = .check)
    (hb : s.ots.burn = none) (hm : s.sdm.marker = false) (hl : s.ots.lock = true) (hc : s.ots.lossCount < 16) :
    takeSteps (n + 1) s = beginBurn .lossMark (setStep .check s) := by
  have hbn : lossBurning s = false := by simp [lossBurning, hb]
  have hstep : takeStep s = beginBurn .lossMark (setStep .check s) := by
    simp [takeStep, hs, checkStep, startUpKind, hm, hl, Config.lossMarks, hc]
  have hwait (k : Nat) : takeSteps k (beginBurn .lossMark (setStep .check s)) = beginBurn .lossMark (setStep .check s) := by
    cases k with
    | zero => rfl
    | succ k => exact if_neg fun h => absurd h.2 (by simp [lossBurning, beginBurn])
  rw [takeSteps_succ hp hbn, hstep, hwait]

/-- The steps from the catch-up to their end, taken one by one (table of R203). -/
theorem takeSteps_fromCatchUp {s : State} (hp : s.sdm.power = .starting) (hs : s.sdm.nextStep = .catchUp)
    (hb : s.ots.burn = none) : takeSteps (missedDays s.tcu + 5) s = stepsFrom .catchUp s := by
  have burning {t : State} (ht : t.ots = s.ots) : lossBurning t = false := by simp [lossBurning, ht, hb]
  have hlast : takeStep (deliverDue s) = setStep .verify (evaluateFriendly (deliverDue s)) := by
    simp [takeStep, catchUpStep, missedDays_deliverDue, hs]
  rw [takeSteps_catchUp hp (burning rfl) hs le_rfl, ← deliverDue_eq,
    takeSteps_succ (by simpa using hp) (burning (by simp)), hlast,
    takeSteps_succ (by simpa [setStep_sdm] using hp) (burning (by simp)), takeStep, setStep_sdm,
    takeSteps_succ (by simpa [setStep_sdm] using hp) (burning (by simp)), takeStep, setStep_sdm,
    takeSteps_succ (by simpa [setStep_sdm] using hp) (burning (by simp)), takeStep, setStep_sdm,
    takeSteps_succ (by simpa [setStep_sdm] using hp) (burning (by simp)), takeStep, setStep_sdm]
  rfl

/-- A retirement goes on at once to the catch-up (R204). -/
theorem takeSteps_retire {s : State} (hp : s.sdm.power = .starting) (hs : s.sdm.nextStep = .check)
    (hb : s.ots.burn = none) (hm : s.sdm.marker = false) (hl : s.ots.lock = true) (hc : s.ots.lossCount = 16) :
    takeSteps (allSteps s) s = stepsFrom .catchUp (setStep .catchUp (retire s)) := by
  have hbn : lossBurning s = false := by simp [lossBurning, hb]
  have hstep : takeStep s = setStep .catchUp (retire s) := by
    simp [takeStep, hs, checkStep, startUpKind, hm, hl, Config.lossMarks, hc]
  have hsdm : (retire s).sdm = { s.sdm with marker := true } := by simp [retire]
  have htcu : (setStep .catchUp (retire s)).tcu = s.tcu := by simp [retire]
  rw [allSteps, takeSteps_succ hp hbn, hstep, ← htcu]
  exact takeSteps_fromCatchUp (by simp [setStep_sdm, hsdm, hp]) rfl (by simpa [retire] using hb)

/-- The event at a loss mark's end hands RL to a part whose mark is burned (R205). -/
theorem lossEvent_eq (s : State) :
    ∃ x, lossEvent s = hand .rl true none x ∧ x.ots = s.ots.burned ∧ x.sdm = { s.sdm with marker := true } ∧
      x.cda.reinstate = true ∧ x.tmp = s.tmp ∧ x.elg = s.elg ∧ x.acu = s.acu ∧ x.tcu = s.tcu ∧ x.piu = s.piu :=
  ⟨_, rfl, rfl, rfl, rfl, rfl, rfl, rfl, rfl, rfl⟩

/-- What the event at a loss mark's end leaves beside the RL latch (R205). -/
theorem lossEvent_fields (s : State) :
    (lossEvent s).ots = s.ots.burned ∧ (lossEvent s).sdm.power = s.sdm.power ∧ (lossEvent s).sdm.marker = true ∧
      (lossEvent s).cda.reinstate = true ∧ (lossEvent s).tmp.latches.rl.condition = true ∧
      (lossEvent s).acu = s.acu ∧ (lossEvent s).tcu = s.tcu ∧ (lossEvent s).pending = s.pending := by
  obtain ⟨x, hx, hots, hsdm, hre, -⟩ := lossEvent_eq s
  have hcond : (hand .rl true none x).tmp.latches.rl.condition = true :=
    hand_condition_self (k := .rl) (by decide) (by decide) (by decide) true none x
  have hsdm' : (lossEvent s).sdm = { s.sdm with marker := true } := by rw [hx]; simpa using hsdm
  exact ⟨by rw [hx]; simpa using hots, by rw [hsdm'], by rw [hsdm'], by rw [hx]; simpa using hre,
    by rw [hx]; exact hcond, by simp, by simp, by simp⟩

theorem latch_eq {x y : Latch} (hc : x.condition = y.condition) (hs : x.set = y.set) (hr : x.repeats = y.repeats) :
    x = y := by
  cases x
  cases y
  cases hc
  cases hs
  cases hr
  rfl

/-- An inactive condition that is handed active rises. -/
theorem hand_rises {k : Kind} {p : Option Phase} {s : State} (h : (s.tmp.latches.get k).condition = false) :
    hand k true p s = rise k p s := by
  simp [hand, h]

/-- What the event at a loss mark's end leaves of the latches and the log (R149, R150, R205). -/
theorem lossEvent_latches (s : State) :
    let u := lossEvent s
    let rl := s.tmp.latches.rl
    u.tmp.actions = s.tmp.actions ∧
    (∀ k, k ≠ .rl → (u.tmp.latches.get k).set = (s.tmp.latches.get k).set ∧
      (u.tmp.latches.get k).repeats = (s.tmp.latches.get k).repeats) ∧
    (rl.condition = true → u.tmp.latches = s.tmp.latches ∧ u.elg = s.elg) ∧
    (rl.condition = false →
      (s.tmp.actions.rl = .off → u.tmp.latches.rl = ⟨true, rl.set, rl.repeats⟩ ∧ u.elg = s.elg) ∧
      (s.tmp.actions.rl ≠ .off → rl.set ≠ none →
        u.tmp.latches.rl = ⟨true, rl.set, min 255 (rl.repeats + 1)⟩ ∧ u.elg = s.elg) ∧
      (s.tmp.actions.rl ≠ .off → rl.set = none →
        u.tmp.latches.rl = ⟨true, some ⟨s.tcu.clock, none, s.elg.nextSeq⟩, 0⟩ ∧
        u.elg = s.elg.join (makeRecord .tamperSet (some .rl) none none s))) := by
  obtain ⟨x, hx, -, -, -, htmp, helg, hacu, htcu, hpiu⟩ := lossEvent_eq s
  dsimp only
  rw [hx, ← htmp, ← helg, ← htcu]
  obtain ⟨h1, -, h3⟩ := hand_latches .rl true none x
  cases hc : x.tmp.latches.rl.condition
  · have hl := h3 hc rfl
    have hrl : (hand .rl true none x).tmp.latches.rl = risenLatch .rl none x := by
      obtain ⟨a1, a2, a3⟩ := hl.2 .rl
      have hset := a3 (by decide) (by decide)
      simp only [Kinds.get_set, if_true] at a1 a2 hset
      exact latch_eq hset a1 a2
    have helg' : (hand .rl true none x).elg = _ := (congrArg State.elg (hand_rises (k := .rl) hc)).trans (rise_elg .rl none x)
    have hrec : makeRecord .tamperSet (some .rl) none none x = makeRecord .tamperSet (some .rl) none none s := by
      simp only [makeRecord, hacu, htcu, hpiu, helg]
    rw [helg', hrec, hrl]
    refine ⟨hl.1, fun k hk => ?_, by simp, fun _ => ⟨fun ha => ?_, fun ha hs => ?_, fun ha hs => ?_⟩⟩
    · obtain ⟨a1, a2, -⟩ := hl.2 k
      simpa [hk] using And.intro a1 a2
    · simp [risenLatch, Kinds.get, ha]
    · obtain ⟨y, hy⟩ := Option.ne_none_iff_exists'.mp hs
      simp [risenLatch, Kinds.get, ha, hy]
    · simp [risenLatch, Kinds.get, ha, hs]
  · rw [h1 hc]
    simp

theorem Ots.burned_lossMark {x : Ots} {b : Burn} (hb : x.burn = some b) (hf : b.field = .lossMark) :
    x.burned = { x with lossCount := x.lossCount + 1, burn := none } := by
  simp only [Ots.burned, hb, hf]

/-- LOSS_MARK_BURN_END at or after a loss mark's end, in any power state (R205). -/
theorem exec_lossMarkBurnEnd {m : Moment} {s : State} {b : Burn} (hb : s.ots.burn = some b) (hf : b.field = .lossMark)
    (he : b.ends ≤ s.now + m.elapsed) : exec (.lossMarkBurnEnd m) s = .next (lossEvent (observe m 0 s)) := by
  have hx : exec (.lossMarkBurnEnd m) s = execLossMarkBurnEnd m s := rfl
  have hn := (observe_fields m 0 s).1
  rw [hx]
  simp [execLossMarkBurnEnd, hb, hf, he, hn]

/-- LOSS_MARK_BURN_END with no loss mark's burn that has run out. -/
theorem exec_lossMarkBurnEnd_early {m : Moment} {s : State}
    (h : ¬∃ b, s.ots.burn = some b ∧ b.field = .lossMark ∧ b.ends ≤ s.now + m.elapsed) :
    exec (.lossMarkBurnEnd m) s = .next (observe m 0 s) := by
  have hx : exec (.lossMarkBurnEnd m) s = execLossMarkBurnEnd m s := rfl
  rw [hx]
  cases hb : s.ots.burn with
  | none => simp [execLossMarkBurnEnd, hb]
  | some b =>
    have hb' : ¬(b.field = .lossMark ∧ b.ends ≤ s.now + m.elapsed) := fun k => h ⟨b, hb, k⟩
    simp only [execLossMarkBurnEnd, observe_fields, hb, if_neg hb']

/-- What a moment leaves of the account and the log, which a command of any power state can follow. -/
theorem observe_records (m : Moment) (s : State) :
    (observe m 0 s).acu = s.acu ∧ (observe m 0 s).elg = s.elg ∧ (observe m 0 s).pending = s.pending := by
  obtain ⟨hrun, hheld⟩ := aMomentPasses m s
  cases hr : resetHeld s
  · rw [hrun hr]
    exact ⟨rfl, rfl, rfl⟩
  · rw [hheld hr]
    exact ⟨rfl, rfl, rfl⟩

/-- Settles O60, by the check of a locked part without its marker and the event at a loss mark's end. -/
theorem retentionLossIsBurned : Obligations.RetentionLossIsBurned := by
  refine ⟨fun m m' s fell hp hs hv hr hpf hb hm hl => ⟨fun hc he => ?_, fun hc => ?_⟩, fun m s => ⟨fun h => ?_, fun h => ?_⟩⟩
  · obtain ⟨f1, f2, f3, f4, -, -, -, -, f9, -⟩ := startedAt_fields m fell s
    obtain ⟨otcu, -⟩ := observe_keeps m s
    obtain ⟨-, -, opower, omarker, -⟩ := observe_fields m 0 s
    have hexec := exec_startUp (run := ⟨fell, none⟩) hp hv hr hb (.inl hpf)
    have hsteps := takeSteps_loss (n := missedDays (startedAt m fell s).tcu + 5) (s := startedAt m fell s)
      (by rw [f1, opower, hp]) (by rw [f1]; exact observe_check m hs) (by rw [f2, hb]) (by rw [f1, omarker, hm])
      (by rw [f2, hl]) (by rw [f2]; exact hc)
    have hexec' := hexec.trans (congrArg Host.Outcome.next hsteps)
    have hlater : (beginBurn .lossMark (setStep .check (startedAt m fell s))).now + 5 ≤
        (beginBurn .lossMark (setStep .check (startedAt m fell s))).now + m'.elapsed := by omega
    have hend := exec_lossMarkBurnEnd (m := m') (s := beginBurn .lossMark (setStep .check (startedAt m fell s)))
      rfl rfl hlater
    obtain ⟨l1, l2, l3, l4, l5, l6, l7, l8⟩ :=
      lossEvent_fields (observe m' 0 (beginBurn .lossMark (setStep .check (startedAt m fell s))))
    obtain ⟨acu, -, pending⟩ := observe_records m' (beginBurn .lossMark (setStep .check (startedAt m fell s)))
    obtain ⟨tcu, -⟩ := observe_keeps m' (beginBurn .lossMark (setStep .check (startedAt m fell s)))
    obtain ⟨-, -, -, -, ots⟩ := observe_fields m' 0 (beginBurn .lossMark (setStep .check (startedAt m fell s)))
    have hsdm : (beginBurn .lossMark (setStep .check (startedAt m fell s))).sdm =
        { (startedAt m fell s).sdm with stepsBegun := true, nextStep := .check } := rfl
    have hots : (beginBurn .lossMark (setStep .check (startedAt m fell s))).ots =
        { (startedAt m fell s).ots with burn := some ⟨.lossMark, (startedAt m fell s).now + Config.burnTime⟩ } := rfl
    refine ⟨_, _, hexec', by rw [hsdm]; simp [f1, opower, hp], by rw [hsdm]; simp [f1, omarker, hm], by rw [hots]; simp [f2],
      hend, ?_, l3, l4, l5, ?_, ?_, ?_⟩
    · rw [l1, ots, Ots.burned_lossMark (b := ⟨.lossMark, (startedAt m fell s).now + Config.burnTime⟩) (by rw [hots]) rfl, hots,
        f2, ← hb]
    · rw [l6, acu]
      exact f4
    · rw [l7, tcu]
      show (startedAt m fell s).tcu.clock = _
      rw [f3, otcu]
    · rw [l8, pending]
      exact f9
  · obtain ⟨f1, f2, -, -, -, -, -, -, f9, -⟩ := startedAt_fields m fell s
    obtain ⟨-, -, opower, omarker, -⟩ := observe_fields m 0 s
    obtain ⟨-, -, p3, -⟩ := startedAt_steps m fell s
    have hexec := exec_startUp (run := ⟨fell, none⟩) hp hv hr hb (.inl hpf)
    have hsteps := takeSteps_retire (s := startedAt m fell s) (by rw [f1, opower, hp])
      (by rw [f1]; exact observe_check m hs) (by rw [f2, hb]) (by rw [f1, omarker, hm]) (by rw [f2, hl])
      (by rw [f2]; exact hc)
    have hexec' := hexec.trans (congrArg Host.Outcome.next hsteps)
    obtain ⟨e1, -, e3, -, e5, -, -, -, -, -, e11, e12, -, -, e15⟩ :=
      stepsFrom_catchUp (setStep .catchUp (retire (startedAt m fell s)))
    have hsdm : (retire (startedAt m fell s)).sdm = { (startedAt m fell s).sdm with marker := true } := by simp [retire]
    have hcda : (retire (startedAt m fell s)).cda = { (startedAt m fell s).cda with retired := true } := by simp [retire]
    have hrl : (retire (startedAt m fell s)).tmp.latches.rl.condition = true :=
      hand_condition_self (k := .rl) (by decide) (by decide) (by decide) true none _
    rw [setStep_sdm, hsdm] at e1
    rw [(setStep_frame _ _).2.2.2.2.2.2.2.1, hcda] at e11 e12
    refine ⟨_, hexec', by rw [e1], e12, e11.trans rfl, ?_, e3.trans (by simpa [retire] using f2), ?_,
      e5.trans (by simpa [retire] using f9)⟩
    · have h := e15 .rl (by decide) ⟨by decide, by decide, by decide⟩
      simpa [Kinds.get, hrl] using h
    · rw [e1]
      have hpins : (setStep .catchUp (retire (startedAt m fell s))).pins = (startedAt m fell s).pins := by simp [retire]
      rw [hpins, p3]
      simp [hpf]
  · obtain ⟨b, hb, hf, he⟩ := h
    obtain ⟨l1, l2, l3, l4, l5, l6, l7, l8⟩ := lossEvent_fields (observe m 0 s)
    obtain ⟨k1, k2, k3, k4⟩ := lossEvent_latches (observe m 0 s)
    obtain ⟨tcu, -, -, ⟨-, -, billed, -⟩, latches, actions⟩ := observe_keeps m s
    obtain ⟨-, -, power, -, ots⟩ := observe_fields m 0 s
    obtain ⟨acu, elg, pending⟩ := observe_records m s
    have hclock : (observe m 0 s).tcu.clock = s.tcu.clock := by rw [tcu]
    have hvalid : (observe m 0 s).tcu.valid = s.tcu.valid := by rw [tcu]
    simp only [latches, actions, elg, makeRecord, hclock, hvalid, billed, acu] at k1 k2 k3 k4
    exact ⟨_, exec_lossMarkBurnEnd hb hf he, by rw [l1, ots, Ots.burned_lossMark hb hf], l2.trans power, l3, l4, l5, k1, k2,
      k3, k4, l6.trans acu, by rw [l7, hclock], l8.trans pending⟩
  · exact exec_lossMarkBurnEnd_early h

end Sys2Proof.Machine
end

