-- ==== Sys2Proof/Proofs/Decodes.lean ====
section
/-! The decode (R85, R86), the checks after a match (R91), and a decode that leaves a result alone (R87, R101, R102). -/

namespace Sys2Proof.Machine

/-! ## The slots that are tried -/

theorem natOfDigits_snoc (ds : List (Fin 10)) (d : Fin 10) : natOfDigits (ds ++ [d]) = 10 * natOfDigits ds + d.val := by
  simp [natOfDigits, Nat.mul_comm]

theorem checkOf_eq (w : Code) : checkOf w = BitVec.ofNat 24 (w.toNat % 2 ^ 24) := by
  apply BitVec.eq_of_toNat_eq
  simp [checkOf]

theorem coveredOf_eq (w : Code) : coveredOf w = BitVec.ofNat 52 (w.toNat / 2 ^ 24) := by
  apply BitVec.eq_of_toNat_eq
  simp [coveredOf, Nat.shiftRight_eq_div_pow]

theorem fieldsOf_eq (w : Code) :
    fieldsOf w = ⟨w.toNat / 2 ^ 72, w.toNat / 2 ^ 56 % 2 ^ 16, w.toNat / 2 ^ 32 % 2 ^ 24, w.toNat / 2 ^ 24 % 2 ^ 8⟩ := by
  have hw := w.isLt
  have hc : w.toNat / 2 ^ 72 % 2 ^ 4 = w.toNat / 2 ^ 72 := Nat.mod_eq_of_lt (by omega)
  simp only [fieldsOf, BitVec.extractLsb'_toNat, Nat.shiftRight_eq_div_pow, hc]

/-- A code matches under a key where its check field is the digest of what it covers (section 4.5). -/
theorem unscramble_iff (k : Key) (v : Code) (f : Fields) :
    unscramble k v = some f ↔
      checkOf ((Config.scramble k).symm v) = Config.digest k (coveredOf ((Config.scramble k).symm v)) ∧
        f = fieldsOf ((Config.scramble k).symm v) := by
  simp only [unscramble, Option.ite_none_right_eq_some, Option.some.injEq, eq_comm (a := f)]

/-- The trial of slots in turn, each with its key if it has one (R86). -/
def trial (v : Code) (key : Slot → Option Key) : List Slot → Option (Slot × Fields) × Nat
  | [] => (none, 0)
  | i :: is =>
    if let some f := (key i).bind fun k => unscramble k v then (some (i, f), 1)
    else ((trial v key is).1, (trial v key is).2 + (key i).toList.length)

theorem trial_match {v : Code} {key : Slot → Option Key} {i : Slot} {f : Fields} (is : List Slot)
    (h : ((key i).bind fun k => unscramble k v) = some f) : trial v key (i :: is) = (some (i, f), 1) := by
  simp [trial, h]

theorem trial_no_match {v : Code} {key : Slot → Option Key} {i : Slot} (is : List Slot)
    (h : ((key i).bind fun k => unscramble k v) = none) :
    trial v key (i :: is) = ((trial v key is).1, (trial v key is).2 + (key i).toList.length) := by
  simp [trial, h]

/-- The slots that have a key are those that are tried (R86). -/
theorem trySlots_eq_trial (v : Code) (key : Slot → Option Key) (is : List Slot) :
    trySlots v (is.filterMap fun i => (key i).map fun k => (i, k)) = trial v key is := by
  induction is with
  | nil => rfl
  | cons i is ih =>
    cases hk : key i with
    | none =>
      rw [List.filterMap_cons_none (by simp [hk]), ih, trial_no_match is (by simp [hk])]
      simp [hk]
    | some k =>
      rw [List.filterMap_cons_some (b := (i, k)) (by simp [hk]), trySlots]
      cases hu : unscramble k v with
      | none =>
        rw [trial_no_match is (by simp [hk, hu]), ih]
        simp [hk]
      | some f => rw [trial_match (f := f) is (by simp [hk, hu])]

/-- Where no slot matches each one has been tried. -/
theorem trySlots_all {v : Code} {xs : List (Slot × Key)} (h : (trySlots v xs).1 = none) :
    (trySlots v xs).2 = xs.length := by
  induction xs with
  | nil => rfl
  | cons x xs ih =>
    obtain ⟨i, k⟩ := x
    cases hu : unscramble k v with
    | some f => simp [trySlots, hu] at h
    | none =>
      simp only [trySlots, hu] at h ⊢
      rw [ih h, List.length_cons]

/-- The number of slots that have a key. -/
theorem length_keyed (key : Slot → Option Key) (is : List Slot) :
    (is.filterMap fun i => (key i).map fun k => (i, k)).length = (is.map fun i => (key i).toList.length).sum := by
  induction is with
  | nil => rfl
  | cons i is ih =>
    cases hk : key i with
    | none => rw [List.filterMap_cons_none (by simp [hk]), ih, List.map_cons, List.sum_cons, hk]; simp
    | some k =>
      rw [List.filterMap_cons_some (b := (i, k)) (by simp [hk]), List.length_cons, ih, List.map_cons, List.sum_cons, hk]
      simp [Nat.add_comm]

/-! ## The checks in their order -/

/-- The window test and the checks after it (R91). -/
theorem verdict_window {i : Slot} {f : Fields} {s : State} (hr : ¬(s.cda.reinstate = true ∧ f.cls ≠ 13))
    (h14 : f.cls ≠ 14) (h15 : f.cls ≠ 15) (hm : maskHolds s i f.cls = true)
    (hi : (f.cls = 12 ∨ f.cls = 13) → i = .slot0) :
    (∀ o, windowTest (slotWindow s i) f.seq = some o → verdict i f s = o) ∧
      (windowTest (slotWindow s i) f.seq = none →
        (argumentOk f s = false → verdict i f s = .argument) ∧
        (argumentOk f s = true →
          (∀ o, classCondition f s = some o → verdict i f s = o) ∧
          (classCondition f s = none → verdict i f s = .accepted))) := by
  have h1 : (s.cda.reinstate && f.cls != 13) = false := by
    rw [Bool.eq_false_iff]
    simpa using hr
  have h2 : (f.cls == 14 || f.cls == 15) = false := by simp [h14, h15]
  have h3 : (!maskHolds s i f.cls || ((f.cls == 12 || f.cls == 13) && i != .slot0)) = false := by
    rw [Bool.eq_false_iff]
    simpa [hm] using hi
  unfold verdict
  rw [h1, h2, h3]
  refine ⟨fun o ho => by simp [ho], fun hn => ⟨fun ha => by simp [hn, ha], fun ha => ⟨fun o ho => ?_, fun ho => ?_⟩⟩⟩
  · simp [hn, ha, ho]
  · simp [hn, ha, ho]

theorem verdict_authority {i : Slot} {f : Fields} {s : State} (hr : ¬(s.cda.reinstate = true ∧ f.cls ≠ 13))
    (h14 : f.cls ≠ 14) (h15 : f.cls ≠ 15)
    (h : maskHolds s i f.cls = false ∨ (f.cls = 12 ∨ f.cls = 13) ∧ i ≠ .slot0) : verdict i f s = .authority := by
  have h1 : (s.cda.reinstate && f.cls != 13) = false := by
    rw [Bool.eq_false_iff]
    simpa using hr
  have h2 : (f.cls == 14 || f.cls == 15) = false := by simp [h14, h15]
  have h3 : (!maskHolds s i f.cls || ((f.cls == 12 || f.cls == 13) && i != .slot0)) = true := by simpa using h
  unfold verdict
  rw [h1, h2, h3]
  simp

theorem verdict_classRefused {i : Slot} {f : Fields} {s : State} (hr : ¬(s.cda.reinstate = true ∧ f.cls ≠ 13))
    (h : f.cls = 14 ∨ f.cls = 15) : verdict i f s = .classRefused := by
  have h1 : (s.cda.reinstate && f.cls != 13) = false := by
    rw [Bool.eq_false_iff]
    simpa using hr
  have h2 : (f.cls == 14 || f.cls == 15) = true := by simpa using h
  unfold verdict
  rw [h1, h2]
  simp

/-! ## The end of a decode -/

/-- DECODE_END of a decode whose slots have been tried (R86). -/
theorem exec_decodeEnd {m : Moment} {s : State} {r : Option (Slot × Fields)} {k : Nat}
    (hp : s.sdm.power = .run ∨ s.sdm.power = .holdup) (hd : s.cda.acceptor = .decoding)
    (ht : trySlots (bufferCode s) (enabledSlots s) = (r, k)) (he : s.cda.decodeSince + 10 * k ≤ s.now + m.elapsed) :
    exec (.decodeEnd m) s = .next (finishDecode r (observe m 0 s)) := by
  have hobs := observe_working (s := s) m hp
  have htry : trySlots (bufferCode (observe m 0 s)) (enabledSlots (observe m 0 s)) = (r, k) := by
    rw [hobs]
    exact ht
  have hdone : decodeDone (observe m 0 s) = true := by
    simp only [decodeDone, htry, Bool.and_eq_true, beq_iff_eq, decide_eq_true_eq]
    rw [hobs]
    exact ⟨hd, he⟩
  refine congrArg Host.Outcome.next ((if_pos hdone).trans ?_)
  rw [htry]

/-- The checks do not read what the moment changes. -/
theorem verdict_observe {m : Moment} {s : State} (hp : s.sdm.power = .run ∨ s.sdm.power = .holdup) (i : Slot)
    (f : Fields) : verdict i f (observe m 0 s) = verdict i f s := by
  rw [observe_working m hp]
  rfl

theorem finishDecode_refused {i : Slot} {f : Fields} {s : State} (h : verdict i f s ≠ .accepted) :
    finishDecode (some (i, f)) s = endEntry (writeResult (verdict i f s) (some ⟨f.cls, i, f.seq⟩) none s) := by
  unfold finishDecode
  dsimp only
  split
  · exact absurd ‹_› h
  · rfl

/-- Settles O24, by the trial of the slots in their order and the lines of the table of checks. -/
theorem checksAfterAMatch : Obligations.ChecksAfterAMatch := by
  refine ⟨fun ds d s => ⟨rfl, natOfDigits_snoc ds d, BitVec.toNat_ofNat _ _⟩, fun key v f => ?_, fun s cls _ => ?_,
    fun i f s => ⟨fun ⟨h1, h2⟩ => by simp [verdict, h1, h2], fun hr => ⟨verdict_classRefused hr, fun h14 h15 =>
      ⟨verdict_authority hr h14 h15, verdict_window hr h14 h15⟩⟩⟩, fun m s i f k hp hd ht he hv => ?_⟩
  · dsimp only
    rw [unscramble_iff, checkOf_eq, coveredOf_eq, fieldsOf_eq]
  · intro group key yields tried
    have hkeys : enabledSlots s =
        [Slot.slot3, .slot2, .slot1, .slot0].filterMap fun i => (key i).map fun k => (i, k) := by
      unfold enabledSlots
      congr 1
      funext i
      cases i <;> rfl
    have htried (i : Slot) : tried i = (key i).toList.length := by
      dsimp only [tried]
      cases key i <;> rfl
    refine ⟨?_, ?_, rfl, rfl, rfl, rfl, rfl, rfl, rfl, rfl⟩
    · rw [hkeys, length_keyed]
      simp only [htried, List.map_cons, List.map_nil, List.sum_cons, List.sum_nil]
      omega
    · rw [hkeys, trySlots_eq_trial]
      simp only [htried]
      cases h3 : yields .slot3 with
      | some f => exact trial_match _ h3
      | none =>
        rw [trial_no_match _ h3]
        cases h2 : yields .slot2 with
        | some f => rw [trial_match _ h2, Nat.add_comm]
        | none =>
          rw [trial_no_match _ h2]
          cases h1 : yields .slot1 with
          | some f =>
            rw [trial_match _ h1]
            exact Prod.ext rfl (by dsimp only; omega)
          | none =>
            rw [trial_no_match _ h1]
            cases h0 : yields .slot0 with
            | some f =>
              rw [trial_match _ h0]
              exact Prod.ext rfl (by dsimp only; omega)
            | none =>
              rw [trial_no_match _ h0]
              exact Prod.ext rfl (by simp only [trial]; omega)
  · have hx := exec_decodeEnd hp hd ht he
    have hm : mainPowered (observe m 0 s).sdm.power = true := by
      rw [observe_working m hp]
      exact mainPowered_working hp
    have hv' : verdict i f (observe m 0 s) ≠ .accepted := by rwa [verdict_observe hp]
    rw [hx, finishDecode_refused hv', verdict_observe hp, endEntry_writeResult _ _ _ hm, observe_working m hp]

end Sys2Proof.Machine
end

