-- ==== Sys2Proof/Proofs/AcceptedCodes.lean ====
section
/-! A decode that fails, and the lockout (R87, R88); an accepted code: its window, its streak, and its result (R93, R94);
and CREDIT (R29 to R31). -/

namespace Sys2Proof.Machine

/-! ## Failed decodes -/

/-- A condition that is handed adds at most a record to the log (R150). -/
theorem hand_elg (k : Kind) (v : Bool) (p : Option Phase) (s : State) :
    (hand k v p s).elg = s.elg ∨ ∃ r, (hand k v p s).elg = s.elg.join r := by
  unfold hand
  split
  · exact .inl rfl
  · split
    · rw [rise_elg]
      split
      exacts [.inr ⟨_, rfl⟩, .inl rfl]
    · exact .inl (by simp [fall, setLatch])

/-- A record stays in a log that is not full (R168). -/
theorem Elg.join_records {x : Elg} (r : LogRecord) (h : x.records.length < 32) :
    (x.join r).records = x.records ++ [r] := by
  have h' : x.records.length < Config.logSize := h
  simp [Elg.join, h']

/-- The Code Acceptor at the begin of a lockout (R88, R102). -/
theorem beginLockout_cda (s : State) :
    (beginLockout s).cda =
      { s.cda with
        lockoutLeft := lockoutLength s.cda.lockoutsToday
        lockoutsToday := min 255 (s.cda.lockoutsToday + 1)
        streak := 0
        buffer := []
        entryTimer := none
        acceptor := .lockout
        lastResult := some ⟨.checkFailed, none, s.tcu.clock, some (.failure 5 (lockoutLength s.cda.lockoutsToday))⟩
        resultNumber := numberAfter s.cda.resultNumber } := by
  simp [beginLockout, writeResult, Config.lockoutStreak]

/-- The record of a lockout's begin joins the log (R88, R168). -/
theorem beginLockout_record {s : State} (h : s.elg.records.length ≤ 30) :
    ∃ r ∈ (beginLockout s).elg.records, r.type = .lockoutStart ∧ r.seq = s.elg.nextSeq ∧ r.time = s.tcu.clock ∧
      r.kind = none ∧ r.phase = none ∧ r.code = none := by
  have ⟨x, hx, helg, htcu⟩ : ∃ x, beginLockout s = hand .ca true none (append .lockoutStart none none none x) ∧
      x.elg = s.elg ∧ x.tcu = s.tcu := ⟨_, rfl, by simp, by simp⟩
  have happ : (append .lockoutStart none none none x).elg.records =
      s.elg.records ++ [makeRecord .lockoutStart none none none x] := by
    rw [← helg]
    exact Elg.join_records _ (by rw [helg]; omega)
  refine ⟨makeRecord .lockoutStart none none none x, ?_, rfl, congrArg Elg.nextSeq helg, congrArg Tcu.clock htcu, rfl, rfl,
    rfl⟩
  rw [hx]
  rcases hand_elg .ca true none (append .lockoutStart none none none x) with he | ⟨r, he⟩
  · rw [he, happ]
    simp
  · rw [he, Elg.join_records r (by rw [happ]; simp; omega), happ]
    simp

/-- Settles O19, by the streak: below five the entry ends with its result, at five the lockout begins. -/
theorem failedDecodes : Obligations.FailedDecodes := by
  refine ⟨fun m s hp hd ht he hs => ?_, fun m s hp hd ht he hs => ?_⟩
  · have hx := exec_decodeEnd (m := m) hp hd (Prod.ext ht (trySlots_all ht)) he
    have hobs := observe_working (s := s) m hp
    have hm : mainPowered (observe m 0 s).sdm.power = true := by rw [hobs]; exact mainPowered_working hp
    have hs' : (observe m 0 s).cda.streak + 1 < Config.lockoutStreak := by rw [hobs]; exact hs
    rw [hx]
    simp only [finishDecode, checkFailed, if_pos hs']
    rw [endEntry_writeResult _ _ _ (by exact hm), hobs]
    rfl
  · have hx := exec_decodeEnd (m := m) hp hd (Prod.ext ht (trySlots_all ht)) he
    have hobs := observe_working (s := s) m hp
    have hs' : ¬(observe m 0 s).cda.streak + 1 < Config.lockoutStreak := by
      rw [hobs]
      simp [hs, Config.lockoutStreak]
    have hfin : finishDecode none (observe m 0 s) = beginLockout (observe m 0 s) := by
      simp only [finishDecode, checkFailed, if_neg hs']
    have hcda := beginLockout_cda (observe m 0 s)
    have hca : (beginLockout (observe m 0 s)).tmp.latches.ca.condition = true :=
      hand_condition_self (k := .ca) (by decide) (by decide) (by decide) true none _
    have hrec := beginLockout_record (s := observe m 0 s)
    have hacu : (observe m 0 s).acu = s.acu ∧ (observe m 0 s).tcu = s.tcu ∧ (observe m 0 s).ots = s.ots ∧
        (observe m 0 s).sdm = s.sdm ∧ (observe m 0 s).pending = s.pending ∧ (observe m 0 s).elg = s.elg ∧
        (observe m 0 s).cda.lockoutsToday = s.cda.lockoutsToday ∧ (observe m 0 s).cda.groups = s.cda.groups ∧
        (observe m 0 s).cda.window0 = s.cda.window0 := by
      rw [hobs]
      exact ⟨rfl, rfl, rfl, rfl, rfl, rfl, rfl, rfl, rfl⟩
    obtain ⟨acu, tcu, ots, sdm, pending, elg, today, groups, window0⟩ := hacu
    rw [elg, tcu] at hrec
    rw [tcu, today] at hcda
    refine ⟨_, hx.trans (congrArg Host.Outcome.next hfin), by rw [hcda]; rfl, by rw [hcda], by rw [hcda], by rw [hcda],
      by rw [hcda], by rw [hcda]; rfl, hrec, hca, by rw [hcda]; exact groups, by rw [hcda]; exact window0, by simp,
      by simpa using tcu, by simp, by simpa using sdm, by simp, by simp⟩

/-! ## Accepted codes -/

/-- The part as the effect of an accepted code finds it: the slot's window and the streak stand as R93 and R94 say. -/
def accepting (i : Slot) (f : Fields) (s : State) : State :=
  (setWindow i (windowAccept (slotWindow s i) f.seq) s).setCda
    { (setWindow i (windowAccept (slotWindow s i) f.seq) s).cda with streak := 0 }

/-- The Code Acceptor that an effect finds, beside its windows. -/
theorem accepting_cda (i : Slot) (f : Fields) (s : State) :
    ∃ w g, (accepting i f s).cda = { s.cda with streak := 0, window0 := w, groups := g } := by
  unfold accepting setWindow
  cases i <;> exact ⟨_, _, rfl⟩

/-- An effect finds every block but the Code Acceptor as it was. -/
@[simp] theorem accepting_frame (i : Slot) (f : Fields) (s : State) :
    (accepting i f s).now = s.now ∧ (accepting i f s).pins = s.pins ∧ (accepting i f s).rcbLow = s.rcbLow ∧
      (accepting i f s).sdm = s.sdm ∧ (accepting i f s).ots = s.ots ∧ (accepting i f s).piu = s.piu ∧
      (accepting i f s).acu = s.acu ∧ (accepting i f s).tcu = s.tcu ∧ (accepting i f s).swc = s.swc ∧
      (accepting i f s).tmp = s.tmp ∧ (accepting i f s).elg = s.elg ∧ (accepting i f s).rpu = s.rpu ∧
      (accepting i f s).lnk = s.lnk ∧ (accepting i f s).pending = s.pending := by
  simp [accepting]

/-- A slot's window is read from the Code Acceptor's windows alone. -/
theorem slotWindow_congr {s t : State} (h0 : t.cda.window0 = s.cda.window0) (hg : t.cda.groups = s.cda.groups) (i : Slot) :
    slotWindow t i = slotWindow s i := by
  cases i <;> simp [slotWindow, h0, hg]

/-- The acceptance changes the window of its slot alone (R93). -/
theorem accepting_window (i : Slot) (f : Fields) (s : State) (j : Slot) :
    slotWindow (accepting i f s) j = if j = i then windowAccept (slotWindow s i) f.seq else slotWindow s j := by
  cases i <;> cases j <;> rfl

/-- An accepted code ends its entry with its effect and its result (R94, R101, R102). -/
theorem acceptCode_eq {i : Slot} {f : Fields} {s : State} (hm : mainPowered s.sdm.power = true) :
    let r := applyEffect i f (accepting i f s)
    acceptCode i f s =
      { r.1 with
        cda :=
          { r.1.cda with
            acceptor := .idle
            buffer := []
            entryTimer := none
            lastResult := some ⟨.accepted, some ⟨f.cls, i, f.seq⟩, r.1.tcu.clock, r.2⟩
            resultNumber := if r.1.cda.resultNumber < 255 then r.1.cda.resultNumber + 1 else 1 }
        rpu := { r.1.rpu with notices := r.1.rpu.notices ||| 4 } } := by
  dsimp only
  rw [← endEntry_writeResult _ _ _ (by simpa using hm)]
  rfl

/-- DECODE_END of a code that passes every check (R86, R94). -/
theorem exec_accepted {m : Moment} {s : State} {i : Slot} {f : Fields} {k : Nat}
    (hp : s.sdm.power = .run ∨ s.sdm.power = .holdup) (hd : s.cda.acceptor = .decoding)
    (ht : trySlots (bufferCode s) (enabledSlots s) = (some (i, f), k))
    (he : s.cda.decodeSince + 10 * k ≤ s.now + m.elapsed) (hv : verdict i f s = .accepted) :
    exec (.decodeEnd m) s = .next (acceptCode i f (observe m 0 s)) := by
  have hv' : verdict i f (observe m 0 s) = .accepted := by rwa [verdict_observe hp]
  rw [exec_decodeEnd hp hd ht he]
  simp only [finishDecode, hv']

/-- A code of every class but TIME_SET, KEY_SLOT_DISABLE and REINSTATE leaves the Code Acceptor to R93 and R94. -/
theorem applyEffect_cda {i : Slot} {f : Fields} {s : State} (h11 : f.cls ≠ 11) (h12 : f.cls ≠ 12) (h13 : f.cls ≠ 13) :
    (applyEffect i f s).1.cda = s.cda := by
  unfold applyEffect
  split <;> simp_all

/-- A change of a valid clock leaves the Code Acceptor but for the lockouts of the day (R57, R69). -/
theorem changeClock_cda (c : Nat) (s : State) : AcceptorKept s.cda (changeClock c s).cda := by
  have h := deliverDue_acceptorKept (discardDemand (s.setTcu { s.tcu with clock := c }))
  simpa [changeClock, discardDemand] using h

/-- TIME_SET leaves the Code Acceptor but for the lockouts of the day (R57, R69). -/
theorem effectTimeSet_cda (f : Fields) (s : State) : AcceptorKept s.cda (effectTimeSet f s).cda := by
  unfold effectTimeSet
  dsimp only
  split
  · split
    exacts [.refl _, changeClock_cda _ _]
  · exact .of_eq (by simp [validateClock, discardDemand])

/-- KEY_SLOT_DISABLE (R98): the windows stand. -/
theorem effectDisable_cda (f : Fields) (s : State) :
    (∃ g, (effectDisable f s).cda = { s.cda with groups := g }) ∧
      ∀ j, slotWindow (effectDisable f s) j = slotWindow s j := by
  unfold effectDisable
  cases groupSlotOfNumber f.selector with
  | none => exact ⟨⟨_, rfl⟩, fun _ => rfl⟩
  | some i =>
    cases i
    case slot0 => exact ⟨⟨_, rfl⟩, fun _ => rfl⟩
    all_goals exact ⟨⟨_, rfl⟩, fun j => by cases j <;> rfl⟩

/-- REINSTATE (R100). -/
theorem effectReinstate_cda (f : Fields) (s : State) :
    (effectReinstate f s).cda = { s.cda with window0 := windowReinstate f.value f.seq, reinstate := false } := by
  simp only [effectReinstate]
  split <;> simp

theorem effectPrice_clock (f : Fields) (s : State) : (effectPrice f s).tcu.clock = s.tcu.clock := by
  unfold effectPrice
  split <;> simp

theorem effectSchedule_clock (f : Fields) (s : State) : (effectSchedule f s).tcu.clock = s.tcu.clock := by
  unfold effectSchedule
  split <;> simp

theorem effectCalendar_clock (f : Fields) (s : State) : (effectCalendar f s).tcu.clock = s.tcu.clock := by
  unfold effectCalendar
  split
  · rw [evaluateFriendly_tcu]
    rfl
  · rfl

theorem effectOrder_clock (f : Fields) (s : State) : (effectOrder f s).tcu.clock = s.tcu.clock := by
  unfold effectOrder
  split <;> simp [orderOverride, orderCancel]

/-- The clock stands in the effect of every class but TIME_SET. -/
theorem applyEffect_clock {i : Slot} {f : Fields} {s : State} (h : f.cls ≠ 11) :
    (applyEffect i f s).1.tcu.clock = s.tcu.clock := by
  unfold applyEffect
  split <;> simp_all [effectPrice_clock, effectSchedule_clock, effectCalendar_clock, effectOrder_clock, effectActivate]

/-- Every class but REINSTATE leaves the windows and the streak to R93 and R94. -/
theorem applyEffect_windows {i : Slot} {f : Fields} {s : State} (h : f.cls ≠ 13) (j : Slot) :
    slotWindow (applyEffect i f s).1 j = slotWindow s j := by
  by_cases h11 : f.cls = 11
  · obtain ⟨_, _, _, _, hc⟩ := effectTimeSet_cda f s
    simp only [applyEffect, h11]
    exact slotWindow_congr (by rw [hc]) (by rw [hc]) j
  by_cases h12 : f.cls = 12
  · simp only [applyEffect, h12]
    exact (effectDisable_cda f s).2 j
  · have hc := applyEffect_cda (i := i) (s := s) h11 h12 h
    exact slotWindow_congr (by rw [hc]) (by rw [hc]) j

/-- No effect changes the streak. -/
theorem applyEffect_streak (i : Slot) (f : Fields) (s : State) : (applyEffect i f s).1.cda.streak = s.cda.streak := by
  by_cases h11 : f.cls = 11
  · obtain ⟨_, _, _, _, hc⟩ := effectTimeSet_cda f s
    simp only [applyEffect, h11, hc]
  by_cases h12 : f.cls = 12
  · obtain ⟨_, hc⟩ := (effectDisable_cda f s).1
    simp only [applyEffect, h12, hc]
  by_cases h13 : f.cls = 13
  · simp only [applyEffect, h13, effectReinstate_cda]
  · rw [applyEffect_cda h11 h12 h13]

/-- Settles O20, by what the acceptance does to the windows and what each class leaves of the Code Acceptor. -/
theorem acceptedCodeIsTakenWhole : Obligations.AcceptedCodeIsTakenWhole := by
  intro m s i f k hp hd ht he hv
  have hobs := observe_working (s := s) m hp
  have hm : mainPowered (observe m 0 s).sdm.power = true := by rw [hobs]; exact mainPowered_working hp
  have hacc := acceptCode_eq (i := i) (f := f) hm
  have hclock : (observe m 0 s).tcu = s.tcu := by rw [hobs]
  have hwin (j : Slot) : slotWindow (observe m 0 s) j = slotWindow s j := by rw [hobs]; exact slotWindow_congr rfl rfl j
  have hstreak : (accepting i f (observe m 0 s)).cda.streak = 0 := rfl
  have happ (h : f.cls ≠ 13) (j : Slot) : slotWindow (acceptCode i f (observe m 0 s)) j =
      if j = i then windowAccept (slotWindow s i) f.seq else slotWindow s j := by
    rw [hacc, ← hwin, ← hwin, ← accepting_window i f]
    exact (slotWindow_congr rfl rfl j).trans (applyEffect_windows h j)
  refine ⟨_, exec_accepted hp hd ht he hv, by rw [hacc], by rw [hacc], ?_, ⟨_, _, by rw [hacc], fun h => ?_⟩,
    fun h => ⟨by rw [happ h]; simp, fun j hj => by rw [happ h, if_neg hj]⟩, fun h => ?_, ?_, ?_, by simp, ?_, ?_⟩
  · rw [hacc]
    exact (applyEffect_streak _ _ _).trans hstreak
  · rw [applyEffect_clock h, (accepting_frame _ _ _).2.2.2.2.2.2.2.1, hclock]
  · have hc := effectReinstate_cda f (accepting i f (observe m 0 s))
    rw [hacc]
    simp only [applyEffect, h, hc, and_self]
  all_goals simp [hobs]

/-! ## CREDIT -/

/-- What the statements say of a claim goes over to states that agree on what they name. -/
theorem StateHanded.congr {s t s' t' : State} (h : StateHanded s t) (ha : s'.acu = s.acu) (hw : s'.swc = s.swc)
    (hc : s'.tcu = s.tcu) (ha' : t'.acu = t.acu) (hw' : t'.swc = t.swc) : StateHanded s' t' := by
  unfold StateHanded
  rw [ha, hw, hc, ha', hw']
  exact h

theorem ClaimNoticed.congr {s t s' t' : State} (h : ClaimNoticed s t) (ha : s'.acu = s.acu)
    (hn : ∀ n < 2, s'.rpu.notices.getLsbD n = s.rpu.notices.getLsbD n) (ha' : t'.acu = t.acu)
    (hn' : ∀ n < 2, t'.rpu.notices.getLsbD n = t.rpu.notices.getLsbD n) : ClaimNoticed s' t' := by
  unfold ClaimNoticed
  rw [ha, ha', hn 0 (by decide), hn 1 (by decide), hn' 0 (by decide), hn' 1 (by decide)]
  exact h

theorem windowTest_ne_accepted (w : SeqWindow) (q : Nat) : windowTest w q ≠ some .accepted := by
  unfold windowTest
  split
  · simp
  · split_ifs <;> simp

theorem classCondition_ne_accepted (f : Fields) (s : State) : classCondition f s ≠ some .accepted := by
  unfold classCondition
  dsimp only
  split
  · split_ifs <;> simp
  · split_ifs <;> simp
  · split_ifs <;> simp
  · simp

/-- A code that is accepted has passed the last checks (R91, R95, R96). -/
theorem checks_of_accepted {i : Slot} {f : Fields} {s : State} (h : verdict i f s = .accepted) :
    argumentOk f s = true ∧ classCondition f s = none := by
  unfold verdict at h
  cases hw : windowTest (slotWindow s i) f.seq with
  | some o =>
    have ho : o ≠ .accepted := fun e => windowTest_ne_accepted _ _ (e ▸ hw)
    simp only [hw] at h
    split_ifs at h
    exact absurd h ho
  | none =>
    simp only [hw] at h
    cases hc : classCondition f s with
    | some o =>
      have ho : o ≠ .accepted := fun e => classCondition_ne_accepted f s (e ▸ hc)
      simp only [hc] at h
      split_ifs at h
      exact absurd h ho
    | none =>
      split_ifs at h with _ _ _ ha
      exact ⟨ha, rfl⟩

/-- An accepted code whose effect is a claim hands on what the claim does (R43, R44, R94). -/
theorem acceptCode_claims {i : Slot} {f : Fields} {s : State} {g : Account → Account} {d : Option Detail}
    (hm : mainPowered s.sdm.power = true) (h : ∀ y : State, y.acu = s.acu → applyEffect i f y = (claim g y, d)) :
    let t := acceptCode i f s
    t.acu = s.acu.alarmAfter (g s.acu) ∧
      t.cda.lastResult = some ⟨.accepted, some ⟨f.cls, i, f.seq⟩, s.tcu.clock, d⟩ ∧
      StateHanded s t ∧ ClaimNoticed s t ∧ t.tcu = s.tcu ∧ t.elg = s.elg := by
  have hacc := acceptCode_eq (i := i) (f := f) hm
  dsimp only
  rw [hacc, h _ (by simp)]
  have hn : ∀ n < 2, (accepting i f s).rpu.notices.getLsbD n = s.rpu.notices.getLsbD n := by simp
  have h4 (x : NoticeSet) : ∀ n < 2, (x ||| 4).getLsbD n = x.getLsbD n := by
    intro n hn
    interval_cases n <;> simp
  refine ⟨by simp [claim_acu], by simp, ?_, ?_, by simp, by simp⟩
  · exact (claim_stateHanded g (accepting i f s)).congr (by simp) (by simp) (by simp) rfl rfl
  · exact (claim_claimNoticed g (s := accepting i f s) (by simpa using hm)).congr (by simp) (by simp) rfl (h4 _)

/-- Settles O21, by the claim that CREDIT makes and the class condition that it has passed. -/
theorem creditCodePaysArrearsFirst : Obligations.CreditCodePaysArrearsFirst := by
  intro m s i f k hp hd ht he hv hcls x paid
  have hobs := observe_working (s := s) m hp
  have hm : mainPowered (observe m 0 s).sdm.power = true := by rw [hobs]; exact mainPowered_working hp
  have hacu : (observe m 0 s).acu = s.acu ∧ (observe m 0 s).tcu = s.tcu ∧ (observe m 0 s).swc = s.swc ∧
      (observe m 0 s).rpu = s.rpu ∧ (observe m 0 s).elg = s.elg := by
    rw [hobs]
    exact ⟨rfl, rfl, rfl, rfl, rfl⟩
  obtain ⟨acu, tcu, swc, rpu, elg⟩ := hacu
  obtain ⟨-, hcap⟩ := checks_of_accepted hv
  have hcap' : s.acu.balance + ((x - paid : Nat) : Int) ≤ ((s.acu.cap * 1000000 : Nat) : Int) := by
    simp only [classCondition, hcls, Account.capAllows, Account.payment, Config.hundredth, Config.unit] at hcap
    simpa [x, paid] using hcap
  obtain ⟨a1, a2, a3, a4, a5, a6⟩ := acceptCode_claims (i := i) (f := f) (s := observe m 0 s) (g := Account.credit x)
    (d := some (.credit (x - paid) paid)) hm fun y hy => by simp [applyEffect, hcls, effectCredit, hy, x, paid,
      Account.payment, Config.hundredth]
  obtain ⟨b1, b2, b3, b4, b5, b6, b7, b8, b9⟩ := (observe m 0 s).acu.alarmAfter_fields ((observe m 0 s).acu.credit x)
  rw [← a1, acu] at b1 b2 b3 b4 b5 b6 b7 b8 b9
  rw [tcu, hcls] at a2
  refine ⟨_, exec_accepted hp hd ht he hv, b1, b1.trans_le hcap', b2, b8, b9, b7, ?_, b4, b5, b6, a2,
    a3.congr acu.symm swc.symm tcu.symm rfl rfl, a4.congr acu.symm (by simp [rpu]) rfl (by simp), a5.trans tcu,
    a6.trans elg, by simp, by simp⟩
  rw [b1, b3]
  simp only [Account.credit, ← decide_not, Int.not_lt]

end Sys2Proof.Machine
end

