-- ==== Sys2Proof/Proofs/KeySymbols.lean ====
section
/-! KEYS (R77 to R83): a request of one symbol and one of digits, what each symbol does, and what is refused. -/

namespace Sys2Proof.Machine

/-! ## What a request finds -/

/-- The part as a request finds it in RUN, field by field: its moment has passed and its frame has completed. -/
theorem afterFrame_listening {s : State} (m : Moment) (l : Lnk) (h : Listening s) :
    afterFrame m s l =
      { s with
        now := s.now + m.elapsed
        pins := m.pins
        rcbLow := if s.pins.rcb then s.rcbLow else s.now
        cda := { s.cda with entryTimer := s.cda.entryTimer.map (· - m.elapsed) }
        lnk := l
        rpu := rpuAfterFrame s } := by
  unfold afterFrame
  rw [observe_working m (.inl h.1)]

theorem exec_keys (m : Moment) (p : List Byte) (s : State) :
    exec (.keys m p []) s = .next (request .keys (serve .keys keysOwner) p (observe m 0 s)) := by
  rw [← serveKeys_nil]
  rfl

/-- A request of one symbol is answered with what becomes of the symbol (R83). -/
theorem keysOwner_symbol {b : Byte} {x : Symbol} (h : symbolOfByte b = some x) (s : State) :
    keysOwner [b] s =
      (some (.ok (keysBytes (if (takeSymbol x s).1 = none then 1 else 0) (takeSymbol x s).1 (takeSymbol x s).2)),
        (takeSymbol x s).2) := by
  obtain ⟨r, hr⟩ : ∃ r, takeSymbol x s = r := ⟨_, rfl⟩
  obtain ⟨r, u⟩ := r
  cases r <;> simp [keysOwner, keysTaken, symbolsOfBytes, h, takeSymbols, takeEvents, hr]

/-- A symbol that is taken: the request is answered with the values that it leaves. -/
theorem answersWith_symbol {b : Byte} {x : Symbol} {m : Moment} {s : State} {payload : List Byte} {f : State → State}
    (hx : symbolOfByte b = some x) (hL : Listening s)
    (ht : ∀ l, takeSymbol x (afterFrame m s l) = (none, f (afterFrame m s l)))
    (hp : ∀ l, keysBytes 1 none (f (afterFrame m s l)) = payload)
    (hf : ∀ l l', { f (afterFrame m s l) with lnk := l' } = { f (afterFrame m s l') with lnk := l' }) :
    AnswersWith (.keys m [b] []) m s 0x0F payload f := by
  refine answersWith_of_owner (r := .keys) (t := fun l => f (afterFrame m s l)) (exec_keys m [b] s) hL (by simp) rfl
    (by simp [Request.commissioning]) (fun l => ?_) hf
  rw [keysOwner_symbol hx, ht l, if_pos rfl, hp]

/-- A symbol that leaves the part as it was: the request is answered with the values as they stand. -/
theorem answersOnly_symbol {b : Byte} {x : Symbol} {m : Moment} {s : State} {payload : List Byte}
    {r : Option SymbolRefusal} (hx : symbolOfByte b = some x) (hL : Listening s)
    (ht : ∀ l, takeSymbol x (afterFrame m s l) = (r, afterFrame m s l))
    (hp : ∀ l, keysBytes (if r = none then 1 else 0) r (afterFrame m s l) = payload) :
    AnswersOnly (.keys m [b] []) m s 0x0F .ok payload := by
  refine answersOnly_of_owner (r := .keys) (a := .ok payload) (exec_keys m [b] s) hL (by simp) rfl
    (by simp [Request.commissioning]) (fun l => ?_)
  rw [keysOwner_symbol hx, ht l, hp]

/-! ## What a symbol does -/

/-- A listening part whose acceptor is IDLE or in ENTRY refuses no symbol (table of R77). -/
theorem symbolRefusal_none {s : State} (hl : s.ots.lock = true) (ha : s.cda.acceptor = .idle ∨ s.cda.acceptor = .entry)
    (hp : s.sdm.power = .run) : symbolRefusal s = none := by
  rcases ha with ha | ha <;> simp [symbolRefusal, hl, ha, hp]

theorem takeSymbol_taken {x : Symbol} {s : State} (h : symbolRefusal s = none) (hx : ∀ d, x ≠ .digit d) :
    (takeSymbol x s).1 = none := by
  unfold takeSymbol
  rw [h]
  cases x
  case digit d => exact absurd rfl (hx d)
  all_goals rfl

theorem takeSymbol_digit {d : Fin 10} {s : State} (h : symbolRefusal s = none) (hn : s.cda.buffer.length < 24) :
    takeSymbol (.digit d) s = (none, takeDigit d s) := by
  unfold takeSymbol
  rw [h]
  exact if_pos hn

theorem takeSymbol_back {s : State} (h : symbolRefusal s = none) : takeSymbol .back s = (none, takeBack s) := by
  unfold takeSymbol
  rw [h]

theorem takeSymbol_cancel {s : State} (h : symbolRefusal s = none) : takeSymbol .cancel s = (none, takeCancel s) := by
  unfold takeSymbol
  rw [h]

theorem takeSymbol_enter {s : State} (h : symbolRefusal s = none) : takeSymbol .enter s = (none, takeEnter s) := by
  unfold takeSymbol
  rw [h]

theorem takeSymbol_refused {x : Symbol} {s : State} {r : SymbolRefusal} (h : symbolRefusal s = some r) :
    takeSymbol x s = (some r, s) := by
  unfold takeSymbol
  rw [h]

/-- What a request finds refuses a symbol as the state before it does. -/
theorem symbolRefusal_afterFrame {s : State} (m : Moment) (l : Lnk) (hL : Listening s) :
    symbolRefusal (afterFrame m s l) = symbolRefusal s := by
  rw [afterFrame_listening m l hL]
  rfl

/-- The digits of a request, taken one after the other (R78). -/
def digitsTaken (ds : List (Fin 10)) (s : State) : State :=
  if ds = [] then s
  else s.setCda { s.cda with acceptor := .entry, buffer := s.cda.buffer ++ ds, entryTimer := some 30000 }

theorem takeSymbols_digits (ds : List (Fin 10)) (i : Nat) {s : State} (hl : s.ots.lock = true)
    (ha : s.cda.acceptor = .idle ∨ s.cda.acceptor = .entry) (hp : s.sdm.power = .run)
    (hn : s.cda.buffer.length + ds.length ≤ 24) :
    takeSymbols i (ds.map .digit) [] s = ⟨ds.length, none, digitsTaken ds s, []⟩ := by
  induction ds generalizing i s with
  | nil => rfl
  | cons d ds ih =>
    rw [List.length_cons] at hn
    have ht := takeSymbol_digit (d := d) (symbolRefusal_none hl ha hp) (by omega)
    have hrest := ih (i + 1) (s := takeDigit d s) hl (.inr rfl) hp (by simp [takeDigit]; omega)
    simp only [List.map_cons, takeSymbols, List.takeWhile_nil, List.dropWhile_nil, takeEvents, List.foldl_nil, ht, hrest]
    refine congrArg (Handled.mk _ _ · _) ?_
    cases ds <;> simp [digitsTaken, takeDigit, Config.entryTime, State.setCda]

theorem symbolOfByte_digit (d : Fin 10) : symbolOfByte (BitVec.ofNat 8 (0x30 + d.val)) = some (.digit d) := by
  revert d
  decide

theorem symbolsOfBytes_digits (ds : List (Fin 10)) :
    symbolsOfBytes (ds.map fun d => BitVec.ofNat 8 (0x30 + d.val)) = some (ds.map .digit) := by
  induction ds with
  | nil => rfl
  | cons d ds ih => rw [List.map_cons, symbolsOfBytes, symbolOfByte_digit, ih]; rfl

theorem keysBytes_eq (n : Nat) (r : Option SymbolRefusal) (s : State) :
    keysBytes n r s =
      [BitVec.ofNat 8 n, BitVec.ofNat 8 (refusalCode r), BitVec.ofNat 8 s.cda.acceptor.code,
        BitVec.ofNat 8 s.cda.buffer.length] ++ bytesOfNat 2 s.cda.lockoutLeft := by
  simp [keysBytes, bytesOfNat]

/-- FORMAT, as a request of a listening part finds it (R81, R101, R102). -/
theorem formatResult_eq {s : State} (h : mainPowered s.sdm.power = true) :
    formatResult s =
      { s with
        cda :=
          { s.cda with
            acceptor := .idle
            buffer := []
            entryTimer := none
            lastResult := some ⟨.format, none, s.tcu.clock, none⟩
            resultNumber := if s.cda.resultNumber < 255 then s.cda.resultNumber + 1 else 1 }
        rpu := { s.rpu with notices := s.rpu.notices ||| 4 } } := endEntry_writeResult _ _ _ h

/-- ENTER on what is neither a code nor a command (R81, R82, R85). -/
theorem takeEnter_format {s : State}
    (h : s.cda.buffer.length ≠ 24 ∧ s.cda.buffer.length ≠ 3 ∨ s.cda.buffer.length = 24 ∧ 2 ^ 76 ≤ natOfDigits s.cda.buffer ∨
      s.cda.buffer.length = 3 ∧ s.cda.buffer ≠ [1, 1, 0] ∧ s.cda.buffer ≠ [1, 2, 0]) : takeEnter s = formatResult s := by
  unfold takeEnter
  rcases h with ⟨h24, h3⟩ | ⟨h24, hn⟩ | ⟨h3, h1, h2⟩
  · rw [if_neg h24, if_neg h3]
  · rw [if_pos h24, enterCode, if_neg (by omega)]
  · have hc : localCommandOf s.cda.buffer = none := by simp [localCommandOf, h1, h2]
    rw [if_neg (by omega), if_pos h3]
    simp only [enterLocal, hc]

/-- ENTER on 24 digits that spell a code (R85). -/
theorem takeEnter_code {s : State} (h : s.cda.buffer.length = 24) (hn : natOfDigits s.cda.buffer < 2 ^ 76) :
    takeEnter s = s.setCda { s.cda with acceptor := .decoding, entryTimer := none, decodeSince := s.now } := by
  rw [takeEnter, if_pos h, enterCode, if_pos hn]

/-! ## The obligations -/

/-- Settles O16, symbol by symbol. -/
theorem keySymbolsAreTaken : Obligations.KeySymbolsAreTaken := by
  refine ⟨fun m s ds hL hl ha hd hn => ?_, fun m s hL hl ha => ?_, fun m s hL hl ha hb => ?_, fun m s hL hl ha => ?_⟩
  · refine answersWith_of_owner (r := .keys) (t := fun l => digitsTaken ds (afterFrame m s l)) (exec_keys m _ s) hL
      (by simp; omega) ?_ (by simp [Request.commissioning]) (fun l => ?_) (fun l l' => ?_)
    · have h1 : 1 ≤ ds.length := List.length_pos_of_ne_nil hd
      simp only [Request.takes, List.length_map, Bool.and_eq_true, decide_eq_true_eq]
      omega
    · have hs := afterFrame_listening m l hL
      have htaken := takeSymbols_digits ds 0 (s := afterFrame m s l) (by rw [hs]; exact hl) (by rw [hs]; exact ha)
        (by rw [hs]; exact hL.1) (by rw [hs]; exact hn)
      simp only [keysOwner, keysTaken, symbolsOfBytes_digits, htaken]
      rw [keysBytes_eq, digitsTaken, if_neg hd, hs]
      simp [refusalCode, State.setCda, AcceptorState.code]
    · dsimp only
      rw [digitsTaken, if_neg hd, afterFrame_listening m l hL, afterFrame_listening m l' hL]
      rfl
  · have hnone (l : Lnk) := (symbolRefusal_afterFrame m l hL).trans (symbolRefusal_none hl (.inr ha) hL.1)
    refine ⟨fun h2 _ => ?_, fun h1 => ?_, ?_⟩
    · refine answersWith_symbol (x := .back) rfl hL (fun l => ?_) (fun l => ?_) (fun l l' => ?_)
      · have hne : s.cda.buffer.dropLast ≠ [] := List.ne_nil_of_length_pos (by simp; omega)
        rw [takeSymbol_back (hnone l), takeBack, afterFrame_listening m l hL, if_pos ha, if_neg hne]
        rfl
      · rw [keysBytes_eq, afterFrame_listening m l hL]
        simp [refusalCode, ha, AcceptorState.code]
      · rw [afterFrame_listening m l hL, afterFrame_listening m l' hL]
    · refine answersWith_symbol (x := .back) rfl hL (fun l => ?_) (fun l => ?_) (fun l l' => ?_)
      · have he : s.cda.buffer.dropLast = [] := List.eq_nil_of_length_eq_zero (by simp; omega)
        rw [takeSymbol_back (hnone l), takeBack, afterFrame_listening m l hL, if_pos ha, if_pos he]
        rfl
      · rw [keysBytes_eq, afterFrame_listening m l hL]
        simp [refusalCode, AcceptorState.code]
      · rw [afterFrame_listening m l hL, afterFrame_listening m l' hL]
    · refine answersWith_symbol (x := .cancel) rfl hL (fun l => ?_) (fun l => ?_) (fun l l' => ?_)
      · rw [takeSymbol_cancel (hnone l), takeCancel, afterFrame_listening m l hL, if_pos ha]
        rfl
      · rw [keysBytes_eq, afterFrame_listening m l hL]
        simp [refusalCode, AcceptorState.code]
      · rw [afterFrame_listening m l hL, afterFrame_listening m l' hL]
  · have hnone (l : Lnk) := (symbolRefusal_afterFrame m l hL).trans (symbolRefusal_none hl (.inl ha) hL.1)
    have hidle : s.cda.acceptor ≠ .entry := by simp [ha]
    have hbytes (l : Lnk) : keysBytes 1 none (afterFrame m s l) = [1, 0, 0, 0] ++ bytesOfNat 2 s.cda.lockoutLeft := by
      rw [keysBytes_eq, afterFrame_listening m l hL]
      simp [refusalCode, ha, hb, AcceptorState.code]
    refine ⟨answersOnly_symbol (x := .back) (r := none) rfl hL (fun l => ?_) hbytes,
      answersOnly_symbol (x := .cancel) (r := none) rfl hL (fun l => ?_) hbytes⟩
    · rw [takeSymbol_back (hnone l), takeBack, afterFrame_listening m l hL, if_neg hidle]
    · rw [takeSymbol_cancel (hnone l), takeCancel, afterFrame_listening m l hL, if_neg hidle]
  · have hnone (l : Lnk) := (symbolRefusal_afterFrame m l hL).trans (symbolRefusal_none hl ha hL.1)
    refine ⟨fun h => ?_, fun h24 hcode => ?_⟩
    · refine answersWith_symbol (x := .enter) rfl hL (fun l => ?_) (fun l => ?_) (fun l l' => ?_)
      · rw [takeSymbol_enter (hnone l), takeEnter_format (by rw [afterFrame_listening m l hL]; exact h),
          formatResult_eq (by rw [afterFrame_listening m l hL]; exact mainPowered_working (.inl hL.1)),
          afterFrame_listening m l hL]
      · rw [keysBytes_eq, afterFrame_listening m l hL]
        simp [refusalCode, AcceptorState.code]
      · rw [afterFrame_listening m l hL, afterFrame_listening m l' hL]
    · refine answersWith_symbol (x := .enter) rfl hL (fun l => ?_) (fun l => ?_) (fun l l' => ?_)
      · rw [takeSymbol_enter (hnone l), takeEnter_code (by rw [afterFrame_listening m l hL]; exact h24)
          (by rw [afterFrame_listening m l hL]; exact hcode), afterFrame_listening m l hL]
        rfl
      · rw [keysBytes_eq, afterFrame_listening m l hL]
        simp [refusalCode, h24, AcceptorState.code]
      · rw [afterFrame_listening m l hL, afterFrame_listening m l' hL]

/-- The symbol codes (section 9.7.3). -/
theorem symbolOfByte_iff (b : Byte) (x : Symbol) :
    symbolOfByte b = some x ↔
      (∃ d : Fin 10, x = .digit d ∧ b.toNat = 48 + d.val) ∨ x = .back ∧ b.toNat = 8 ∨ x = .enter ∧ b.toNat = 13 ∨
        x = .cancel ∧ b.toNat = 24 := by
  have hb (n : Nat) (hn : n < 256) : b = BitVec.ofNat 8 n ↔ b.toNat = n := by
    rw [← BitVec.toNat_inj, BitVec.toNat_ofNat, Nat.mod_eq_of_lt (by simpa using hn)]
  have h8 := hb 8 (by decide)
  have h13 := hb 13 (by decide)
  have h24 := hb 24 (by decide)
  unfold symbolOfByte
  split_ifs with hd hback henter hcancel
  · refine ⟨fun h => .inl ⟨⟨b.toNat - 0x30, by omega⟩, (Option.some.inj h).symm, by simp only; omega⟩, fun h => ?_⟩
    rcases h with ⟨d, rfl, hd'⟩ | ⟨-, h⟩ | ⟨-, h⟩ | ⟨-, h⟩
    · exact congrArg (some <| Symbol.digit ·) (Fin.ext (by simp only; omega))
    all_goals omega
  · have hn := h8.mp hback
    refine ⟨fun h => .inr (.inl ⟨(Option.some.inj h).symm, hn⟩), fun h => ?_⟩
    rcases h with ⟨d, -, h⟩ | ⟨rfl, -⟩ | ⟨-, h⟩ | ⟨-, h⟩
    · omega
    · rfl
    all_goals omega
  · have hn := h13.mp henter
    refine ⟨fun h => .inr (.inr (.inl ⟨(Option.some.inj h).symm, hn⟩)), fun h => ?_⟩
    rcases h with ⟨d, -, h⟩ | ⟨-, h⟩ | ⟨rfl, -⟩ | ⟨-, h⟩
    · omega
    · omega
    · rfl
    · omega
  · have hn := h24.mp hcancel
    refine ⟨fun h => .inr (.inr (.inr ⟨(Option.some.inj h).symm, hn⟩)), fun h => ?_⟩
    rcases h with ⟨d, -, h⟩ | ⟨-, h⟩ | ⟨-, h⟩ | ⟨rfl, -⟩
    · omega
    · omega
    · omega
    · rfl
  · refine ⟨fun h => absurd h (by simp), fun h => ?_⟩
    rcases h with ⟨d, -, h⟩ | ⟨-, h⟩ | ⟨-, h⟩ | ⟨-, h⟩
    · have := d.isLt
      omega
    · exact absurd (h8.mpr h) hback
    · exact absurd (h13.mpr h) henter
    · exact absurd (h24.mpr h) hcancel

/-- A byte that is no symbol code spoils its payload (R83). -/
theorem symbolsOfBytes_none {p : List Byte} (h : ∃ b ∈ p, symbolOfByte b = none) : symbolsOfBytes p = none := by
  induction p with
  | nil => simp at h
  | cons b bs ih =>
    obtain ⟨c, hc, hn⟩ := h
    rcases List.mem_cons.mp hc with rfl | hmem
    · simp [symbolsOfBytes, hn]
    · rw [symbolsOfBytes, ih ⟨c, hmem, hn⟩]
      cases symbolOfByte b <;> rfl

/-- Settles O17, by the lines of the table of R77 and the symbol codes. -/
theorem refusedSymbolChangesNothing : Obligations.RefusedSymbolChangesNothing := by
  refine ⟨symbolOfByte_iff, fun m s b x hL hx => ?_, fun m s p hL h1 h26 hp => ?_⟩
  · intro reply stands
    have refused {r : SymbolRefusal} (h : symbolRefusal s = some r) : stands (BitVec.ofNat 8 (refusalCode (some r))) := by
      refine answersOnly_symbol (r := some r) hx hL
        (fun l => takeSymbol_refused ((symbolRefusal_afterFrame m l hL).trans h)) (fun l => ?_)
      rw [keysBytes_eq, afterFrame_listening m l hL]
      rfl
    refine ⟨fun hl => refused (r := .notCommissioned) (by simp [symbolRefusal, hl]), fun hl => ⟨fun ha => ?_, fun ha => ?_,
      fun ha => ?_, fun ha hn hd => ?_⟩⟩
    · exact refused (r := .retired) (by simp [symbolRefusal, hl, ha])
    · exact refused (r := .lockedOut) (by simp [symbolRefusal, hl, ha])
    · exact refused (r := .busy) (by simp [symbolRefusal, hl, ha])
    · obtain ⟨d, rfl⟩ := hd
      have hnone (l : Lnk) := (symbolRefusal_afterFrame m l hL).trans (symbolRefusal_none hl ha hL.1)
      refine answersOnly_symbol (r := some .overlong) hx hL (fun l => ?_) (fun l => ?_)
      · have hfull : ¬(afterFrame m s l).cda.buffer.length < 24 := by
          rw [afterFrame_listening m l hL]
          simp [hn]
        unfold takeSymbol
        rw [hnone l]
        exact if_neg hfull
      · rw [keysBytes_eq, afterFrame_listening m l hL]
        rfl
  · refine answersOnly_of_owner (r := .keys) (a := .bare .argument) (exec_keys m p s) hL (by omega) ?_
      (by simp [Request.commissioning]) (fun l => ?_)
    · simp only [Request.takes, Bool.and_eq_true, decide_eq_true_eq]
      exact ⟨h1, h26⟩
    · simp only [keysOwner, keysTaken, symbolsOfBytes_none hp]

end Sys2Proof.Machine
end

