-- ==== Sys2Proof/Proofs/LocalCommands.lean ====
section
/-! The local commands 110 and 120 (R32, R33, R41, R82). -/

namespace Sys2Proof.Machine

/-- The notice of a dropped reply is another than those of a claim (R44, R188). -/
theorem rpuAfterFrame_low (s : State) : ∀ n < 8, (rpuAfterFrame s).notices.getLsbD n = s.rpu.notices.getLsbD n := by
  intro n hn
  unfold rpuAfterFrame
  split
  · rfl
  · interval_cases n <;> simp

/-- A request that passes every check is answered as its owner answers, on the state after its frame (R188, R190). -/
theorem request_answered {c : Instr} {r : Request} {owner : Owner} {p : List Byte} {m : Moment} {s : State}
    (hx : exec c s = .next (request r (serve r owner) p (observe m 0 s))) (hL : Listening s) (hp : p.length ≤ 37)
    (ht : r.takes p.length = true) (hc : ¬(r.commissioning = true ∧ s.ots.lock = true)) :
    ∃ l, l.slot = [] ∧ ∀ a u, owner p (afterFrame m s l) = (some a, u) →
      ∃ l', exec c s = .next { u with lnk := l' } ∧ Answered r.kind a.status a.payload l' := by
  obtain ⟨l, h, -, hs, -⟩ := request_handed (owner := owner) (m := m) hL hp ht hc
  refine ⟨l, hs, fun a u ho => ?_⟩
  obtain ⟨l', h1, h2⟩ := placeReply_answered r.kind a u
  refine ⟨l', ?_, h2⟩
  rw [hx, h, ho, placeAnswer, h1]

/-- ENTER on three digits that are a command (R82). -/
theorem takeEnter_local {s : State} {c : LocalCommand} (hb : s.cda.buffer.length = 3)
    (hc : localCommandOf s.cda.buffer = some c) :
    takeEnter s =
      endEntry (writeResult .localCommand none (some (.localCommand c (takeLocal c s).2)) (takeLocal c s).1) := by
  rw [takeEnter, if_neg (by omega), if_pos hb]
  simp only [enterLocal, hc]

/-- A granted 110 moves arrears into the balance as far as the new floor allows (R33). -/
theorem takeEmergency_fields (a : Account) :
    let moved := min a.arrears (a.balance - -((a.limit * 10000 : Nat) : Int)).toNat
    a.takeEmergency.taken = true ∧ a.takeEmergency.balance = a.balance - (moved : Int) ∧
      a.takeEmergency.arrears = a.arrears - moved ∧ a.takeEmergency.limit = a.limit ∧
      a.takeEmergency.threshold = a.threshold ∧ a.takeEmergency.cap = a.cap ∧ a.takeEmergency.opening = a.opening ∧
      a.takeEmergency.credited = a.credited ∧ a.takeEmergency.debited = a.debited :=
  ⟨rfl, rfl, rfl, rfl, rfl, rfl, rfl, rfl, rfl⟩

/-- The answer to 110 (R32). -/
theorem emergencyAnswer_eq (a : Account) :
    (a.taken = true → a.emergencyAnswer = .alreadyTaken) ∧
    (a.taken = false → a.limit = 0 → a.emergencyAnswer = .notOffered) ∧
    (a.taken = false → a.limit ≠ 0 → a.state = .inCredit → a.emergencyAnswer = .notNeeded) ∧
    (a.taken = false → a.limit ≠ 0 → a.state ≠ .inCredit → a.emergencyAnswer = .granted) := by
  refine ⟨fun h => ?_, fun h h1 => ?_, fun h h1 h2 => ?_, fun h h1 h2 => ?_⟩
  · simp [Account.emergencyAnswer, h]
  · simp [Account.emergencyAnswer, h, h1]
  · simp [Account.emergencyAnswer, h, h1, h2]
  · simp [Account.emergencyAnswer, h, h1, h2]

/-- A 110 that is not granted claims nothing. -/
theorem takeLocal_refused {s : State} (h : s.acu.emergencyAnswer ≠ .granted) :
    takeLocal .emergencyCredit s = (s, s.acu.emergencyAnswer) := by
  unfold takeLocal
  dsimp only
  split
  · exact absurd ‹_› h
  · rfl

/-- 120 ends the alarm and changes nothing else of the account (R41). -/
theorem takeLocal_alarm (s : State) :
    takeLocal .alarmAcknowledge s = ({ s with acu := { s.acu with alarm := false } }, .granted) := by
  have hst : ({ s.acu with alarm := false } : Account).state = s.acu.state := rfl
  have hclaim : claim (fun a => { a with alarm := false }) s = _ := claim_same hst rfl
  unfold takeLocal
  rw [hclaim, Account.alarmAfter, if_pos hst]
  rfl

/-- Settles O18, by the lines of R32 and the claim of a granted command. -/
theorem localCommandsAreTaken : Obligations.LocalCommandsAreTaken := by
  refine ⟨fun m s hL hl ha hb ht hlim hst => ?_, fun m s hL hl ha => ?_⟩
  · dsimp only
    obtain ⟨l, -, h⟩ := request_answered (exec_keys m [0x0D] s) hL (by simp) rfl (by simp [Request.commissioning])
    have hs := afterFrame_listening m l hL
    generalize afterFrame m s l = u at h hs
    have hmain : mainPowered s.sdm.power = true := mainPowered_working (.inl hL.1)
    have hacu : u.acu = s.acu := by rw [hs]
    have hswc : u.swc = s.swc := by rw [hs]
    have htcu : u.tcu = s.tcu := by rw [hs]
    have hlock : u.ots = s.ots := by rw [hs]
    have hsdm : u.sdm = s.sdm := by rw [hs]
    have hacc : u.cda.acceptor = s.cda.acceptor := by rw [hs]
    have hbuf : u.cda.buffer = [1, 1, 0] := by rw [hs]; exact hb
    have hrpu : u.rpu = rpuAfterFrame s := by rw [hs]
    have hstreak : u.cda.streak = s.cda.streak := by rw [hs]
    have hleft : u.cda.lockoutLeft = s.cda.lockoutLeft := by rw [hs]
    have helg : u.elg = s.elg ∧ u.pending = s.pending := by rw [hs]; exact ⟨rfl, rfl⟩
    obtain ⟨elg, pending⟩ := helg
    have hnone : symbolRefusal u = none :=
      symbolRefusal_none (by rw [hlock]; exact hl) (by rw [hacc]; exact .inr ha) (by rw [hsdm]; exact hL.1)
    have hans : u.acu.emergencyAnswer = .granted := by
      rw [hacu]
      exact (emergencyAnswer_eq s.acu).2.2.2 ht hlim hst
    have htake : takeLocal .emergencyCredit u = (claim Account.takeEmergency u, .granted) := by
      simp only [takeLocal, hans]
    have hent := takeEnter_local (s := u) (c := .emergencyCredit) (by rw [hbuf]; rfl) (by rw [hbuf]; rfl)
    rw [htake, endEntry_writeResult _ _ _ (by simpa [hsdm] using hmain)] at hent
    have hsym := takeSymbol_enter hnone
    rw [hent] at hsym
    obtain ⟨l', hexec, hansw⟩ := h _ _ (keysOwner_symbol (b := 0x0D) (x := .enter) rfl u)
    rw [hsym, if_pos rfl, keysBytes_eq] at hansw
    rw [hsym] at hexec
    obtain ⟨b1, b2, b3, b4, b5, b6, b7, b8, b9⟩ := s.acu.alarmAfter_fields s.acu.takeEmergency
    obtain ⟨c1, c2, c3, c4, c5, c6, c7, c8, c9⟩ := takeEmergency_fields s.acu
    have hclaim : (claim Account.takeEmergency u).acu = s.acu.alarmAfter s.acu.takeEmergency := by rw [claim_acu, hacu]
    have h4 (x : NoticeSet) : ∀ n < 2, (x ||| 4).getLsbD n = x.getLsbD n := by
      intro n hn
      interval_cases n <;> simp
    refine ⟨_, hexec, ?_, by rw [hclaim, b3, c1], by rw [hclaim, b1, c2], by rw [hclaim, b2, c3], by rw [hclaim, b4, c4],
      by rw [hclaim, b5, c5], by rw [hclaim, b6, c6], by rw [hclaim, b7, c7], by rw [hclaim, b8, c8], by rw [hclaim, b9, c9],
      (claim_stateHanded Account.takeEmergency u).congr hacu.symm hswc.symm htcu.symm rfl rfl,
      (claim_claimNoticed Account.takeEmergency (s := u) (by rw [hsdm]; exact hmain)).congr hacu.symm
        (fun n hn => by rw [hrpu, rpuAfterFrame_low s n (by omega)]) rfl (h4 _),
      by simp [htcu], rfl, rfl, by simp [hstreak], by simp [htcu], by simp [elg], by simp [hlock], by simp [hsdm],
      by simp [pending]⟩
    have hansw' : Answered 0x0F .ok _ l' := hansw
    simpa [Answer.ok, hleft, refusalCode, AcceptorState.code] using hansw'
  · intro answered
    have ends {c : LocalCommand} {a : LocalAnswer} {alarm : Bool} (hn : s.cda.buffer.length = 3)
        (hc : localCommandOf s.cda.buffer = some c)
        (htake : ∀ u : State, u.acu = s.acu → takeLocal c u = ({ u with acu := { u.acu with alarm := alarm } }, a)) :
        answered c a alarm := by
      refine answersWith_symbol (x := .enter) rfl hL (fun l => ?_) (fun l => ?_) (fun l l' => ?_)
      · rw [takeSymbol_enter ((symbolRefusal_afterFrame m l hL).trans (symbolRefusal_none hl (.inr ha) hL.1)),
          takeEnter_local (by rw [afterFrame_listening m l hL]; exact hn) (by rw [afterFrame_listening m l hL]; exact hc),
          htake _ (by rw [afterFrame_listening m l hL]), afterFrame_listening m l hL,
          endEntry_writeResult _ _ _ (by exact mainPowered_working (.inl hL.1))]
      · rw [keysBytes_eq, afterFrame_listening m l hL]
        simp [refusalCode, AcceptorState.code]
      · rw [afterFrame_listening m l hL, afterFrame_listening m l' hL]
    obtain ⟨a1, a2, a3, -⟩ := emergencyAnswer_eq s.acu
    have refused {a : LocalAnswer} (h : s.acu.emergencyAnswer = a) (hne : a ≠ .granted) (u : State) (hu : u.acu = s.acu) :
        takeLocal .emergencyCredit u = ({ u with acu := { u.acu with alarm := s.acu.alarm } }, a) := by
      rw [takeLocal_refused (by rw [hu, h]; exact hne), hu, h, ← hu]
    refine ⟨fun hb ht => ?_, fun hb ht hlim => ?_, fun hb ht hlim hst => ?_, fun hb => ?_⟩
    · exact ends (by rw [hb]; rfl) (by rw [hb]; rfl) (refused (a1 ht) (by decide))
    · exact ends (by rw [hb]; rfl) (by rw [hb]; rfl) (refused (a2 ht hlim) (by decide))
    · exact ends (by rw [hb]; rfl) (by rw [hb]; rfl) (refused (a3 ht hlim hst) (by decide))
    · exact ends (by rw [hb]; rfl) (by rw [hb]; rfl) (fun u _ => takeLocal_alarm u)

end Sys2Proof.Machine
end

