-- ==== Sys2Proof/Proofs/Causes.lean ====
section
/-! The open-cause table moves the switch (R108 to R110, R114, R132, R135), and what a claim and the friendly period do to
its CREDIT entry (R43, R67, R109). -/

namespace Sys2Proof.Machine

/-! ## Notices while the MAIN domain is unpowered -/

theorem notify_unpowered {n : Notice} {s : State} (h : mainPowered s.sdm.power = false) : notify n s = s := by
  simp [notify, h]

theorem enterSwitch_unpowered {x : SwitchState} {s : State} (h : mainPowered s.sdm.power = false) :
    (enterSwitch x s).rpu = s.rpu := by
  unfold enterSwitch
  split
  · rfl
  · simp only [tmpSwitch_frame, piuSwitch_frame]
    rw [notify_unpowered (by simpa using h)]
    rfl

theorem beginOperation_unpowered {t : Target} {s : State} (h : mainPowered s.sdm.power = false) :
    (beginOperation t s).rpu = s.rpu := by
  simp only [beginOperation, enterRest_frame]
  exact enterSwitch_unpowered (by simpa using h)

/-- No notice is set by a change of an entry while the MAIN domain is unpowered (R177). -/
theorem changeEntry_unpowered {c : Cause} {e : Option Entry} {s : State} (h : mainPowered s.sdm.power = false) :
    (changeEntry c e s).rpu = s.rpu := by
  refine (changeEntry_keeps (P := fun x => mainPowered x.sdm.power = false ∧ x.rpu = s.rpu) ?_ (fun t x hx => ?_)
    (fun new x _ hx => ?_) (fun c x hx => by simpa using hx)).2
  · refine ⟨by rwa [(entryChanged_fields c e s).2.2], ?_⟩
    unfold entryChanged
    dsimp only
    split
    · rfl
    · rw [notify_unpowered (by simpa using h)]
      rfl
  · exact ⟨by simpa using hx.1, (beginOperation_unpowered hx.1).trans hx.2⟩
  · exact ⟨by simpa using hx.1, (enterSwitch_unpowered hx.1).trans hx.2⟩

theorem evaluateTamper_unpowered {s : State} (h : mainPowered s.sdm.power = false) : (evaluateTamper s).rpu = s.rpu := by
  unfold evaluateTamper
  split
  exacts [changeEntry_unpowered h, changeEntry_unpowered h, rfl]

theorem evaluateCredit_unpowered {s : State} (h : mainPowered s.sdm.power = false) : (evaluateCredit s).rpu = s.rpu := by
  unfold evaluateCredit
  split
  exacts [changeEntry_unpowered h, changeEntry_unpowered h, rfl]

/-- No notice is set by a claim while the MAIN domain is unpowered (R44, R177). -/
theorem claim_unpowered {f : Account → Account} {s : State} (h : mainPowered s.sdm.power = false) :
    (claim f s).rpu = s.rpu := by
  have h' (x : Account) : mainPowered (s.setAcu x).sdm.power = false := h
  simp only [claim, notify_unpowered (h' _)]
  split
  · split <;> rfl
  · rw [evaluateCredit_unpowered (by split <;> exact h)]
    split <;> rfl

/-! ## The notice of an entry's change -/

/-- A notice that is set stays set while the switch is moved. -/
theorem SwitchNoticed.keeps {x y : Rpu} (h : SwitchNoticed x y) {i : Nat} (hi : x.notices.getLsbD i = true) :
    y.notices.getLsbD i = true := by
  rcases h with rfl | rfl
  · exact hi
  · rw [Rpu.withNotice_bit, hi, Bool.true_or]

theorem activeAppeared_noticed (s : State) : SwitchNoticed s.rpu (activeAppeared s).rpu := by
  unfold activeAppeared
  split
  · split
    exacts [.refl _, beginOperation_noticed _ _]
  exacts [.of_eq (by simp), enterSwitch_noticed _ _, .refl _, .refl _, .refl _, .refl _]

theorem lastActiveLeft_noticed (c : Cause) (s : State) : SwitchNoticed s.rpu (lastActiveLeft c s).rpu := by
  unfold lastActiveLeft
  split
  · exact .of_eq (by simp)
  · split
    · split
      exacts [.refl _, beginOperation_noticed _ _]
    · exact enterSwitch_noticed _ _
  all_goals exact .refl _

/-- SWITCH is set where an entry changes its state (R135). -/
theorem changeEntry_notice {c : Cause} {e : Option Entry} {s : State} (hm : mainPowered s.sdm.power = true)
    (h : causeState e ≠ causeState (s.swc.table.get c)) : (changeEntry c e s).rpu.notices.getLsbD 3 = true := by
  have hx : (entryChanged c e s).rpu.notices.getLsbD 3 = true := by
    have hne : ¬causeState (s.swc.table.get c) = causeState e := fun k => h k.symm
    have hrpu : (entryChanged c e s).rpu = s.rpu.withNotice .switch := by
      simp only [entryChanged, if_neg hne, notify_rpu]
      exact if_pos hm
    rw [hrpu, Rpu.withNotice_bit]
    simp [noticeNumber]
  obtain ⟨h1, h2, h3⟩ := changeEntry_cases c e s
  cases ha : s.swc.table.anyActive <;> cases hb : (s.swc.table.set c e).anyActive
  · rw [h3 (ha.trans hb.symm), hx]
  · rw [h1 ha hb]
    exact (activeAppeared_noticed _).keeps hx
  · rw [h2 ha hb]
    exact (lastActiveLeft_noticed c _).keeps hx
  · rw [h3 (ha.trans hb.symm), hx]

/-! ## What the switch does -/

theorem CauseTable.get_set (t : CauseTable) (c d : Cause) (e : Option Entry) :
    (t.set c e).get d = if d = c then e else t.get d := by
  cases c <;> cases d <;> rfl

/-- The controller's own state when an ACTIVE entry has appeared with a change (R114). -/
theorem changeEntry_appeared {c : Cause} {e : Option Entry} {s : State} (h1 : s.swc.table.anyActive = false)
    (h2 : (s.swc.table.set c e).anyActive = true) :
    let t := changeEntry c e s
    let x : Swc := { s.swc with table := s.swc.table.set c e }
    (s.swc.switch = .closed → s.sdm.power ≠ .holdup →
      t.swc = { x with
        switch := .opening, intended := .opened, overCount := 0
        op := some (firstAttempt .opened s.swc.lastPulseEnd s.now) }) ∧
    (s.swc.switch = .closed → s.sdm.power = .holdup → t.swc = x) ∧
    (s.swc.switch = .armed → t.swc = { x with switch := .opened, intended := .opened, op := none }) ∧
    (s.swc.switch = .opening → t.swc = { x with op := s.swc.op.map fun o => { o with releasedBy := none } }) ∧
    (s.swc.switch = .verify ∨ s.swc.switch = .opened ∨ s.swc.switch = .closing ∨ s.swc.switch = .fault → t.swc = x) := by
  obtain ⟨hswc, hnow, hsdm⟩ := entryChanged_fields c e s
  dsimp only
  rw [(changeEntry_cases c e s).1 h1 h2, activeAppeared_swc, hswc, hnow, hsdm]
  refine ⟨fun h hp => by simp [h, hp], fun h hp => by simp [h, hp], fun h => by simp [h], fun h => by simp [h], fun h => ?_⟩
  rcases h with h | h | h | h <;> simp [h]

/-- The controller's own state when the last ACTIVE entry has left with a change (R114, R123). -/
theorem changeEntry_left {c : Cause} {e : Option Entry} {s : State} (h1 : s.swc.table.anyActive = true)
    (h2 : (s.swc.table.set c e).anyActive = false) :
    let t := changeEntry c e s
    let x : Swc := { s.swc with table := s.swc.table.set c e }
    let auto := s.swc.auto = true ∧ (c = .credit ∨ c = .order)
    (s.swc.switch = .opened → auto → s.sdm.power ≠ .holdup →
      t.swc = { x with
        switch := .closing, intended := .closed
        op := some (firstAttempt .closed s.swc.lastPulseEnd s.now) }) ∧
    (s.swc.switch = .opened → auto → s.sdm.power = .holdup → t.swc = x) ∧
    (s.swc.switch = .opened → ¬auto → t.swc = { x with switch := .armed, intended := .armed, op := none }) ∧
    (s.swc.switch = .opening → t.swc = { x with op := s.swc.op.map fun o => { o with releasedBy := some c } }) ∧
    (s.swc.switch = .verify ∨ s.swc.switch = .closed ∨ s.swc.switch = .closing ∨ s.swc.switch = .fault → t.swc = x) := by
  obtain ⟨hswc, hnow, hsdm⟩ := entryChanged_fields c e s
  dsimp only
  rw [(changeEntry_cases c e s).2.1 h1 h2, lastActiveLeft_swc, hswc, hnow, hsdm]
  refine ⟨fun h ha hp => ?_, fun h ha hp => ?_, fun h ha => ?_, fun h => by simp [h], fun h => ?_⟩
  · simp only [h, if_pos ha, if_neg hp]
  · simp only [h, if_pos ha, if_pos hp]
  · simp only [h, if_neg ha]
  · rcases h with h | h | h | h <;> simp [h]

/-! ## The obligation -/

/-- The CREDIT entry, by the lines of the table of R109. -/
theorem evaluateCredit_lines (s : State) :
    let should := s.swc.held = .exhausted ∧ s.tcu.untilDay = none
    (should → s.swc.table.credit = none →
      evaluateCredit s = changeEntry .credit (some ⟨friendlyNow s.tcu, s.tcu.clock, none⟩) s) ∧
    (¬should → s.swc.table.credit ≠ none → evaluateCredit s = changeEntry .credit none s) ∧
    (should ∧ s.swc.table.credit ≠ none ∨ ¬should ∧ s.swc.table.credit = none → evaluateCredit s = s) := by
  intro should
  have hs : (s.swc.held == .exhausted && s.tcu.untilDay.isNone) = true ↔ should := by simp [should]
  unfold evaluateCredit
  cases hc : s.swc.table.credit <;> cases hb : (s.swc.held == .exhausted && s.tcu.untilDay.isNone) <;>
    simp [← hs, hb]

/-- The friendly period handed to the CREDIT entry, by the lines of R67 and R110. -/
theorem evaluateFriendly_lines (s : State) :
    let v := friendlyNow s.tcu
    let s' := { s with tcu := { s.tcu with lastFriendly := some v } }
    (s.tcu.lastFriendly = some v → evaluateFriendly s = s) ∧
    (s.tcu.lastFriendly ≠ some v →
      (∀ e, s.swc.table.credit = some e →
        (e.deferred ≠ v → evaluateFriendly s = changeEntry .credit (some { e with deferred := v }) s') ∧
        (e.deferred = v → evaluateFriendly s = s')) ∧
      (s.swc.table.credit = none → evaluateFriendly s = s')) := by
  refine ⟨fun h => if_pos h, fun h => ⟨fun e he => ⟨fun hd => ?_, fun hd => ?_⟩, fun he => ?_⟩⟩
  · refine (if_neg h).trans ?_
    simp only [handFriendly, State.setTcu_fields, he, if_neg hd]
    rfl
  · refine (if_neg h).trans ?_
    simp only [handFriendly, State.setTcu_fields, he, if_pos hd]
    rfl
  · refine (if_neg h).trans ?_
    simp only [handFriendly, State.setTcu_fields, he]
    rfl

/-- Settles O29, by the lines of the tables of R109, R110 and R114, and the notices of a claim. -/
theorem causesMoveTheSwitch : Obligations.CausesMoveTheSwitch := by
  refine ⟨fun s c e => ?_, evaluateCredit_lines, fun f s => ?_, evaluateFriendly_lines⟩
  · intro table t stands begins
    have first (target : Target) (h : t.swc.op = some (firstAttempt target s.swc.lastPulseEnd s.now)) : begins target :=
      ⟨_, h, firstAttempt_fields _ _ _⟩
    have stands_of {x : Option Operation} (h : t.swc = { s.swc with table := table, op := x }) : stands x := h
    refine ⟨fun d => CauseTable.get_set _ c d e, changeEntry_table c e s, fun h => ?_, fun h1 h2 => ?_, fun h1 h2 => ?_,
      changeEntry_notice, by simp [t], by simp [t], by simp [t], by simp [t], by simp [t], by simp [t], by simp [t],
      by simp [t]⟩
    · refine stands_of ?_
      rw [show t = entryChanged c e s from (changeEntry_cases c e s).2.2 h, (entryChanged_fields c e s).1]
    · obtain ⟨a1, a2, a3, a4, a5⟩ := changeEntry_appeared h1 h2
      exact ⟨fun h hp => ⟨by rw [a1 h hp], by rw [a1 h hp], first _ (by rw [a1 h hp])⟩, fun h hp => stands_of (a2 h hp),
        fun h => ⟨by rw [a3 h], by rw [a3 h], by rw [a3 h]⟩, fun h => stands_of (a4 h), fun h => stands_of (a5 h)⟩
    · obtain ⟨a1, a2, a3, a4, a5⟩ := changeEntry_left h1 h2
      exact ⟨fun h ha hp => ⟨by rw [a1 h ha hp], by rw [a1 h ha hp], first _ (by rw [a1 h ha hp])⟩,
        fun h ha hp => stands_of (a2 h ha hp), fun h ha => ⟨by rw [a3 h ha], by rw [a3 h ha], by rw [a3 h ha]⟩,
        fun h => stands_of (a4 h), fun h => stands_of (a5 h)⟩
  · refine ⟨claim_acu f s, claim_unpowered, fun hm => ?_, fun h => (claim_unchanged f (not_not.mp h)).2,
      fun h => (claim_unchanged f (not_not.mp h)).1, fun h => ?_⟩
    · obtain ⟨h0, h1, h2⟩ := claimedRpu_bits (b := f s.acu) hm
      have hn := claim_noticed f s
      exact ⟨by rw [hn.bit (by decide), h0], by rw [hn.bit (by decide), h1],
        fun n _ hn2 hn3 => by rw [hn.bit hn3, h2 n hn2]⟩
    · have hst : (claim f s).acu.state = (f s.acu).state := by simp
      have hh := (claim_stateHanded f s).2 (by rwa [hst])
      rwa [hst] at hh

end Sys2Proof.Machine
end

