-- ==== Sys2Proof/Proofs/Verifications.lean ====
section
/-! The verification at the end of a settle (R118 to R121), and a press of the reconnect button (R122). -/

namespace Sys2Proof.Machine

/-! ## SETTLE_END -/

/-- SETTLE_END at or after the end of the settle, in RUN (R118). -/
theorem exec_settleEnd {m : Moment} {s : State} {o : Operation} (hp : s.sdm.power = .run)
    (hs : s.swc.switch = movingState o.target) (ho : s.swc.op = some o) (hph : o.phase = .settle)
    (he : o.ends ≤ s.now + m.elapsed) : exec (.settleEnd m) s = .next (verify o (observe m 0 s)) := by
  have hobs := observe_working (s := s) m (.inl hp)
  have hmoving : s.swc.switch = .opening ∨ s.swc.switch = .closing := by
    rw [hs]
    cases o.target <;> simp [movingState]
  have hin : inPhase (observe m 0 s).swc .settle = true := by
    rw [hobs]
    exact inPhase_iff.mpr ⟨hmoving, o, ho, hph⟩
  have hrun : operates (observe m 0 s).sdm.power = true := by simp [hobs, hp, operates, mainPowered]
  have hop : (observe m 0 s).swc.op = some o := by rw [hobs]; exact ho
  have hend : o.ends ≤ (observe m 0 s).now := by rw [hobs]; exact he
  have hx : exec (.settleEnd m) s = execSettleEnd m s := rfl
  rw [hx]
  simp only [execSettleEnd, hop]
  rw [if_pos ⟨hin, hrun, hend⟩]

/-- The part with the result of a verification (R118). -/
def verified (o : Operation) (s : State) : State :=
  s.setSwc { s.swc with lastVerification := some (verification o.target s.pins) }

/-- What a verification comes to (R119 to R121). -/
theorem verify_lines (o : Operation) (s : State) :
    let found := foundOf s.pins
    (found = targetFound o.target →
      (o.target = .opened → verify o s = passOpen o (verified o s)) ∧
      (o.target = .closed → verify o s = passClose (verified o s))) ∧
    (found ≠ targetFound o.target →
      (o.attempt < 3 → verify o s = enterRest { o with attempt := o.attempt + 1 } (verified o s)) ∧
      (3 ≤ o.attempt → verify o s = operationFault (verification o.target s.pins).phase (verified o s))) := by
  refine ⟨fun h => ⟨fun ht => ?_, fun ht => ?_⟩, fun h => ⟨fun ha => ?_, fun ha => ?_⟩⟩
  · refine (if_pos h).trans ?_
    simp only [verified, ht]
  · refine (if_pos h).trans ?_
    simp only [verified, ht]
  · exact (if_neg h).trans (if_pos ha)
  · exact (if_neg h).trans (if_neg (by omega))

/-- The switch in FAULT (R115, R119). -/
theorem operationFault_gives (p : Option Phase) {s : State} {o : Operation} (hs : s.swc.switch ≠ .fault)
    (ho : s.swc.op = some o) (hm : mainPowered s.sdm.power = true) :
    let t := operationFault p s
    t.swc.switch = .fault ∧ t.swc.op = some o ∧ t.swc.intended = o.target.position ∧
      t.swc.lastVerification = s.swc.lastVerification ∧ t.swc.table = s.swc.table ∧
      t.elg = s.elg.join (makeRecord .switchFault none p none s) ∧
      t.rpu.notices.getLsbD 4 = true ∧ t.rpu.notices.getLsbD 3 = true := by
  have hent := enterSwitch_swc hs
  have hswc : (operationFault p s).swc = (enterSwitch .fault s).swc := by simp [operationFault]
  have hpiu : (enterSwitch .fault s).piu.billedWh = s.piu.billedWh := by
    rw [enterSwitch_piu hs]
    split <;> rfl
  have helg : (operationFault p s).elg = s.elg.join (makeRecord .switchFault none p none s) := by
    simp [operationFault, append, makeRecord, hpiu]
  have h3 : (enterSwitch .fault s).rpu = s.rpu.withNotice .switch := by
    simp only [enterSwitch, if_neg hs, tmpSwitch_frame, piuSwitch_frame, notify_rpu]
    exact if_pos hm
  have hrpu : (operationFault p s).rpu = (s.rpu.withNotice .switch).withNotice .switchFault := by
    simp only [operationFault, notify_rpu, append, State.setElg_fields, enterSwitch_frame, h3]
    exact if_pos hm
  dsimp only
  rw [hswc, hent, helg, hrpu]
  refine ⟨rfl, ho, ?_, rfl, rfl, rfl, ?_, ?_⟩
  · cases ht : o.target <;> simp only [intendedAfter, ho, ht, Target.position]
  · rw [Rpu.withNotice_bit]
    simp [noticeNumber]
  · rw [Rpu.withNotice_bit, Rpu.withNotice_bit]
    simp [noticeNumber]

/-- An entry into a switch state leaves the table and the last verification. -/
theorem enterSwitch_kept_table (x : SwitchState) (s : State) :
    (enterSwitch x s).swc.table = s.swc.table ∧ (enterSwitch x s).swc.lastVerification = s.swc.lastVerification := by
  by_cases h : s.swc.switch = x
  · rw [enterSwitch_same h]
    exact ⟨rfl, rfl⟩
  · rw [enterSwitch_swc h]
    exact ⟨rfl, rfl⟩

/-- The beginning of an operation leaves the table and the last verification. -/
theorem beginOperation_kept_table (t : Target) (s : State) :
    (beginOperation t s).swc.table = s.swc.table ∧
      (beginOperation t s).swc.lastVerification = s.swc.lastVerification := by
  obtain ⟨h1, h2⟩ := enterSwitch_kept_table (movingState t) (s.setSwc { s.swc with op := some ⟨t, 1, .rest, none, 0⟩ })
  simp only [beginOperation, enterRest_swc]
  exact ⟨h1, h2⟩

/-- A verification leaves the table, and its result stands (R118). -/
theorem verify_kept_table (o : Operation) (s : State) :
    (verify o s).swc.table = s.swc.table ∧
      (verify o s).swc.lastVerification = some (verification o.target s.pins) := by
  have henter (x : SwitchState) : (enterSwitch x (verified o s)).swc.table = s.swc.table ∧
      (enterSwitch x (verified o s)).swc.lastVerification = some (verification o.target s.pins) :=
    enterSwitch_kept_table x (verified o s)
  have hbegin (t : Target) : (beginOperation t (verified o s)).swc.table = s.swc.table ∧
      (beginOperation t (verified o s)).swc.lastVerification = some (verification o.target s.pins) :=
    beginOperation_kept_table t (verified o s)
  obtain ⟨hpass, hfail⟩ := verify_lines o s
  by_cases h : foundOf s.pins = targetFound o.target
  · cases ht : o.target
    · rw [(hpass h).1 ht, ← ht]
      unfold passOpen
      split
      · exact henter _
      · split
        exacts [hbegin _, henter _]
    · rw [(hpass h).2 ht, ← ht]
      unfold passClose
      split
      exacts [hbegin _, henter _]
  · by_cases ha : o.attempt < 3
    · rw [(hfail h).1 ha, enterRest_swc]
      exact ⟨rfl, rfl⟩
    · rw [(hfail h).2 (by omega)]
      simpa [operationFault] using henter .fault

/-- Settles O27, by the lines of R119 to R121. -/
theorem settleEndsInAVerification : Obligations.SettleEndsInAVerification := by
  intro m s o hp hs ho hph he found v
  have hobs := observe_working (s := s) m (.inl hp)
  have hexec := exec_settleEnd hp hs ho hph he
  have hpins : (observe m 0 s).pins = m.pins := by rw [hobs]
  obtain ⟨hpass, hfail⟩ := verify_lines o (observe m 0 s)
  obtain ⟨htable, hlast⟩ := verify_kept_table o (observe m 0 s)
  rw [hpins] at hpass hfail hlast
  rw [show (observe m 0 s).swc.table = s.swc.table by rw [hobs]] at htable
  have hframe : (verify o (observe m 0 s)).acu = s.acu ∧ (verify o (observe m 0 s)).tcu = s.tcu ∧
      (verify o (observe m 0 s)).ots = s.ots ∧ (verify o (observe m 0 s)).sdm = s.sdm ∧
      (verify o (observe m 0 s)).pending = s.pending := by simp [hobs]
  -- The part as the verification's result finds it.
  have hswc : (verified o (observe m 0 s)).swc = { s.swc with lastVerification := some v } := by rw [hobs]; rfl
  have hnow : (verified o (observe m 0 s)).now = s.now + m.elapsed := by rw [hobs]; rfl
  have helg : (verified o (observe m 0 s)).elg = s.elg := by rw [hobs]; rfl
  have hmain : mainPowered (verified o (observe m 0 s)).sdm.power = true := by
    rw [hobs]
    exact mainPowered_working (.inl hp)
  have hrec : makeRecord .switchFault none v.phase none (verified o (observe m 0 s)) =
      makeRecord .switchFault none v.phase none s := by rw [hobs]; rfl
  generalize verified o (observe m 0 s) = y at hpass hfail hswc hnow helg hmain hrec
  have hswitch : y.swc.switch = movingState o.target := by rw [hswc]; exact hs
  refine ⟨_, hexec, hlast, htable, fun ht hf ha => ?_, fun ht hf ha => ?_, fun ht hf => ?_, fun hf ha => ?_,
    fun hf ha => ?_, hframe⟩
  · have hopening : y.swc.switch ≠ .opened := by rw [hswitch, ht]; decide
    rw [(hpass (hf.trans (by rw [ht]; rfl))).1 ht, passOpen, if_pos (by rw [hswc]; exact ha)]
    refine ⟨by rw [enterSwitch_swc hopening], by rw [enterSwitch_swc hopening]; rfl, by rw [enterSwitch_swc hopening]; rfl,
      by simpa using helg⟩
  · have hopening (x : SwitchState) (hx : x ≠ .opening) : y.swc.switch ≠ x := by
      rw [hswitch, ht]
      exact hx.symm
    rw [(hpass (hf.trans (by rw [ht]; rfl))).1 ht, passOpen, if_neg (by rw [hswc]; simp [ha])]
    have hrec : reconnects y.swc o.releasedBy = true ↔
        s.swc.auto = true ∧ (o.releasedBy = some .credit ∨ o.releasedBy = some .order) := by
      simp [hswc, reconnects]
    refine ⟨fun h => ?_, fun h => ?_⟩
    · rw [if_pos (hrec.mpr h), beginOperation_swc (hopening _ (by decide))]
      exact ⟨rfl, rfl⟩
    · rw [if_neg fun k => h (hrec.mp k), enterSwitch_swc (hopening _ (by decide))]
      exact ⟨rfl, rfl⟩
  · have hclosing (x : SwitchState) (hx : x ≠ .closing) : y.swc.switch ≠ x := by
      rw [hswitch, ht]
      exact hx.symm
    rw [(hpass (hf.trans (by rw [ht]; rfl))).2 ht, passClose]
    refine ⟨fun ha => ?_, fun ha => ?_⟩
    · rw [if_neg (by rw [hswc]; simp [ha]), enterSwitch_swc (hclosing _ (by decide))]
      exact ⟨rfl, rfl⟩
    · rw [if_pos (by rw [hswc]; exact ha), beginOperation_swc (hclosing _ (by decide))]
      exact ⟨rfl, rfl⟩
  · rw [(hfail hf).1 ha, enterRest_swc, hswc, hnow]
    refine ⟨rfl, _, rfl, ?_⟩
    split
    · rename_i hrested
      exact ⟨rfl, rfl, rfl, fun h => absurd h (Nat.not_lt.mpr hrested)⟩
    · exact ⟨rfl, rfl, rfl, fun _ => rfl⟩
  · have hfault : y.swc.switch ≠ .fault := by
      rw [hswitch]
      cases o.target <;> decide
    obtain ⟨f1, f2, f3, -, -, f6, f7, f8⟩ :=
      operationFault_gives v.phase hfault (by rw [hswc]; exact ho) hmain
    rw [(hfail hf).2 ha]
    refine ⟨f1, f2, f3.trans ?_, ?_, f7, f8⟩
    · cases o.target <;> rfl
    · rw [helg] at f6
      exact f6.trans (congrArg s.elg.join hrec)

/-! ## RECONNECT_PRESS -/

/-- An edge that is a press (R122). -/
def isPress (m : Moment) (held : Nat) (s : State) : Prop :=
  50 ≤ held ∧ mainPowered s.sdm.power = true ∧ freshEdge held (observe m 0 s) = true

/-- A fresh edge, outside a held reset: the line is high, and the edge is neither older than the last low level nor than
the last press. -/
theorem freshEdge_running {m : Moment} {held : Nat} {s : State} (hr : resetHeld s = false) :
    freshEdge held (observe m 0 s) = true ↔
      m.pins.rcb = true ∧ (if s.pins.rcb then s.rcbLow else s.now) + held ≤ s.now + m.elapsed ∧
        s.swc.lastPress + held < s.now + m.elapsed := by
  rw [observe_running m hr]
  simp [freshEdge, and_assoc]

/-- RECONNECT_PRESS: the press is sampled in its own event, and no press is none (R122). -/
theorem exec_reconnectPress (m : Moment) (held : Nat) (s : State) :
    (isPress m held s → exec (.reconnectPress m held) s =
      .next (samplePress ((observe m 0 s).setSwc
        { (observe m 0 s).swc with pressLatch := true, lastPress := (observe m 0 s).now }))) ∧
    (¬isPress m held s → exec (.reconnectPress m held) s = .next (observe m 0 s)) := by
  have hp := (observe_fields m 0 s).2.2.1
  refine ⟨fun ⟨h1, h2, h3⟩ => ?_, fun h => ?_⟩
  · exact if_pos ⟨h1, by rw [hp]; exact h2, h3⟩
  · refine if_neg fun ⟨h1, h2, h3⟩ => h ⟨h1, ?_, h3⟩
    rwa [hp] at h2

/-- At a held reset the last press is the reset itself, and no edge is younger (R203; logs 34 and 42). -/
theorem freshEdge_held {m : Moment} {held : Nat} {s : State} (hr : resetHeld s = true) :
    freshEdge held (observe m 0 s) = false := by
  have hnow : (observe m 0 s).swc.lastPress = (observe m 0 s).now := by
    rw [(aMomentPasses m s).2 hr]
    rfl
  simp [freshEdge, hnow]

/-- Settles O28, by the three conditions of a press and what its sample finds. -/
theorem reconnectPressIsTakenOrDiscarded : Obligations.ReconnectPressIsTakenOrDiscarded := by
  intro m s held low
  obtain ⟨hpress, hnone⟩ := exec_reconnectPress m held s
  refine ⟨fun hm hr h50 hrcb hlow hlast => ?_, fun h => hnone fun ⟨h50, hm, hfresh⟩ => ?_⟩
  · have hobs := observe_running (s := s) m hr
    have hexec := hpress ⟨h50, hm, (freshEdge_running hr).mpr ⟨hrcb, hlow, hlast⟩⟩
    -- The part as the sample finds it.
    have hswc : ((observe m 0 s).setSwc
        { (observe m 0 s).swc with pressLatch := true, lastPress := (observe m 0 s).now }).swc =
          { s.swc with pressLatch := true, lastPress := s.now + m.elapsed } := by rw [hobs]; rfl
    generalize hy : (observe m 0 s).setSwc
      { (observe m 0 s).swc with pressLatch := true, lastPress := (observe m 0 s).now } = y at hexec hswc
    have hpower : y.sdm = s.sdm ∧ y.now = s.now + m.elapsed ∧ y.rcbLow = low := by
      rw [← hy, hobs]
      exact ⟨rfl, rfl, rfl⟩
    obtain ⟨hsdm, hnow, hrcbLow⟩ := hpower
    refine ⟨fun hrun harmed hact => ?_, fun hn => ?_⟩
    · have hsample : samplePress y = beginOperation .closed (y.setSwc { y.swc with pressLatch := false }) := by
        refine if_pos ⟨by rw [hswc], ?_, ?_, ?_⟩
        · show y.sdm.power = .run
          rw [hsdm]
          exact hrun
        · show y.swc.switch = .armed
          rw [hswc]
          exact harmed
        · show y.swc.table.anyActive = false
          rw [hswc]
          exact hact
      have hbegin := beginOperation_swc (t := .closed) (s := y.setSwc { y.swc with pressLatch := false })
        (by simp [hswc, harmed, movingState])
      rw [← hsample] at hbegin
      have hswc' : (samplePress y).swc =
          { s.swc with
            pressLatch := false, lastPress := s.now + m.elapsed, switch := .closing, intended := .closed
            op := some (firstAttempt .closed s.swc.lastPulseEnd (s.now + m.elapsed))
            overCount := if s.swc.switch = .closed then 0 else s.swc.overCount } := by
        rw [hbegin]
        simp [hswc, hnow, movingState, Target.position]
      obtain ⟨o1, o2, o3, o4⟩ := firstAttempt_fields .closed s.swc.lastPulseEnd (s.now + m.elapsed)
      have hframe : y.acu = s.acu ∧ y.tcu = s.tcu ∧ y.ots = s.ots ∧ y.elg = s.elg ∧ y.pending = s.pending := by
        rw [← hy, hobs]
        exact ⟨rfl, rfl, rfl, rfl, rfl⟩
      refine ⟨_, _, hexec, by rw [hswc'], by rw [hswc'], by rw [hswc'], o1, o2, o3, o4, by rw [hswc'], by rw [hswc'],
        by simpa using hrcbLow, by rw [hswc'], by simpa using hframe⟩
    · have hsample : samplePress y = y.setSwc { y.swc with pressLatch := false } := by
        refine if_neg fun ⟨_, h2, h3, h4⟩ => hn ⟨?_, ?_, ?_⟩
        · rw [← hsdm]
          exact h2
        · have h3' : y.swc.switch = .armed := h3
          rwa [hswc] at h3'
        · have h4' : y.swc.table.anyActive = false := h4
          rwa [hswc] at h4'
      rw [hexec, hsample, hswc, ← hy]
      rfl
  · cases hr : resetHeld s
    · obtain ⟨h1, h2, h3⟩ := (freshEdge_running hr).mp hfresh
      rcases h with h | h | h | h | h | ⟨-, h⟩
      · omega
      · rw [h] at hm
        cases hm
      · rw [h] at hr
        cases hr
      · rw [h] at h1
        cases h1
      · omega
      · omega
    · rw [freshEdge_held hr] at hfresh
      cases hfresh

end Sys2Proof.Machine
end

