-- ==== Sys2Proof/Proofs/Pulses.lean ====
section
/-! PULSE_EDGE (R2 to R6, R8, R9, R12, R14). -/

namespace Sys2Proof.Machine

/-! ## A phase that is not stalled -/

/-- The stall timer of a phase is 0 and its flag clear. -/
def Piu.Unstalled (x : Piu) (n : Phase) : Prop := x.stallTimer.get n = 0 ∧ x.stallFlag.get n = false

/-- The switch clears stalls and makes none (R12). -/
theorem enterSwitch_unstalled {n : Phase} {s : State} (h : s.piu.Unstalled n) (new : SwitchState) :
    (enterSwitch new s).piu.Unstalled n := by
  by_cases hs : s.swc.switch = new
  · rwa [enterSwitch_same hs]
  · rw [enterSwitch_piu hs]
    split
    · cases n <;> exact ⟨rfl, rfl⟩
    · exact h

theorem beginOperation_unstalled {n : Phase} {s : State} (h : s.piu.Unstalled n) (t : Target) :
    (beginOperation t s).piu.Unstalled n := by
  have hs := enterSwitch_unstalled (s := s.setSwc { s.swc with op := some ⟨t, 1, .rest, none, 0⟩ }) h (movingState t)
  simpa [beginOperation] using hs

theorem changeEntry_unstalled {n : Phase} {s : State} (h : s.piu.Unstalled n) (c : Cause) (e : Option Entry) :
    (changeEntry c e s).piu.Unstalled n := by
  refine changeEntry_keeps (P := fun x => x.piu.Unstalled n) ?_ (fun t x hx => beginOperation_unstalled hx t)
    (fun new x _ hx => enterSwitch_unstalled hx new) (fun c x hx => by simpa using hx)
  unfold entryChanged
  dsimp only
  split <;> simpa using h

theorem evaluateTamper_unstalled {n : Phase} {s : State} (h : s.piu.Unstalled n) :
    (evaluateTamper s).piu.Unstalled n := by
  unfold evaluateTamper
  split
  exacts [changeEntry_unstalled h _ _, changeEntry_unstalled h _ _, h]

theorem hand_unstalled {n : Phase} {s : State} (h : s.piu.Unstalled n) (k : Kind) (v : Bool) (p : Option Phase) :
    (hand k v p s).piu.Unstalled n := by
  have hrise : (rise k p s).piu.Unstalled n := by
    unfold rise
    dsimp only
    split
    · exact h
    · split
      · simpa using h
      · split
        · exact evaluateTamper_unstalled (by simpa using h)
        · simpa using h
  unfold hand
  split
  · exact h
  · split
    exacts [hrise, h]

theorem claim_unstalled {n : Phase} {s : State} (h : s.piu.Unstalled n) (f : Account → Account) :
    (claim f s).piu.Unstalled n := by
  have hcredit (x : State) (hx : x.piu.Unstalled n) : (evaluateCredit x).piu.Unstalled n := by
    unfold evaluateCredit
    split
    exacts [changeEntry_unstalled hx _ _, changeEntry_unstalled hx _ _, hx]
  unfold claim
  dsimp only
  split
  · split <;> simpa using h
  · refine hcredit _ ?_
    split <;> simpa using h

/-! ## An accepted pulse -/

/-- The part after an accepted pulse's own counts and its debit, before its conditions (R3 to R6). -/
def pulseCounted (n : Phase) (d : Direction) (s : State) : State :=
  if completesWh d s.piu then claim (Account.charge (currentPrice s.tcu)) (s.setPiu (piuAfterPulse n d s.now s.piu))
  else s.setPiu (piuAfterPulse n d s.now s.piu)

/-- Whether a pulse ends the last stall of a phase (R12). -/
def endsStall (n : Phase) (d : Direction) (s : State) : Bool :=
  anyPhase s.piu.stallFlag && !anyPhase (piuAfterPulse n d s.now s.piu).stallFlag

theorem acceptPulse_eq (n : Phase) (d : Direction) (s : State) :
    acceptPulse n d s =
      if endsStall n d s then hand .ms false none (handReverse (anyPhase s.piu.reverseFlag) n (pulseCounted n d s))
      else handReverse (anyPhase s.piu.reverseFlag) n (pulseCounted n d s) := rfl

/-- The conditions of a pulse touch neither the account, the clock, the acceptor nor the link. -/
theorem acceptPulse_rest (n : Phase) (d : Direction) (s : State) :
    (acceptPulse n d s).acu = (pulseCounted n d s).acu ∧ (acceptPulse n d s).tcu = s.tcu ∧
      (acceptPulse n d s).ots = s.ots ∧ (acceptPulse n d s).sdm = s.sdm ∧ (acceptPulse n d s).cda = s.cda ∧
      (acceptPulse n d s).lnk = s.lnk ∧ (acceptPulse n d s).pending = s.pending := by
  have hframe : (pulseCounted n d s).tcu = s.tcu ∧ (pulseCounted n d s).ots = s.ots ∧ (pulseCounted n d s).sdm = s.sdm ∧
      (pulseCounted n d s).cda = s.cda ∧ (pulseCounted n d s).lnk = s.lnk ∧
      (pulseCounted n d s).pending = s.pending := by
    unfold pulseCounted
    split <;> simp
  rw [acceptPulse_eq]
  generalize pulseCounted n d s = u at hframe ⊢
  unfold handReverse
  dsimp only
  split <;> split <;> simpa using hframe

/-- The unit after an accepted pulse is what the pulse makes of it, but for stalls that the switch clears (R12). -/
theorem acceptPulse_piu (n : Phase) (d : Direction) (s : State) :
    (piuAfterPulse n d s.now s.piu).SameMeter (acceptPulse n d s).piu ∧ (acceptPulse n d s).piu.Unstalled n := by
  have hown : (s.setPiu (piuAfterPulse n d s.now s.piu)).piu.Unstalled n := by
    simp [Piu.Unstalled, piuAfterPulse_eq]
  have hcounted : (piuAfterPulse n d s.now s.piu).SameMeter (pulseCounted n d s).piu ∧
      (pulseCounted n d s).piu.Unstalled n := by
    unfold pulseCounted
    split
    exacts [⟨claim_meter _ _, claim_unstalled hown _⟩, ⟨.refl _, hown⟩]
  have hreverse (b : Bool) (x : State) (hx : x.piu.Unstalled n) :
      x.piu.SameMeter (handReverse b n x).piu ∧ (handReverse b n x).piu.Unstalled n := by
    unfold handReverse
    dsimp only
    split
    exacts [⟨.refl _, hx⟩, ⟨hand_meter _ _ _ _, hand_unstalled hx _ _ _⟩]
  obtain ⟨r1, r2⟩ := hreverse (anyPhase s.piu.reverseFlag) _ hcounted.2
  rw [acceptPulse_eq]
  split
  · exact ⟨(hcounted.1.trans r1).trans (hand_meter _ _ _ _), hand_unstalled r2 _ _ _⟩
  · exact ⟨hcounted.1.trans r1, r2⟩

theorem completesWh_iff (d : Direction) (x : Piu) :
    completesWh d x = true ↔ (d = .importing ∨ x.absolute = true) ∧ 10 ≤ x.residue + weightDwh x.weight := by
  simp [completesWh, billable]

/-- PULSE_EDGE of an edge that is accepted, and of one that is not (R2, R3). -/
theorem exec_pulseEdge (m : Moment) (n : Phase) (s : State) :
    (acceptsEdge n (observe m 0 s) = true →
      exec (.pulseEdge m n) s = .next (acceptPulse n (directionOf n (observe m 0 s).pins) (observe m 0 s))) ∧
    (acceptsEdge n (observe m 0 s) = false → exec (.pulseEdge m n) s = .next (observe m 0 s)) := by
  refine ⟨fun h => if_pos h, fun h => if_neg ?_⟩
  rw [h]
  decide

theorem acceptsEdge_iff {n : Phase} {s : State} :
    acceptsEdge n s = true ↔
      (s.sdm.power = .run ∨ s.sdm.power = .holdup) ∧ ∀ t0, s.piu.lastPulse.get n = some t0 → t0 + 10 ≤ s.now := by
  unfold acceptsEdge
  rw [Bool.and_eq_true, working_iff]
  cases s.piu.lastPulse.get n with
  | none => simp
  | some t0 =>
    simp only [decide_eq_true_eq]
    simp [Config.pulseSpacing]

/-- Settles O9, by the unit's own state after a pulse, its debit, and what its conditions leave. -/
theorem pulseEdges : Obligations.PulseEdges := by
  refine ⟨fun m n s hp hlast => ?_, fun m n s t0 h => ?_⟩
  · intro d w billed whole h
    have hobs := observe_working (s := s) m hp
    have hacc : acceptsEdge n (observe m 0 s) = true := by
      rw [acceptsEdge_iff, hobs]
      exact ⟨hp, hlast⟩
    have hexec := (exec_pulseEdge m n s).1 hacc
    have hd : directionOf n (observe m 0 s).pins = d := by rw [hobs]; rfl
    rw [hd] at hexec
    obtain ⟨hmeter, htimer, hflag⟩ := acceptPulse_piu n d (observe m 0 s)
    obtain ⟨racu, rtcu, rots, rsdm, rcda, rlnk, rpending⟩ := acceptPulse_rest n d (observe m 0 s)
    have hkeep : (observe m 0 s).piu = s.piu ∧ (observe m 0 s).acu = s.acu ∧ (observe m 0 s).tcu = s.tcu ∧
        (observe m 0 s).now = s.now + m.elapsed ∧ (observe m 0 s).ots = s.ots ∧ (observe m 0 s).sdm = s.sdm ∧
        (observe m 0 s).pending = s.pending := by
      rw [hobs]
      exact ⟨rfl, rfl, rfl, rfl, rfl, rfl, rfl⟩
    obtain ⟨piu, acu, tcu, now, ots, sdm, pending⟩ := hkeep
    obtain ⟨f1, f2, f3, f4, f5, f6, f7, f8, f9, f10, f11, f12⟩ := hmeter.fields
    rw [piu, now, piuAfterPulse_eq] at f1 f2 f3 f4 f5 f6 f7 f8 f9 f10 f11 f12
    have hwhole : completesWh d s.piu = true ↔ whole := completesWh_iff d s.piu
    have hbilled : billable d s.piu = true ↔ billed := by simp [billable, billed]
    refine ⟨_, hexec, f1, f2, fun hw => ⟨f4.trans (if_pos (hwhole.mpr hw)), f3.trans (if_pos (hwhole.mpr hw)), ?_⟩,
      fun hw => ⟨f3.trans (if_neg fun k => hw (hwhole.mp k)), ?_, fun hb => ?_, fun hb => ?_⟩, f9, f10, ?_, htimer, hflag,
      fun hdem => ?_, fun acc hdem => ?_, f5, f6, f7, f12, rtcu.trans tcu, rots.trans ots, rsdm.trans sdm, rcda, rlnk,
      rpending.trans pending⟩
    · rw [racu, pulseCounted, piu, if_pos (hwhole.mpr hw), claim_acu, tcu]
      simp only [State.setPiu_fields, acu]
      rfl
    · rw [racu, pulseCounted, piu, if_neg fun k => hw (hwhole.mp k)]
      exact acu
    · exact (f4.trans (if_neg fun k => hw (hwhole.mp k))).trans (if_pos (hbilled.mpr hb))
    · exact (f4.trans (if_neg fun k => hw (hwhole.mp k))).trans (if_neg fun k => hb (hbilled.mp k))
    · rw [f8, Phases.get_set, if_pos rfl]
      rfl
    · rw [f11]
      simp only [demandAfter, hdem]
    · rw [f11]
      simp only [demandAfter, hdem]
      rfl
  · refine (exec_pulseEdge m n s).2 (Bool.eq_false_iff.mpr fun hacc => ?_)
    obtain ⟨-, -, hpower, -⟩ := observe_fields m 0 s
    obtain ⟨hp, hlast⟩ := acceptsEdge_iff.mp hacc
    rw [hpower] at hp
    rcases h with h | h | h | ⟨hl, hlt⟩
    · simp [h] at hp
    · simp [h] at hp
    · simp [h] at hp
    · rw [observe_working m hp] at hlast
      exact absurd (hlast t0 hl) (by simp only; omega)

end Sys2Proof.Machine
end

