-- ==== Sys2Proof/Proofs/Filters.lean ====
section
/-! The run and battery filters (R140, R141). -/

namespace Sys2Proof.Machine

/-! ## What a condition that is handed leaves of the filters -/

/-- Two states of the Tamper Monitor differ in the latches and in what a switch state that is handed changes. -/
def Tmp.SameFilters (x y : Tmp) : Prop :=
  ∃ latches handed history, y = { x with latches := latches, lastHanded := handed, soHistory := history }

theorem Tmp.SameFilters.refl (x : Tmp) : x.SameFilters x := ⟨_, _, _, rfl⟩

theorem Tmp.SameFilters.of_eq {x y : Tmp} (h : y = x) : x.SameFilters y := h ▸ .refl x

theorem Tmp.SameFilters.trans {x y z : Tmp} (h : x.SameFilters y) (k : y.SameFilters z) : x.SameFilters z := by
  obtain ⟨a, b, c, rfl⟩ := h
  obtain ⟨a', b', c', rfl⟩ := k
  exact ⟨a', b', c', rfl⟩

theorem enterSwitch_filters (new : SwitchState) (s : State) : s.tmp.SameFilters (enterSwitch new s).tmp := by
  by_cases h : s.swc.switch = new
  · exact .of_eq (by rw [enterSwitch_same h])
  · rw [enterSwitch_tmp h]
    exact ⟨_, _, _, rfl⟩

theorem beginOperation_filters (t : Target) (s : State) : s.tmp.SameFilters (beginOperation t s).tmp := by
  have h := enterSwitch_filters (movingState t) (s.setSwc { s.swc with op := some ⟨t, 1, .rest, none, 0⟩ })
  simpa [beginOperation] using h

theorem changeEntry_filters (c : Cause) (e : Option Entry) (s : State) : s.tmp.SameFilters (changeEntry c e s).tmp := by
  refine changeEntry_keeps (P := fun x => s.tmp.SameFilters x.tmp) ?_ (fun t x h => h.trans (beginOperation_filters t x))
    (fun new x _ h => h.trans (enterSwitch_filters new x)) (fun c x h => by simpa using h)
  unfold entryChanged
  dsimp only
  split <;> exact .of_eq (by simp)

theorem evaluateTamper_filters (s : State) : s.tmp.SameFilters (evaluateTamper s).tmp := by
  unfold evaluateTamper
  split
  exacts [changeEntry_filters _ _ _, changeEntry_filters _ _ _, .refl _]

theorem setLatch_filters (k : Kind) (l : Latch) (s : State) : s.tmp.SameFilters (setLatch k l s).tmp := ⟨_, _, _, rfl⟩

theorem rise_filters (k : Kind) (p : Option Phase) (s : State) : s.tmp.SameFilters (rise k p s).tmp := by
  have h0 := setLatch_filters k { s.tmp.latches.get k with condition := k != .pw } s
  by_cases ha : s.tmp.actions.get k = .off
  · rw [rise_off p ha]
    exact h0
  · by_cases hs : (s.tmp.latches.get k).set = none
    · obtain ⟨u, hu, hx⟩ := rise_fresh p ha hs
      have hrec : s.tmp.SameFilters u.tmp := by
        refine h0.trans ?_
        generalize setLatch k { s.tmp.latches.get k with condition := k != .pw } s = y at hx ⊢
        have happ : (append .tamperSet (some k) p none y).tmp = y.tmp := by simp
        rw [hx]
        simp only [notify_frame, latchRecord]
        exact .trans (.of_eq happ) (setLatch_filters k _ _)
      rw [hu]
      split
      exacts [hrec.trans (evaluateTamper_filters u), hrec]
    · rw [rise_repeated p ha hs]
      simp only [notify_frame]
      exact setLatch_filters k _ s

theorem hand_filters (k : Kind) (v : Bool) (p : Option Phase) (s : State) : s.tmp.SameFilters (hand k v p s).tmp := by
  unfold hand
  split
  · exact .refl _
  · split
    exacts [rise_filters k p s, setLatch_filters k _ s]

/-- No notice is set by a condition while the MAIN domain is unpowered (R141, R177). -/
theorem hand_unpowered {k : Kind} {v : Bool} {p : Option Phase} {s : State} (h : mainPowered s.sdm.power = false) :
    (hand k v p s).rpu = s.rpu := by
  have hrise : (rise k p s).rpu = s.rpu := by
    by_cases ha : s.tmp.actions.get k = .off
    · rw [rise_off p ha]
      rfl
    · by_cases hs : (s.tmp.latches.get k).set = none
      · obtain ⟨u, hu, hx⟩ := rise_fresh p ha hs
        have hr : u.rpu = s.rpu ∧ mainPowered u.sdm.power = false := by
          rw [hx, notify_unpowered (by simpa using h)]
          simpa [setLatch] using h
        rw [hu]
        split
        exacts [(evaluateTamper_unpowered hr.2).trans hr.1, hr.1]
      · rw [rise_repeated p ha hs, notify_unpowered (by exact h)]
        rfl
  unfold hand
  split
  · rfl
  · split
    exacts [hrise, rfl]

/-- A condition that is handed leaves every other latch whole, but for MS and SO (R12, R144). -/
theorem hand_latch {j k : Kind} (hj : j ≠ k) (hm : j ≠ .ms) (hs : j ≠ .so) (v : Bool) (p : Option Phase) (s : State) :
    (hand k v p s).tmp.latches.get j = s.tmp.latches.get j := by
  obtain ⟨h1, h2, h3⟩ := hand_latches k v p s
  cases hc : (s.tmp.latches.get k).condition <;> cases v
  · rw [h1 hc]
  · obtain ⟨a1, a2, a3⟩ := (h3 hc rfl).2 j
    simp only [Kinds.get_set, if_neg hj] at a1 a2 a3
    exact latch_eq (a3 hm hs) a1 a2
  · rw [h2 hc rfl]
    simp [hj]
  · rw [h1 hc]

/-- The actions stand when a condition is handed. -/
theorem hand_actions (k : Kind) (v : Bool) (p : Option Phase) (s : State) :
    (hand k v p s).tmp.actions = s.tmp.actions := by
  obtain ⟨_, _, _, h⟩ := hand_filters k v p s
  rw [h]

/-! ## The samples -/

/-- A run filter sample takes its three histories before it hands a condition (R140). -/
theorem runSample_eq (s : State) :
    let y := s.setTmp (runSamples s.pins s.tmp)
    runSample s = testRun .mg y.tmp.runMag (testRun .tc y.tmp.runTcs (testRun .cv y.tmp.runCvs y)) := by
  intro y
  obtain ⟨_, _, _, h1⟩ := hand_filters .cv (runCondition (y.tmp.latches.get .cv).condition y.tmp.runCvs) none y
  have hcv : (testRun .cv y.tmp.runCvs y).tmp.runTcs = y.tmp.runTcs ∧ (testRun .cv y.tmp.runCvs y).tmp.runMag = y.tmp.runMag := by
    simp only [testRun, h1, and_self]
  have hrun : runSample s = testRun .mg (testRun .tc (testRun .cv y.tmp.runCvs y).tmp.runTcs
      (testRun .cv y.tmp.runCvs y)).tmp.runMag (testRun .tc (testRun .cv y.tmp.runCvs y).tmp.runTcs
      (testRun .cv y.tmp.runCvs y)) := rfl
  rw [hrun, hcv.1]
  generalize testRun .cv y.tmp.runCvs y = z at hcv ⊢
  obtain ⟨_, _, _, h2⟩ := hand_filters .tc (runCondition (z.tmp.latches.get .tc).condition y.tmp.runTcs) none z
  have htc : (testRun .tc y.tmp.runTcs z).tmp.runMag = y.tmp.runMag := by
    simp only [testRun, h2, hcv.2]
  rw [htc]

/-- The conditions that a run filter sample gives (R140). -/
theorem runSample_conditions (s : State) :
    let y := runSamples s.pins s.tmp
    (runSample s).tmp.latches.cv.condition = runCondition s.tmp.latches.cv.condition y.runCvs ∧
      (runSample s).tmp.latches.tc.condition = runCondition s.tmp.latches.tc.condition y.runTcs ∧
      (runSample s).tmp.latches.mg.condition = runCondition s.tmp.latches.mg.condition y.runMag ∧
      (runSample s).tmp.actions = s.tmp.actions ∧ y.SameFilters (runSample s).tmp ∧
      s.piu.SameMeter (runSample s).piu := by
  intro y
  have heq : runSample s = testRun .mg y.runMag (testRun .tc y.runTcs (testRun .cv y.runCvs (s.setTmp y))) := runSample_eq s
  rw [heq]
  have self {k : Kind} (h1 : k ≠ .pw) (h2 : k ≠ .ms) (h3 : k ≠ .so) (h : List Bool) (x : State) :
      ((testRun k h x).tmp.latches.get k).condition = runCondition (x.tmp.latches.get k).condition h :=
    hand_condition_self h1 h2 h3 _ none x
  have other {j k : Kind} (hj : j ≠ k) (h2 : j ≠ .ms) (h3 : j ≠ .so) (h : List Bool) (x : State) :
      (testRun k h x).tmp.latches.get j = x.tmp.latches.get j := hand_latch hj h2 h3 _ none x
  have kept (k : Kind) (h : List Bool) (x : State) : (testRun k h x).tmp.actions = x.tmp.actions ∧
      x.tmp.SameFilters (testRun k h x).tmp ∧ x.piu.SameMeter (testRun k h x).piu :=
    ⟨hand_actions k _ none x, hand_filters k _ none x, hand_meter k _ none x⟩
  have cv := self (k := .cv) (by decide) (by decide) (by decide) y.runCvs (s.setTmp y)
  have cvTc := other (j := .tc) (k := .cv) (by decide) (by decide) (by decide) y.runCvs (s.setTmp y)
  have cvMg := other (j := .mg) (k := .cv) (by decide) (by decide) (by decide) y.runCvs (s.setTmp y)
  obtain ⟨a1, a2, a3⟩ := kept .cv y.runCvs (s.setTmp y)
  generalize testRun .cv y.runCvs (s.setTmp y) = a at *
  have tc := self (k := .tc) (by decide) (by decide) (by decide) y.runTcs a
  have tcCv := other (j := .cv) (k := .tc) (by decide) (by decide) (by decide) y.runTcs a
  have tcMg := other (j := .mg) (k := .tc) (by decide) (by decide) (by decide) y.runTcs a
  obtain ⟨b1, b2, b3⟩ := kept .tc y.runTcs a
  generalize testRun .tc y.runTcs a = b at *
  have mg := self (k := .mg) (by decide) (by decide) (by decide) y.runMag b
  have mgCv := other (j := .cv) (k := .mg) (by decide) (by decide) (by decide) y.runMag b
  have mgTc := other (j := .tc) (k := .mg) (by decide) (by decide) (by decide) y.runMag b
  obtain ⟨c1, c2, c3⟩ := kept .mg y.runMag b
  rw [← tcCv, ← mgCv] at cv
  rw [cvTc, ← mgTc] at tc
  rw [tcMg, cvMg] at mg
  exact ⟨cv, tc, mg, c1.trans (b1.trans a1), (a2.trans b2).trans c2, (a3.trans b3).trans c3⟩

/-- The conditions that a battery filter sample gives (R141). -/
theorem batterySample_conditions (s : State) :
    let y := batterySamples s.pins s.tmp
    (batterySample s).tmp.latches.cv.condition = batteryCondition s.tmp.latches.cv.condition y.batteryCvs ∧
      (batterySample s).tmp.latches.tc.condition = batteryCondition s.tmp.latches.tc.condition y.batteryTcs ∧
      (batterySample s).tmp.latches.mg = s.tmp.latches.mg ∧
      (batterySample s).tmp.actions = s.tmp.actions ∧ y.SameFilters (batterySample s).tmp ∧
      (mainPowered s.sdm.power = false → (batterySample s).rpu = s.rpu) := by
  intro y
  obtain ⟨_, _, _, h1⟩ := hand_filters .cv (batteryCondition ((s.setTmp y).tmp.latches.get .cv).condition y.batteryCvs) none
    (s.setTmp y)
  have heq : batterySample s = testBattery .tc y.batteryTcs (testBattery .cv y.batteryCvs (s.setTmp y)) := by
    have hbat : batterySample s = testBattery .tc (testBattery .cv y.batteryCvs (s.setTmp y)).tmp.batteryTcs
      (testBattery .cv y.batteryCvs (s.setTmp y)) := rfl
    have htcs : (testBattery .cv y.batteryCvs (s.setTmp y)).tmp.batteryTcs = y.batteryTcs :=
      (congrArg Tmp.batteryTcs h1 :)
    rw [hbat, htcs]
  rw [heq]
  have self {k : Kind} (h1 : k ≠ .pw) (h2 : k ≠ .ms) (h3 : k ≠ .so) (h : List Bool) (x : State) :
      ((testBattery k h x).tmp.latches.get k).condition = batteryCondition (x.tmp.latches.get k).condition h :=
    hand_condition_self h1 h2 h3 _ none x
  have other {j k : Kind} (hj : j ≠ k) (h2 : j ≠ .ms) (h3 : j ≠ .so) (h : List Bool) (x : State) :
      (testBattery k h x).tmp.latches.get j = x.tmp.latches.get j := hand_latch hj h2 h3 _ none x
  have kept (k : Kind) (h : List Bool) (x : State) : (testBattery k h x).tmp.actions = x.tmp.actions ∧
      x.tmp.SameFilters (testBattery k h x).tmp ∧ (testBattery k h x).sdm = x.sdm ∧
      (mainPowered x.sdm.power = false → (testBattery k h x).rpu = x.rpu) :=
    ⟨hand_actions k _ none x, hand_filters k _ none x, by simp, hand_unpowered⟩
  have cv := self (k := .cv) (by decide) (by decide) (by decide) y.batteryCvs (s.setTmp y)
  have cvTc := other (j := .tc) (k := .cv) (by decide) (by decide) (by decide) y.batteryCvs (s.setTmp y)
  have cvMg := other (j := .mg) (k := .cv) (by decide) (by decide) (by decide) y.batteryCvs (s.setTmp y)
  obtain ⟨a1, a2, a3, a4⟩ := kept .cv y.batteryCvs (s.setTmp y)
  clear heq h1
  generalize testBattery .cv y.batteryCvs (s.setTmp y) = a at *
  have tc := self (k := .tc) (by decide) (by decide) (by decide) y.batteryTcs a
  have tcCv := other (j := .cv) (k := .tc) (by decide) (by decide) (by decide) y.batteryTcs a
  have tcMg := other (j := .mg) (k := .tc) (by decide) (by decide) (by decide) y.batteryTcs a
  obtain ⟨b1, b2, b3, b4⟩ := kept .tc y.batteryTcs a
  rw [← tcCv] at cv
  rw [cvTc] at tc
  exact ⟨cv, tc, tcMg.trans cvMg, b1.trans a1, a2.trans b2,
    fun h => (b4 (by rw [a3]; exact h)).trans (a4 h)⟩

/-- Settles O31, line by line: the condition of each is handed, and no other sees it. -/
theorem filterSamples : Obligations.FilterSamples := by
  refine ⟨fun m s hp hdue => ?_, fun m s hp hdue => ?_⟩
  · intro cv tc mg after
    have hobs := observe_working (s := s) m hp
    have hexec : exec (.runFilterSample m) s = .next (runSample (observe m 0 s)) := by
      refine if_pos ⟨?_, ?_⟩
      · rw [hobs]
        exact working_iff.mpr hp
      · rw [hobs]
        exact hdue
    obtain ⟨r1, r2, r3, r4, ⟨_, _, _, r5⟩, r6⟩ := runSample_conditions (observe m 0 s)
    have htmp : (observe m 0 s).tmp = s.tmp ∧ (observe m 0 s).pins = m.pins ∧ (observe m 0 s).piu = s.piu ∧
        (observe m 0 s).tcu = s.tcu ∧ (observe m 0 s).sdm = s.sdm := by
      rw [hobs]
      exact ⟨rfl, rfl, rfl, rfl, rfl⟩
    obtain ⟨tmp, pins, piu, tcu, sdm⟩ := htmp
    obtain ⟨imports, -⟩ := r6.fields
    rw [tmp, pins] at r1 r2 r3 r5
    rw [tmp] at r4
    rw [piu] at imports
    exact ⟨_, hexec, by rw [r5]; rfl, by rw [r5]; rfl, by rw [r5]; rfl, r1, r2, r3, r4, by simp, by simpa using tcu,
      by simp, by simp, by simpa using sdm, imports, by simp⟩
  · intro cv tc after
    have hheld : resetHeld s = false := by simp [resetHeld, hp]
    have hobs := observe_running (s := s) m hheld
    have hexec : exec (.batteryFilterSample m) s = .next (batterySample (observe m 0 s)) := by
      refine if_pos ⟨?_, ?_⟩
      · rw [hobs]
        exact hp
      · rw [hobs]
        exact hdue
    obtain ⟨r1, r2, r3, r4, ⟨_, _, _, r5⟩, r6⟩ := batterySample_conditions (observe m 0 s)
    have htmp : (observe m 0 s).tmp = s.tmp ∧ (observe m 0 s).pins = m.pins ∧ (observe m 0 s).rpu = s.rpu ∧
        (observe m 0 s).tcu = s.tcu ∧ (observe m 0 s).sdm = s.sdm := by
      rw [hobs]
      exact ⟨rfl, rfl, rfl, rfl, rfl⟩
    obtain ⟨tmp, pins, rpu, tcu, sdm⟩ := htmp
    rw [tmp, pins] at r1 r2 r5
    rw [tmp] at r3 r4
    exact ⟨_, hexec, by rw [r5]; rfl, by rw [r5]; rfl, r1, r2, r3, r4,
      (r6 (by rw [sdm, hp]; rfl)).trans rpu, by simp, by simpa using tcu, by simp, by simpa using sdm, by simp⟩

end Sys2Proof.Machine
end

