-- ==== Sys2Proof/Proofs/Requests.lean ====
section
/-! What becomes of a request before it reaches its owner (R188, R195, R197), and the first readings (R45, R73, R178, R179,
R193). -/

namespace Sys2Proof.Machine

/-! ## The checks -/

/-- A command that is a request completes a frame that carries its payload (R187). -/
theorem exec_request {c : Instr} {m : Moment} {r : Request} {p : List Byte} (h : requestOf c = some (m, r, p)) :
    ∃ handler, ∀ s, exec c s = .next (request r handler p (observe m 0 s)) := by
  unfold requestOf at h
  split at h <;> cases h <;> exact ⟨_, fun _ => rfl⟩

/-- A frame in RUN or HOLDUP goes to the checks on its request (R188). -/
theorem request_checked {r : Request} {handler : Handler} {p : List Byte} {m : Moment} {s : State}
    (hw : s.sdm.power = .run ∨ s.sdm.power = .holdup) (hs : s.lnk.state = .receiving) (hp : p.length ≤ 37) :
    ∃ l, request r handler p (observe m 0 s) = handRequest r handler p (afterFrame m s l) := by
  have hst : (observe m 0 s).lnk.state = .receiving := by rw [observe_working m hw]; exact hs
  have hlen : p.length + 3 ≤ Config.maxRequest := by unfold Config.maxRequest; omega
  rw [request, if_pos hst, if_pos hlen, completeWrite_observe m _ hw]
  exact ⟨_, rfl⟩

/-- The part as a request finds it in RUN or HOLDUP, field by field. -/
theorem afterFrame_working {s : State} (m : Moment) (l : Lnk) (h : s.sdm.power = .run ∨ s.sdm.power = .holdup) :
    afterFrame m s l =
      { s with
        now := s.now + m.elapsed
        pins := m.pins
        rcbLow := if s.pins.rcb then s.rcbLow else s.now
        cda := { s.cda with entryTimer := s.cda.entryTimer.map (· - m.elapsed) }
        lnk := l
        rpu := rpuAfterFrame s } := by
  unfold afterFrame
  rw [observe_working m h]

/-- A request that a check turns away is answered by the link alone (R188). -/
theorem answersOnly_of_check {c : Instr} {m : Moment} {r : Request} {p : List Byte} {s : State} {st : Status}
    (h : requestOf c = some (m, r, p)) (hw : s.sdm.power = .run ∨ s.sdm.power = .holdup)
    (hs : s.lnk.state = .receiving) (hp : p.length ≤ 37)
    (hc : ∀ handler l, handRequest r handler p (afterFrame m s l) = placeReply r.kind (.bare st) (afterFrame m s l)) :
    AnswersOnly c m s r.kind st [] := by
  obtain ⟨handler, hexec⟩ := exec_request h
  obtain ⟨l, hreq⟩ := request_checked (r := r) (handler := handler) (m := m) hw hs hp
  obtain ⟨l', h1, h2⟩ := placeReply_answered r.kind (.bare st) (afterFrame m s l)
  refine ⟨l', ?_, h2⟩
  rw [hexec, hreq, hc, h1]
  rfl

/-- The lock's check passes (R188 check 3). -/
theorem not_locked {r : Request} {s : State} (h : ¬(r.commissioning = true ∧ s.ots.lock = true)) :
    (r.commissioning && s.ots.lock) = false := by
  rw [Bool.eq_false_iff]
  simpa using h

/-- Settles O42, by the catalogue and the checks in their order. -/
theorem requestsTurnedAway : Obligations.RequestsTurnedAway := by
  refine ⟨rfl, fun r n => ⟨?_, ?_⟩, fun c m r p s h hL hp ht hl => ?_, fun c m r p s h hw hs hp ht hl => ?_⟩
  · cases r <;> simp [Request.takes]
  · cases r <;> simp [Request.commissioning]
  · refine answersOnly_of_check h (.inl hL.1) hL.2 hp fun handler l => ?_
    have hlock : (afterFrame m s l).ots.lock = s.ots.lock := by rw [afterFrame_listening m l hL]
    simp [handRequest, hlock, not_locked hl, ht]
  · refine answersOnly_of_check h (.inr hw) hs hp fun handler l => ?_
    have hlock : (afterFrame m s l).ots.lock = s.ots.lock := by rw [afterFrame_working m l (.inr hw)]
    have hpower : (afterFrame m s l).sdm.power = .holdup := by rw [afterFrame_working m l (.inr hw)]; exact hw
    simp [handRequest, hlock, not_locked hl, ht, hpower]

/-! ## The lock -/

/-- A change of the tamper latches leaves the settings of the switch (R114). -/
theorem evaluateTamper_settings (s : State) :
    (evaluateTamper s).swc.auto = s.swc.auto ∧ (evaluateTamper s).swc.normalLimit = s.swc.normalLimit ∧
      (evaluateTamper s).swc.reducedLimit = s.swc.reducedLimit := by
  unfold evaluateTamper
  split <;> simp

/-- A rising condition leaves the settings of the switch. -/
theorem rise_settings (k : Kind) (p : Option Phase) (s : State) :
    (rise k p s).swc.auto = s.swc.auto ∧ (rise k p s).swc.normalLimit = s.swc.normalLimit ∧
      (rise k p s).swc.reducedLimit = s.swc.reducedLimit := by
  by_cases ha : s.tmp.actions.get k = .off
  · rw [rise_off p ha]
    exact ⟨rfl, rfl, rfl⟩
  · by_cases hs : (s.tmp.latches.get k).set = none
    · obtain ⟨u, hu, hx⟩ := rise_fresh p ha hs
      have hswc : u.swc = s.swc := by simp [hx]
      rw [hu, ← hswc]
      split
      exacts [evaluateTamper_settings u, ⟨rfl, rfl, rfl⟩]
    · rw [rise_repeated p ha hs]
      simp

/-- A protected-write attempt leaves its condition INACTIVE, and its latch set unless its action is OFF (R147, R150). -/
theorem pwAttempt_latch (s : State) :
    (pwAttempt s).tmp.latches.pw.condition = false ∧
      (s.tmp.actions.pw ≠ .off → (pwAttempt s).tmp.latches.pw.set.isSome = true) ∧
      (pwAttempt s).tmp.actions = s.tmp.actions := by
  obtain ⟨hact, hl⟩ := rise_latches .pw none s
  obtain ⟨h1, -, h3⟩ := hl .pw
  simp only [Kinds.get_set, if_true] at h1 h3
  have hlatch : (pwAttempt s).tmp.latches.pw = (rise .pw none s).tmp.latches.get .pw := rfl
  rw [hlatch, h3 (by decide) (by decide), h1]
  refine ⟨?_, fun ha => ?_, hact⟩
  · unfold risenLatch
    dsimp only
    (repeat' split) <;> rfl
  · have hact' : ¬s.tmp.actions.get .pw = .off := ha
    unfold risenLatch
    dsimp only
    rw [if_neg hact']
    split
    exacts [‹_›, rfl]

/-- Settles O43, by the check that answers LOCKED and the attempt that it hands. -/
theorem lockRefusesCommissioning : Obligations.LockRefusesCommissioning := by
  intro c m r p s h hs hw hp hc hl
  obtain ⟨handler, hexec⟩ := exec_request h
  obtain ⟨l, hreq⟩ := request_checked (r := r) (handler := handler) (m := m) hw hs hp
  have hf := afterFrame_working m l hw
  have hcda : (afterFrame m s l).cda = (observe m 0 s).cda := rfl
  generalize afterFrame m s l = u at hreq hf hcda
  have hlock : u.ots = s.ots := by rw [hf]
  have hhand : handRequest r handler p u = placeReply r.kind (.bare .locked) (pwAttempt u) := by
    simp [handRequest, hc, hlock, hl]
  obtain ⟨l', h1, h2⟩ := placeReply_answered r.kind (.bare .locked) (pwAttempt u)
  obtain ⟨p1, p2, p3⟩ := pwAttempt_latch u
  obtain ⟨w1, w2, w3⟩ := rise_settings .pw none u
  obtain ⟨e1, e2, -, -, e5, e6, e7, -⟩ := (pwAttempt_meter u).fields
  have hrest : u.tmp = s.tmp ∧ u.piu = s.piu ∧ u.swc = s.swc ∧ u.acu = s.acu ∧ u.tcu = s.tcu ∧ u.sdm = s.sdm ∧
      u.pending = s.pending := by
    rw [hf]
    exact ⟨rfl, rfl, rfl, rfl, rfl, rfl, rfl⟩
  obtain ⟨tmp, piu, swc, acu, tcu, sdm, pending⟩ := hrest
  rw [tmp] at p2 p3
  rw [piu] at e1 e2 e5 e6 e7
  rw [swc] at w1 w2 w3
  refine ⟨_, (hexec s).trans (congrArg Host.Outcome.next (hreq.trans (hhand.trans h1))), h2, p1, p2, by simpa using hlock, by simpa using acu, by simpa using tcu,
    by simpa using hcda, e1, e2, e5, e6, e7, w1, w2, w3, p3, by simpa using sdm, by simpa using pending⟩

/-! ## Readings -/

/-- A reading gives its values as they stand and changes no state. -/
theorem answersOnly_of_reader {c : Instr} {r : Request} {f : State → List Byte} {p payload : List Byte} {m : Moment}
    {s : State} (hx : exec c s = .next (request r (serve r (reader f)) p (observe m 0 s))) (hL : Listening s)
    (hp : p.length ≤ 37) (ht : r.takes p.length = true) (hc : r.commissioning = false)
    (hv : ∀ l, f (afterFrame m s l) = payload) : AnswersOnly c m s r.kind .ok payload :=
  answersOnly_of_owner (a := .ok payload) hx hL hp ht (by simp [hc]) fun l => by rw [reader, hv]

theorem bytesOfNat_one (x : Nat) : bytesOfNat 1 x = [BitVec.ofNat 8 x] := by simp [bytesOfNat]

/-- Settles O44, by the values of the four readings. -/
theorem identityStatusAccountAndTimeAnswer : Obligations.IdentityStatusAccountAndTimeAnswer := by
  refine ⟨fun m s hL => ⟨answersOnly_of_reader (r := .identify) (f := identifyBytes) rfl hL (by simp) rfl rfl fun l => ?_,
      answersOnly_of_reader (r := .status) (f := statusBytes) rfl hL (by simp) rfl rfl fun l => ?_⟩,
    fun m s hL => ⟨answersOnly_of_reader (r := .readAccount) (f := fun s => accountBytes s.acu) rfl hL (by simp) rfl rfl fun l => ?_,
      answersOnly_of_reader (r := .timeRead) (f := fun s => timeBytes s.tcu) rfl hL (by simp) rfl rfl fun l => ?_⟩⟩
  · rw [afterFrame_listening m l hL]
    cases hi : s.ots.identity <;> simp [identifyBytes, hi, optionalBytes, bytesOfNat_one, Config.revision]
  · rw [afterFrame_listening m l hL]
    simp [statusBytes, statusGroupBytes, statusValues, causeList, CauseTable.get, bytesOfNat_one, kindSetBytes,
      noticeSetBytes]
  · rw [afterFrame_listening m l hL]
    simp [accountBytes, bytesOfNat_one]
  · rw [afterFrame_listening m l hL]
    rfl

/-! ## Notices and the mask -/

theorem natOfBytes_two (a b : Byte) : natOfBytes [a, b] = a.toNat * 256 + b.toNat := by simp [natOfBytes]

/-- Settles O46, by the two owners. -/
theorem noticesAndMask : Obligations.NoticesAndMask := by
  refine ⟨fun m s hL => ?_, fun m s a b hL => ⟨fun hv => ?_, fun hv => ?_⟩⟩
  · refine answersWith_of_owner (r := .readNotices) (owner := readNoticesOwner) rfl hL (by simp) rfl
      (by simp [Request.commissioning]) (fun l => ?_) (fun l l' => ?_)
      (t := fun l => (afterFrame m s l).setRpu { (afterFrame m s l).rpu with notices := 0 })
    · have hmask : (rpuAfterFrame s).mask = s.rpu.mask := by
        unfold rpuAfterFrame
        split <;> rfl
      simp only [readNoticesOwner, afterFrame_listening m l hL, hmask, noticeSetBytes]
    · rw [afterFrame_listening m l hL, afterFrame_listening m l' hL]
      rfl
  · refine answersWith_of_owner (r := .setAttentionMask) (owner := setMaskOwner) rfl hL (by simp) rfl
      (by simp [Request.commissioning]) (fun l => ?_) (fun l l' => ?_)
      (t := fun l => (afterFrame m s l).setRpu
        { (afterFrame m s l).rpu with mask := BitVec.ofNat 10 (a.toNat * 256 + b.toNat) })
    · have hbytes : (BitVec.ofNat 10 (a.toNat * 256 + b.toNat)).toNat = a.toNat * 256 + b.toNat := by
        rw [BitVec.toNat_ofNat, Nat.mod_eq_of_lt (by omega)]
      simp only [setMaskOwner, natOfBytes_two, if_pos hv, noticeSetBytes, hbytes, afterFrame_listening m l hL]
    · rw [afterFrame_listening m l hL, afterFrame_listening m l' hL]
      rfl
  · refine answersOnly_of_owner (r := .setAttentionMask) (owner := setMaskOwner) (a := .bare .argument) rfl hL (by simp) rfl
      (by simp [Request.commissioning]) (fun l => ?_)
    simp only [setMaskOwner, natOfBytes_two, if_neg (Nat.not_le.mpr hv), refuseArgument]

end Sys2Proof.Machine
end

