-- ==== Sys2Proof/Proofs/Items.lean ====
section
/-! The items of COMMISSION_WRITE that are taken at once: the settings (R7, R123, R124), the account (R47, R48), the group
slots (R76), the tamper actions (R158), and the tariff and calendar fields (R64). -/

namespace Sys2Proof.Machine

/-! ## How an item is answered -/

/-- An item's command, as a request of its owner. -/
def ItemRow (c : Instr) (item : Nat) (owner : Owner) (m : Moment) (v : List Byte) : Prop :=
  ∀ s, exec c s = .next (request .commissionWrite (serve .commissionWrite fun p s => owner p.tail s)
    (BitVec.ofNat 8 item :: v) (observe m 0 s))

theorem takes_item {n : Nat} {v : List Byte} (h1 : 1 ≤ v.length) (h2 : v.length ≤ 20) :
    Request.commissionWrite.takes (BitVec.ofNat 8 n :: v).length = true := by
  simp only [Request.takes, List.length_cons, Bool.and_eq_true, decide_eq_true_eq]
  omega

section
variable {c : Instr} {item : Nat} {owner : Owner} {m : Moment} {v : List Byte} {s : State}

/-- An item that is answered leaves what its owner leaves (R194). -/
theorem item_answered (hx : ItemRow c item owner m v) (hL : Listening s) (hl : s.ots.lock = false) (h1 : 1 ≤ v.length)
    (h2 : v.length ≤ 20) :
    ∃ l, ∀ a u, owner v (afterFrame m s l) = (some a, u) →
      ∃ l', exec c s = .next { u with lnk := l' } ∧ Answered 0x13 a.status a.payload l' := by
  obtain ⟨l, -, h⟩ := request_answered (hx s) hL (by rw [List.length_cons]; omega) (takes_item h1 h2) (by simp [hl])
  exact ⟨l, h⟩

/-- An item that is taken (R194). -/
theorem item_taken {f : State → State} (hx : ItemRow c item owner m v) (hL : Listening s) (hl : s.ots.lock = false)
    (h1 : 1 ≤ v.length) (h2 : v.length ≤ 20)
    (ho : ∀ l, owner v (afterFrame m s l) = taken (f (afterFrame m s l)))
    (hf : ∀ l l', { f (afterFrame m s l) with lnk := l' } = { f (afterFrame m s l') with lnk := l' }) :
    AnswersWith c m s 0x13 [] f :=
  answersWith_of_owner (r := .commissionWrite) (t := fun l => f (afterFrame m s l)) (hx s) hL
    (by rw [List.length_cons]; omega) (takes_item h1 h2) (by simp [hl]) ho hf

/-- An item that is refused (R194). -/
theorem item_refused {st : Status} (hx : ItemRow c item owner m v) (hL : Listening s) (hl : s.ots.lock = false)
    (h1 : 1 ≤ v.length) (h2 : v.length ≤ 20)
    (ho : ∀ l, owner v (afterFrame m s l) = (some (.bare st), afterFrame m s l)) :
    AnswersOnly c m s 0x13 st [] :=
  answersOnly_of_owner (r := .commissionWrite) (a := .bare st) (hx s) hL (by rw [List.length_cons]; omega)
    (takes_item h1 h2) (by simp [hl]) ho

/-- An item whose owner makes a claim hands on what the claim does (R43, R44, R47, R48). -/
theorem item_claims {g : Account → Account} (hx : ItemRow c item owner m v) (hL : Listening s) (hl : s.ots.lock = false)
    (h1 : 1 ≤ v.length) (h2 : v.length ≤ 20)
    (ho : ∀ u : State, u.acu = s.acu → owner v u = taken (claim g u)) :
    ∃ t, exec c s = .next t ∧ Answered 0x13 .ok [] t.lnk ∧ t.acu = s.acu.alarmAfter (g s.acu) ∧ StateHanded s t ∧
      ClaimNoticed s t ∧ t.tcu = s.tcu ∧ t.ots = s.ots ∧ t.elg = s.elg ∧ t.sdm = s.sdm ∧ t.pending = s.pending := by
  obtain ⟨l, h⟩ := item_answered hx hL hl h1 h2
  have hf := afterFrame_listening m l hL
  have hacu : (afterFrame m s l).acu = s.acu := by rw [hf]
  obtain ⟨l', hexec, hansw⟩ := h _ _ (ho _ hacu)
  have hrpu : (afterFrame m s l).rpu = rpuAfterFrame s := rfl
  generalize afterFrame m s l = u at hf hacu hexec hrpu
  have hrest : u.swc = s.swc ∧ u.tcu = s.tcu ∧ u.ots = s.ots ∧ u.elg = s.elg ∧ u.sdm = s.sdm ∧ u.pending = s.pending := by
    rw [hf]
    exact ⟨rfl, rfl, rfl, rfl, rfl, rfl⟩
  obtain ⟨swc, tcu, ots, elg, sdm, pending⟩ := hrest
  have hm : mainPowered u.sdm.power = true := by
    rw [sdm]
    exact mainPowered_working (.inl hL.1)
  refine ⟨_, hexec, hansw, by simp [hacu], (claim_stateHanded g u).congr hacu.symm swc.symm tcu.symm rfl rfl,
    (claim_claimNoticed g hm).congr hacu.symm (fun n hn => ?_) rfl (fun _ _ => rfl), by simpa using tcu, by simpa using ots,
    by simpa using elg, by simpa using sdm, by simpa using pending⟩
  rw [hrpu, rpuAfterFrame_low s n (by omega)]

end

/-! ## Settings -/

theorem natOfBytes_single (a : Byte) : natOfBytes [a] = a.toNat := by simp [natOfBytes]

/-- Settles O50, item by item. -/
theorem pulseAndSwitchSettingItems : Obligations.PulseAndSwitchSettingItems := by
  refine ⟨fun m s a b hL hl => ⟨fun ha => ?_, fun ha => ?_, fun h1 h10 => ?_, fun ha => ?_, fun ha => ?_, fun h1 h2 => ?_,
    fun h => ?_⟩, fun m s a b c d e f hL hl => ⟨fun ha => ?_, fun ha => ?_, ?_⟩⟩
  · subst ha
    exact item_taken (owner := pulseWeightItem) (item := 5) (fun _ => rfl) hL hl (by simp) (by simp) (fun _ => rfl)
      fun _ _ => rfl
  · subst ha
    exact item_taken (owner := pulseWeightItem) (item := 5) (fun _ => rfl) hL hl (by simp) (by simp) (fun _ => rfl)
      fun _ _ => rfl
  · refine item_refused (owner := pulseWeightItem) (item := 5) (fun _ => rfl) hL hl (by simp) (by simp) fun l => ?_
    have h1' : a.toNat ≠ 1 := fun h => h1 (BitVec.eq_of_toNat_eq h)
    have h10' : a.toNat ≠ 10 := fun h => h10 (BitVec.eq_of_toNat_eq h)
    simp only [pulseWeightItem, itemOf, List.length_cons, List.length_nil, if_true, natOfBytes_single]
    rfl
  · refine item_taken (owner := absoluteBillingItem) (item := 6) (fun _ => rfl) hL hl (by simp) (by simp) (fun l => ?_)
      fun _ _ => rfl
    have hone : (a.toNat == 1) = (a == 1) := by
      rw [Bool.eq_iff_iff]
      simp [← BitVec.toNat_inj]
    simp only [absoluteBillingItem, itemOf, List.length_cons, List.length_nil, if_true, natOfBytes_single, if_pos ha, hone]
    rfl
  · refine item_refused (owner := absoluteBillingItem) (item := 6) (fun _ => rfl) hL hl (by simp) (by simp) fun l => ?_
    simp only [absoluteBillingItem, itemOf, List.length_cons, List.length_nil, if_true, natOfBytes_single,
      if_neg (Nat.not_le.mpr ha)]
    rfl
  · refine item_taken (owner := stallTimeItem) (item := 7) (fun _ => rfl) hL hl (by simp) (by simp) (fun l => ?_)
      fun _ _ => rfl
    simp only [stallTimeItem, itemOf, List.length_cons, List.length_nil, if_true, natOfBytes_two, if_pos (And.intro h1 h2)]
    rfl
  · refine item_refused (owner := stallTimeItem) (item := 7) (fun _ => rfl) hL hl (by simp) (by simp) fun l => ?_
    have hn : ¬(60 ≤ a.toNat * 256 + b.toNat ∧ a.toNat * 256 + b.toNat ≤ 3600) := by omega
    simp only [stallTimeItem, itemOf, List.length_cons, List.length_nil, if_true, natOfBytes_two, if_neg hn]
    rfl
  · refine item_taken (owner := reconnectModeItem) (item := 8) (fun _ => rfl) hL hl (by simp) (by simp) (fun l => ?_)
      fun _ _ => rfl
    have hone : (a.toNat == 1) = (a == 1) := by
      rw [Bool.eq_iff_iff]
      simp [← BitVec.toNat_inj]
    simp only [reconnectModeItem, itemOf, List.length_cons, List.length_nil, if_true, natOfBytes_single, if_pos ha, hone]
    rfl
  · refine item_refused (owner := reconnectModeItem) (item := 8) (fun _ => rfl) hL hl (by simp) (by simp) fun l => ?_
    simp only [reconnectModeItem, itemOf, List.length_cons, List.length_nil, if_true, natOfBytes_single,
      if_neg (Nat.not_le.mpr ha)]
    rfl
  · exact item_taken (owner := loadLimitsItem) (item := 10) (fun _ => rfl) hL hl (by simp) (by simp) (fun _ => rfl)
      fun _ _ => rfl

end Sys2Proof.Machine
end

