-- ==== Sys2Proof/Proofs/AccountItems.lean ====
section
/-! The account's items: the opening balance (R47) and the account settings (R48). -/

namespace Sys2Proof.Machine

/-- An opening balance that the cap allows is the claim that reopens the account (R47). -/
theorem openingBalanceItem_taken {v : List Byte} {s : State} (hv : v.length = 3)
    (h : natOfBytes v * 10000 ≤ s.acu.cap * 1000000) :
    openingBalanceItem v s = taken (claim (Account.reopen (natOfBytes v * 10000)) s) :=
  (if_pos hv).trans (if_neg (Nat.not_lt.mpr h))

theorem openingBalanceItem_refused {v : List Byte} {s : State} (hv : v.length = 3)
    (h : s.acu.cap * 1000000 < natOfBytes v * 10000) : openingBalanceItem v s = refuseArgument s :=
  (if_pos hv).trans (if_pos h)

/-- Account settings with a cap of at least 1 are a claim (R48). -/
theorem accountSettingsItem_taken {v : List Byte} (s : State) (hv : v.length = 9) (h : 1 ≤ natOfBytes (v.drop 6)) :
    accountSettingsItem v s = taken (claim
      (Account.setSettings (natOfBytes (v.take 3)) (natOfBytes ((v.drop 3).take 3)) (natOfBytes (v.drop 6))) s) :=
  (if_pos hv).trans (if_pos h)

theorem accountSettingsItem_refused {v : List Byte} (s : State) (hv : v.length = 9) (h : natOfBytes (v.drop 6) = 0) :
    accountSettingsItem v s = refuseArgument s :=
  (if_pos hv).trans (if_neg (by omega))

/-- While emergency credit is not taken the settings are replaced and nothing moves (R34, R48). -/
theorem Account.setSettings_untaken {a : Account} (l t c : Nat) (h : a.taken = false) :
    a.setSettings l t c = { a with limit := l, threshold := t, cap := c } := by
  simp [Account.setSettings, Account.setLimit, h]

/-- Settles O51, from what a claim of an item hands on. -/
theorem accountItems : Obligations.AccountItems := by
  refine ⟨fun m s a b c hL hl => ⟨fun h => ?_, fun h => ?_⟩, fun m s v hL hl hv => ⟨fun h => ?_, fun h htaken => ?_⟩⟩
  · refine item_refused (owner := openingBalanceItem) (item := 4) (fun _ => rfl) hL hl (by simp) (by simp) fun l => ?_
    refine openingBalanceItem_refused rfl ?_
    rw [afterFrame_listening m l hL]
    exact h
  · obtain ⟨t, hexec, hansw, hacu, hstate, hnotice, hrest⟩ := item_claims (c := .openingBalance m [a, b, c]) (m := m)
      (owner := openingBalanceItem) (item := 4) (fun _ => rfl) hL hl (by simp) (by simp)
      fun u hu => openingBalanceItem_taken (v := [a, b, c]) rfl (by rw [hu]; exact h)
    obtain ⟨hbalance, harrears, htaken, hlimit, hthreshold, hcap, hopening, hcredited, hdebited⟩ :=
      s.acu.alarmAfter_fields (s.acu.reopen (natOfBytes [a, b, c] * 10000))
    rw [← hacu] at hbalance harrears htaken hlimit hthreshold hcap hopening hcredited hdebited
    exact ⟨t, hexec, hansw, hbalance, hopening, harrears, hcredited, hdebited, htaken, hlimit, hthreshold, hcap,
      fun hne => ⟨(hstate.2 hne).1, hnotice.1.mpr (.inr (.inl hne))⟩, hstate, hnotice, hrest⟩
  · exact item_refused (owner := accountSettingsItem) (item := 9) (fun _ => rfl) hL hl (by omega) (by omega)
      fun l => accountSettingsItem_refused _ hv h
  · obtain ⟨t, hexec, hansw, hacu, hstate, hnotice, hrest⟩ := item_claims (c := .accountSettings m v) (m := m)
      (owner := accountSettingsItem) (item := 9) (fun _ => rfl) hL hl (by omega) (by omega)
      fun u _ => accountSettingsItem_taken u hv h
    rw [Account.setSettings_untaken _ _ _ htaken] at hacu
    obtain ⟨hbalance, harrears, htaken', hlimit, hthreshold, hcap, hopening, hcredited, hdebited⟩ :=
      s.acu.alarmAfter_fields { s.acu with
        limit := natOfBytes (v.take 3), threshold := natOfBytes ((v.drop 3).take 3), cap := natOfBytes (v.drop 6) }
    rw [← hacu] at hbalance harrears htaken' hlimit hthreshold hcap hopening hcredited hdebited
    exact ⟨t, hexec, hansw, hlimit, hthreshold, hcap, hbalance, harrears, htaken'.trans htaken, hopening, hcredited,
      hdebited, hstate, hnotice, hrest⟩

end Sys2Proof.Machine
end

