-- ==== Sys2Proof/Proofs/TableItems.lean ====
section
/-! The items that write a table: a group slot (R76), the tamper actions (R158), and a tariff or calendar field (R64). -/

namespace Sys2Proof.Machine

/-! ## The group slots -/

/-- The record that a group slot item holds, field by field (R76). -/
theorem loadedSlot_eq (n g hi lo : Byte) {key : List Byte} (hkey : key.length = 16) :
    loadedSlot (n :: key ++ [g, hi, lo]) =
      { enabled := (BitVec.ofNat 16 (hi.toNat * 256 + lo.toNat)) != 0, key := some (BitVec.ofNat 128 (natOfBytes key))
        groupId := g.toNat, mask := BitVec.ofNat 16 (hi.toNat * 256 + lo.toNat), window := ⟨none, []⟩ } := by
  have hmask : (n :: key ++ [g, hi, lo]).drop 18 = [hi, lo] := by simp [List.drop_append, hkey]
  have hid : (n :: key ++ [g, hi, lo]).drop 17 = [g, hi, lo] := by simp [hkey]
  have hk : ((n :: key ++ [g, hi, lo]).drop 1).take 16 = key := by simp [← hkey]
  simp only [loadedSlot, hmask, hid, hk, natOfBytes_two, List.take_succ_cons, List.take_zero, natOfBytes_single]
  rfl

/-- A group slot item that names a slot loads it (R76). -/
theorem groupSlotItem_taken {v : List Byte} {i : Slot} (s : State) (hv : v.length = 20)
    (h : groupSlotOfNumber (argumentOf v) = some i) :
    groupSlotItem v s = taken { s with cda := { s.cda with groups := s.cda.groups.set i (loadedSlot v) } } := by
  simp only [groupSlotItem, itemOf, if_pos hv, h]
  rfl

theorem groupSlotItem_refused {v : List Byte} (s : State) (hv : v.length = 20)
    (h : groupSlotOfNumber (argumentOf v) = none) : groupSlotItem v s = refuseArgument s := by
  simp only [groupSlotItem, itemOf, if_pos hv, h]

theorem groupSlotOfNumber_none {n : Nat} (h : n = 0 ∨ 3 < n) : groupSlotOfNumber n = none := by
  unfold groupSlotOfNumber
  split
  case h_4 => rfl
  all_goals omega

/-- A group slot item loads its slot and changes nothing else (R76). -/
theorem groupSlot_loads {m : Moment} {s : State} {n g hi lo : Byte} {key : List Byte} (i : Slot) (hL : Listening s)
    (hl : s.ots.lock = false) (hkey : key.length = 16) (h : groupSlotOfNumber n.toNat = some i) :
    AnswersWith (.groupSlot m (n :: key ++ [g, hi, lo])) m s 0x13 [] fun t =>
      { t with cda := { t.cda with groups := s.cda.groups.set i (loadedSlot (n :: key ++ [g, hi, lo])) } } := by
  have hv : (n :: key ++ [g, hi, lo]).length = 20 := by simp [hkey]
  refine item_taken (owner := groupSlotItem) (item := 3) (fun _ => rfl) hL hl (by omega) (by omega) (fun l => ?_)
    fun _ _ => rfl
  rw [groupSlotItem_taken _ hv h, afterFrame_listening m l hL]

/-! ## The tamper actions -/

/-- A byte that a kind takes as its action (R158, R139). -/
def ActionByte (k : Kind) (b : Byte) : Prop := b.toNat ≤ 2 ∧ (k = .rl → b = 2) ∧ (k = .pw → b ≠ 0)

theorem actionFor_taken {k : Kind} {b : Byte} (h : ActionByte k b) : ∃ a, actionFor k b = some a ∧ a.code = b.toNat := by
  obtain ⟨hb, hrl, hpw⟩ := h
  have hcases : b = 0 ∨ b = 1 ∨ b = 2 := by bv_omega
  rcases hcases with rfl | rfl | rfl
  · cases k with
    | rl => exact absurd (hrl rfl) (by decide)
    | pw => exact absurd rfl (hpw rfl)
    | _ => exact ⟨.off, rfl, rfl⟩
  · cases k with
    | rl => exact absurd (hrl rfl) (by decide)
    | _ => exact ⟨.record, rfl, rfl⟩
  · exact ⟨.disconnect, by cases k <;> rfl, rfl⟩

theorem actionFor_refused {k : Kind} {b : Byte} (h : ¬ActionByte k b) : actionFor k b = none := by
  by_cases hb : b.toNat ≤ 2
  · have hcases : b = 0 ∨ b = 1 ∨ b = 2 := by bv_omega
    rcases hcases with rfl | rfl | rfl
    · cases k with
      | rl | pw => rfl
      | _ => exact absurd ⟨hb, nofun, nofun⟩ h
    · cases k with
      | rl => rfl
      | pw => exact absurd ⟨hb, nofun, fun _ => by decide⟩ h
      | _ => exact absurd ⟨hb, nofun, nofun⟩ h
    · exact absurd ⟨hb, fun _ => rfl, fun _ => by decide⟩ h
  · have hnone : actionOfNumber b.toNat = none := by
      unfold actionOfNumber
      split
      case h_4 => rfl
      all_goals omega
    simp only [actionFor, hnone]

/-- Nine bytes that nine kinds take give nine actions (R158). -/
theorem actionsOfBytes_taken {v : List Byte} (hv : v.length = 9) (h : ∀ k, ActionByte k (v.getD (kindNumber k) 0)) :
    ∃ a, actionsOfBytes v = some a ∧ ∀ k, (a.get k).code = (v.getD (kindNumber k) 0).toNat := by
  match v, hv with
  | [b0, b1, b2, b3, b4, b5, b6, b7, b8], _ =>
    obtain ⟨a0, h0, c0⟩ := actionFor_taken (h .cv)
    obtain ⟨a1, h1, c1⟩ := actionFor_taken (h .tc)
    obtain ⟨a2, h2, c2⟩ := actionFor_taken (h .mg)
    obtain ⟨a3, h3, c3⟩ := actionFor_taken (h .rv)
    obtain ⟨a4, h4, c4⟩ := actionFor_taken (h .ms)
    obtain ⟨a5, h5, c5⟩ := actionFor_taken (h .so)
    obtain ⟨a6, h6, c6⟩ := actionFor_taken (h .pw)
    obtain ⟨a7, h7, c7⟩ := actionFor_taken (h .ca)
    obtain ⟨a8, h8, c8⟩ := actionFor_taken (h .rl)
    refine ⟨⟨a0, a1, a2, a3, a4, a5, a6, a7, a8⟩, ?_, fun k => by cases k <;> assumption⟩
    simp only [kindNumber, List.getD_cons_zero, List.getD_cons_succ] at h0 h1 h2 h3 h4 h5 h6 h7 h8
    simp only [actionsOfBytes, h0, h1, h2, h3, h4, h5, h6, h7, h8]

/-- Nine bytes of which one is refused give no actions (R158). -/
theorem actionsOfBytes_refused {v : List Byte} {k : Kind} (hv : v.length = 9)
    (h : ¬ActionByte k (v.getD (kindNumber k) 0)) : actionsOfBytes v = none := by
  have hnone := actionFor_refused h
  match v, hv with
  | [b0, b1, b2, b3, b4, b5, b6, b7, b8], _ =>
    simp only [actionsOfBytes]
    split
    · cases k <;> simp_all [kindNumber]
    · rfl

/-- What the evaluation of the TAMPER cause leaves after the actions have changed (R153, R158). -/
theorem tamperActionsItem_taken {v : List Byte} {a : Kinds Action} (s : State) (hv : v.length = 9)
    (h : actionsOfBytes v = some a) :
    tamperActionsItem v s = taken (evaluateTamper (s.setTmp { s.tmp with actions := a })) := by
  simp only [tamperActionsItem, itemOf, if_pos hv, h]

theorem tamperActionsItem_refused {v : List Byte} (s : State) (hv : v.length = 9) (h : actionsOfBytes v = none) :
    tamperActionsItem v s = refuseArgument s := by
  simp only [tamperActionsItem, itemOf, if_pos hv, h]

/-- The bytes at the places of the kinds are the bytes of the value. -/
theorem getD_kindNumber_mem {v : List Byte} (hv : v.length = 9) (k : Kind) : v.getD (kindNumber k) 0 ∈ v := by
  have hk : kindNumber k < v.length := by cases k <;> simp [kindNumber, hv]
  rw [List.getD_eq_getElem v 0 hk]
  exact List.getElem_mem hk

theorem exists_kindNumber {v : List Byte} (hv : v.length = 9) {b : Byte} (hb : b ∈ v) :
    ∃ k, v.getD (kindNumber k) 0 = b := by
  obtain ⟨i, hi, rfl⟩ := List.getElem_of_mem hb
  have hkind : ∀ i < 9, ∃ k ∈ kindList, kindNumber k = i := by decide
  obtain ⟨k, -, rfl⟩ := hkind i (by omega)
  exact ⟨k, List.getD_eq_getElem v 0 hi⟩

/-- Settles O52: the slots by their loaded record, the actions by the bytes that each kind takes. -/
theorem groupSlotAndTamperActionItems : Obligations.GroupSlotAndTamperActionItems := by
  refine ⟨fun m s n g hi lo key hL hl hkey => ?_, fun m s v hL hl hv => ⟨fun h => ?_, fun hle hrl hpw => ?_⟩⟩
  · intro v mask x
    have hslot : loadedSlot v = x := loadedSlot_eq n g hi lo hkey
    refine ⟨fun h => ?_, fun h => ?_, fun h => ?_, fun h => ?_⟩
    · exact hslot ▸ groupSlot_loads .slot1 hL hl hkey (by rw [h]; rfl)
    · exact hslot ▸ groupSlot_loads .slot2 hL hl hkey (by rw [h]; rfl)
    · exact hslot ▸ groupSlot_loads .slot3 hL hl hkey (by rw [h]; rfl)
    · have hv : v.length = 20 := by simp [v, hkey]
      have hnone : groupSlotOfNumber (argumentOf v) = none :=
        groupSlotOfNumber_none (n := n.toNat) (h.imp_left fun h => by rw [h]; rfl)
      exact item_refused (owner := groupSlotItem) (item := 3) (fun _ => rfl) hL hl (by omega) (by omega)
        fun l => groupSlotItem_refused _ hv hnone
  · have hnone : actionsOfBytes v = none := by
      rcases h with ⟨b, hb, h2⟩ | h8 | h6
      · obtain ⟨k, hk⟩ := exists_kindNumber hv hb
        exact actionsOfBytes_refused (k := k) hv fun h => absurd h.1 (by rw [hk]; omega)
      · exact actionsOfBytes_refused (k := .rl) hv fun h => h8 (h.2.1 rfl)
      · exact actionsOfBytes_refused (k := .pw) hv fun h => h.2.2 rfl h6
    exact item_refused (owner := tamperActionsItem) (item := 11) (fun _ => rfl) hL hl (by omega) (by omega)
      fun l => tamperActionsItem_refused _ hv hnone
  · obtain ⟨a, ha, hcode⟩ := actionsOfBytes_taken hv fun k =>
      ⟨hle _ (getD_kindNumber_mem hv k), fun e => by rw [e]; exact hrl, fun e => by rw [e]; exact hpw⟩
    obtain ⟨l, h⟩ := item_answered (c := .tamperActions m v) (m := m) (owner := tamperActionsItem) (item := 11)
      (fun _ => rfl) hL hl (by omega) (by omega)
    obtain ⟨l', hexec, hansw⟩ := h _ _ (tamperActionsItem_taken _ hv ha)
    rw [afterFrame_listening m l hL] at hexec
    generalize hu : State.setTmp _ _ = u at hexec
    have hsame : u.tmp = { s.tmp with actions := a } ∧ u.acu = s.acu ∧ u.tcu = s.tcu ∧ u.ots = s.ots ∧ u.elg = s.elg ∧
        u.sdm = s.sdm ∧ u.pending = s.pending := by
      subst hu
      exact ⟨rfl, rfl, rfl, rfl, rfl, rfl, rfl⟩
    obtain ⟨htmp, hacu, htcu, hots, helg, hsdm, hpending⟩ := hsame
    obtain ⟨hactions, hsets⟩ := evaluateTamper_latches u
    rw [htmp] at hactions hsets
    refine ⟨_, hexec, hansw, fun k => ?_, fun k => (hsets k).1, evaluateTamper_required u, by simpa using hacu,
      by simpa using htcu, by simpa using hots, by simpa using helg, by simpa using hsdm, by simpa using hpending⟩
    show ((evaluateTamper u).tmp.actions.get k).code = _
    rw [hactions]
    exact hcode k

end Sys2Proof.Machine
end

