-- ==== Sys2Proof/Proofs/TariffItems.lean ====
section
/-! The items that write a tariff or a calendar field (R64). -/

namespace Sys2Proof.Machine

theorem natOfBytes_three_le (a b c : Byte) : natOfBytes [a, b, c] ≤ 16777215 := by
  simp only [natOfBytes, List.foldl_cons, List.foldl_nil]
  omega

/-! ## The fields of a tariff (R61, R62) -/

theorem writePrice_price {selector value : Nat} (t : Tariff) (hs : selector ≤ 3) (hv : value ≤ 1000000) :
    writePrice selector value t = some { t with prices := t.prices.setIfInBounds selector value } :=
  (if_pos hs).trans (if_pos hv)

theorem writePrice_standing {value : Nat} (t : Tariff) (hv : value ≤ 16777215) :
    writePrice 4 value t = some { t with standing := value } :=
  (if_neg (by decide)).trans ((if_pos rfl).trans (if_pos hv))

theorem writePrice_refused {selector value : Nat} (t : Tariff)
    (h : 4 < selector ∨ selector ≤ 3 ∧ 1000000 < value) : writePrice selector value t = none := by
  rcases h with h | ⟨hs, hv⟩
  · exact (if_neg (by omega)).trans (if_neg (by omega))
  · exact (if_pos hs).trans (if_neg (Nat.not_le.mpr hv))

theorem writePoint_work {selector value : Nat} {p : Point} (t : Tariff) (hp : pointOfValue value = some p)
    (hs : selector ≤ 7) : writePoint selector value t = some { t with work := t.work.setIfInBounds selector p } := by
  simp only [writePoint, hp, if_pos hs]

theorem writePoint_rest {selector value : Nat} {p : Point} (t : Tariff) (hp : pointOfValue value = some p)
    (h8 : 8 ≤ selector) (h15 : selector ≤ 15) :
    writePoint selector value t = some { t with rest := t.rest.setIfInBounds (selector - 8) p } := by
  simp only [writePoint, hp, if_neg (show ¬selector ≤ 7 by omega), if_pos h15]

theorem writePoint_refused {selector value : Nat} (t : Tariff) (h : 15 < selector ∨ pointOfValue value = none) :
    writePoint selector value t = none := by
  cases hp : pointOfValue value with
  | none => simp only [writePoint, hp]
  | some p =>
    have hs : 15 < selector := h.resolve_right (by simp [hp])
    simp only [writePoint, hp, if_neg (show ¬selector ≤ 7 by omega), if_neg (show ¬selector ≤ 15 by omega)]

theorem writeTariffField_refused {form selector value : Nat} (t : Tariff)
    (h : 1 < form ∨ form = 0 ∧ (4 < selector ∨ selector ≤ 3 ∧ 1000000 < value) ∨
      form = 1 ∧ (15 < selector ∨ pointOfValue value = none)) : writeTariffField form selector value t = none := by
  rcases h with h | ⟨rfl, h⟩ | ⟨rfl, h⟩
  · unfold writeTariffField
    split
    case h_3 => rfl
    all_goals omega
  · exact writePrice_refused t h
  · exact writePoint_refused t h

/-! ## The items -/

section
variable {m : Moment} {s : State} {form sel a b c : Byte}

/-- An active tariff field is written in both tariffs (R64). -/
theorem activeTariffField_written {w : Tariff → Tariff} (hL : Listening s) (hl : s.ots.lock = false)
    (hw : ∀ t, writeTariffField form.toNat sel.toNat (natOfBytes [a, b, c]) t = some (w t)) :
    AnswersWith (.activeTariffField m [form, sel, a, b, c]) m s 0x13 [] fun t =>
      { t with tcu := { t.tcu with active := w s.tcu.active, passive := w s.tcu.passive } } := by
  refine item_taken (owner := activeTariffItem) (item := 12) (fun _ => rfl) hL hl (by simp) (by simp) (fun l => ?_)
    fun _ _ => rfl
  have hitem : ∀ u : State, activeTariffItem [form, sel, a, b, c] u =
      taken { u with tcu := { u.tcu with active := w u.tcu.active, passive := w u.tcu.passive } } := fun u => by
    simp only [activeTariffItem, itemOf, List.length_cons, List.length_nil, if_true, argumentOf, List.headD_cons,
      List.tail_cons, List.drop_succ_cons, List.drop_zero, hw]
    rfl
  rw [hitem, afterFrame_listening m l hL]

theorem activeTariffField_refused (hL : Listening s) (hl : s.ots.lock = false)
    (hw : ∀ t, writeTariffField form.toNat sel.toNat (natOfBytes [a, b, c]) t = none) :
    AnswersOnly (.activeTariffField m [form, sel, a, b, c]) m s 0x13 .argument [] := by
  refine item_refused (owner := activeTariffItem) (item := 12) (fun _ => rfl) hL hl (by simp) (by simp) fun l => ?_
  simp only [activeTariffItem, itemOf, List.length_cons, List.length_nil, if_true, argumentOf, List.headD_cons,
    List.tail_cons, List.drop_succ_cons, List.drop_zero, hw]
  rfl

/-- A calendar field is written, and the friendly period is evaluated (R64, R67). -/
theorem calendarItem_taken {s : State} {cal : Calendar}
    (h : writeCalendar sel.toNat (natOfBytes [a, b, c]) s.tcu.cal = some cal) :
    calendarItem [sel, a, b, c] s = taken (evaluateFriendly (s.setTcu { s.tcu with cal := cal })) := by
  simp only [calendarItem, itemOf, List.length_cons, List.length_nil, if_true, argumentOf, List.headD_cons,
    List.tail_cons, h]

theorem calendarItem_refused {s : State}
    (h : writeCalendar sel.toNat (natOfBytes [a, b, c]) s.tcu.cal = none) :
    calendarItem [sel, a, b, c] s = refuseArgument s := by
  simp only [calendarItem, itemOf, List.length_cons, List.length_nil, if_true, argumentOf, List.headD_cons,
    List.tail_cons, h]

end

/-- Settles O53: a price or a point by what it writes in any tariff, a calendar field by what the evaluation of the
friendly period leaves. -/
theorem tariffAndCalendarItems : Obligations.TariffAndCalendarItems := by
  intro m s form sel a b c hL hl value
  refine ⟨fun hform hsel hv => ?_, fun hform hsel => ?_, fun p hform hsel hp => ?_, fun p hform h8 h15 hp => ?_,
    fun h => ?_, fun cal hcal => ?_, fun hnone => ?_⟩
  · refine activeTariffField_written (w := fun t => { t with prices := t.prices.setIfInBounds sel.toNat value }) hL hl
      fun t => ?_
    rw [hform]
    exact writePrice_price t hsel hv
  · refine activeTariffField_written (w := fun t => { t with standing := value }) hL hl fun t => ?_
    rw [hform, hsel]
    exact writePrice_standing t (natOfBytes_three_le a b c)
  · refine activeTariffField_written (w := fun t => { t with work := t.work.setIfInBounds sel.toNat p }) hL hl
      fun t => ?_
    rw [hform]
    exact writePoint_work t hp hsel
  · refine activeTariffField_written (w := fun t => { t with rest := t.rest.setIfInBounds (sel.toNat - 8) p }) hL hl
      fun t => ?_
    rw [hform]
    exact writePoint_rest t hp h8 h15
  · exact activeTariffField_refused hL hl fun t => writeTariffField_refused t h
  · obtain ⟨l, h⟩ := item_answered (c := .calendarField m [sel, a, b, c]) (m := m) (owner := calendarItem) (item := 13)
      (fun _ => rfl) hL hl (by simp) (by simp)
    have hframe := afterFrame_listening m l hL
    obtain ⟨l', hexec, hansw⟩ := h _ _ (calendarItem_taken (by rw [hframe]; exact hcal))
    rw [hframe] at hexec
    generalize hu : State.setTcu _ _ = u at hexec
    have hsame : u.tcu = { s.tcu with cal := cal } ∧ u.acu = s.acu ∧ u.ots = s.ots ∧ u.elg = s.elg ∧ u.sdm = s.sdm ∧
        u.pending = s.pending := by
      subst hu
      exact ⟨rfl, rfl, rfl, rfl, rfl, rfl⟩
    obtain ⟨htcu, hacu, hots, helg, hsdm, hpending⟩ := hsame
    have hfriendly := evaluateFriendly_tcu u
    have hnow : friendlyNow (evaluateFriendly u).tcu = friendlyNow u.tcu := by rw [hfriendly]; rfl
    refine ⟨_, hexec, hansw, ?_, ?_, ?_, ?_, ?_, by simpa using hacu, by simpa using hots, by simpa using helg,
      by simpa using hsdm, by simpa using hpending⟩ <;> dsimp only
    · rw [hfriendly, htcu]
    · rw [hnow, hfriendly]
    · rw [hfriendly, htcu]
    · rw [hfriendly, htcu]
    · rw [hfriendly, htcu]
  · refine item_refused (owner := calendarItem) (item := 13) (fun _ => rfl) hL hl (by simp) (by simp)
      fun l => calendarItem_refused ?_
    rw [afterFrame_listening m l hL]
    exact hnone

end Sys2Proof.Machine
end

