-- ==== Sys2Proof/Proofs/Burns.lean ====
section
/-! The burns of the One-Time Store that commissioning begins (R194, R196): the identity, the slot-0 key, and the lock. -/

namespace Sys2Proof.Machine

/-! ## A burn that begins in WORKING -/

/-- A command whose owner begins a burn stays in WORKING, with no answer placed (R194, R196). -/
theorem request_burns {c : Instr} {r : Request} {owner : Owner} {p : List Byte} {field : BurnField} {m : Moment}
    {s : State} (hx : exec c s = .next (request r (serve r owner) p (observe m 0 s))) (hL : Listening s)
    (hp : p.length ≤ 37) (ht : r.takes p.length = true) (hc : ¬(r.commissioning = true ∧ s.ots.lock = true))
    (ho : ∀ l, owner p (afterFrame m s l) = (none, beginBurn field (afterFrame m s l))) :
    ∃ l, exec c s = .next { afterFrame m s l with
      ots := { s.ots with burn := some ⟨field, s.now + m.elapsed + 5⟩ } } ∧ l.state = .working := by
  obtain ⟨l, h, hstate, -⟩ := request_handed (owner := owner) (m := m) hL hp ht hc
  refine ⟨l, ?_, hstate⟩
  rw [hx, h, ho, placeAnswer, afterFrame_listening m l hL]
  rfl

/-- No burn is left to settle where none runs. -/
theorem settleBurn_none {s : State} (h : s.ots.burn = none) : settleBurn s = s := by
  unfold settleBurn
  rw [h]

/-- The end of the burn of an identity or a key, whose request waits in WORKING (R194). -/
theorem exec_otsBurnEnd {m : Moment} {s : State} {b : Burn} (hp : s.sdm.power = .run) (hl : s.lnk.state = .working)
    (hb : s.ots.burn = some b) (hf : b.field ≠ .lockMark ∧ b.field ≠ .lossMark) (he : b.ends ≤ s.now + m.elapsed) :
    ∃ u, exec (.otsBurnEnd m) s = .next u ∧ Answered 0x13 .ok [] u.lnk ∧
      u = { observe m 0 s with ots := s.ots.burned, lnk := u.lnk } := by
  have hobs := observe_working m (.inl hp)
  have hots : (observe m 0 s).ots = s.ots := by rw [hobs]
  have hend : otsBurnEnd (observe m 0 s) =
      answerBurn .commissionWrite ((observe m 0 s).setOts s.ots.burned) := by
    have he' : b.ends ≤ (observe m 0 s).now := by rw [hobs]; exact he
    unfold otsBurnEnd
    rw [hots, hb]
    dsimp only
    split
    · exact if_pos he'
    · exact if_pos he'
    · exact absurd ‹_› hf.1
    · exact absurd ‹_› hf.2
  have hwork : ((observe m 0 s).setOts s.ots.burned).lnk.state = .working := by rw [hobs]; exact hl
  obtain ⟨l, hplace, hansw⟩ := placeReply_answered 0x13 (.ok []) ((observe m 0 s).setOts s.ots.burned)
  have hanswer : answerBurn .commissionWrite ((observe m 0 s).setOts s.ots.burned) =
      placeReply 0x13 (.ok []) ((observe m 0 s).setOts s.ots.burned) := if_pos hwork
  exact ⟨_, congrArg Host.Outcome.next (hend.trans (hanswer.trans hplace)), hansw, rfl⟩

theorem Ots.burned_identity {x : Ots} {b : Burn} {ds : List (Fin 10)} (hb : x.burn = some b)
    (hf : b.field = .identity ds) : x.burned = { x with identity := some ds, burn := none } := by
  simp only [Ots.burned, hb, hf]

theorem Ots.burned_slot0Key {x : Ots} {b : Burn} {k : BitVec 128} (hb : x.burn = some b)
    (hf : b.field = .slot0Key k) : x.burned = { x with key0 := some k, burn := none } := by
  simp only [Ots.burned, hb, hf]

/-! ## The items of the identity and the key -/

theorem digitsOfBytes_none {v : List Byte} (h : ∃ b ∈ v, 9 < b.toNat) : digitsOfBytes v = none := by
  obtain ⟨b, hb, h9⟩ := h
  induction v with
  | nil => exact absurd hb List.not_mem_nil
  | cons x xs ih =>
    rcases List.mem_cons.mp hb with rfl | hb
    · exact dif_neg (by omega)
    · simp only [digitsOfBytes, ih hb]
      exact dite_eq_right_iff.mpr fun _ => rfl

section
variable {v : List Byte} {s : State}

theorem identityItem_written (hv : v.length = 12) (hb : s.ots.burn = none) (h : s.ots.identity.isSome = true) :
    identityItem v s = (some (.bare .written), s) := by
  simp only [identityItem, itemOf, if_pos hv, settleBurn_none hb, if_pos h]

theorem identityItem_refused (hv : v.length = 12) (hb : s.ots.burn = none) (h : s.ots.identity = none)
    (hd : digitsOfBytes v = none) : identityItem v s = refuseArgument s := by
  simp only [identityItem, itemOf, if_pos hv, settleBurn_none hb, h, hd]
  rfl

theorem identityItem_burns {ds : List (Fin 10)} (hv : v.length = 12) (hb : s.ots.burn = none)
    (h : s.ots.identity = none) (hd : digitsOfBytes v = some ds) :
    identityItem v s = (none, beginBurn (.identity ds) s) := by
  simp only [identityItem, itemOf, if_pos hv, settleBurn_none hb, h, hd]
  rfl

theorem slot0KeyItem_written (hv : v.length = 16) (hb : s.ots.burn = none) (h : s.ots.key0.isSome = true) :
    slot0KeyItem v s = (some (.bare .written), s) := by
  simp only [slot0KeyItem, itemOf, if_pos hv, settleBurn_none hb, if_pos h]

theorem slot0KeyItem_burns (hv : v.length = 16) (hb : s.ots.burn = none) (h : s.ots.key0 = none) :
    slot0KeyItem v s = (none, beginBurn (.slot0Key (BitVec.ofNat 128 (natOfBytes v))) s) := by
  simp only [slot0KeyItem, itemOf, if_pos hv, settleBurn_none hb, h]
  rfl

end

theorem afterFrame_ots (m : Moment) {s : State} (l : Lnk) (hL : Listening s) : (afterFrame m s l).ots = s.ots := by
  rw [afterFrame_listening m l hL]

/-- An item whose field is burned: it waits in WORKING, and its burn's end writes the field and answers OK (R194). -/
theorem item_burned {c : Instr} {item : Nat} {owner : Owner} {field : BurnField} {v : List Byte} {m m' : Moment}
    {s : State} (hx : ItemRow c item owner m v) (hL : Listening s) (hl : s.ots.lock = false) (h1 : 1 ≤ v.length)
    (h2 : v.length ≤ 20) (hf : field ≠ .lockMark ∧ field ≠ .lossMark) (h5 : 5 ≤ m'.elapsed)
    (ho : ∀ l, owner v (afterFrame m s l) = (none, beginBurn field (afterFrame m s l))) :
    ∃ t u, exec c s = .next t ∧ t.lnk.state = .working ∧
      t.ots = { s.ots with burn := some ⟨field, s.now + m.elapsed + 5⟩ } ∧ t = { afterFrame m s t.lnk with ots := t.ots } ∧
      exec (.otsBurnEnd m') t = .next u ∧ Answered 0x13 .ok [] u.lnk ∧
      u = { observe m' 0 t with ots := t.ots.burned, lnk := u.lnk } := by
  obtain ⟨l, hexec, hwork⟩ := request_burns (hx s) hL (by rw [List.length_cons]; omega) (takes_item h1 h2) (by simp [hl]) ho
  have hframe := afterFrame_listening m l hL
  generalize ht : { afterFrame m s l with ots := { s.ots with burn := some ⟨field, s.now + m.elapsed + 5⟩ } } = t at hexec
  have hpower : t.sdm.power = .run := by
    rw [← ht, hframe]
    exact hL.1
  have hnow : t.now = s.now + m.elapsed := by rw [← ht, hframe]
  have hots : t.ots = { s.ots with burn := some ⟨field, s.now + m.elapsed + 5⟩ } := by rw [← ht]
  have hlnk : t.lnk = l := by
    rw [← ht]
    rfl
  obtain ⟨u, hend, hansw, hu⟩ := exec_otsBurnEnd (m := m') (s := t) (b := ⟨field, s.now + m.elapsed + 5⟩) hpower
    (hlnk ▸ hwork) (by rw [hots]) hf (by rw [hnow]; dsimp only; omega)
  refine ⟨t, u, hexec, hlnk ▸ hwork, hots, ?_, hend, hansw, hu⟩
  rw [← ht]
  rfl

/-- Settles O54: written and refused by the owners, burned by the two events of a burn. -/
theorem oneTimeItemsAreBurned : Obligations.OneTimeItemsAreBurned := by
  intro m m' s v k hL hl hb hv hk
  have hb' : ∀ l, (afterFrame m s l).ots.burn = none := fun l => by rw [afterFrame_ots m l hL]; exact hb
  refine ⟨fun h => ?_, fun h => ?_, fun h hbad => ?_, fun ds h hds h5 => ?_, fun h h5 => ?_⟩
  · exact item_refused (owner := identityItem) (item := 1) (fun _ => rfl) hL hl (by omega) (by omega)
      fun l => identityItem_written hv (hb' l) (by rw [afterFrame_ots m l hL]; exact h)
  · exact item_refused (owner := slot0KeyItem) (item := 2) (fun _ => rfl) hL hl (by omega) (by omega)
      fun l => slot0KeyItem_written hk (hb' l) (by rw [afterFrame_ots m l hL]; exact h)
  · exact item_refused (owner := identityItem) (item := 1) (fun _ => rfl) hL hl (by omega) (by omega)
      fun l => identityItem_refused hv (hb' l) (by rw [afterFrame_ots m l hL]; exact h) (digitsOfBytes_none hbad)
  · obtain ⟨t, u, hexec, hwork, hots, ht, hend, hansw, hu⟩ := item_burned (c := .identity m v) (m := m) (m' := m')
      (owner := identityItem) (item := 1) (field := .identity ds) (fun _ => rfl) hL hl (by omega) (by omega)
      ⟨nofun, nofun⟩ h5
      fun l => identityItem_burns hv (hb' l) (by rw [afterFrame_ots m l hL]; exact h) hds
    refine ⟨t, u, hexec, hwork, by rw [hots]; exact h, ht, hend, hansw, hu.trans ?_⟩
    rw [Ots.burned_identity (b := ⟨.identity ds, s.now + m.elapsed + 5⟩) (by rw [hots]) rfl, hots, ← hb]
  · obtain ⟨t, u, hexec, hwork, hots, ht, hend, hansw, hu⟩ := item_burned (c := .slot0Key m k) (m := m) (m' := m')
      (owner := slot0KeyItem) (item := 2) (field := .slot0Key (BitVec.ofNat 128 (natOfBytes k))) (fun _ => rfl) hL hl
      (by omega) (by omega) ⟨nofun, nofun⟩ h5
      fun l => slot0KeyItem_burns hk (hb' l) (by rw [afterFrame_ots m l hL]; exact h)
    refine ⟨t, u, hexec, hwork, by rw [hots]; exact h, ht, hend, hansw, hu.trans ?_⟩
    rw [Ots.burned_slot0Key (b := ⟨_, s.now + m.elapsed + 5⟩) (by rw [hots]) rfl, hots, ← hb]

/-! ## The lock -/

theorem commissionLockOwner_incomplete {p : List Byte} {s : State} (hb : s.ots.burn = none) (hl : s.ots.lock = false)
    (h : missingNeeds s ≠ 0) :
    commissionLockOwner p s = (some ⟨.incomplete, [BitVec.ofNat 8 (missingNeeds s)]⟩, s) := by
  simp only [commissionLockOwner, settleBurn_none hb, hl, if_neg h, bytesOfNat_one]
  rfl

theorem commissionLockOwner_burns {p : List Byte} {s : State} (hb : s.ots.burn = none) (hl : s.ots.lock = false)
    (h : missingNeeds s = 0) : commissionLockOwner p s = (none, beginBurn .lockMark s) := by
  simp only [commissionLockOwner, settleBurn_none hb, hl, if_pos h]
  rfl

/-- Settles O55, by whether a need is missing. -/
theorem lockNeedsIdentityKeyAndClock : Obligations.LockNeedsIdentityKeyAndClock := by
  intro m s hL hl hb missing
  have hb' : ∀ l, (afterFrame m s l).ots.burn = none := fun l => by rw [afterFrame_ots m l hL]; exact hb
  have hl' : ∀ l, (afterFrame m s l).ots.lock = false := fun l => by rw [afterFrame_ots m l hL]; exact hl
  have hmissing : ∀ l, missingNeeds (afterFrame m s l) = missing := fun l => by
    rw [afterFrame_listening m l hL]
    rfl
  refine ⟨fun h => ?_, fun h => ?_⟩
  · refine answersOnly_of_owner (r := .commissionLock) (owner := commissionLockOwner)
      (a := ⟨.incomplete, [BitVec.ofNat 8 missing]⟩) rfl hL (by simp) rfl (by simp [hl]) fun l => ?_
    rw [← hmissing l] at h ⊢
    exact commissionLockOwner_incomplete (hb' l) (hl' l) h
  · exact request_burns (r := .commissionLock) (owner := commissionLockOwner) rfl hL (by simp) rfl (by simp [hl])
      fun l => commissionLockOwner_burns (hb' l) (hl' l) ((hmissing l).trans h)

end Sys2Proof.Machine
end

