-- ==== Sys2Proof/Proofs/Snapshots.lean ====
section
/-! The snapshot groups: SNAPSHOT_LATCH (R181, R182) and SNAPSHOT_READ (R183). -/

namespace Sys2Proof.Machine

/-! ## The groups -/

/-- A frame that completes is nothing to the snapshot groups. -/
theorem rpuAfterFrame_groups (s : State) :
    (rpuAfterFrame s).status = s.rpu.status ∧ (rpuAfterFrame s).account = s.rpu.account ∧
      (rpuAfterFrame s).energy = s.rpu.energy := by
  unfold rpuAfterFrame
  split <;> exact ⟨rfl, rfl, rfl⟩

/-- The latched groups as one byte, each with its own weight (R181). -/
theorem groupSetBytes_latched (x : Rpu) :
    groupSetBytes (latchedGroups x) =
      [BitVec.ofNat 8 ((if x.status.isSome then 1 else 0) + (if x.account.isSome then 2 else 0) +
        (if x.energy.isSome then 4 else 0))] := by
  unfold groupSetBytes latchedGroups
  rw [bytesOfNat_one]
  cases x.status.isSome <;> cases x.account.isSome <;> cases x.energy.isSome <;> rfl

/-- A byte names the groups whose bits it holds (R181). -/
theorem named_bit (a : Byte) {k : Nat} (hk : k < 3) : (BitVec.ofNat 3 a.toNat).getLsbD k = a.getLsbD k := by
  rw [BitVec.getLsbD_ofNat, decide_eq_true hk, Bool.true_and, BitVec.testBit_toNat]

/-- The numbers of the named groups that are held, and of those that are not, whatever the groups held are. -/
theorem named_groups : ∀ a : Fin 8, ∀ st ac en : Bool,
    let g : GroupSet := BitVec.ofNat 3 a
    let held : GroupSet := (if st then 1 else 0) ||| (if ac then 2 else 0) ||| (if en then 4 else 0)
    let name (k : Nat) : Bool := (BitVec.ofNat 8 a).getLsbD k
    (g &&& ~~~(g &&& held)).toNat = (if name 0 && !st then 2 ^ 0 else 0) + (if name 1 && !ac then 2 ^ 1 else 0) +
        (if name 2 && !en then 2 ^ 2 else 0) ∧
      (g &&& held).toNat = (if name 0 && st then 2 ^ 0 else 0) + (if name 1 && ac then 2 ^ 1 else 0) +
        (if name 2 && en then 2 ^ 2 else 0) := by decide

/-! ## Latching -/

/-- SNAPSHOT_LATCH with a byte that names a group (R181). -/
theorem snapshotLatchOwner_latches {a : Byte} (s : State) (h1 : 1 ≤ a.toNat) (h7 : a.toNat ≤ 7) :
    snapshotLatchOwner [a] s =
      (some (.ok (groupSetBytes (BitVec.ofNat 3 a.toNat &&& ~~~(BitVec.ofNat 3 a.toNat &&& latchedGroups s.rpu)) ++
        groupSetBytes (BitVec.ofNat 3 a.toNat &&& latchedGroups s.rpu))),
        s.setRpu (latchGroups (BitVec.ofNat 3 a.toNat) s)) := if_pos ⟨h1, h7⟩

theorem snapshotLatchOwner_refused {a : Byte} (s : State) (h : a.toNat = 0 ∨ 7 < a.toNat) :
    snapshotLatchOwner [a] s = refuseArgument s := if_neg fun ⟨h1, h7⟩ => by
  have h1' : 1 ≤ a.toNat := h1
  have h7' : a.toNat ≤ 7 := h7
  omega

/-- The Report Unit after a latch, with the values that stand (R182). -/
theorem latchGroups_afterFrame {m : Moment} {s : State} (l : Lnk) (a : Byte) (hL : Listening s) :
    latchGroups (BitVec.ofNat 3 a.toNat) (afterFrame m s l) =
      { rpuAfterFrame s with
        status :=
          if a.getLsbD 0 && !s.rpu.status.isSome then some ⟨s.tcu.clock, s.tcu.valid, statusValues s⟩ else s.rpu.status
        account :=
          if a.getLsbD 1 && !s.rpu.account.isSome then some ⟨s.tcu.clock, s.tcu.valid, s.acu⟩ else s.rpu.account
        energy :=
          if a.getLsbD 2 && !s.rpu.energy.isSome then some ⟨s.tcu.clock, s.tcu.valid, energyValues s⟩
          else s.rpu.energy } := by
  obtain ⟨hst, hac, hen⟩ := rpuAfterFrame_groups s
  rw [afterFrame_listening m l hL]
  simp only [latchGroups, hst, hac, hen, named_bit a (by decide : 0 < 3), named_bit a (by decide : 1 < 3),
    named_bit a (by decide : 2 < 3), Option.not_isSome]
  rfl

/-- The two bytes of the answer of SNAPSHOT_LATCH (R181). -/
theorem snapshotLatch_bytes {a : Byte} (x : Rpu) (h7 : a.toNat ≤ 7) :
    groupSetBytes (BitVec.ofNat 3 a.toNat &&& ~~~(BitVec.ofNat 3 a.toNat &&& latchedGroups x)) ++
        groupSetBytes (BitVec.ofNat 3 a.toNat &&& latchedGroups x) =
      [BitVec.ofNat 8 ((if a.getLsbD 0 && !x.status.isSome then 2 ^ 0 else 0) +
          (if a.getLsbD 1 && !x.account.isSome then 2 ^ 1 else 0) + (if a.getLsbD 2 && !x.energy.isSome then 2 ^ 2 else 0)),
        BitVec.ofNat 8 ((if a.getLsbD 0 && x.status.isSome then 2 ^ 0 else 0) +
          (if a.getLsbD 1 && x.account.isSome then 2 ^ 1 else 0) + (if a.getLsbD 2 && x.energy.isSome then 2 ^ 2 else 0))] := by
  obtain ⟨hnew, hold⟩ := named_groups ⟨a.toNat, by omega⟩ x.status.isSome x.account.isSome x.energy.isSome
  simp only [BitVec.ofNat_toNat, BitVec.setWidth_eq] at hnew hold
  simp only [groupSetBytes, bytesOfNat_one, latchedGroups, BitVec.ofNat_toNat, hnew, hold]
  rfl

/-! ## Reading -/

section
variable {p : List Byte} {s : State}

theorem snapshotReadOwner_status {x : Latched StatusValues} (h : s.rpu.status = some x) :
    snapshotReadOwner p s = (some (.ok (snapshotBytes .status x.time x.valid
      (latchedGroups { s.rpu with status := none }) (statusGroupBytes x.values))),
      s.setRpu { s.rpu with status := none }) := by
  simp only [snapshotReadOwner, h]

theorem snapshotReadOwner_account {x : Latched Account} (hs : s.rpu.status = none) (h : s.rpu.account = some x) :
    snapshotReadOwner p s = (some (.ok (snapshotBytes .account x.time x.valid
      (latchedGroups { s.rpu with account := none }) (accountBytes x.values))),
      s.setRpu { s.rpu with account := none }) := by
  simp only [snapshotReadOwner, hs, h]

theorem snapshotReadOwner_energy {x : Latched EnergyValues} (hs : s.rpu.status = none) (ha : s.rpu.account = none)
    (h : s.rpu.energy = some x) :
    snapshotReadOwner p s = (some (.ok (snapshotBytes .energy x.time x.valid
      (latchedGroups { s.rpu with energy := none }) (energyGroupBytes x.values))),
      s.setRpu { s.rpu with energy := none }) := by
  simp only [snapshotReadOwner, hs, ha, h]

theorem snapshotReadOwner_live (hs : s.rpu.status = none) (ha : s.rpu.account = none) (he : s.rpu.energy = none) :
    snapshotReadOwner p s = (some (.ok (snapshotBytes .live s.tcu.clock s.tcu.valid 0
      (statusGroupBytes (statusValues s)))), s) := by
  simp only [snapshotReadOwner, hs, ha, he]

end

/-- Settles O47: a latch by the groups its byte names, a read by the first group that is latched. -/
theorem snapshots : Obligations.Snapshots := by
  refine ⟨fun m s a hL => ?_, fun m s hL => ?_⟩
  · intro named new old st ac en
    refine ⟨fun h1 h7 => ?_, fun h => ?_⟩
    · refine answersWith_of_owner (r := .snapshotLatch) (owner := snapshotLatchOwner)
        (t := fun l => (afterFrame m s l).setRpu (latchGroups (BitVec.ofNat 3 a.toNat) (afterFrame m s l))) rfl hL (by simp)
        rfl (fun h => nomatch h.1) (fun l => ?_) fun l l' => ?_
      · rw [snapshotLatchOwner_latches _ h1 h7, snapshotLatch_bytes _ h7]
        obtain ⟨hst, hac, hen⟩ := rpuAfterFrame_groups s
        have hrpu : (afterFrame m s l).rpu = rpuAfterFrame s := rfl
        rw [hrpu, hst, hac, hen]
      · rw [latchGroups_afterFrame l a hL]
        rfl
    · exact answersOnly_of_owner (r := .snapshotLatch) (owner := snapshotLatchOwner) (a := .bare .argument) rfl hL
        (by simp) rfl (fun h => nomatch h.1) fun l => snapshotLatchOwner_refused _ h
  · obtain ⟨hst, hac, hen⟩ := rpuAfterFrame_groups s
    refine ⟨fun x hx => ?_, fun x hs hx => ?_, fun x hs ha hx => ?_, fun hs ha he => ?_⟩
    · refine answersWith_of_owner (r := .snapshotRead) (owner := snapshotReadOwner)
        (t := fun l => { afterFrame m s l with rpu := { rpuAfterFrame s with status := none } }) rfl hL (by simp)
        rfl (fun h => nomatch h.1) (fun l => ?_) fun l l' => rfl
      rw [snapshotReadOwner_status (hst.trans hx), snapshotBytes, groupSetBytes_latched]
      have hrpu : (afterFrame m s l).rpu = rpuAfterFrame s := rfl
      simp only [hrpu, hac, hen, bytesOfNat_one, statusGroupBytes, kindSetBytes]
      simp [State.setRpu, Group.code]
    · refine answersWith_of_owner (r := .snapshotRead) (owner := snapshotReadOwner)
        (t := fun l => { afterFrame m s l with rpu := { rpuAfterFrame s with account := none } }) rfl hL (by simp)
        rfl (fun h => nomatch h.1) (fun l => ?_) fun l l' => rfl
      rw [snapshotReadOwner_account (hst.trans hs) (hac.trans hx), snapshotBytes, groupSetBytes_latched]
      have hrpu : (afterFrame m s l).rpu = rpuAfterFrame s := rfl
      simp only [hrpu, hst, hs, hen, bytesOfNat_one, accountBytes]
      cases s.rpu.energy <;> simp [State.setRpu, Group.code]
    · refine answersWith_of_owner (r := .snapshotRead) (owner := snapshotReadOwner)
        (t := fun l => { afterFrame m s l with rpu := { rpuAfterFrame s with energy := none } }) rfl hL (by simp)
        rfl (fun h => nomatch h.1) (fun l => ?_) fun l l' => rfl
      rw [snapshotReadOwner_energy (hst.trans hs) (hac.trans ha) (hen.trans hx), snapshotBytes, groupSetBytes_latched]
      have hrpu : (afterFrame m s l).rpu = rpuAfterFrame s := rfl
      simp only [hrpu, hst, hs, hac, ha, bytesOfNat_one, energyGroupBytes]
      simp [State.setRpu, Group.code, phaseNats]
    · have hbytes : snapshotBytes .live s.tcu.clock s.tcu.valid 0 (statusGroupBytes (statusValues s)) =
          [3] ++ bytesOfNat 4 s.tcu.clock ++ byteOfBool s.tcu.valid ++ [0] ++ statusGroupBytes (statusValues s) := rfl
      have h := answersOnly_of_owner (c := .snapshotRead m []) (m := m) (s := s) (r := .snapshotRead) (p := [])
        (owner := snapshotReadOwner)
        (a := .ok (snapshotBytes .live s.tcu.clock s.tcu.valid 0 (statusGroupBytes (statusValues s)))) rfl hL (by simp) rfl
        (fun h => nomatch h.1) fun l => (snapshotReadOwner_live (hst.trans hs) (hac.trans ha) (hen.trans he)).trans (by
          rw [afterFrame_listening m l hL]
          rfl)
      simp only [Answer.ok, hbytes] at h
      simpa [statusGroupBytes, statusValues, causeList, CauseTable.get, bytesOfNat_one, kindSetBytes,
        Request.kind] using h

end Sys2Proof.Machine
end

