-- ==== Sys2Proof/Proofs/Readings.lean ====
section
/-! How numbers are sent (R198), and the other readings (R16, R74, R103, R136, R163, R173, R174). -/

namespace Sys2Proof.Machine

/-! ## Numbers as bytes (R198) -/

@[simp] theorem length_bytesOfNat (n x : Nat) : (bytesOfNat n x).length = n := by
  induction n with
  | zero => rfl
  | succ n ih => simp [bytesOfNat, ih]

/-- The first byte has the highest weight. -/
theorem natOfBytes_cons (b : Byte) (bs : List Byte) :
    natOfBytes (b :: bs) = b.toNat * 256 ^ bs.length + natOfBytes bs := by
  have hfold : ∀ (bs : List Byte) (acc : Nat), bs.foldl (fun acc b => acc * 256 + b.toNat) acc =
      acc * 256 ^ bs.length + bs.foldl (fun acc b => acc * 256 + b.toNat) 0 := by
    intro bs
    induction bs with
    | nil => simp
    | cons x xs ih =>
      intro acc
      simp only [List.foldl_cons, List.length_cons]
      rw [ih (acc * 256 + x.toNat), ih (0 * 256 + x.toNat)]
      ring
  simpa [natOfBytes] using hfold bs b.toNat

theorem natOfBytes_bytesOfNat (n x : Nat) : natOfBytes (bytesOfNat n x) = x % 256 ^ n := by
  induction n with
  | zero => simp [bytesOfNat, natOfBytes, Nat.mod_one]
  | succ n ih =>
    have hmod : x % 256 ^ (n + 1) = x % 256 ^ n + 256 ^ n * (x / 256 ^ n % 256) := by rw [pow_succ, Nat.mod_mul]
    rw [bytesOfNat, natOfBytes_cons, ih, length_bytesOfNat, hmod, BitVec.toNat_ofNat]
    ring

/-- Numbers that agree modulo the weight of their bytes are sent alike. -/
theorem bytesOfNat_congr {n x y : Nat} (h : x % 256 ^ n = y % 256 ^ n) : bytesOfNat n x = bytesOfNat n y := by
  induction n with
  | zero => rfl
  | succ n ih =>
    have htail : x % 256 ^ n = y % 256 ^ n := by
      rw [← Nat.mod_mod_of_dvd x (pow_dvd_pow 256 n.le_succ), h, Nat.mod_mod_of_dvd y (pow_dvd_pow 256 n.le_succ)]
    have hhead : x / 256 ^ n % 256 = y / 256 ^ n % 256 := by
      rw [← Nat.mod_mul_right_div_self, ← Nat.mod_mul_right_div_self, ← pow_succ, h]
    rw [bytesOfNat, bytesOfNat, ih htail]
    exact congrArg (· :: _) (BitVec.eq_of_toNat_eq (by simpa [BitVec.toNat_ofNat] using hhead))

theorem bytesOfInt_nonneg {n : Nat} {y : Int} (h : 0 ≤ y) : bytesOfInt n y = bytesOfNat n y.toNat := by
  obtain ⟨x, rfl⟩ := Int.eq_ofNat_of_zero_le h
  refine bytesOfNat_congr ?_
  rw [← Int.natCast_emod, Int.toNat_natCast, Int.toNat_natCast, Nat.mod_mod]

theorem bytesOfInt_neg {n : Nat} {y : Int} (hn : -(256 ^ n : Int) ≤ y) :
    bytesOfInt n y = bytesOfNat n (256 ^ n + y).toNat := by
  obtain ⟨x, hx⟩ := Int.eq_ofNat_of_zero_le (show 0 ≤ 256 ^ n + y by omega)
  have hy : y % ((256 ^ n : Nat) : Int) = (x : Int) % ((256 ^ n : Nat) : Int) := by
    rw [← hx]
    push_cast
    exact (Int.add_emod_left ..).symm
  refine bytesOfNat_congr ?_
  rw [hy, hx, ← Int.natCast_emod, Int.toNat_natCast, Int.toNat_natCast, Nat.mod_mod]

end Sys2Proof.Machine
end

