-- ==== Sys2Proof/Proofs/OtherReadings.lean ====
section
/-! The readings of the energy, the tariff, the calendar, the switch, the tamper latches, the log and the code results. -/

namespace Sys2Proof.Machine

/-! ## The owners with an argument -/

section
variable {p : List Byte} {s : State}

theorem readTariffOwner_answers (h1 : argumentOf p ≤ 1) (h2 : argumentOf p.tail ≤ 2) :
    readTariffOwner p s = (some (.ok (tariffBytes (argumentOf p == 1) (argumentOf p.tail) s.tcu)), s) := if_pos ⟨h1, h2⟩

theorem readTariffOwner_refuses (h : 1 < argumentOf p ∨ 2 < argumentOf p.tail) :
    readTariffOwner p s = refuseArgument s := if_neg fun ⟨h1, h2⟩ => by omega

theorem kindOfNumber_eq {k : Kind} {n : Nat} (h : kindNumber k = n) : kindOfNumber n = some k := by
  subst h
  cases k <;> rfl

theorem kindOfNumber_none {n : Nat} (h : 9 ≤ n) : kindOfNumber n = none := List.getElem?_eq_none h

theorem readTamperOwner_kind {k : Kind} (h : kindNumber k = argumentOf p) :
    readTamperOwner p s = (some (.ok (latchBytes k s.tmp)), s) := by
  simp only [readTamperOwner, kindOfNumber_eq h]

theorem readTamperOwner_summary (h : argumentOf p = 9) :
    readTamperOwner p s = (some (.ok (tamperSummaryBytes s)), s) := by
  simp only [readTamperOwner, kindOfNumber_none h.ge, if_pos h]

theorem readTamperOwner_refuses (h : 9 < argumentOf p) : readTamperOwner p s = refuseArgument s := by
  simp only [readTamperOwner, kindOfNumber_none h.le, if_neg h.ne']

theorem readLogOwner_headings (h : argumentOf (p.drop 4) = 0) :
    readLogOwner p s = (some (.ok (logHeadings (natOfBytes (p.take 4)) s.elg)), s) := by
  simp only [readLogOwner, h]

theorem readLogOwner_record (h : argumentOf (p.drop 4) = 1) :
    readLogOwner p s = (some (.ok (logRecord (natOfBytes (p.take 4)) s.elg)), s) := by
  simp only [readLogOwner, h]

theorem readLogOwner_refuses (h : 1 < argumentOf (p.drop 4)) : readLogOwner p s = refuseArgument s := by
  unfold readLogOwner
  dsimp only
  split
  · omega
  · omega
  · rfl

theorem readCodeResultOwner_result (h : argumentOf p = 0) :
    readCodeResultOwner p s = (some (.ok (codeResultBytes s.cda)), s) := by
  simp only [readCodeResultOwner, h]

theorem readCodeResultOwner_acceptor (h : argumentOf p = 1) :
    readCodeResultOwner p s = (some (.ok (acceptorBytes s)), s) := by
  simp only [readCodeResultOwner, h]

theorem readCodeResultOwner_refuses (h : 1 < argumentOf p) : readCodeResultOwner p s = refuseArgument s := by
  unfold readCodeResultOwner
  split
  · omega
  · omega
  · rfl

end

/-- A request that answers values and changes nothing, by what its owner answers. -/
theorem answersOnly_values {c : Instr} {r : Request} {owner : Owner} {p payload : List Byte} {m : Moment} {s : State}
    (f : State → List Byte) (hx : exec c s = .next (request r (serve r owner) p (observe m 0 s))) (hL : Listening s)
    (hp : p.length ≤ 37) (ht : r.takes p.length = true) (hc : r.commissioning = false)
    (ho : ∀ u, owner p u = (some (.ok (f u)), u)) (hv : ∀ l, f (afterFrame m s l) = payload) :
    AnswersOnly c m s r.kind .ok payload :=
  answersOnly_of_owner (owner := owner) (a := .ok payload) hx hL hp ht (by simp [hc]) fun l => by rw [ho, hv]

/-- A request whose argument is refused. -/
theorem answersOnly_refused {c : Instr} {r : Request} {owner : Owner} {p : List Byte} {m : Moment} {s : State}
    (hx : exec c s = .next (request r (serve r owner) p (observe m 0 s))) (hL : Listening s) (hp : p.length ≤ 37)
    (ht : r.takes p.length = true) (hc : r.commissioning = false) (ho : ∀ u, owner p u = refuseArgument u) :
    AnswersOnly c m s r.kind .argument [] :=
  answersOnly_of_owner (owner := owner) (a := .bare .argument) hx hL hp ht (by simp [hc]) fun _ => ho _

/-! ## Values inside lists -/

theorem pointBytes_eq :
    pointBytes = fun p => bytesOfNat 2 p.minute ++ [BitVec.ofNat 8 p.band.val] ++ byteOfBool p.enabled := by
  funext p
  rw [pointBytes, bytesOfNat_one]

theorem windowBytes_eq :
    windowBytes = fun w => bytesOfNat 2 w.start ++ bytesOfNat 2 w.stop ++ byteOfBool w.enabled := rfl

theorem headingBytes_eq :
    headingBytes = fun r => bytesOfNat 4 r.seq ++ [BitVec.ofNat 8 r.type.code] ++ bytesOfNat 4 r.time ++
      [BitVec.ofNat 8 (headingFlags r)] ++ optionalKind r.kind ++ optionalPhase r.phase := by
  funext r
  rw [headingBytes, enumByte, bytesOfNat_one, bytesOfNat_one]

theorem recordBytes_eq :
    recordBytes = fun r => bytesOfNat 4 r.seq ++ [BitVec.ofNat 8 r.type.code] ++ bytesOfNat 4 r.time ++
      byteOfBool r.timeValid ++ optionalKind r.kind ++ optionalPhase r.phase ++
      optionalBytes 3 (r.code.map fun c => [BitVec.ofNat 8 (slotNumber c.slot)] ++ bytesOfNat 2 c.seq) ++
      bytesOfInt 8 r.balance ++ bytesOfNat 8 r.billedWh ++ byteOfBool r.guarded := by
  funext r
  simp only [recordBytes, enumByte, bytesOfNat_one]

theorem Target.code_eq (x : Target) : x.code = if x = .opened then 0 else 2 := by
  cases x <;> rfl

/-! ## The details of a code result, padded (section 9.7.2) -/

theorem padTo_credit (b a : Nat) : padTo 16 (detailBytes (.credit b a)) = bytesOfNat 8 b ++ bytesOfNat 8 a := by
  simp [padTo, detailBytes]

theorem padTo_clear (c r : KindSet) :
    padTo 16 (detailBytes (.clear c r)) = bytesOfNat 2 c.toNat ++ bytesOfNat 2 r.toNat ++ List.replicate 12 0 := by
  simp [padTo, detailBytes, kindSetBytes]

theorem padTo_localCommand (c : LocalCommand) (a : LocalAnswer) :
    padTo 16 (detailBytes (.localCommand c a)) =
      bytesOfNat 2 (if c = .emergencyCredit then 110 else 120) ++ [BitVec.ofNat 8 a.code] ++ List.replicate 13 0 := by
  cases c <;> simp [padTo, detailBytes, LocalCommand.number, bytesOfNat_one]

theorem padTo_failure (n l : Nat) :
    padTo 16 (detailBytes (.failure n l)) = [BitVec.ofNat 8 n] ++ bytesOfNat 2 l ++ List.replicate 13 0 := by
  simp [padTo, detailBytes, bytesOfNat_one]

/-- Settles O45: the numbers and codes, then each reading by its owner and the values it gives. -/
theorem otherReadingsAnswer : Obligations.OtherReadingsAnswer := by
  refine ⟨fun n x y => ⟨length_bytesOfNat n x, natOfBytes_bytesOfNat n x, bytesOfInt_nonneg, fun _ => bytesOfInt_neg⟩,
    by decide, fun n bs => ⟨rfl, rfl⟩, fun m s a b hL => ?_, fun m s a b0 b1 b2 b3 hL => ?_⟩
  · intro three byte points tariff day cause
    have hcause : ∀ e, cause e = enumByte (causeState e).code ++ bytesOfNat 4 ((e.map (·.since)).getD 0) := by
      intro e
      cases e with
      | none => rfl
      | some e => cases hd : e.deferred <;> simp [cause, byte, causeState, hd, bytesOfNat_one, CauseState.code]
    refine ⟨?_, fun ha => ⟨fun hb => ?_, fun hb => ?_, fun hb => ?_⟩, fun h => ?_, ?_, ?_⟩
    · refine answersOnly_of_reader (r := .readEnergy) (f := energyBytes) rfl hL (by simp) rfl rfl fun l => ?_
      rw [afterFrame_listening m l hL]
      cases hw : s.piu.weight <;>
        simp [energyBytes, phaseNats, phaseFlags, billedTotal, weightDwh, bytesOfNat_one, three, byte, Phases.get, hw]
    · refine answersOnly_values (r := .readTariff) (owner := readTariffOwner)
        (fun u => tariffBytes (a.toNat == 1) b.toNat u.tcu) rfl hL (by simp) rfl rfl
        (fun u => readTariffOwner_answers (p := [a, b]) ha (by simp [argumentOf, hb])) fun l => ?_
      rw [afterFrame_listening m l hL]
      by_cases h : a.toNat = 1 <;> simp [tariffBytes, priceBytes, hb, h, tariff]
    · refine answersOnly_values (r := .readTariff) (owner := readTariffOwner)
        (fun u => tariffBytes (a.toNat == 1) b.toNat u.tcu) rfl hL (by simp) rfl rfl
        (fun u => readTariffOwner_answers (p := [a, b]) ha (by simp [argumentOf, hb])) fun l => ?_
      rw [afterFrame_listening m l hL]
      by_cases h : a.toNat = 1 <;> simp [tariffBytes, hb, h, tariff, points, byte, pointBytes_eq]
    · refine answersOnly_values (r := .readTariff) (owner := readTariffOwner)
        (fun u => tariffBytes (a.toNat == 1) b.toNat u.tcu) rfl hL (by simp) rfl rfl
        (fun u => readTariffOwner_answers (p := [a, b]) ha (by simp [argumentOf, hb])) fun l => ?_
      rw [afterFrame_listening m l hL]
      by_cases h : a.toNat = 1 <;> simp [tariffBytes, hb, h, tariff, points, byte, pointBytes_eq]
    · exact answersOnly_refused (r := .readTariff) (owner := readTariffOwner) rfl hL (by simp) rfl rfl
        fun u => readTariffOwner_refuses h
    · refine answersOnly_of_reader (r := .readCalendar) (f := fun s => calendarBytes s.tcu) rfl hL (by simp) rfl rfl
        fun l => ?_
      rw [afterFrame_listening m l hL]
      simp [calendarBytes, bytesOfNat_one, byte, day, optionalDay, windowBytes_eq]
    · refine answersOnly_of_reader (r := .readSwitch) (f := switchBytes) rfl hL (by simp) rfl rfl fun l => ?_
      rw [afterFrame_listening m l hL]
      simp [switchBytes, hcause, causeList, causeBytes, CauseTable.get, operationBytes, verificationBytes, optionalPhase,
        optionalDay, phaseFlags, three, byte, day, bytesOfNat_one, effectiveLimit, Phases.get, Target.code_eq]
      cases s.swc.table.loadLimit.bind fun x => x.penalty with
      | none => rfl
      | some p => cases p <;> rfl
  · intro byte latch held kind phase counts slot group
    refine ⟨fun k hk => ?_, fun ha => ?_, fun ha => ?_, fun ha => ?_, fun ha => ?_, fun ha => ?_, fun ha => ?_,
      fun ha => ?_, fun ha => ?_⟩
    · refine answersOnly_values (r := .readTamper) (owner := readTamperOwner) (fun u => latchBytes k u.tmp) rfl hL (by simp)
        rfl rfl (fun u => readTamperOwner_kind hk) fun l => ?_
      rw [afterFrame_listening m l hL]
      simp [latchBytes, byte, latch, phase, bytesOfNat_one, optionalPhase]
    · refine answersOnly_values (r := .readTamper) (owner := readTamperOwner) tamperSummaryBytes rfl hL (by simp)
        rfl rfl (fun u => readTamperOwner_summary ha) fun l => ?_
      rw [afterFrame_listening m l hL]
      simp [tamperSummaryBytes, byte, latch, bytesOfNat_one, kindList, tamperRequired]
    · exact answersOnly_refused (r := .readTamper) (owner := readTamperOwner) rfl hL (by simp) rfl rfl
        fun u => readTamperOwner_refuses ha
    · refine answersOnly_values (r := .readLog) (owner := readLogOwner)
        (fun u => logHeadings (natOfBytes [b0, b1, b2, b3]) u.elg) rfl hL (by simp) rfl rfl
        (fun u => readLogOwner_headings (p := [b0, b1, b2, b3, a]) ha) fun l => ?_
      rw [afterFrame_listening m l hL]
      simp [logHeadings, recordsFrom, headingBytes_eq, headingFlags, logCounts, optionalKind, optionalPhase, byte, held, kind,
        phase, counts, bytesOfNat_one]
    · refine answersOnly_values (r := .readLog) (owner := readLogOwner)
        (fun u => logRecord (natOfBytes [b0, b1, b2, b3]) u.elg) rfl hL (by simp) rfl rfl
        (fun u => readLogOwner_record (p := [b0, b1, b2, b3, a]) ha) fun l => ?_
      rw [afterFrame_listening m l hL]
      simp [logRecord, recordsFrom, recordBytes_eq, logCounts, optionalKind, optionalPhase, byte, held, kind,
        phase, counts, bytesOfNat_one]
    · exact answersOnly_refused (r := .readLog) (owner := readLogOwner) rfl hL (by simp) rfl rfl
        fun u => readLogOwner_refuses ha
    · refine answersOnly_values (r := .readCodeResult) (owner := readCodeResultOwner) (fun u => codeResultBytes u.cda) rfl
        hL (by simp) rfl rfl (fun u => readCodeResultOwner_result ha) fun l => ?_
      rw [afterFrame_listening m l hL]
      cases hr : s.cda.lastResult with
      | none => simp [codeResultBytes, hr, byte, bytesOfNat_one]
      | some r =>
        obtain ⟨outcome, code, time, detail⟩ := r
        rcases detail with - | ⟨b, a⟩ | ⟨c, r⟩ | ⟨c, a⟩ | ⟨n, l⟩
        · simp [codeResultBytes, resultBytes, hr, byte, bytesOfNat_one]
        · simp [codeResultBytes, resultBytes, hr, byte, bytesOfNat_one, padTo_credit]
        · simp [codeResultBytes, resultBytes, hr, byte, bytesOfNat_one, padTo_clear]
        · simp [codeResultBytes, resultBytes, hr, byte, bytesOfNat_one, padTo_localCommand]
        · simp [codeResultBytes, resultBytes, hr, byte, bytesOfNat_one, padTo_failure]
    · refine answersOnly_values (r := .readCodeResult) (owner := readCodeResultOwner) acceptorBytes rfl
        hL (by simp) rfl rfl (fun u => readCodeResultOwner_acceptor ha) fun l => ?_
      rw [afterFrame_listening m l hL]
      simp [acceptorBytes, groupSlotBytes, slotBytes, byte, slot, group, bytesOfNat_one]
    · exact answersOnly_refused (r := .readCodeResult) (owner := readCodeResultOwner) rfl hL (by simp) rfl rfl
        fun u => readCodeResultOwner_refuses ha

end Sys2Proof.Machine
end

