-- ==== Sys2Proof/Proofs/ClockChanges.lean ====
section
/-! The requests that set the clock: TIME_TRIM (R54) and SET_CLOCK (R53, R55), with the boundaries that a change delivers
(R57). -/

namespace Sys2Proof.Machine

/-! ## A change of a valid clock (R57) -/

/-- The boundaries taken depend on the account, the calendar, the lockouts of the day and four notices alone. -/
theorem BoundariesTaken.of_alike {day : Nat} {s x t t' : State} (h : BoundariesTaken day x t) (hacu : x.acu = s.acu)
    (htcu : x.tcu = s.tcu) (hlockouts : x.cda.lockoutsToday = s.cda.lockoutsToday)
    (hbits : ∀ n, n < 8 → x.rpu.notices.getLsbD n = s.rpu.notices.getLsbD n) (ht : SameDay t t') :
    BoundariesTaken day s t' := by
  have h' := h.congr (.refl x) ht
  simpa only [BoundariesTaken, ClaimNoticed, chargedDays, List.forall_mem_cons, List.not_mem_nil, false_imp_iff,
    implies_true, and_true, hacu, htcu, hlockouts, hbits 0 (by decide), hbits 1 (by decide), hbits 6 (by decide),
    hbits 7 (by decide)] using h'

/-- A change of the link alone is nothing to the boundaries. -/
theorem SameDay.of_lnk (s : State) (l : Lnk) : SameDay s { s with lnk := l } := ⟨rfl, rfl, ⟨_, _, _, rfl⟩, .of_eq rfl⟩

/-- A change of a valid clock delivers the boundaries that it passes. -/
theorem changeClock_taken (c : Nat) {s : State} (hv : s.tcu.valid = true) (hm : mainPowered s.sdm.power = true) :
    BoundariesTaken (c / 86400) s (changeClock c s) :=
  (deliverDue_taken (discardDemand (s.setTcu { s.tcu with clock := c })) hv hm).congr
    ⟨rfl, rfl, ⟨c, _, _, rfl⟩, .of_eq rfl⟩ (evaluateFriendly_sameDay _)

theorem changeClock_tcu (c : Nat) (s : State) :
    (changeClock c s).tcu.clock = c ∧ (changeClock c s).tcu.valid = s.tcu.valid ∧
      (changeClock c s).tcu.lastFriendly = some (friendlyNow (changeClock c s).tcu) := by
  have hd := deliverBoundaries_tcu (missedDays (discardDemand (s.setTcu { s.tcu with clock := c })).tcu)
    (discardDemand (s.setTcu { s.tcu with clock := c }))
  rw [← deliverDue_eq] at hd
  unfold changeClock
  rw [evaluateFriendly_tcu]
  exact ⟨hd.2.1, hd.2.2.1, rfl⟩

/-- A change of the clock forward past midnight takes the last processed day with it (R68). -/
theorem changeClock_lastDay (c : Nat) {s : State} (hv : s.tcu.valid = true) :
    (changeClock c s).tcu.lastDay = max s.tcu.lastDay (c / 86400) := by
  unfold changeClock
  rw [evaluateFriendly_tcu]
  exact deliverDue_tcu (discardDemand (s.setTcu { s.tcu with clock := c })) hv

/-- A change of the clock discards the demand window and leaves the rest of the meter (R15). -/
theorem changeClock_piu (c : Nat) (s : State) :
    (changeClock c s).piu.demand = .waiting ∧ (changeClock c s).piu.imports = s.piu.imports := by
  have h := (deliverDue_meter (discardDemand (s.setTcu { s.tcu with clock := c }))).fields
  have h' := (evaluateFriendly_meter (deliverDue (discardDemand (s.setTcu { s.tcu with clock := c })))).fields
  obtain ⟨himports, -, -, -, -, -, -, -, -, -, hdemand, -⟩ := h
  obtain ⟨himports', -, -, -, -, -, -, -, -, -, hdemand', -⟩ := h'
  exact ⟨hdemand'.trans hdemand, himports'.trans himports⟩

/-! ## TIME_TRIM (R54) -/

theorem intOfBytes_single (a : Byte) : intOfBytes [a] = a.toInt := by
  simp only [intOfBytes, natOfBytes_single, List.length_cons, List.length_nil, BitVec.toInt_eq_toNat_cond]
  rfl

section
variable {a : Byte} {s : State}

theorem timeTrimOwner_range (h : a.toInt < -60 ∨ 60 < a.toInt) : timeTrimOwner [a] s = refuseArgument s := by
  rw [← intOfBytes_single] at h
  exact if_pos h

theorem timeTrimOwner_notReady (h1 : -60 ≤ a.toInt) (h2 : a.toInt ≤ 60) (hv : s.tcu.valid = false) :
    timeTrimOwner [a] s = (some (.bare .notReady), s) := by
  rw [← intOfBytes_single] at h1 h2
  exact (if_neg (by omega)).trans (if_pos hv)

/-- With a trim in range and a valid clock, the lines from BUDGET on. -/
theorem timeTrimOwner_budgeted (h1 : -60 ≤ a.toInt) (h2 : a.toInt ≤ 60) (hv : s.tcu.valid = true) :
    timeTrimOwner [a] s =
      if s.tcu.trimUsed + a.toInt < -60 ∨ 60 < s.tcu.trimUsed + a.toInt then (some (.bare .budget), s)
      else if (s.tcu.clock : Int) + a.toInt < 0 ∨ (4294967296 : Int) ≤ (s.tcu.clock : Int) + a.toInt then refuseArgument s
      else if a.toInt = 0 then (some (.ok (trimBytes s.tcu)), s)
      else (some (.ok (trimBytes (applyTrim a.toInt s).tcu)), applyTrim a.toInt s) := by
  rw [← intOfBytes_single] at h1 h2 ⊢
  exact (if_neg (by omega)).trans (if_neg (by simp [hv]))

end

/-- What a trim that is taken leaves (R54, R57). -/
theorem applyTrim_lines {trim : Int} {s : State} (hv : s.tcu.valid = true) (hm : mainPowered s.sdm.power = true)
    (hc : 0 ≤ (s.tcu.clock : Int) + trim) :
    ((applyTrim trim s).tcu.clock : Int) = (s.tcu.clock : Int) + trim ∧ (applyTrim trim s).piu.demand = .waiting ∧
      (applyTrim trim s).tcu.lastFriendly = some (friendlyNow (applyTrim trim s).tcu) ∧
      BoundariesTaken ((applyTrim trim s).tcu.clock / 86400)
        { s with tcu := { s.tcu with trimUsed := s.tcu.trimUsed + trim } } (applyTrim trim s) ∧
      (applyTrim trim s).piu.imports = s.piu.imports ∧ (applyTrim trim s).cda.lockoutLeft = s.cda.lockoutLeft := by
  obtain ⟨hclock, -, hfriendly⟩ := changeClock_tcu ((s.tcu.clock : Int) + trim).toNat
    (s.setTcu { s.tcu with trimUsed := s.tcu.trimUsed + trim })
  obtain ⟨hdemand, himports⟩ := changeClock_piu ((s.tcu.clock : Int) + trim).toNat
    (s.setTcu { s.tcu with trimUsed := s.tcu.trimUsed + trim })
  obtain ⟨_, _, _, _, hcda⟩ := changeClock_cda ((s.tcu.clock : Int) + trim).toNat
    (s.setTcu { s.tcu with trimUsed := s.tcu.trimUsed + trim })
  have htaken := changeClock_taken ((s.tcu.clock : Int) + trim).toNat
    (s := s.setTcu { s.tcu with trimUsed := s.tcu.trimUsed + trim }) hv hm
  unfold applyTrim
  refine ⟨by rw [hclock]; omega, hdemand, hfriendly, by rw [hclock]; exact htaken, himports, ?_⟩
  rw [hcda]
  rfl

/-- Settles O48, line by line of the owner. -/
theorem timeTrimByItsTable : Obligations.TimeTrimByItsTable := by
  intro m s a hL trim used clock
  have htcu : ∀ l, (afterFrame m s l).tcu = s.tcu := fun l => by rw [afterFrame_listening m l hL]
  have hlines : ∀ l, s.tcu.valid = true → -60 ≤ trim → trim ≤ 60 → timeTrimOwner [a] (afterFrame m s l) =
      if used < -60 ∨ 60 < used then (some (.bare .budget), afterFrame m s l)
      else if clock < 0 ∨ (4294967296 : Int) ≤ clock then refuseArgument (afterFrame m s l)
      else if trim = 0 then (some (.ok (trimBytes s.tcu)), afterFrame m s l)
      else (some (.ok (trimBytes (applyTrim trim (afterFrame m s l)).tcu)), applyTrim trim (afterFrame m s l)) :=
    fun l hv h1 h2 => by rw [timeTrimOwner_budgeted h1 h2 (by rw [htcu]; exact hv), htcu]
  have hanswer {x : Answer} (ho : ∀ l, timeTrimOwner [a] (afterFrame m s l) = (some x, afterFrame m s l)) :
      AnswersOnly (.timeTrim m [a]) m s 0x11 x.status x.payload :=
    answersOnly_of_owner (r := .timeTrim) rfl hL (by simp) rfl (fun h => nomatch h.1) ho
  refine ⟨fun h => ?_, fun h1 h2 => ⟨fun hv => ?_, fun hv => ⟨fun hu => ?_, fun hu1 hu2 => ⟨fun hc => ?_, fun hc1 hc2 =>
    ⟨fun h0 => ?_, fun h0 => ?_⟩⟩⟩⟩⟩
  · exact hanswer (x := .bare .argument) fun l => timeTrimOwner_range h
  · exact hanswer (x := .bare .notReady) fun l => timeTrimOwner_notReady h1 h2 (by rw [htcu]; exact hv)
  · exact hanswer (x := .bare .budget) fun l => (hlines l hv h1 h2).trans (if_pos hu)
  · exact hanswer (x := .bare .argument) fun l => (hlines l hv h1 h2).trans ((if_neg (by omega)).trans (if_pos (by omega)))
  · exact hanswer (x := .ok (trimBytes s.tcu)) fun l => (hlines l hv h1 h2).trans
      ((if_neg (by omega)).trans ((if_neg (by omega)).trans (if_pos h0)))
  · obtain ⟨l, -, h⟩ := request_answered (c := .timeTrim m [a]) (r := .timeTrim) (owner := timeTrimOwner) (p := [a])
      (m := m) rfl hL (by simp) rfl (fun h => nomatch h.1)
    obtain ⟨l', hexec, hansw⟩ := h _ _ ((hlines l hv h1 h2).trans
      ((if_neg (by omega)).trans ((if_neg (by omega)).trans (if_neg h0))))
    have hlow : ∀ n, n < 8 → (afterFrame m s l).rpu.notices.getLsbD n = s.rpu.notices.getLsbD n :=
      fun n hn => rpuAfterFrame_low s n hn
    have hframe := afterFrame_listening m l hL
    generalize afterFrame m s l = u at hexec hansw hlow hframe
    have hsame : u.tcu = s.tcu ∧ u.acu = s.acu ∧ u.cda.lockoutsToday = s.cda.lockoutsToday ∧
        u.cda.lockoutLeft = s.cda.lockoutLeft ∧ u.piu = s.piu ∧ u.ots = s.ots ∧ u.sdm = s.sdm ∧
        u.pending = s.pending := by
      rw [hframe]
      exact ⟨rfl, rfl, rfl, rfl, rfl, rfl, rfl, rfl⟩
    obtain ⟨tcu, acu, lockouts, lockoutLeft, piu, ots, sdm, pending⟩ := hsame
    obtain ⟨hclock, hdemand, hfriendly, htaken, himports, hleft⟩ := applyTrim_lines (trim := trim) (s := u)
      (by rw [tcu]; exact hv) (by rw [sdm]; exact mainPowered_working (.inl hL.1)) (by rw [tcu]; exact hc1)
    have htaken' := htaken.of_alike (s := { s with tcu := { s.tcu with trimUsed := used } }) acu (by rw [tcu]) lockouts
      hlow (SameDay.of_lnk _ l')
    refine ⟨_, hexec, hansw, hclock.trans (by rw [tcu]), hdemand, hfriendly, fun hd => ?_, fun hd => ?_, htaken',
      himports.trans (by rw [piu]), by simpa [applyTrim] using ots, hleft.trans lockoutLeft, by simpa [applyTrim] using sdm,
      by simpa [applyTrim] using pending⟩
    · obtain ⟨hlast, htrim, hacu, -⟩ := htaken'.1 hd
      exact ⟨htrim, hacu, hlast⟩
    · obtain ⟨hlast, htrim, -⟩ := htaken'.2.1 hd
      exact ⟨htrim, hlast⟩

/-! ## SET_CLOCK (R53, R55) -/

theorem natOfBytes_lt (bs : List Byte) : natOfBytes bs < 256 ^ bs.length := by
  induction bs with
  | nil => simp [natOfBytes]
  | cons b bs ih =>
    rw [natOfBytes_cons, List.length_cons, pow_succ]
    have hb : b.toNat + 1 ≤ 256 := b.isLt
    calc b.toNat * 256 ^ bs.length + natOfBytes bs < (b.toNat + 1) * 256 ^ bs.length := by rw [Nat.add_mul]; omega
      _ ≤ 256 * 256 ^ bs.length := Nat.mul_le_mul_right _ hb
      _ = 256 ^ bs.length * 256 := Nat.mul_comm ..

/-- The number that bytes spell is sent as those bytes (R198). -/
theorem bytesOfNat_natOfBytes (bs : List Byte) : bytesOfNat bs.length (natOfBytes bs) = bs := by
  induction bs with
  | nil => rfl
  | cons b bs ih =>
    have hlt := natOfBytes_lt bs
    have hhead : (b.toNat * 256 ^ bs.length + natOfBytes bs) / 256 ^ bs.length = b.toNat := by
      rw [Nat.mul_comm, Nat.mul_add_div (by positivity), Nat.div_eq_of_lt hlt, Nat.add_zero]
    have htail : bytesOfNat bs.length (b.toNat * 256 ^ bs.length + natOfBytes bs) = bs :=
      (bytesOfNat_congr (Nat.mul_add_mod' ..)).trans ih
    rw [natOfBytes_cons, List.length_cons, bytesOfNat, hhead, htail, BitVec.ofNat_toNat, BitVec.setWidth_eq]

section
variable {p : List Byte} {s : State}

theorem setClockOwner_locked (hv : s.tcu.valid = true) (hl : s.ots.lock = true) :
    setClockOwner p s = (some (.bare .locked), s) := if_pos (by simp [hv, hl])

theorem setClockOwner_taken (hp : p.length = 4) (h : s.tcu.valid = false ∨ s.ots.lock = false) :
    setClockOwner p s = (some (.ok p), writeClock (natOfBytes p) s) := by
  have hbytes : bytesOfNat 4 (natOfBytes p) = p := hp ▸ bytesOfNat_natOfBytes p
  refine (if_neg (by simpa [or_iff_not_imp_left] using h)).trans ?_
  simp only [hbytes]

theorem writeClock_same {c : Nat} (hv : s.tcu.valid = true) (hc : s.tcu.clock = c) : writeClock c s = s := by
  simp [writeClock, hv, hc]

theorem writeClock_changed {c : Nat} (hv : s.tcu.valid = true) (hc : s.tcu.clock ≠ c) :
    writeClock c s = changeClock c s := by
  simp [writeClock, hv, hc]

theorem writeClock_invalid {c : Nat} (hv : s.tcu.valid = false) : writeClock c s = validateClock c s := by
  simp [writeClock, hv]

end

/-- What a clock that becomes valid leaves (R53). -/
theorem validateClock_lines (c : Nat) (s : State) :
    (validateClock c s).tcu =
        { s.tcu with
          clock := c, valid := true, lastDay := c / 86400, trimUsed := 0
          untilDay := moveOverride s.tcu.lastDay (c / 86400) s.tcu.untilDay
          lastFriendly := (validateClock c s).tcu.lastFriendly } ∧
      (validateClock c s).piu.demand = .waiting ∧ (validateClock c s).acu = s.acu := by
  obtain ⟨-, -, -, -, -, -, -, -, -, -, hdemand, -⟩ := (evaluateFriendly_meter (discardDemand (s.setTcu
    { s.tcu with
      clock := c, valid := true, lastDay := dayOf c, trimUsed := 0
      untilDay := moveOverride s.tcu.lastDay (dayOf c) s.tcu.untilDay }))).fields
  unfold validateClock
  rw [evaluateFriendly_tcu]
  refine ⟨rfl, hdemand, ?_⟩
  simp [discardDemand]

/-- Settles O49, by the owner's refusal and by what a written clock changes. -/
theorem setClockIsTakenOrLocked : Obligations.SetClockIsTakenOrLocked := by
  intro m s a b c d hL v
  have htcu : ∀ l, (afterFrame m s l).tcu = s.tcu := fun l => by rw [afterFrame_listening m l hL]
  have hots : ∀ l, (afterFrame m s l).ots = s.ots := fun l => afterFrame_ots m l hL
  have hanswer {x : Answer} (ho : ∀ l, setClockOwner [a, b, c, d] (afterFrame m s l) = (some x, afterFrame m s l)) :
      AnswersOnly (.setClock m [a, b, c, d]) m s 0x12 x.status x.payload :=
    answersOnly_of_owner (r := .setClock) rfl hL (by simp) rfl (fun h => nomatch h.1) ho
  have htaken (h : s.tcu.valid = false ∨ s.ots.lock = false) (l : Lnk) :
      setClockOwner [a, b, c, d] (afterFrame m s l) = (some (.ok [a, b, c, d]), writeClock v (afterFrame m s l)) :=
    setClockOwner_taken rfl (by rwa [htcu, hots])
  obtain ⟨l, -, h⟩ := request_answered (c := .setClock m [a, b, c, d]) (r := .setClock) (owner := setClockOwner)
    (p := [a, b, c, d]) (m := m) rfl hL (by simp) rfl (fun h => nomatch h.1)
  refine ⟨fun hv hl => ?_, fun hv hl hc => ?_, fun hv hl hc => ?_, fun hv => ?_⟩
  · exact hanswer (x := .bare .locked) fun l =>
      setClockOwner_locked (by rw [htcu]; exact hv) (by rw [hots]; exact hl)
  · exact hanswer (x := .ok [a, b, c, d]) fun l => (htaken (.inr hl) l).trans
      (congrArg _ (writeClock_same (by rw [htcu]; exact hv) (by rw [htcu]; exact hc)))
  · have hwrite : writeClock v (afterFrame m s l) = changeClock v (afterFrame m s l) :=
      writeClock_changed (by rw [htcu]; exact hv) (by rw [htcu]; exact hc)
    obtain ⟨l', hexec, hansw⟩ := h _ _ ((htaken (.inr hl) l).trans (congrArg _ hwrite))
    have hlow : ∀ n, n < 8 → (afterFrame m s l).rpu.notices.getLsbD n = s.rpu.notices.getLsbD n :=
      fun n hn => rpuAfterFrame_low s n hn
    have hframe := afterFrame_listening m l hL
    generalize afterFrame m s l = u at hexec hlow hframe
    have hsame : u.tcu = s.tcu ∧ u.acu = s.acu ∧ u.cda.lockoutsToday = s.cda.lockoutsToday ∧ u.ots = s.ots ∧
        u.elg = s.elg ∧ u.sdm = s.sdm ∧ u.pending = s.pending := by
      rw [hframe]
      exact ⟨rfl, rfl, rfl, rfl, rfl, rfl, rfl⟩
    obtain ⟨tcu, acu, lockouts, ots, elg, sdm, pending⟩ := hsame
    have hvalid : u.tcu.valid = true := by rw [tcu]; exact hv
    obtain ⟨hclock, hvalid', hfriendly⟩ := changeClock_tcu v u
    have hboundaries := (changeClock_taken v hvalid (by rw [sdm]; exact mainPowered_working (.inl hL.1))).of_alike acu tcu
      lockouts hlow (SameDay.of_lnk _ l')
    refine ⟨_, hexec, hansw, hclock, hvalid'.trans hvalid, (changeClock_piu v u).1,
      (changeClock_lastDay v hvalid).trans (by rw [tcu]), fun hd => ?_, hboundaries, hfriendly, by simpa using ots,
      by simpa using elg, by simpa using sdm, by simpa using pending⟩
    obtain ⟨-, htrim, hacu, -⟩ := hboundaries.1 hd
    exact ⟨hacu, htrim⟩
  · have hwrite : writeClock v (afterFrame m s l) = validateClock v (afterFrame m s l) :=
      writeClock_invalid (by rw [htcu]; exact hv)
    obtain ⟨l', hexec, hansw⟩ := h _ _ ((htaken (.inl hv) l).trans (congrArg _ hwrite))
    have hframe := afterFrame_listening m l hL
    generalize afterFrame m s l = u at hexec hframe
    have hsame : u.tcu = s.tcu ∧ u.acu = s.acu ∧ u.ots = s.ots ∧ u.elg = s.elg ∧ u.sdm = s.sdm ∧
        u.pending = s.pending := by
      rw [hframe]
      exact ⟨rfl, rfl, rfl, rfl, rfl, rfl⟩
    obtain ⟨tcu, acu, ots, elg, sdm, pending⟩ := hsame
    obtain ⟨hnew, hdemand, hacu⟩ := validateClock_lines v u
    rw [tcu] at hnew
    refine ⟨_, hexec, hansw, by rw [hnew], by rw [hnew], by rw [hnew], by rw [hnew], fun n hn => ?_, fun hn => ?_, hdemand,
      hacu.trans acu, by simpa [validateClock, discardDemand] using ots, by simpa [validateClock, discardDemand] using elg,
      by simpa [validateClock, discardDemand] using sdm, by simpa [validateClock, discardDemand] using pending⟩
    · rw [hnew]
      simp [moveOverride, hn, Config.maxDay]
    · rw [hnew]
      simp [moveOverride, hn]

end Sys2Proof.Machine
end

