-- ==== Sys2Proof/Proofs/Frames.lean ====
section
/-! The frames of the link (R187, R188): the CRC, the checks on the bytes of a write, and the frames that are refused. -/

namespace Sys2Proof.Machine

/-! ## The CRC (R187) -/

theorem crcBit_eq (c : Byte) : crcBit c = if c.getLsbD 7 = true then (c <<< 1) ^^^ 0b00000111#8 else c <<< 1 := by
  rw [crcBit, BitVec.msb_eq_getLsbD_last]
  rfl

theorem crcByte_eq (c b : Byte) : crcByte c b = (List.range 8).foldl (fun c _ => crcBit c) (c ^^^ b) := rfl

theorem crc8_append (bs : List Byte) (b : Byte) : crc8 (bs ++ [b]) = crcByte (crc8 bs) b := by
  simp [crc8]

/-! ## The bytes of a write -/

theorem frameGood_iff (stored : List Byte) :
    frameGood stored = true ↔ 3 ≤ stored.length ∧ stored.length = (stored.headD 0).toNat ∧
      stored.getLast? = some (crc8 stored.dropLast) := by
  simp [frameGood, and_assoc]

/-- A length byte in range stores that many bytes, and any other itself alone (R187). -/
theorem storedOf_inRange {b : Byte} {bs : List Byte} (h : 3 ≤ b.toNat ∧ b.toNat ≤ 40) :
    storedOf (b :: bs) = (b :: bs).take b.toNat := if_pos h

theorem storedOf_outOfRange {b : Byte} {bs : List Byte} (h : ¬(3 ≤ b.toNat ∧ b.toNat ≤ 40)) :
    storedOf (b :: bs) = [b] := if_neg h

/-- A write whose length byte is out of range, that stops short, or whose CRC differs, fails check 1 (R188). -/
theorem frameGood_faulty {b : Byte} {bs : List Byte}
    (h : b.toNat < 3 ∨ 40 < b.toNat ∨ bs.length + 1 < b.toNat ∨
      ∃ body c, (b :: bs).take b.toNat = body ++ [c] ∧ c ≠ crc8 body) : frameGood (storedOf (b :: bs)) = false := by
  rw [Bool.eq_false_iff, Ne, frameGood_iff]
  rintro ⟨hlen, hhead, hcrc⟩
  by_cases hr : 3 ≤ b.toNat ∧ b.toNat ≤ 40
  · obtain ⟨n, hn⟩ : ∃ n, b.toNat = n + 1 := ⟨b.toNat - 1, by omega⟩
    have hb : (((b :: bs).take b.toNat).headD 0) = b := by rw [hn]; rfl
    rw [storedOf_inRange hr] at hhead hcrc
    rw [hb, List.length_take, List.length_cons] at hhead
    rcases h with h | h | h | ⟨body, c, hbody, hc⟩
    · omega
    · omega
    · omega
    · rw [hbody, List.getLast?_append, List.dropLast_concat] at hcrc
      exact hc (Option.some.inj hcrc)
  · rw [storedOf_outOfRange hr] at hlen
    simp at hlen

section
variable {k : Nat} {p : List Byte}

theorem requestFrame_cons (k : Nat) (p : List Byte) :
    requestFrame k p = BitVec.ofNat 8 (p.length + 3) ::
      BitVec.ofNat 8 k :: (p ++ [crc8 (BitVec.ofNat 8 (p.length + 3) :: BitVec.ofNat 8 k :: p)]) := rfl

theorem length_requestFrame (k : Nat) (p : List Byte) : (requestFrame k p).length = p.length + 3 := by
  simp [requestFrame_cons]

theorem lengthByte_toNat (hp : p.length ≤ 37) : (BitVec.ofNat 8 (p.length + 3)).toNat = p.length + 3 := by
  rw [BitVec.toNat_ofNat]
  omega

/-- A whole frame is stored whole. -/
theorem storedOf_requestFrame (hp : p.length ≤ 37) : storedOf (requestFrame k p) = requestFrame k p := by
  have hlen := length_requestFrame k p
  rw [requestFrame_cons] at hlen ⊢
  rw [storedOf_inRange (by rw [lengthByte_toNat hp]; omega), lengthByte_toNat hp, List.take_of_length_le hlen.le]

theorem frameGood_requestFrame (hp : p.length ≤ 37) : frameGood (requestFrame k p) = true := by
  refine (frameGood_iff _).mpr ⟨by rw [length_requestFrame]; omega, ?_, ?_⟩
  · rw [length_requestFrame, requestFrame_cons, List.headD_cons, lengthByte_toNat hp]
  · show (BitVec.ofNat 8 (p.length + 3) :: BitVec.ofNat 8 k :: p ++ [_]).getLast? = _
    rw [List.getLast?_append, requestFrame_cons]
    show _ = some (crc8 (BitVec.ofNat 8 (p.length + 3) :: BitVec.ofNat 8 k :: p ++ [_]).dropLast)
    rw [List.dropLast_concat]
    rfl

theorem payloadOf_requestFrame (k : Nat) (p : List Byte) : payloadOf (requestFrame k p) = p := by
  rw [requestFrame_cons, payloadOf, List.drop_succ_cons, List.drop_succ_cons, List.drop_zero, List.dropLast_concat]

theorem kind_requestFrame (hk : k < 256) : ((requestFrame k p).getD 1 0).toNat = k := by
  rw [requestFrame_cons, List.getD_cons_succ, List.getD_cons_zero, BitVec.toNat_ofNat]
  exact Nat.mod_eq_of_lt hk

end

/-! ## The checks -/

theorem checkFrame_faulty {stored : List Byte} {s : State} (h : frameGood stored = false) :
    checkFrame stored s = frameErrorReply s := by
  simp [checkFrame, h]

/-- A whole frame of no kind of the catalogue (R188 check 2). -/
theorem checkFrame_unknown {k : Nat} {p : List Byte} {s : State} (hp : p.length ≤ 37) (hk : k < 256)
    (h : requestOfKind k = none) : checkFrame (requestFrame k p) s = unknownKindReply s := by
  simp only [checkFrame, frameGood_requestFrame hp, if_true, kind_requestFrame hk, h]

theorem requestOfKind_none {k : Nat} (h : k = 0 ∨ 20 < k) : requestOfKind k = none := by
  rcases h with rfl | h
  · rfl
  · exact (if_neg (by omega)).trans (List.getElem?_eq_none (by show 20 ≤ k - 1; omega))

/-- A whole frame of a kind of the catalogue goes on to the checks on its request (R188). -/
theorem checkFrame_request (r : Request) {p : List Byte} {s : State} (hp : p.length ≤ 37) :
    checkFrame (requestFrame r.kind p) s = handRequest r (serve r (ownerOf r)) p s := by
  have hkind : r.kind < 256 := by cases r <;> decide
  have hr : requestOfKind r.kind = some r := by cases r <;> rfl
  simp only [checkFrame, frameGood_requestFrame hp, if_true, kind_requestFrame hkind, hr, payloadOf_requestFrame]

/-- The end of a write that carried bytes. -/
theorem exec_frameError {m : Moment} {s : State} {b : Byte} {bs : List Byte}
    (h : (observe m 0 s).lnk.state = .receiving) :
    exec (.frameError m (b :: bs)) s =
      .next (checkFrame (storedOf (b :: bs)) (completeWrite (storedOf (b :: bs)) (observe m 0 s))) := by
  have hx : exec (.frameError m (b :: bs)) s = execFrameError m (b :: bs) s := rfl
  rw [hx, execFrameError, if_pos h]
  rfl

/-- A faulty frame in RUN or HOLDUP is answered FRAME_ERROR, and nothing changes beside the link (R188). -/
theorem exec_frameError_faulty {m : Moment} {s : State} {b : Byte} {bs : List Byte}
    (hw : s.sdm.power = .run ∨ s.sdm.power = .holdup) (hs : s.lnk.state = .receiving)
    (h : b.toNat < 3 ∨ 40 < b.toNat ∨ bs.length + 1 < b.toNat ∨
      ∃ body c, (b :: bs).take b.toNat = body ++ [c] ∧ c ≠ crc8 body) :
    ∃ l, exec (.frameError m (b :: bs)) s = .next (afterFrame m s l) ∧ l.state = .replyReady ∧
      l.slot = replyFrame 0xFF 1 [] ∧ l.remainder = [] ∧ l.holdTimer = some 2000 := by
  have hst : (observe m 0 s).lnk.state = .receiving := by rw [observe_working m hw]; exact hs
  refine ⟨(frameErrorReply (completeWrite (storedOf (b :: bs)) (observe m 0 s))).lnk, ?_, rfl, rfl, rfl, rfl⟩
  rw [exec_frameError hst, checkFrame_faulty (frameGood_faulty h), completeWrite_observe m _ hw]
  rfl

/-- A whole frame of no kind is answered UNKNOWN_KIND, and nothing changes beside the link (R188). -/
theorem exec_frameError_unknown {m : Moment} {s : State} {k : Nat} {p : List Byte} (hL : Listening s)
    (hk : k = 0 ∨ 20 < k) (hk' : k < 256) (hp : p.length ≤ 37) :
    ∃ l, exec (.frameError m (requestFrame k p)) s = .next (afterFrame m s l) ∧ l.state = .replyReady ∧
      l.slot = replyFrame 0x80 2 [] ∧ l.remainder = [] ∧ l.holdTimer = some 2000 := by
  have hst : (observe m 0 s).lnk.state = .receiving := by rw [observe_working m (.inl hL.1)]; exact hL.2
  refine ⟨(unknownKindReply (completeWrite (requestFrame k p) (observe m 0 s))).lnk, ?_, rfl, rfl, rfl, rfl⟩
  rw [requestFrame_cons, exec_frameError hst, ← requestFrame_cons, storedOf_requestFrame hp,
    checkFrame_unknown hp hk' (requestOfKind_none hk), completeWrite_observe m _ (.inl hL.1)]
  rfl

/-- Settles O41, by the checks on the stored bytes. -/
theorem faultyFramesAreRefused : Obligations.FaultyFramesAreRefused := by
  refine ⟨fun bs b => ⟨rfl, ?_⟩, fun kind st payload => ⟨rfl, rfl⟩, by decide, fun m s b bs hL =>
    ⟨exec_frameError_faulty (.inl hL.1) hL.2, fun k p hk hk' hp h => ?_⟩⟩
  · simp only [crc8_append, crcByte_eq, crcBit_eq]
  · rw [h]
    exact exec_frameError_unknown hL hk hk' hp

end Sys2Proof.Machine
end

