-- ==== Sys2Proof/Proofs/LinkMoments.lean ====
section
/-! Writes and replies that come to nothing (R187, R189, R191, R192). -/

namespace Sys2Proof.Machine

/-! ## What a moment leaves of the link -/

section
variable {m : Moment} {s : State}

theorem observe_lnk (h : resetHeld s = false) :
    (observe m 0 s).lnk =
      { s.lnk with holdTimer := s.lnk.holdTimer.map (· - m.elapsed), clockLow := clockLowAfter m s.lnk } := by
  rw [observe_running m h]

/-- A moment in which the hold timer stood still differs in that timer alone (R191). -/
theorem observe_paused_running (n : Nat) (h : resetHeld s = false) :
    observe m n s =
      { observe m 0 s with
        lnk := { (observe m 0 s).lnk with holdTimer := s.lnk.holdTimer.map (· - (m.elapsed - n)) } } := by
  rw [observe_running m h]
  simp [observe, h, State.setNow, State.setPins, State.setRcbLow, State.setCda, State.setLnk]

/-- The clock-low timer runs out in a moment in which SCL is low (R189). -/
theorem clockLowAfter_zero {x : Lnk} (hs : x.state = .receiving) :
    clockLowAfter m x = some 0 ↔ m.pins.scl = false ∧
      (x.clockLow = none ∧ 30 ≤ m.elapsed ∨ ∃ left, x.clockLow = some left ∧ left ≤ m.elapsed) := by
  by_cases hscl : m.pins.scl = false
  · cases hc : x.clockLow with
    | none => simp [clockLowAfter, hs, hscl, hc, Config.clockLowTime, Nat.sub_eq_zero_iff_le]
    | some left => simp [clockLowAfter, hs, hscl, hc, Nat.sub_eq_zero_iff_le]
  · simp [clockLowAfter, hscl]

end

/-! ## The commands -/

/-- The link as it leaves RECEIVING, seen from before the moment (R187, R189). -/
theorem leaveReceiving_observe {m : Moment} {s : State} (h : resetHeld s = false) :
    leaveReceiving (observe m 0 s) =
      { observe m 0 s with
        lnk :=
          { (observe m 0 s).lnk with
            state := if s.lnk.returnReady then .replyReady else .idle
            request := []
            clockLow := none } } := by
  have hready : (observe m 0 s).lnk.returnReady = s.lnk.returnReady := by rw [observe_lnk h]
  rw [leaveReceiving, returnState, hready]
  rfl

theorem exec_writeWithNoRequest {m : Moment} {s : State} (h : (observe m 0 s).lnk.state = .receiving) :
    exec (.writeWithNoRequest m) s = .next (leaveReceiving (observe m 0 s)) := if_pos h

theorem exec_clockLowTimeout (m : Moment) (duration : Nat) (s : State) :
    exec (.clockLowTimeout m duration) s = .next (clockLowTimeout m duration s) := rfl

/-- A read that is abandoned in REPLY_READY (R189, R191). -/
theorem clockLowTimeout_abandoned {m : Moment} {duration : Nat} {s : State}
    (hp : s.sdm.power = .run ∨ s.sdm.power = .holdup) (hs : s.lnk.state = .replyReady) (hscl : m.pins.scl = false)
    (hd : 30 ≤ duration) : clockLowTimeout m duration s = observe m duration s := by
  have hstate : (observe m duration s).lnk.state = .replyReady := by
    rw [observe_paused_running duration (resetHeld_working hp), observe_lnk (resetHeld_working hp)]
    exact hs
  have hd' : Config.clockLowTime ≤ duration := hd
  simp [clockLowTimeout, working_iff.mpr hp, hs, hscl, hd', hstate]

/-- A clock-low timeout of no abandoned read (R189). -/
theorem clockLowTimeout_of_not {m : Moment} {duration : Nat} {s : State}
    (h : ¬((s.sdm.power = .run ∨ s.sdm.power = .holdup) ∧ s.lnk.state = .replyReady ∧ m.pins.scl = false ∧ 30 ≤ duration)) :
    clockLowTimeout m duration s =
      if (observe m 0 s).lnk.state = .receiving ∧ (observe m 0 s).lnk.clockLow = some 0 then
        leaveReceiving (observe m 0 s) else observe m 0 s := by
  have hb : (working s.sdm.power && s.lnk.state == .replyReady && !m.pins.scl && decide (Config.clockLowTime ≤ duration)) =
      false := by
    rw [Bool.eq_false_iff]
    intro hb
    simp only [Bool.and_eq_true, working_iff, beq_iff_eq, Bool.not_eq_true', decide_eq_true_eq] at hb
    obtain ⟨⟨⟨hp, hs⟩, hscl⟩, hd⟩ := hb
    exact h ⟨hp, hs, hscl, hd⟩
  simp only [clockLowTimeout, hb, Bool.false_eq_true, if_false]

theorem exec_replyHoldTimeout {m : Moment} {s : State} (h : (observe m 0 s).lnk.holdTimer = some 0) :
    exec (.replyHoldTimeout m) s = .next (notify .replyDropped
      ((observe m 0 s).setLnk
        { (observe m 0 s).lnk with
          state := if (observe m 0 s).lnk.state = .replyReady then .idle else (observe m 0 s).lnk.state
          returnReady := false
          slot := []
          remainder := []
          readPos := 0
          holdTimer := none })) := if_pos h

/-- Settles O39, by the three commands. -/
theorem writesAndRepliesThatComeToNothing : Obligations.WritesAndRepliesThatComeToNothing := by
  refine ⟨fun m s hr hs => ?_, fun m s duration hr => ?_, fun m s left hp ht hle => ?_⟩
  · have hs' : (observe m 0 s).lnk.state = .receiving := by rw [observe_lnk hr]; exact hs
    exact (exec_writeWithNoRequest hs').trans (congrArg _ (leaveReceiving_observe hr))
  · intro ranOut abandoned
    rw [exec_clockLowTimeout]
    refine ⟨fun hs ht => ?_, fun ⟨hp, hs, hscl, hd⟩ => ?_, fun ht ha => ?_⟩
    · have hs' : (observe m 0 s).lnk.state = .receiving := by rw [observe_lnk hr]; exact hs
      have ht' : (observe m 0 s).lnk.clockLow = some 0 := by
        rw [observe_lnk hr]
        exact (clockLowAfter_zero hs).mpr ht
      rw [clockLowTimeout_of_not (fun ⟨_, h, _⟩ => by rw [hs] at h; cases h), if_pos ⟨hs', ht'⟩, leaveReceiving_observe hr]
    · rw [clockLowTimeout_abandoned hp hs hscl hd, observe_paused_running duration hr]
    · rw [clockLowTimeout_of_not ha, if_neg]
      rintro ⟨hs', ht'⟩
      rw [observe_lnk hr] at hs' ht'
      have hs : s.lnk.state = .receiving := hs'
      exact ht ⟨hs, (clockLowAfter_zero hs).mp ht'⟩
  · have hr := resetHeld_working (Or.inl hp)
    have ht' : (observe m 0 s).lnk.holdTimer = some 0 := by
      rw [observe_lnk hr]
      simp [ht, Nat.sub_eq_zero_of_le hle]
    have hm : mainPowered (observe m 0 s).sdm.power = true := by
      rw [observe_running m hr]
      exact mainPowered_working (.inl hp)
    have hstate : (observe m 0 s).lnk.state = s.lnk.state := by rw [observe_lnk hr]
    have hrequest : (observe m 0 s).lnk.request = s.lnk.request := by rw [observe_lnk hr]
    have hrpu : (observe m 0 s).rpu = s.rpu := by rw [observe_running m hr]
    refine ⟨{ (observe m 0 s).lnk with
        state := if (observe m 0 s).lnk.state = .replyReady then .idle else (observe m 0 s).lnk.state
        returnReady := false, slot := [], remainder := [], readPos := 0, holdTimer := none },
      ?_, rfl, rfl, rfl, rfl, hrequest,
      fun h => if_pos (hstate.trans h), fun h => (if_neg (by rw [hstate]; exact h)).trans hstate⟩
    rw [exec_replyHoldTimeout ht', notify_powered (by simpa using hm), ← hrpu]
    rfl

end Sys2Proof.Machine
end

