-- ==== Sys2Proof/Proofs/Tables.lean ====
section
/-! The values that the tables give: the account (R22, R26, R34 to R37, R40), the band and the friendly period (R59, R66), the
checks on a code (R95 to R97), the window that REINSTATE leaves (R100), and the fields that codes write (R61 to R66). -/

namespace Sys2Proof.Machine

/-! ## The account -/

section
variable {a : Account} {x v : Nat}

/-- A charge that the balance covers above the floor (R26). -/
theorem Account.charge_covered (h : (x : Int) ≤ a.balance - a.floor) :
    a.charge x = { a with balance := a.balance - (x : Int), debited := a.debited + x } := by
  have hmin : min x (a.balance - a.floor).toNat = x := by omega
  simp [Account.charge, hmin]

/-- A charge that takes the balance to the floor, the rest becoming arrears (R26). -/
theorem Account.charge_short (h0 : a.floor ≤ a.balance) (h : a.balance - a.floor < (x : Int)) :
    a.charge x =
      { a with
        balance := a.floor, arrears := a.arrears + (x - (a.balance - a.floor).toNat), debited := a.debited + x } := by
  have hmin : min x (a.balance - a.floor).toNat = (a.balance - a.floor).toNat := by omega
  have hbalance : a.balance - ((a.balance - a.floor).toNat : Int) = a.floor := by omega
  simp only [Account.charge, hmin, hbalance]

theorem Account.setLimit_untaken (h : a.taken = false) : a.setLimit v = { a with limit := v } := by
  simp [Account.setLimit, h]

theorem Account.setLimit_same (h : v = a.limit) : a.setLimit v = a := by
  simp [Account.setLimit, h]

theorem Account.setLimit_zero (ht : a.taken = true) (hne : v ≠ a.limit) (h0 : v = 0) :
    a.setLimit v = { a with limit := 0, taken := false }.raiseToFloor := by
  subst h0
  simp [Account.setLimit, ht, hne]

theorem Account.setLimit_lower (ht : a.taken = true) (h0 : 0 < v) (h : v < a.limit) :
    a.setLimit v = { a with limit := v }.raiseToFloor := by
  simp [Account.setLimit, ht, h.ne, h0.ne', Nat.lt_asymm h]

theorem Account.setLimit_higher (ht : a.taken = true) (h : a.limit < v) :
    a.setLimit v = { a with limit := v }.moveArrears := by
  simp [Account.setLimit, ht, h.ne', h, (Nat.zero_le _).trans_lt h |>.ne']

/-- A balance at or above the floor is not raised (R35, R37). -/
theorem Account.raiseToFloor_above (h : a.floor ≤ a.balance) : a.raiseToFloor = a := by
  have hraise : (a.floor - a.balance).toNat = 0 := by omega
  simp [Account.raiseToFloor, hraise]

/-- A balance below the floor is raised to it (R35, R37). -/
theorem Account.raiseToFloor_below (h : a.balance < a.floor) :
    a.raiseToFloor = { a with balance := a.floor, arrears := a.arrears + (a.floor - a.balance).toNat } := by
  have hbalance : a.balance + ((a.floor - a.balance).toNat : Int) = a.floor := by omega
  simp only [Account.raiseToFloor, hbalance]

theorem Account.floor_taken (h : a.taken = true) : a.floor = -((a.limit * 10000 : Nat) : Int) := if_pos h

theorem Account.floor_untaken (h : a.taken = false) : a.floor = 0 := if_neg (by simp [h])

/-- The lines of a new emergency limit on a taken emergency credit (R35 to R37). -/
theorem Account.setLimit_lines (ht : a.taken = true) :
    let floor' : Int := -((v * 10000 : Nat) : Int)
    let moved := min a.arrears (a.balance - floor').toNat
    (v ≠ a.limit → v = 0 → 0 ≤ a.balance → a.setLimit v = { a with limit := 0, taken := false }) ∧
    (v ≠ a.limit → v = 0 → a.balance < 0 → a.setLimit v =
      { a with limit := 0, taken := false, balance := 0, arrears := a.arrears + (-a.balance).toNat }) ∧
    (0 < v → v < a.limit → floor' ≤ a.balance → a.setLimit v = { a with limit := v }) ∧
    (0 < v → v < a.limit → a.balance < floor' → a.setLimit v =
      { a with limit := v, balance := floor', arrears := a.arrears + (floor' - a.balance).toNat }) ∧
    (a.limit < v → a.setLimit v =
      { a with limit := v, balance := a.balance - (moved : Int), arrears := a.arrears - moved }) := by
  intro floor' moved
  have hfloor : ({ a with limit := v } : Account).floor = floor' := Account.floor_taken ht
  have hfloor0 : ({ a with limit := 0, taken := false } : Account).floor = 0 := Account.floor_untaken rfl
  refine ⟨fun hne h0 hb => ?_, fun hne h0 hb => ?_, fun h0 h hb => ?_, fun h0 h hb => ?_, fun h => ?_⟩
  · rw [Account.setLimit_zero ht hne h0, Account.raiseToFloor_above (by rw [hfloor0]; exact hb)]
  · rw [Account.setLimit_zero ht hne h0, Account.raiseToFloor_below (by rw [hfloor0]; exact hb), hfloor0, zero_sub]
  · rw [Account.setLimit_lower ht h0 h, Account.raiseToFloor_above (by rw [hfloor]; exact hb)]
  · rw [Account.setLimit_lower ht h0 h, Account.raiseToFloor_below (by rw [hfloor]; exact hb), hfloor]
  · rw [Account.setLimit_higher ht h]
    simp only [Account.moveArrears, hfloor]
    rfl

/-- The alarm that a claim leaves (R40). -/
theorem Account.alarmAfter_lines (a b : Account) :
    (b.state = a.state → a.alarmAfter b = b) ∧
      (b.state ≠ a.state → b.state = .inCredit → a.alarmAfter b = { b with alarm := false }) ∧
      (b.state ≠ a.state → b.state ≠ .inCredit → a.alarmAfter b = { b with alarm := true }) := by
  refine ⟨fun h => if_pos h, fun hne h => (if_neg hne).trans ?_, fun hne h => (if_neg hne).trans ?_⟩
  · simp [h]
  · simp [h]

end

/-! ## The band -/

theorem latestPoint_mem {l : List Point} {q : Point} (h : latestPoint l = some q) : q ∈ l := by
  induction l generalizing q with
  | nil => cases h
  | cons x xs ih =>
    cases hr : latestPoint xs with
    | none =>
      simp only [latestPoint, hr, Option.some.injEq] at h
      exact h ▸ List.mem_cons_self
    | some r =>
      simp only [latestPoint, hr] at h
      split at h
      · exact List.mem_cons_of_mem _ (Option.some.inj h ▸ ih hr)
      · exact Option.some.inj h ▸ List.mem_cons_self

/-- The latest of the points that hold `P` is the first of those with the greatest minute. -/
theorem latestPoint_filter {P : Point → Bool} {points : List Point} {i : Nat} {p : Point} (hi : points[i]? = some p)
    (hp : P p = true)
    (h : ∀ (j : Nat) (q : Point), points[j]? = some q → P q = true →
      q.minute < p.minute ∨ q.minute = p.minute ∧ i ≤ j) : latestPoint (points.filter P) = some p := by
  induction points generalizing i with
  | nil => simp at hi
  | cons x xs ih =>
    cases i with
    | zero =>
      obtain rfl : x = p := by simpa using hi
      rw [List.filter_cons_of_pos hp]
      cases hr : latestPoint (xs.filter P) with
      | none => simp only [latestPoint, hr]
      | some q =>
        obtain ⟨hmem, hq⟩ := List.mem_filter.mp (latestPoint_mem hr)
        obtain ⟨j, hj⟩ := List.mem_iff_getElem?.mp hmem
        have hle : ¬x.minute < q.minute := by
          rcases h (j + 1) q (by simpa using hj) hq with h | ⟨h, -⟩ <;> omega
        simp only [latestPoint, hr, if_neg hle]
    | succ i =>
      have hrest : latestPoint (xs.filter P) = some p := by
        refine ih (by simpa using hi) fun j q hj hq => ?_
        rcases h (j + 1) q (by simpa using hj) hq with h | ⟨h, hij⟩
        · exact .inl h
        · exact .inr ⟨h, by omega⟩
      by_cases hx : P x = true
      · have hlt : x.minute < p.minute := by
          rcases h 0 x rfl hx with h | ⟨-, h⟩
          · exact h
          · omega
        rw [List.filter_cons_of_pos hx]
        simp only [latestPoint, hrest, if_pos hlt]
      · rw [List.filter_cons_of_neg hx, hrest]

/-- The three lines of the table of the band that a schedule gives (R59). -/
theorem scheduleBand_lines (points : List Point) (minute : Nat) :
    (∀ i p, points[i]? = some p → p.enabled = true → p.minute ≤ minute →
      (∀ (j : Nat) (q : Point), points[j]? = some q → q.enabled = true → q.minute ≤ minute →
        q.minute < p.minute ∨ q.minute = p.minute ∧ i ≤ j) → scheduleBand points minute = p.band) ∧
    (∀ i p, points[i]? = some p → p.enabled = true → (∀ q ∈ points, q.enabled = true → minute < q.minute) →
      (∀ (j : Nat) (q : Point), points[j]? = some q → q.enabled = true →
        q.minute < p.minute ∨ q.minute = p.minute ∧ i ≤ j) → scheduleBand points minute = p.band) ∧
    ((∀ p ∈ points, p.enabled = false) → scheduleBand points minute = 0) := by
  refine ⟨fun i p hi he hm h => ?_, fun i p hi he hlate h => ?_, fun hoff => ?_⟩
  · have hlatest := latestPoint_filter (P := fun p => decide (p.minute ≤ minute) && p.enabled) hi (by simp [he, hm])
      fun j q hj hq => by
        obtain ⟨hq1, hq2⟩ := (Bool.and_eq_true _ _).mp hq
        exact h j q hj hq2 (of_decide_eq_true hq1)
    simp only [scheduleBand, List.filter_filter, hlatest]
  · have hnone : (points.filter (·.enabled)).filter (fun p => decide (p.minute ≤ minute)) = [] := by
      refine List.filter_eq_nil_iff.mpr fun q hq => ?_
      obtain ⟨hq1, hq2⟩ := List.mem_filter.mp hq
      have := hlate q hq1 hq2
      simpa using this
    have hlatest := latestPoint_filter (P := (·.enabled)) hi he h
    simp only [scheduleBand, hnone, hlatest]
    rfl
  · have hnone : points.filter (·.enabled) = [] := List.filter_eq_nil_iff.mpr fun q hq => by simp [hoff q hq]
    simp only [scheduleBand, hnone]
    rfl

/-! ## The friendly period -/

theorem windowCovers_iff (w : Window) (minute : Nat) :
    windowCovers w minute = true ↔ w.enabled = true ∧
      (w.start < w.stop ∧ w.start ≤ minute ∧ minute < w.stop ∨
        w.stop < w.start ∧ (w.start ≤ minute ∨ minute < w.stop) ∨ w.start = w.stop) := by
  rcases Nat.lt_trichotomy w.start w.stop with h | h | h
  · simp [windowCovers, h, Nat.lt_asymm h, h.ne]
  · simp [windowCovers, h]
  · simp [windowCovers, h, Nat.lt_asymm h, h.ne']

theorem friendlyNow_iff {x : Tcu} (hv : x.valid = true) :
    friendlyNow x = true ↔
      (∃ w ∈ x.cal.windows.toList, windowCovers w (minuteOf x.clock) = true) ∨
        restDay x.cal (dayOf x.clock) = true ∧ x.cal.restFriendly = true := by
  simp only [friendlyNow, hv, Bool.true_and, Bool.or_eq_true, Bool.and_eq_true, List.any_eq_true]

/-! ## The checks on a code -/

section
variable {f : Fields} {s : State}

theorem classCondition_credit (h : f.cls = 0) :
    classCondition f s =
      if s.acu.balance + ((f.value * 10000 - min (f.value * 10000) s.acu.arrears : Nat) : Int) ≤
        ((s.acu.cap * 1000000 : Nat) : Int) then none else some .cap := by
  simp [classCondition, h, Account.capAllows, Account.payment, Config.hundredth, Config.unit]

theorem classCondition_timeSet (h : f.cls = 11) :
    classCondition f s =
      if 0 ≤ (s.tcu.clock : Int) + signedValue f.value ∧ (s.tcu.clock : Int) + signedValue f.value ≤ 4294967295 then none
      else some .argument := by
  have htop (t : Int) : t < 4294967296 ↔ t ≤ 4294967295 := by omega
  simp [classCondition, h, Config.clockTop, htop]

theorem classCondition_reinstate (h : f.cls = 13) :
    classCondition f s = if s.cda.reinstate = true then none else some .notRequired := by
  simp [classCondition, h]

theorem classCondition_none (h0 : f.cls ≠ 0) (h11 : f.cls ≠ 11) (h13 : f.cls ≠ 13) : classCondition f s = none := by
  unfold classCondition
  split
  · exact absurd ‹_› h0
  · exact absurd ‹_› h11
  · exact absurd ‹_› h13
  · rfl

theorem writePrice_isSome {sel v : Nat} {x : Tariff} (hv : v < 2 ^ 24) :
    (writePrice sel v x).isSome = true ↔ sel ≤ 3 ∧ v ≤ 1000000 ∨ sel = 4 := by
  unfold writePrice Config.maxPrice Config.maxAmount
  split_ifs <;> simp <;> omega

theorem pointOfValue_isSome {v : Nat} : (pointOfValue v).isSome = true ↔ v < 16384 ∧ v % 2048 ≤ 1439 := by
  simp [pointOfValue]

theorem writePoint_isSome {sel v : Nat} {x : Tariff} :
    (writePoint sel v x).isSome = true ↔ sel ≤ 15 ∧ v < 16384 ∧ v % 2048 ≤ 1439 := by
  rw [← pointOfValue_isSome]
  unfold writePoint
  cases pointOfValue v with
  | none => simp
  | some p =>
    dsimp only
    split_ifs <;> simp <;> omega

theorem windowOfValue_isSome {v : Nat} :
    (windowOfValue v).isSome = true ↔ v < 8388608 ∧ v % 2048 ≤ 1439 ∧ v / 2048 % 2048 ≤ 1439 := by
  simp [windowOfValue]

theorem writeCalendar_isSome {sel v : Nat} {c : Calendar} :
    (writeCalendar sel v c).isSome = true ↔
      sel ≤ 11 ∧ v ≤ 49710 ∨ sel = 12 ∧ v ≤ 127 ∨
        16 ≤ sel ∧ sel ≤ 19 ∧ v < 8388608 ∧ v % 2048 ≤ 1439 ∧ v / 2048 % 2048 ≤ 1439 ∨ sel = 20 ∧ v ≤ 1 := by
  rw [← windowOfValue_isSome]
  unfold writeCalendar Config.maxDay
  cases windowOfValue v with
  | none => split_ifs <;> simp <;> omega
  | some w => split_ifs <;> simp <;> omega

/-- An action's number that its kind takes (R96, R139). -/
theorem actionArgument_iff (sel v : Nat) :
    (∃ k a, kindOfNumber sel = some k ∧ actionOfNumber v = some a ∧ actionAllowed k a = true) ↔
      sel ≤ 8 ∧ v ≤ 2 ∧ (sel = 8 → v = 2) ∧ (sel = 6 → 1 ≤ v) := by
  by_cases hsel : sel ≤ 8
  · by_cases hv : v ≤ 2
    · interval_cases sel <;> interval_cases v <;> simp [kindOfNumber, kindList, actionOfNumber, actionAllowed]
    · have hnone : actionOfNumber v = none := by
        unfold actionOfNumber
        split
        case h_4 => rfl
        all_goals omega
      simp [hnone, hv]
  · simp [kindOfNumber_none (show 9 ≤ sel by omega), hsel]

theorem argumentOk_action (h : f.cls = 9) :
    argumentOk f s = true ↔
      ∃ k a, kindOfNumber f.selector = some k ∧ actionOfNumber f.value = some a ∧ actionAllowed k a = true := by
  simp only [argumentOk, h]
  cases kindOfNumber f.selector <;> cases actionOfNumber f.value <;> simp

theorem groupSlotOfNumber_isSome {n : Nat} : (groupSlotOfNumber n).isSome = true ↔ 1 ≤ n ∧ n ≤ 3 := by
  by_cases h : 1 ≤ n ∧ n ≤ 3
  · obtain ⟨h1, h3⟩ := h
    interval_cases n <;> simp [groupSlotOfNumber]
  · rw [groupSlotOfNumber_none (by omega)]
    simpa using h

/-- The argument rules of the classes (R96, R97). -/
theorem argumentOk_iff (hv : f.value < 2 ^ 24) :
    argumentOk f s = true ↔
      (f.cls = 0 ∨ f.cls = 1) ∧ f.selector = 0 ∧ 1 ≤ f.value ∨
      f.cls = 2 ∧ (f.selector = 0 ∨ f.selector = 1 ∨ f.selector = 2 ∧ 1 ≤ f.value) ∨
      f.cls = 3 ∧ f.selector ≤ 1 ∨
      f.cls = 4 ∧ (f.selector ≤ 3 ∧ f.value ≤ 1000000 ∨ f.selector = 4) ∨
      f.cls = 5 ∧ f.selector ≤ 15 ∧ f.value < 16384 ∧ f.value % 2048 ≤ 1439 ∨
      f.cls = 6 ∧ f.selector = 0 ∧ f.value ≤ 49710 ∨
      f.cls = 7 ∧
        (f.selector ≤ 11 ∧ f.value ≤ 49710 ∨ f.selector = 12 ∧ f.value ≤ 127 ∨
          16 ≤ f.selector ∧ f.selector ≤ 19 ∧ f.value < 8388608 ∧ f.value % 2048 ≤ 1439 ∧
            f.value / 2048 % 2048 ≤ 1439 ∨
          f.selector = 20 ∧ f.value ≤ 1) ∨
      f.cls = 8 ∧ f.selector = 0 ∧ 1 ≤ f.value ∧ f.value ≤ 511 ∨
      f.cls = 9 ∧ f.selector ≤ 8 ∧ f.value ≤ 2 ∧ (f.selector = 8 → f.value = 2) ∧ (f.selector = 6 → 1 ≤ f.value) ∨
      f.cls = 10 ∧
        (f.selector ≤ 4 ∧ f.selector ≠ 2 ∧ f.value = 0 ∨ f.selector = 2 ∧ 1 ≤ f.value ∧ f.value ≤ 365) ∨
      f.cls = 11 ∧ f.selector = 0 ∨
      f.cls = 12 ∧ 1 ≤ f.selector ∧ f.selector ≤ 3 ∧ f.value = 0 ∨
      f.cls = 13 ∧ f.selector = s.ots.lossCount ∧ f.value ≤ 65535 := by
  by_cases h14 : 13 < f.cls
  · have hfalse : argumentOk f s = false := by
      unfold argumentOk
      split
      case h_15 => rfl
      all_goals omega
    simp only [hfalse, Bool.false_eq_true, false_iff]
    omega
  obtain ⟨cls, seq, value, selector⟩ := f
  dsimp only at h14 hv ⊢
  interval_cases cls
  -- class 0, CREDIT
  · simp [argumentOk]
  -- class 1, DEBT
  · simp [argumentOk]
  -- class 2, ACCOUNT_SETTING
  · simp [argumentOk, or_assoc]
  -- class 3, LOAD_LIMIT
  · simp [argumentOk]
  -- class 4, TARIFF_PRICE
  · simpa [argumentOk] using writePrice_isSome hv
  -- class 5, TARIFF_SCHEDULE
  · simpa [argumentOk] using writePoint_isSome
  -- class 6, TARIFF_ACTIVATE
  · have hday : Config.maxDay = 49710 := rfl
    simp [argumentOk, hday]
  -- class 7, CALENDAR
  · simpa [argumentOk] using writeCalendar_isSome
  -- class 8, TAMPER_CLEAR
  · simp [argumentOk, and_assoc]
  -- class 9, TAMPER_ACTION
  · simpa using (argumentOk_action rfl).trans (actionArgument_iff selector value)
  -- class 10, SUPPLY_ORDER
  · simp only [argumentOk]
    split_ifs <;> simp <;> omega
  -- class 11, TIME_SET
  · simp [argumentOk]
  -- class 12, KEY_SLOT_DISABLE
  · simp [argumentOk, groupSlotOfNumber_isSome, and_assoc]
  -- class 13, REINSTATE
  · simp [argumentOk]

end

/-! ## The window that REINSTATE leaves -/

theorem mem_numbersBelow {top n x : Nat} : x ∈ numbersBelow top n ↔ x < top ∧ top ≤ x + n := by
  induction n with
  | zero => simp [numbersBelow]
  | succ n ih =>
    unfold numbersBelow
    split
    · rw [List.mem_cons, ih]
      omega
    · rw [ih]
      omega

/-! ## What a field writes -/

theorem pointOfValue_some {v : Nat} (h : v < 16384) (hm : v % 2048 ≤ 1439) :
    pointOfValue v = some ⟨v % 2048, Fin.ofNat 4 (v / 2048), v.testBit 13⟩ := by
  have hbit : (v / 8192 % 2 == 1) = v.testBit 13 := by
    rw [Nat.testBit_eq_decide_div_mod_eq]
    rfl
  rw [← hbit]
  exact if_pos ⟨h, hm⟩

theorem pointOfValue_none {v : Nat} (h : 16384 ≤ v ∨ 1439 < v % 2048) : pointOfValue v = none :=
  if_neg fun ⟨h1, h2⟩ => by
    have h2' : v % 2048 ≤ 1439 := h2
    omega

theorem windowOfValue_some {v : Nat} (h : v < 8388608) (h1 : v % 2048 ≤ 1439) (h2 : v / 2048 % 2048 ≤ 1439) :
    windowOfValue v = some ⟨v % 2048, v / 2048 % 2048, v.testBit 22⟩ := by
  have hbit : (v / 4194304 == 1) = v.testBit 22 := by
    have hmod : v / 4194304 % 2 = v / 4194304 := Nat.mod_eq_of_lt (by omega)
    rw [Nat.testBit_eq_decide_div_mod_eq, show (2 : Nat) ^ 22 = 4194304 from rfl, hmod]
    rfl
  rw [← hbit]
  exact if_pos ⟨h, h1, h2⟩

theorem windowOfValue_none {v : Nat} (h : ¬(v < 8388608 ∧ v % 2048 ≤ 1439 ∧ v / 2048 % 2048 ≤ 1439)) :
    windowOfValue v = none := if_neg h

section
variable {sel v : Nat} {c : Calendar}

theorem writeCalendar_holiday (hs : sel ≤ 11) (hv : v ≤ 49710) :
    writeCalendar sel v c =
      some { c with holidays := c.holidays.setIfInBounds sel (if v = 0 then none else some v) } :=
  (if_pos hs).trans (if_pos hv)

theorem writeCalendar_restDays (hs : sel = 12) (hv : v ≤ 127) :
    writeCalendar sel v c = some { c with restDays := BitVec.ofNat 7 v } :=
  (if_neg (by omega)).trans ((if_pos hs).trans (if_pos hv))

theorem writeCalendar_window {w : Window} (h16 : 16 ≤ sel) (h19 : sel ≤ 19) (hw : windowOfValue v = some w) :
    writeCalendar sel v c = some { c with windows := c.windows.setIfInBounds (sel - 16) w } := by
  refine (if_neg (by omega)).trans ((if_neg (by omega)).trans ((if_pos ⟨h16, h19⟩).trans ?_))
  simp only [hw]

theorem writeCalendar_restFriendly (hs : sel = 20) (hv : v ≤ 1) :
    writeCalendar sel v c = some { c with restFriendly := v == 1 } :=
  (if_neg (by omega)).trans ((if_neg (by omega)).trans ((if_neg (by omega)).trans ((if_pos hs).trans (if_pos hv))))

theorem writeCalendar_none
    (h : sel ≤ 11 ∧ 49710 < v ∨ sel = 12 ∧ 127 < v ∨ 12 < sel ∧ sel < 16 ∨
      16 ≤ sel ∧ sel ≤ 19 ∧ ¬(v < 8388608 ∧ v % 2048 ≤ 1439 ∧ v / 2048 % 2048 ≤ 1439) ∨ sel = 20 ∧ 1 < v ∨ 20 < sel) :
    writeCalendar sel v c = none := by
  rw [← Option.not_isSome_iff_eq_none, writeCalendar_isSome]
  omega

end

/-- Settles O23, table by table. -/
theorem tablesGiveTheirValues : Obligations.TablesGiveTheirValues := by
  refine ⟨fun a x v => ?_, fun x => ?_, fun f s hv => ?_, fun v q => ⟨rfl, fun x => mem_numbersBelow⟩,
    fun sel v x hv => ?_, fun sel v c _ => ?_⟩
  · exact ⟨Account.charge_covered, Account.charge_short, Account.setLimit_untaken,
      fun ht => ⟨Account.setLimit_same, Account.setLimit_lines ht⟩, rfl, Account.alarmAfter_lines a⟩
  · intro day minute rest
    have hrest : restDay x.cal (dayOf x.clock) = true ↔ rest := dayType x.cal (dayOf x.clock)
    refine ⟨fun hv => ⟨by simp [currentBand, hv], by simp [friendlyNow, hv]⟩, fun hv => ⟨fun points hr hw => ?_, ?_⟩⟩
    · have hband : currentBand x = scheduleBand points minute := by
        by_cases h : restDay x.cal (dayOf x.clock) = true
        · rw [hr (hrest.mp h)]
          simp only [currentBand, hv, if_true, h]
          rfl
        · rw [hw (mt hrest.mpr h)]
          simp only [currentBand, hv, if_true, if_neg h]
          rfl
      rw [hband]
      exact scheduleBand_lines points minute
    · rw [friendlyNow_iff hv, hrest]
      simp only [windowCovers_iff]
      rfl
  · exact ⟨classCondition_credit, classCondition_timeSet, classCondition_reinstate, classCondition_none,
      argumentOk_iff hv⟩
  · refine ⟨fun hs h => writePrice_price x hs h, fun hs => hs ▸ writePrice_standing x (by omega),
      fun h => writePrice_refused x h, fun h hm => ⟨pointOfValue_some h hm, fun hs => ?_, fun h8 h15 => ?_, fun hs => ?_⟩,
      fun h => ⟨pointOfValue_none h, writePoint_refused x (.inr (pointOfValue_none h))⟩⟩
    · exact writePoint_work x (pointOfValue_some h hm) hs
    · exact writePoint_rest x (pointOfValue_some h hm) h8 h15
    · exact writePoint_refused x (.inl hs)
  · exact ⟨writeCalendar_holiday, writeCalendar_restDays,
      fun h16 h19 ⟨h, h1, h2⟩ => writeCalendar_window h16 h19 (windowOfValue_some h h1 h2), writeCalendar_restFriendly,
      writeCalendar_none⟩

end Sys2Proof.Machine
end

