-- ==== Sys2Proof/Proofs/ConditionTables.lean ====
section
/-! The reverse flag's condition at a pulse (R10), the stall and supply conditions at a change of the switch (R12, R143, R144),
the contactor as found (R118), and the verification at start-up (R131). -/

namespace Sys2Proof.Machine

/-! ## RV at a pulse (R10) -/

/-- A claim leaves every latch, but for the MS and SO conditions that a switch it moves can change. -/
theorem claim_latches (f : Account → Account) (s : State) : s.tmp.SameLatches (claim f s).tmp := by
  by_cases h : (f s.acu).state = s.acu.state
  · refine .of_eq ?_
    simp only [claim, h, if_true]
    split <;> simp
  · obtain ⟨u, hu, -, -, htmp, -⟩ := claim_changed h
    rw [hu, ← htmp]
    unfold evaluateCredit
    split
    exacts [changeEntry_latches _ _ _, changeEntry_latches _ _ _, .refl _]

/-- Latches that agree but for what the switch can change agree whole, in every kind but MS and SO. -/
theorem Tmp.SameLatches.latch {x y : Tmp} (h : x.SameLatches y) {k : Kind} (hm : k ≠ .ms) (hs : k ≠ .so) :
    y.latches.get k = x.latches.get k := by
  obtain ⟨hset, hrepeats, hcondition⟩ := h.2 k
  exact latch_eq (hcondition hm hs) hset hrepeats

/-- The part as a pulse's own counts and its debit leave it for the conditions. -/
theorem pulseCounted_fields (n : Phase) (d : Direction) (s : State) :
    (pulseCounted n d s).piu.reverseFlag = (piuAfterPulse n d s.now s.piu).reverseFlag ∧
      (pulseCounted n d s).tmp.latches.rv = s.tmp.latches.rv ∧ (pulseCounted n d s).tmp.actions = s.tmp.actions ∧
      (pulseCounted n d s).tcu = s.tcu ∧ (pulseCounted n d s).elg = s.elg := by
  unfold pulseCounted
  split
  · have hl := claim_latches (Account.charge (currentPrice s.tcu)) (s.setPiu (piuAfterPulse n d s.now s.piu))
    have hm := (claim_meter (Account.charge (currentPrice s.tcu)) (s.setPiu (piuAfterPulse n d s.now s.piu))).fields
    obtain ⟨-, -, -, -, -, -, -, hflag, -⟩ := hm
    exact ⟨hflag, hl.latch (k := .rv) (by decide) (by decide), hl.1, by simp, by simp⟩
  · exact ⟨rfl, rfl, rfl, rfl, rfl⟩

/-- What a condition that rises makes of a clear latch (R149). -/
theorem risenLatch_fresh {k : Kind} {s : State} (p : Option Phase) (ha : s.tmp.actions.get k ≠ .off)
    (hset : (s.tmp.latches.get k).set = none) :
    risenLatch k p s = ⟨k != .pw, some ⟨s.tcu.clock, p, s.elg.nextSeq⟩, 0⟩ :=
  (if_neg ha).trans (if_neg (by rw [hset]; decide))

/-- What a condition that rises on a clear latch makes of it (R149). -/
theorem hand_fresh {k : Kind} {p : Option Phase} {s : State} (hp : k ≠ .pw) (hm : k ≠ .ms) (hs : k ≠ .so)
    (hc : (s.tmp.latches.get k).condition = false) (ha : s.tmp.actions.get k ≠ .off)
    (hset : (s.tmp.latches.get k).set = none) :
    (hand k true p s).tmp.latches.get k = ⟨true, some ⟨s.tcu.clock, p, s.elg.nextSeq⟩, 0⟩ := by
  have h := ((hand_latches k true p s).2.2 hc rfl).latch (k := k) hm hs
  have hk : (k != .pw) = true := by simpa using hp
  rw [h, Kinds.get_set, if_pos rfl, risenLatch_fresh p ha hset, hk]

/-- A condition that falls, or has fallen, leaves what its latch is set to (R145, R151). -/
theorem hand_false_set (k : Kind) (p : Option Phase) (s : State) :
    ((hand k false p s).tmp.latches.get k).set = (s.tmp.latches.get k).set ∧
      ((hand k false p s).tmp.latches.get k).repeats = (s.tmp.latches.get k).repeats := by
  obtain ⟨hsame, hfall, -⟩ := hand_latches k false p s
  cases hc : (s.tmp.latches.get k).condition
  · rw [hsame hc]
    exact ⟨rfl, rfl⟩
  · rw [hfall hc rfl, Kinds.get_set, if_pos rfl]
    exact ⟨rfl, rfl⟩

/-- The RV latch after an accepted pulse is what the hand of the reverse flags makes of it (R10). -/
theorem acceptPulse_rv (n : Phase) (d : Direction) (s : State) :
    (acceptPulse n d s).tmp.latches.rv =
      (handReverse (anyPhase s.piu.reverseFlag) n (pulseCounted n d s)).tmp.latches.rv := by
  rw [acceptPulse_eq]
  split
  · exact hand_latch (j := .rv) (by decide) (by decide) (by decide) _ _ _
  · rfl

/-- RV at an accepted pulse (R10). -/
theorem pulseEdge_rv (m : Moment) (n : Phase) (s : State) (hp : s.sdm.power = .run ∨ s.sdm.power = .holdup)
    (hlast : ∀ t0, s.piu.lastPulse.get n = some t0 → t0 + 10 ≤ s.now + m.elapsed) :
    ∃ t, exec (.pulseEdge m n) s = .next t ∧
      (anyPhase t.piu.reverseFlag = anyPhase s.piu.reverseFlag → t.tmp.latches.rv = s.tmp.latches.rv) ∧
      (anyPhase t.piu.reverseFlag ≠ anyPhase s.piu.reverseFlag →
        t.tmp.latches.rv.condition = anyPhase t.piu.reverseFlag) ∧
      (anyPhase s.piu.reverseFlag = false → anyPhase t.piu.reverseFlag = true → s.tmp.latches.rv.condition = false →
        s.tmp.actions.rv ≠ .off → s.tmp.latches.rv.set = none →
        t.tmp.latches.rv = ⟨true, some ⟨s.tcu.clock, some n, s.elg.nextSeq⟩, 0⟩) ∧
      (anyPhase s.piu.reverseFlag = true → anyPhase t.piu.reverseFlag = false →
        t.tmp.latches.rv.set = s.tmp.latches.rv.set ∧ t.tmp.latches.rv.repeats = s.tmp.latches.rv.repeats) := by
  have hobs := observe_working (s := s) m hp
  have hacc : acceptsEdge n (observe m 0 s) = true := by
    rw [acceptsEdge_iff, hobs]
    exact ⟨hp, hlast⟩
  have hexec := (exec_pulseEdge m n s).1 hacc
  have hkeep : (observe m 0 s).piu = s.piu ∧ (observe m 0 s).tmp = s.tmp ∧ (observe m 0 s).tcu = s.tcu ∧
      (observe m 0 s).elg = s.elg := by
    rw [hobs]
    exact ⟨rfl, rfl, rfl, rfl⟩
  obtain ⟨piu, tmp, tcu, elg⟩ := hkeep
  generalize hd : directionOf n (observe m 0 s).pins = d at hexec
  obtain ⟨-, -, -, -, -, -, -, hflags, -⟩ := (acceptPulse_piu n d (observe m 0 s)).1.fields
  have hrv := acceptPulse_rv n d (observe m 0 s)
  obtain ⟨uflags, urv, uactions, utcu, uelg⟩ := pulseCounted_fields n d (observe m 0 s)
  rw [piu] at hrv
  rw [tmp] at urv uactions
  rw [tcu] at utcu
  rw [elg] at uelg
  rw [← hflags] at uflags
  generalize acceptPulse n d (observe m 0 s) = t at hexec hrv uflags
  generalize pulseCounted n d (observe m 0 s) = u at hrv uflags urv uactions utcu uelg
  have hsame : anyPhase t.piu.reverseFlag = anyPhase s.piu.reverseFlag →
      handReverse (anyPhase s.piu.reverseFlag) n u = u := fun h => if_pos (by rw [uflags, h])
  have hchanged : anyPhase t.piu.reverseFlag ≠ anyPhase s.piu.reverseFlag →
      handReverse (anyPhase s.piu.reverseFlag) n u =
        hand .rv (anyPhase t.piu.reverseFlag) (if anyPhase t.piu.reverseFlag then some n else none) u := fun h => by
    rw [← uflags]
    exact if_neg (by rw [uflags]; exact h.symm)
  refine ⟨t, hexec, fun h => ?_, fun h => ?_, fun hb ha hc hact hset => ?_, fun hb ha => ?_⟩
  · rw [hrv, hsame h, urv]
  · rw [hrv, hchanged h]
    exact hand_condition_self (k := .rv) (by decide) (by decide) (by decide) _ _ u
  · rw [hrv, hchanged (by rw [ha, hb]; decide), ha, if_pos rfl]
    have hfresh := hand_fresh (k := .rv) (p := some n) (s := u) (by decide) (by decide) (by decide)
      ((congrArg Latch.condition urv).trans hc) (by rw [uactions]; exact hact) ((congrArg Latch.set urv).trans hset)
    rw [utcu, uelg] at hfresh
    exact hfresh
  · rw [hrv, hchanged (by rw [ha, hb]; decide), ha]
    obtain ⟨hset, hrepeats⟩ := hand_false_set .rv (if (false : Bool) then some n else none) u
    exact ⟨hset.trans (congrArg Latch.set urv), hrepeats.trans (congrArg Latch.repeats urv)⟩

/-! ## The switch leaves a state (R12, R144) -/

theorem openPair_iff (x : SwitchState) : openPair x = true ↔ x = .opened ∨ x = .armed := by
  cases x <;> simp [openPair]

/-- Whether the switch stays in OPEN or ARMED. -/
theorem stays_iff (last : Option SwitchState) :
    (last.map openPair).getD false = true ↔ ∃ old, last = some old ∧ (old = .opened ∨ old = .armed) := by
  cases last with
  | none => simp
  | some old => simp [openPair_iff]

/-- What an entry into a switch state does to the meter and to the latches of MS and SO (R12, R144). -/
theorem enterSwitch_lines (new : SwitchState) (s : State) (h : s.swc.switch ≠ new) :
    let pair (x : SwitchState) : Prop := x = .opened ∨ x = .armed
    let t := enterSwitch new s
    t.swc.switch = new ∧
    (s.swc.switch = .closed →
      t.piu = { s.piu with stallFlag := .all false, stallTimer := .all 0 } ∧ t.swc.overCount = 0 ∧
        t.tmp.latches.ms =
          { s.tmp.latches.ms with
            condition := s.tmp.latches.ms.condition &&
              !(s.piu.stallFlag.p1 || s.piu.stallFlag.p2 || s.piu.stallFlag.p3) }) ∧
    (s.swc.switch ≠ .closed → t.piu = s.piu ∧ t.tmp.latches.ms = s.tmp.latches.ms) ∧
    t.tmp.lastHanded = some new ∧
    (pair new → t.tmp.latches.so = s.tmp.latches.so ∧
      ((∃ old, s.tmp.lastHanded = some old ∧ pair old) → t.tmp.soHistory = s.tmp.soHistory) ∧
      (¬(∃ old, s.tmp.lastHanded = some old ∧ pair old) → t.tmp.soHistory = [])) ∧
    (¬pair new → t.tmp.soHistory = [] ∧ t.tmp.latches.so = { s.tmp.latches.so with condition := false }) := by
  intro pair t
  have hswc := enterSwitch_swc h
  have hpiu := enterSwitch_piu h
  have htmp := enterSwitch_tmp h
  have hso : (latchesAfterLeaving s).so = s.tmp.latches.so := by
    unfold latchesAfterLeaving
    split <;> rfl
  have hms : t.tmp.latches.ms = (latchesAfterLeaving s).ms := by
    rw [htmp]
    dsimp only
    split <;> rfl
  refine ⟨by rw [hswc], fun hc => ⟨hpiu.trans (if_pos hc), by rw [hswc]; exact if_pos hc, hms.trans ?_⟩,
    fun hc => ⟨hpiu.trans (if_neg hc), hms.trans ?_⟩, by rw [htmp], fun hp => ?_, fun hp => ?_⟩
  · cases hf : anyPhase s.piu.stallFlag
    · have hf' : (s.piu.stallFlag.p1 || s.piu.stallFlag.p2 || s.piu.stallFlag.p3) = false := hf
      simp [latchesAfterLeaving, hf, hf']
    · have hf' : (s.piu.stallFlag.p1 || s.piu.stallFlag.p2 || s.piu.stallFlag.p3) = true := hf
      simp [latchesAfterLeaving, hc, hf, hf']
  · simp [latchesAfterLeaving, hc]
  · have hpair : openPair new = true := (openPair_iff new).mpr hp
    rw [htmp]
    simp only [hpair, if_true, Bool.true_and, hso]
    exact ⟨trivial, fun hold => if_pos ((stays_iff _).mpr hold), fun hold => if_neg fun k => hold ((stays_iff _).mp k)⟩
  · have hpair : openPair new = false := Bool.eq_false_iff.mpr fun k => hp ((openPair_iff new).mp k)
    rw [htmp]
    simp only [hpair, Bool.false_and, Bool.false_eq_true, if_false]
    exact ⟨trivial, trivial⟩

/-! ## SO at a second (R143) -/

/-- In OPEN and ARMED a TAMPER cause that is required moves the switch between them at most, and SO stands. -/
theorem evaluateTamper_so {s : State} (hr : tamperRequired s.tmp = true)
    (hs : s.swc.switch = .opened ∨ s.swc.switch = .armed) (hl : s.tmp.lastHanded = some s.swc.switch) :
    (evaluateTamper s).tmp.latches.so = s.tmp.latches.so ∧ (evaluateTamper s).tmp.soHistory = s.tmp.soHistory := by
  unfold evaluateTamper
  rw [hr]
  cases hc : s.swc.table.tamper with
  | some e => exact ⟨rfl, rfl⟩
  | none =>
    have hactive := anyActive_set (t := s.swc.table) (c := .tamper) (e := ⟨false, s.tcu.clock, none⟩) rfl
    have hentry : (entryChanged .tamper (some ⟨false, s.tcu.clock, none⟩) s).tmp = s.tmp := by
      unfold entryChanged
      dsimp only
      split <;> simp
    obtain ⟨happeared, -, hstands⟩ := changeEntry_cases .tamper (some ⟨false, s.tcu.clock, none⟩) s
    obtain ⟨hswc, -⟩ := entryChanged_fields .tamper (some ⟨false, s.tcu.clock, none⟩) s
    dsimp only
    cases ha : s.swc.table.anyActive
    · rw [happeared ha hactive]
      generalize entryChanged .tamper (some ⟨false, s.tcu.clock, none⟩) s = u at hentry hswc
      rcases hs with hs | hs
      · have hu : activeAppeared u = u := by
          unfold activeAppeared
          rw [hswc]
          simp only [hs]
        rw [hu, hentry]
        exact ⟨rfl, rfl⟩
      · have hsw : u.swc.switch = .armed := by rw [hswc]; exact hs
        have hu : activeAppeared u = enterSwitch .opened u := by
          unfold activeAppeared
          simp only [hsw]
        obtain ⟨-, -, -, -, hpair, -⟩ := enterSwitch_lines .opened u (by rw [hsw]; decide)
        obtain ⟨hso, hstay, -⟩ := hpair (.inl rfl)
        rw [hu, hso, hstay ⟨.armed, by rw [hentry, hl, hs], .inr rfl⟩, hentry]
        exact ⟨rfl, rfl⟩
    · rw [hstands (ha.trans hactive.symm), hentry]
      exact ⟨rfl, rfl⟩

/-- SO that rises in OPEN or ARMED (R143, R149). -/
theorem rise_so {p : Option Phase} {s : State} (hs : s.swc.switch = .opened ∨ s.swc.switch = .armed)
    (hl : s.tmp.lastHanded = some s.swc.switch) :
    (rise .so p s).tmp.latches.so.condition = true ∧ (rise .so p s).tmp.soHistory = s.tmp.soHistory := by
  by_cases ha : s.tmp.actions.so = .off
  · rw [rise_off (k := .so) p ha]
    exact ⟨rfl, rfl⟩
  · by_cases hset : s.tmp.latches.so.set = none
    · obtain ⟨u, hu, hx⟩ := rise_fresh (k := .so) p ha hset
      have hutmp : u.tmp.latches.so = ⟨true, some ⟨s.tcu.clock, p, s.elg.nextSeq⟩, 0⟩ ∧
          u.tmp.soHistory = s.tmp.soHistory ∧ u.tmp.actions = s.tmp.actions ∧ u.tmp.lastHanded = s.tmp.lastHanded ∧
          u.swc = s.swc := by
        rw [hx]
        simp [latchRecord, setLatch, Kinds.set, Kinds.get]
      obtain ⟨hso, hhistory, hactions, hlast, hswc⟩ := hutmp
      rw [hu]
      split
      · rename_i hd
        obtain ⟨e1, e2⟩ := evaluateTamper_so (s := u)
          (tamperRequired_of_set (k := .so) (by rw [show u.tmp.latches.get .so = _ from hso]; rfl)
            (by rw [hactions]; exact hd)) (by rw [hswc]; exact hs) (by rw [hlast, hswc]; exact hl)
        rw [e1, e2, hso]
        exact ⟨rfl, hhistory⟩
      · rw [hso]
        exact ⟨rfl, hhistory⟩
    · rw [rise_repeated (k := .so) p ha hset]
      simp [setLatch, Kinds.set]

/-- SO that is handed in OPEN or ARMED is held, and the history stands (R143, R145). -/
theorem hand_so {v : Bool} {p : Option Phase} {s : State} (hs : s.swc.switch = .opened ∨ s.swc.switch = .armed)
    (hl : s.tmp.lastHanded = some s.swc.switch) :
    (hand .so v p s).tmp.latches.so.condition = v ∧ (hand .so v p s).tmp.soHistory = s.tmp.soHistory := by
  by_cases hc : (s.tmp.latches.get .so).condition = v
  · rw [(hand_latches .so v p s).1 hc]
    exact ⟨hc, rfl⟩
  · have hx : hand .so v p s = if v then rise .so p s else fall .so s := if_neg hc
    rw [hx]
    cases v
    · exact ⟨rfl, rfl⟩
    · exact rise_so hs hl

theorem Phase.forall_iff {P : Phase → Prop} : (∀ n, P n) ↔ P .p1 ∧ P .p2 ∧ P .p3 :=
  ⟨fun h => ⟨h .p1, h .p2, h .p3⟩, fun ⟨h1, h2, h3⟩ n => by cases n <;> assumption⟩

/-- The lowest-numbered phase whose flag is set. -/
theorem firstPhase_eq_some (x : Phases Bool) (n : Phase) :
    firstPhase x = some n ↔ x.get n = true ∧ ∀ k : Phase, k.number < n.number → x.get k = false := by
  obtain ⟨a, b, c⟩ := x
  rw [Phase.forall_iff]
  cases n <;> cases a <;> cases b <;> simp [firstPhase, Phases.get, Phase.number]

theorem firstPhase_isSome (x : Phases Bool) : (firstPhase x).isSome = (x.p1 || x.p2 || x.p3) := by
  unfold firstPhase
  split_ifs with h1 h2 h3 <;> simp_all

/-- The supply's part of a tick in OPEN and ARMED (R143). -/
theorem supplySecond_taken {s : State} (hp : s.sdm.power = .run ∨ s.sdm.power = .holdup)
    (hs : s.swc.switch = .opened ∨ s.swc.switch = .armed) (hl : s.tmp.lastHanded = some s.swc.switch) :
    supplySecond s =
      hand .so
        (soCondition s.tmp.latches.so.condition (pushBounded 10 s.tmp.soHistory (livePhase s.pins).isSome))
        (livePhase s.pins)
        (s.setTmp { s.tmp with soHistory := pushBounded 10 s.tmp.soHistory (livePhase s.pins).isSome }) := by
  have htakes : takesSecond s = true := by
    unfold takesSecond
    rw [working_iff.mpr hp, (stays_iff _).mpr ⟨_, hl, hs⟩]
    rfl
  exact if_pos htakes

theorem supplySecond_none {s : State} (h : takesSecond s = false) : supplySecond s = s :=
  if_neg (by rw [h]; decide)

theorem countP_id (h : List Bool) : h.countP id = h.count true := by
  rw [List.count]
  exact List.countP_congr fun b _ => by simp

theorem soCondition_rises (h : List Bool) : soCondition false h = true ↔ 8 ≤ h.count true := by
  simp [soCondition, countP_id]

theorem soCondition_falls (h : List Bool) : soCondition true h = false ↔ h.length = 10 ∧ h.count true = 0 := by
  simp [soCondition, List.count_eq_zero]

/-- The supply's part of a tick, line by line (R143). -/
theorem supplySecond_lines (s : State) :
    let active : Bool := s.pins.c.p1 || s.pins.c.p2 || s.pins.c.p3 || s.pins.l.p1 || s.pins.l.p2 || s.pins.l.p3
    let history := pushBounded 10 s.tmp.soHistory active
    let so := s.tmp.latches.so
    let t := tickPart false false .supply s
    ((s.sdm.power = .run ∨ s.sdm.power = .holdup) → (s.swc.switch = .opened ∨ s.swc.switch = .armed) →
      s.tmp.lastHanded = some s.swc.switch →
      t.tmp.soHistory = history ∧
      (so.condition = false → (t.tmp.latches.so.condition = true ↔ 8 ≤ history.count true)) ∧
      (so.condition = true → (t.tmp.latches.so.condition = false ↔ history.length = 10 ∧ history.count true = 0)) ∧
      (so.condition = false → 8 ≤ history.count true → s.tmp.actions.so ≠ .off → so.set = none →
        ∃ x, t.tmp.latches.so.set = some x ∧ x.time = s.tcu.clock ∧ x.record = s.elg.nextSeq ∧
          (active = true → ∃ n, x.phase = some n ∧ (s.pins.c.get n || s.pins.l.get n) = true ∧
            ∀ k : Phase, k.number < n.number → (s.pins.c.get k || s.pins.l.get k) = false))) ∧
    (s.sdm.power ≠ .run → s.sdm.power ≠ .holdup → t = s) ∧
    ((∀ x, s.tmp.lastHanded = some x → x ≠ .opened ∧ x ≠ .armed) → t = s) := by
  intro active history so t
  refine ⟨fun hp hs hl => ?_, fun h1 h2 => supplySecond_none ?_, fun h => supplySecond_none ?_⟩
  · have hlive : (livePhase s.pins).isSome = active := by
      rw [livePhase, firstPhase_isSome]
      simp only [active]
      ac_rfl
    have ht : t = hand .so (soCondition so.condition history) (livePhase s.pins)
        (s.setTmp { s.tmp with soHistory := history }) := by
      rw [show t = supplySecond s from rfl, supplySecond_taken hp hs hl, hlive]
    obtain ⟨hcondition, hhistory⟩ := hand_so (v := soCondition so.condition history) (p := livePhase s.pins)
      (s := s.setTmp { s.tmp with soHistory := history }) hs hl
    rw [← ht] at hcondition hhistory
    refine ⟨hhistory, fun hc => ?_, fun hc => ?_, fun hc h8 ha hset => ?_⟩
    · rw [hcondition, hc, soCondition_rises]
    · rw [hcondition, hc, soCondition_falls]
    · have hrise : soCondition so.condition history = true := by rw [hc]; exact (soCondition_rises _).mpr h8
      have hlatch := (((hand_latches .so true (livePhase s.pins) (s.setTmp { s.tmp with soHistory := history })).2.2 hc
        rfl).2 .so).1
      rw [hrise] at ht
      rw [← ht, Kinds.get_set, if_pos rfl] at hlatch
      have hrisen := congrArg Latch.set (risenLatch_fresh (k := .so) (s := s.setTmp { s.tmp with soHistory := history })
        (livePhase s.pins) ha hset)
      refine ⟨_, hlatch.trans hrisen, rfl, rfl, fun hact => ?_⟩
      rw [← hlive] at hact
      obtain ⟨n, hn⟩ := Option.isSome_iff_exists.mp hact
      obtain ⟨hget, hlow⟩ := (firstPhase_eq_some _ n).mp hn
      refine ⟨n, hn, ?_, fun k hk => ?_⟩
      · cases n <;> exact hget
      · have hk' := hlow k hk
        cases k <;> exact hk'
  · have hw : working s.sdm.power = false := Bool.eq_false_iff.mpr fun k => (working_iff.mp k).elim h1 h2
    rw [takesSecond, hw, Bool.false_and]
  · have hstay : (s.tmp.lastHanded.map openPair).getD false = false := Bool.eq_false_iff.mpr fun k => by
      obtain ⟨old, hold, hpair⟩ := (stays_iff _).mp k
      exact hpair.elim (h old hold).1 (h old hold).2
    rw [takesSecond, hstay, Bool.and_false]

/-! ## The contactor as found (R118) -/

/-- Every phase with V high has its L at `load`. -/
theorem loadsAgree_iff (p : Levels) (load : Bool) :
    ((!p.v.p1 || p.l.p1 == load) && (!p.v.p2 || p.l.p2 == load) && (!p.v.p3 || p.l.p3 == load)) = true ↔
      ∀ n, p.v.get n = true → p.l.get n = load := by
  rw [Phase.forall_iff]
  simp [Phases.get, or_iff_not_imp_left, and_assoc]

theorem foundOf_opened (p : Levels) :
    foundOf p = .opened ↔ p.aux = true ∧ ∀ n, p.v.get n = true → p.l.get n = false := by
  rw [← loadsAgree_iff]
  unfold foundOf
  dsimp only
  split_ifs with h1 h2 <;> simpa using h1

theorem foundOf_closed (p : Levels) :
    foundOf p = .closed ↔ p.aux = false ∧ ∀ n, p.v.get n = true → p.l.get n = true := by
  rw [← loadsAgree_iff]
  unfold foundOf
  dsimp only
  split_ifs with h1 h2
  · have haux : p.aux = true := ((Bool.and_eq_true _ _).mp h1).1
    simp [haux]
  · simpa using h2
  · simpa using h2

theorem outOfPlace_eq_some (p : Levels) (load : Bool) (n : Phase) :
    outOfPlace p load = some n ↔
      (p.v.get n = true ∧ p.l.get n ≠ load) ∧
        ∀ k : Phase, k.number < n.number → ¬(p.v.get k = true ∧ p.l.get k ≠ load) := by
  have hget (k : Phase) : (⟨p.v.p1 && p.l.p1 != load, p.v.p2 && p.l.p2 != load, p.v.p3 && p.l.p3 != load⟩ :
      Phases Bool).get k = true ↔ p.v.get k = true ∧ p.l.get k ≠ load := by
    cases k <;> simp [Phases.get]
  rw [outOfPlace, firstPhase_eq_some, hget]
  simp only [← hget, Bool.not_eq_true]

/-! ## The verification at start-up (R131) -/

/-- The state that VERIFY gives, line by line of its table. -/
theorem verifyChoice_lines (active : Bool) (intended : Position) (found : Found) :
    (active = true → found = .opened → verifyChoice active intended found = .opened) ∧
    (active = true → found ≠ .opened → verifyChoice active intended found = .opening) ∧
    (active = false → intended = .closed → found = .closed → verifyChoice active intended found = .closed) ∧
    (active = false → intended = .closed → found ≠ .closed → verifyChoice active intended found = .closing) ∧
    (active = false → intended ≠ .closed → found = .opened → verifyChoice active intended found = .armed) ∧
    (active = false → intended ≠ .closed → found = .closed → verifyChoice active intended found = .closed) ∧
    (active = false → intended ≠ .closed → found = .mixed → verifyChoice active intended found = .opening) := by
  cases active <;> cases intended <;> cases found <;> simp [verifyChoice]

theorem verifyChoice_ne_verify (active : Bool) (intended : Position) (found : Found) :
    verifyChoice active intended found ≠ .verify := by
  unfold verifyChoice
  split <;> decide

/-- The controller after its start-up step, in a part that stands in VERIFY (R115, R116, R131). -/
theorem switchStartUp_enters {s : State} (h : s.swc.switch = .verify) :
    let v : Verification := ⟨foundOf s.pins, outOfPlace s.pins (!s.pins.aux)⟩
    let x := verifyChoice s.swc.table.anyActive s.swc.intended (foundOf s.pins)
    (switchStartUp s).swc.switch = x ∧ (switchStartUp s).swc.intended = intendedAfter x s.swc ∧
      (switchStartUp s).swc.table = s.swc.table ∧ (switchStartUp s).swc.lastVerification = some v ∧
      (x = .opening ∨ x = .closing → ∃ o, (switchStartUp s).swc.op = some o ∧ o.attempt = 1 ∧ o.releasedBy = none ∧
        (s.now < s.swc.lastPulseEnd + 3000 → o.phase = .rest)) := by
  intro v x
  have hy : (s.setSwc { s.swc with lastVerification := some v }).swc = { s.swc with lastVerification := some v } := rfl
  have hbegin (t : Target) := beginOperation_swc (t := t) (s := s.setSwc { s.swc with lastVerification := some v })
    (by rw [hy]; show s.swc.switch ≠ _; rw [h]; cases t <;> decide)
  have henter (new : SwitchState) (hn : SwitchState.verify ≠ new) :=
    enterSwitch_swc (new := new) (s := s.setSwc { s.swc with lastVerification := some v }) (by
      rw [hy]
      show s.swc.switch ≠ _
      rw [h]
      exact hn)
  have hx : switchStartUp s =
      if x = .opening then beginOperation .opened (s.setSwc { s.swc with lastVerification := some v })
      else if x = .closing then beginOperation .closed (s.setSwc { s.swc with lastVerification := some v })
      else enterSwitch x (s.setSwc { s.swc with lastVerification := some v }) := by
    unfold switchStartUp
    dsimp only
    split
    · exact (if_pos ‹_›).symm
    · rename_i hclosing
      exact ((if_neg (by rw [show x = .closing from hclosing]; decide)).trans (if_pos hclosing)).symm
    · rename_i hopening hclosing
      exact ((if_neg hopening).trans (if_neg hclosing)).symm
  have hattempt (t : Target) := (firstAttempt_fields t s.swc.lastPulseEnd s.now).2
  by_cases hopening : x = .opening
  · rw [hx, if_pos hopening, hbegin .opened]
    exact ⟨hopening.symm, by rw [hopening]; rfl, rfl, rfl, fun _ => ⟨_, rfl, hattempt .opened⟩⟩
  · by_cases hclosing : x = .closing
    · rw [hx, if_neg hopening, if_pos hclosing, hbegin .closed]
      exact ⟨hclosing.symm, by rw [hclosing]; rfl, rfl, rfl, fun _ => ⟨_, rfl, hattempt .closed⟩⟩
    · rw [hx, if_neg hopening, if_neg hclosing, henter x (verifyChoice_ne_verify _ _ _).symm]
      exact ⟨rfl, rfl, rfl, rfl, fun h => absurd h (not_or.mpr ⟨hopening, hclosing⟩)⟩

/-- START_UP that takes the controller's step alone (R131, R203). -/
theorem exec_startUp_verify {m : Moment} {s : State} (hp : s.sdm.power = .starting) (hb : s.sdm.stepsBegun = true)
    (hn : s.sdm.nextStep = .verify) (hv : m.pins.vdd = true) (hr : m.pins.rstn = true) (hburn : s.ots.burn = none) :
    exec (.startUp m ⟨false, some 1⟩) s = .next (setStep .acceptor (switchStartUp (observe m 0 s))) := by
  have hreset : resetHeld s = false := by simp [resetHeld, hb]
  have hobs := observe_running m hreset
  have hsdm : (observe m 0 s).sdm = s.sdm := by rw [hobs]
  rw [exec_startUp hp hv hr hburn (.inr (by rw [hsdm]; exact hb))]
  have hstep : takeStep (observe m 0 s) = setStep .acceptor (switchStartUp (observe m 0 s)) := by
    unfold takeStep
    rw [hsdm, hn]
  have hone : takeSteps 1 (observe m 0 s) = takeStep (observe m 0 s) :=
    takeSteps_succ (n := 0) (by rw [hsdm]; exact hp) (by simp [lossBurning, hburn])
  exact congrArg Host.Outcome.next (hone.trans hstep)

/-- Settles O30, table by table. -/
theorem conditionsAndVerifyByTheirTables : Obligations.ConditionsAndVerifyByTheirTables := by
  refine ⟨fun m n s hp hlast => pulseEdge_rv m n s hp hlast, fun new s h => enterSwitch_lines new s h, supplySecond_lines,
    fun m s h => ?_, fun p => ⟨foundOf_opened p, foundOf_closed p, fun load n => outOfPlace_eq_some p load n⟩,
    fun m s hp hb hn hv hr hburn hs => ?_⟩
  · have hpower : (observe m 0 s).sdm.power ≠ .off := by
      rw [(observe_fields m 0 s).2.2.1]
      exact h
    exact congrArg Host.Outcome.next (tick_eq tickOrder hpower)
  · intro found active
    have hexec := exec_startUp_verify hp hb hn hv hr hburn
    have hobs := observe_running (s := s) m (by simp [resetHeld, hb])
    have hkeep : (observe m 0 s).swc = s.swc ∧ (observe m 0 s).pins = m.pins ∧ (observe m 0 s).now = s.now + m.elapsed ∧
        (observe m 0 s).tcu = s.tcu ∧ (observe m 0 s).sdm.power = .starting := by
      rw [hobs]
      exact ⟨rfl, rfl, rfl, rfl, hp⟩
    obtain ⟨swc, pins, now, tcu, power⟩ := hkeep
    obtain ⟨hswitch, hintended, htable, hlast, hop⟩ := switchStartUp_enters (s := observe m 0 s) (by rw [swc]; exact hs)
    rw [swc, pins] at hswitch hintended hop
    rw [pins] at hlast
    rw [swc] at htable
    rw [now] at hop
    obtain ⟨c1, c2, c3, c4, c5, c6, c7⟩ := verifyChoice_lines s.swc.table.anyActive s.swc.intended found
    have hgives {x : SwitchState} {i : Position} (hx : verifyChoice s.swc.table.anyActive s.swc.intended found = x)
        (hi : intendedAfter x s.swc = i) :
        (switchStartUp (observe m 0 s)).swc.switch = x ∧ (switchStartUp (observe m 0 s)).swc.intended = i :=
      ⟨hswitch.trans hx, by rw [hintended, hx, hi]⟩
    have hinactive (h : ¬active) : s.swc.table.anyActive = false := Bool.eq_false_iff.mpr h
    refine ⟨_, hexec, rfl, by simpa [setStep] using power, hlast, htable, fun ha hf => hgives (c1 ha hf) rfl,
      fun ha hf => hgives (c2 ha hf) rfl, fun ha hi hf => hgives (c3 (hinactive ha) hi hf) rfl,
      fun ha hi hf => hgives (c4 (hinactive ha) hi hf) rfl, fun ha hi hf => hgives (c5 (hinactive ha) hi hf) rfl,
      fun ha hi hf => hgives (c6 (hinactive ha) hi hf) rfl, fun ha hi hf => hgives (c7 (hinactive ha) hi hf) rfl,
      fun h => hop (by rw [← hswitch]; exact h), by simp, by simpa using tcu, by simp, by simp, by simp⟩

end Sys2Proof.Machine
end

