-- ==== Sys2Proof/Proofs/LockBurn.lean ====
section
/-! The end of the lock burn (R112, R159, R172, R196): the mark, the restarted log, and the latches set afresh. -/

namespace Sys2Proof.Machine

/-- The lock step past the latches of the kinds: TAMPER as they require, and its notice (R153, R159). -/
theorem tamperLockStep_rest (s : State) :
    let y := kindList.foldl (fun s k => lockKind k s) s
    let t := tamperLockStep s
    y.tmp.SameLatches t.tmp ∧ y.tmp.SameFilters t.tmp ∧ t.elg = y.elg ∧
      t.swc.table.tamper.isSome = tamperRequired t.tmp ∧
      (t.rpu.notices.getLsbD 5 = true ↔ s.rpu.notices.getLsbD 5 = true ∨
        mainPowered s.sdm.power = true ∧ ∃ k ∈ kindList, relatches k s.tmp = true) := by
  intro y t
  have hlatches := evaluateTamper_latches y
  have hfilters := evaluateTamper_filters y
  have hrequired := evaluateTamper_required y
  have hbit : (evaluateTamper y).rpu.notices.getLsbD 5 = s.rpu.notices.getLsbD 5 := by
    rw [(evaluateTamper_noticed y).bit (by decide)]
    simp [y]
  have hmain : (evaluateTamper y).sdm = s.sdm := by simp [y]
  have helg : (evaluateTamper y).elg = y.elg := by simp
  have ht : t = if kindList.any fun k => relatches k s.tmp then notify .tamper (evaluateTamper y) else evaluateTamper y :=
    rfl
  by_cases hagain : (kindList.any fun k => relatches k s.tmp) = true
  · have hexists := List.any_eq_true.mp hagain
    rw [ht, if_pos hagain]
    refine ⟨by simpa using hlatches, by simpa using hfilters, by simp, by simpa using hrequired, ?_⟩
    rw [notify_rpu, hmain]
    split
    · rename_i hm
      rw [Rpu.withNotice_bit]
      simp [noticeNumber, hm, hexists]
    · rename_i hm
      rw [hbit]
      exact ⟨.inl, fun h => h.elim id fun ⟨h, _⟩ => absurd h hm⟩
  · have hnone : ¬∃ k ∈ kindList, relatches k s.tmp = true := fun h => hagain (List.any_eq_true.mpr h)
    rw [ht, if_neg hagain]
    exact ⟨hlatches, hfilters, helg, hrequired, by rw [hbit]; exact ⟨.inl, fun h => h.elim id fun ⟨_, h⟩ => absurd h hnone⟩⟩

/-- COMMISSION goes, and the rest of the lock's event stands (R112). -/
theorem lockEvent_rest (s : State) :
    let z := tamperLockStep ((s.setOts s.ots.burned).setElg .restart)
    let t := lockEvent s
    z.tmp.SameLatches t.tmp ∧ z.tmp.SameFilters t.tmp ∧ t.elg = z.elg ∧ t.ots = s.ots.burned ∧
      t.swc.table = { z.swc.table with commission := none } ∧
      t.rpu.notices.getLsbD 5 = z.rpu.notices.getLsbD 5 := by
  intro z t
  have hots : z.ots = s.ots.burned := by simp [z]
  have ht : t = if z.swc.table.commission.isSome then changeEntry .commission none z else z := rfl
  by_cases hc : z.swc.table.commission.isSome = true
  · rw [ht, if_pos hc]
    exact ⟨changeEntry_latches _ _ _, changeEntry_filters _ _ _, by simp, by simpa using hots, changeEntry_table _ _ _,
      (changeEntry_noticed _ _ _).bit (by decide)⟩
  · have hnone : z.swc.table.commission = none := by simpa using hc
    rw [ht, if_neg hc]
    refine ⟨.refl _, .refl _, rfl, hots, ?_, rfl⟩
    rw [← hnone]

theorem Ots.burned_lockMark {x : Ots} {b : Burn} (hb : x.burn = some b) (hf : b.field = .lockMark) :
    x.burned = { x with lock := true, burn := none } := by
  simp only [Ots.burned, hb, hf]

/-- The kinds whose latches the lock sets afresh, with the records and the latches that it leaves (R159). -/
theorem lockEvent_latches (s : State) :
    let again := kindList.filter fun k => relatches k s.tmp
    let t := lockEvent s
    t.elg.records = again.mapIdx (fun i k => lockRecord (i + 1) k s) ∧ t.elg.nextSeq = again.length + 1 ∧
      (∀ i k, again[i]? = some k → (t.tmp.latches.get k).set = some ⟨s.tcu.clock, lockPhase k s.tmp, i + 1⟩) ∧
      (∀ k, k ∉ again → (t.tmp.latches.get k).set = none) ∧ (∀ k, (t.tmp.latches.get k).repeats = 0) ∧
      (∀ k, k ≠ .ms → k ≠ .so → (t.tmp.latches.get k).condition = (s.tmp.latches.get k).condition) ∧
      s.tmp.SameFilters t.tmp ∧ t.ots = s.ots.burned ∧ t.swc.table.commission = none ∧
      t.swc.table.tamper.isSome = tamperRequired t.tmp ∧
      (t.rpu.notices.getLsbD 5 = true ↔
        s.rpu.notices.getLsbD 5 = true ∨ mainPowered s.sdm.power = true ∧ again ≠ []) := by
  intro again t
  have hmem (k : Kind) : k ∈ kindList := by cases k <;> decide
  obtain ⟨hrecords, hseq, -, hagain, hother, htmp⟩ := lockKinds_eq kindList (by decide)
    ((s.setOts s.ots.burned).setElg .restart) (by decide : 0 + 9 ≤ 32) (by decide : 1 + 9 ≤ 4294967295)
  obtain ⟨l1, f1, e1, r1, n1⟩ := tamperLockStep_rest ((s.setOts s.ots.burned).setElg .restart)
  obtain ⟨l2, f2, e2, o2, t2, n2⟩ := lockEvent_rest s
  have hlatch := l1.trans l2
  have hfilters : s.tmp.SameFilters t.tmp := .trans ⟨_, _, _, htmp⟩ (f1.trans f2)
  have hlocked (k : Kind) : ∃ n, ((kindList.foldl (fun s k => lockKind k s)
      ((s.setOts s.ots.burned).setElg .restart)).tmp.latches.get k) =
        lockedLatch n k ((s.setOts s.ots.burned).setElg .restart) := by
    by_cases hr : relatches k s.tmp = true
    · obtain ⟨i, hi⟩ := List.mem_iff_getElem?.mp
        (List.mem_filter (p := fun k => relatches k s.tmp).mpr ⟨hmem k, hr⟩)
      exact ⟨_, hagain i k hi⟩
    · exact ⟨0, hother k 0 (hmem k) (Bool.eq_false_iff.mpr hr)⟩
  refine ⟨?_, ?_, fun i k hi => ?_, fun k hk => ?_, fun k => ?_, fun k hm hs => ?_, hfilters, o2, by rw [t2], ?_, ?_⟩
  · rw [e2, e1, hrecords]
    refine (List.nil_append _).trans (List.mapIdx_eq_mapIdx_iff.mpr fun i _ => ?_)
    rw [Nat.add_comm]
    rfl
  · rw [e2, e1, hseq]
    exact Nat.add_comm _ _
  · have hr : relatches k s.tmp = true := (List.mem_filter.mp (List.mem_of_getElem? hi)).2
    rw [(hlatch.2 k).1, hagain i k hi]
    refine (if_pos hr).trans ?_
    rw [Nat.add_comm]
    rfl
  · have hr : relatches k s.tmp = false := Bool.eq_false_iff.mpr fun h => hk (List.mem_filter.mpr ⟨hmem k, h⟩)
    rw [(hlatch.2 k).1, hother k 0 (hmem k) hr]
    exact if_neg (by rw [show relatches k ((s.setOts s.ots.burned).setElg .restart).tmp = false from hr]; decide)
  · obtain ⟨n, hn⟩ := hlocked k
    rw [(hlatch.2 k).2.1, hn]
    rfl
  · obtain ⟨n, hn⟩ := hlocked k
    rw [(hlatch.2 k).2.2 hm hs, hn]
    rfl
  · rw [t2, tamperRequired_eq l2.1 fun k => (l2.2 k).1]
    exact r1
  · rw [n2, n1]
    simp only [ne_eq, again, List.filter_eq_nil_iff, not_forall, not_not]
    simp

/-- COMMISSION_LOCK_BURN_END of a lock mark's burn that has run out (R196). -/
theorem exec_commissionLockBurnEnd {m : Moment} {s : State} {b : Burn} (hb : s.ots.burn = some b)
    (hf : b.field = .lockMark) (he : b.ends ≤ s.now + m.elapsed) :
    exec (.commissionLockBurnEnd m) s = .next (answerBurn .commissionLock (lockEvent (observe m 0 s))) := by
  obtain ⟨hnow, -, -, -, hots⟩ := observe_fields m 0 s
  refine congrArg Host.Outcome.next ?_
  unfold lockBurnEnd
  rw [hots, hb]
  exact if_pos ⟨hf, by rw [hnow]; exact he⟩

/-- The link, where it waits for a burn, holds the answer; nothing else changes (R196). -/
theorem answerBurn_answered (r : Request) (s : State) :
    ∃ l, answerBurn r s = { s with lnk := l } ∧ (s.lnk.state = .working → Answered r.kind .ok [] l) := by
  by_cases h : s.lnk.state = .working
  · obtain ⟨l, hl, hansw⟩ := placeReply_answered r.kind (.ok []) s
    exact ⟨l, (if_pos h).trans hl, fun _ => hansw⟩
  · exact ⟨s.lnk, if_neg h, fun k => absurd k h⟩

/-- Settles O56, by the lock step kind by kind and what follows it in the event. -/
theorem lockTakesEffectWhole : Obligations.LockTakesEffectWhole := by
  intro m s b hr hb hf he latch again phase
  have hobs := observe_running (s := s) m hr
  obtain ⟨l, hlnk, hansw⟩ := answerBurn_answered .commissionLock (lockEvent (observe m 0 s))
  have hexec := (exec_commissionLockBurnEnd hb hf he).trans (congrArg Host.Outcome.next hlnk)
  have hkeep : (observe m 0 s).tmp = s.tmp ∧ (observe m 0 s).ots = s.ots ∧ (observe m 0 s).rpu = s.rpu ∧
      (observe m 0 s).sdm = s.sdm ∧ (observe m 0 s).tcu = s.tcu ∧ (observe m 0 s).acu = s.acu ∧
      (observe m 0 s).piu = s.piu ∧ (observe m 0 s).lnk.state = s.lnk.state := by
    rw [hobs]
    exact ⟨rfl, rfl, rfl, rfl, rfl, rfl, rfl, rfl⟩
  obtain ⟨tmp, ots, rpu, sdm, tcu, acu, piu, state⟩ := hkeep
  obtain ⟨g1, g2, g3, g4, g5, g6, g7, g8, g9, g10, g11⟩ := lockEvent_latches (observe m 0 s)
  have hphase (k : Kind) : lockPhase k (observe m 0 s).tmp = phase k := by
    rw [tmp]
    cases k <;> rfl
  have hrecord (n : Nat) (k : Kind) : lockRecord n k (observe m 0 s) =
      { seq := n, time := s.tcu.clock, timeValid := s.tcu.valid, type := .tamperSet, kind := some k
        phase := phase k, code := none, balance := s.acu.balance, billedWh := s.piu.billedWh, guarded := true } := by
    rw [lockRecord, hphase, tcu, acu, piu]
  simp only [hrecord] at g1
  simp only [hphase, tcu] at g3
  rw [tmp] at g1 g2 g3 g4 g6 g7 g11
  rw [ots, Ots.burned_lockMark hb hf] at g8
  rw [rpu, sdm] at g11
  obtain ⟨_, _, _, hfilters⟩ := g7
  refine ⟨_, hexec, g8, g1, g2, g3, g4, g5, g6, ?_, ?_, ?_, ?_, ?_, ?_, g11, g9, g10, fun h => hansw ?_, ?_, ?_, ?_, ?_, ?_⟩
  · rw [hfilters]
  · rw [hfilters]
  · rw [hfilters]
  · rw [hfilters]
  · rw [hfilters]
  · rw [hfilters]
  · simpa [state] using h
  · simp
  · simpa using tcu
  · simp
  · simpa using sdm
  · simp

end Sys2Proof.Machine
end

