-- ==== Sys2Proof/Proofs/Transactions.lean ====
section
/-! Transactions addressed to the part (R186, R191), and the events that come while KEYS is handled (R84, R190). -/

namespace Sys2Proof.Machine

/-! ## A transaction as it finds the link -/

/-- The link as a transaction finds it: a write under way has been ended (R187). -/
def linkFound (m : Moment) (s : State) : Lnk :=
  if s.lnk.state = .receiving then
    { (observe m 0 s).lnk with
      state := if s.lnk.returnReady then .replyReady else .idle, request := [], clockLow := none }
  else (observe m 0 s).lnk

section
variable {m : Moment} {s : State}

theorem restart_observe (h : resetHeld s = false) :
    restart (observe m 0 s) = { observe m 0 s with lnk := linkFound m s } := by
  have hst : (observe m 0 s).lnk.state = s.lnk.state := by rw [observe_lnk h]
  by_cases hr : s.lnk.state = .receiving
  · rw [restart, if_pos (hst.trans hr), leaveReceiving_observe h, linkFound, if_pos hr]
  · rw [restart, if_neg (by rw [hst]; exact hr), linkFound, if_neg hr]

theorem linkFound_receiving (h : s.lnk.state = .receiving) :
    linkFound m s =
      { (observe m 0 s).lnk with
        state := if s.lnk.returnReady then .replyReady else .idle, request := [], clockLow := none } := if_pos h

theorem linkFound_other (h : s.lnk.state ≠ .receiving) : linkFound m s = (observe m 0 s).lnk := if_neg h

/-- The state of the link found does not depend on the moment. -/
theorem restart_state (h : resetHeld s = false) : (restart s).lnk.state = (linkFound m s).state := by
  by_cases hr : s.lnk.state = .receiving
  · rw [restart, if_pos hr, linkFound_receiving hr]
    rfl
  · rw [restart, if_neg hr, linkFound_other hr, observe_lnk h]

theorem linkFound_slot (h : resetHeld s = false) : (linkFound m s).slot = s.lnk.slot := by
  by_cases hr : s.lnk.state = .receiving
  · rw [linkFound_receiving hr, observe_lnk h]
  · rw [linkFound_other hr, observe_lnk h]

theorem linkFound_remainder (h : resetHeld s = false) : (linkFound m s).remainder = s.lnk.remainder := by
  by_cases hr : s.lnk.state = .receiving
  · rw [linkFound_receiving hr, observe_lnk h]
  · rw [linkFound_other hr, observe_lnk h]

/-- A moment in which the hold timer stood still leaves it otherwise and the rest of the link found the same. -/
theorem restart_observe_paused (n : Nat) (h : resetHeld s = false) :
    restart (observe m n s) =
      { observe m 0 s with
        lnk := { linkFound m s with holdTimer := s.lnk.holdTimer.map (· - (m.elapsed - n)) } } := by
  have hst : (observe m 0 s).lnk.state = s.lnk.state := by rw [observe_lnk h]
  have hready : (observe m 0 s).lnk.returnReady = s.lnk.returnReady := by rw [observe_lnk h]
  rw [observe_paused_running n h]
  by_cases hr : s.lnk.state = .receiving
  · rw [restart, if_pos (hst.trans hr), linkFound_receiving hr, leaveReceiving, returnState, ← hready]
    rfl
  · rw [restart, if_neg (by show (observe m 0 s).lnk.state ≠ _; rw [hst]; exact hr), linkFound_other hr]

theorem observe_pins (h : resetHeld s = false) : (observe m 0 s).pins = m.pins := by rw [observe_running m h]

theorem observe_sdm (h : resetHeld s = false) : (observe m 0 s).sdm = s.sdm := by rw [observe_running m h]

end

/-! ## Reads (R186, R191) -/

section
variable {m : Moment} {s : State} {a : BitVec 7} {count duration : Nat}

theorem exec_readTransaction (m : Moment) (a : BitVec 7) (count duration : Nat) (s : State) :
    exec (.readTransaction m a count duration) s = .next (readTransaction m a count duration s) := rfl

theorem linkAddress_eq (p : Levels) : linkAddress p = if p.ads then 0x2D else 0x2C := rfl

/-- The reset holds the link in every moment, so that a read finds nothing (R154). -/
theorem readTransaction_reset (h : resetHeld s = true) : readTransaction m a count duration s = observe m 0 s := by
  have hobs (n : Nat) : observe m n s = observe m 0 s := by simp [observe, h]
  have hlnk : (observe m 0 s).lnk = Lnk.mainReset := by simp [observe, h, mainReset]
  have hpower : (observe m 0 s).sdm.power ≠ .run := by
    have hstarting : (observe m 0 s).sdm.power = s.sdm.power := by simp [observe, h, mainReset]
    intro hrun
    simp [resetHeld, hstarting.symm.trans hrun] at h
  have hrestart : restart (observe m 0 s) = observe m 0 s := if_neg (by rw [hlnk]; decide)
  have hsame : (observe m 0 s).setLnk { (observe m 0 s).lnk with addressAcked := false, sent := [] } = observe m 0 s := by
    rw [hlnk]
    exact congrArg (State.setLnk _) hlnk.symm
  rw [readTransaction, hobs, hrestart]
  dsimp only
  rw [if_neg hpower, hsame, ite_self]

/-- A read addressed elsewhere is ignored (R186). -/
theorem readTransaction_elsewhere (h : resetHeld s = false) (ha : a ≠ linkAddress m.pins) :
    readTransaction m a count duration s = { observe m 0 s with lnk := linkFound m s } := by
  have hn : holdPause m a duration s = 0 := if_neg (fun hx => ha hx.1)
  rw [readTransaction, hn, restart_observe h]
  exact if_neg (by rw [observe_pins h]; exact ha)

/-- Outside RUN a read is not acknowledged (R186). -/
theorem readTransaction_notRun (h : resetHeld s = false) (ha : a = linkAddress m.pins) (hp : s.sdm.power ≠ .run) :
    readTransaction m a count duration s =
      { observe m 0 s with lnk := { linkFound m s with addressAcked := false, sent := [] } } := by
  have hn : holdPause m a duration s = 0 := if_neg (fun hx => hp hx.2.1)
  rw [readTransaction, hn, restart_observe h]
  refine (if_pos (by rw [observe_pins h]; exact ha)).trans ((if_neg ?_).trans rfl)
  rw [observe_sdm h]
  exact hp

/-- In RUN a read of a link with no reply is sent NONE, and of one at work PENDING (R191). -/
theorem readTransaction_noReply {frame : List Byte} (h : resetHeld s = false) (ha : a = linkAddress m.pins)
    (hp : s.sdm.power = .run)
    (hs : (linkFound m s).state = .idle ∧ frame = noneFrame ∨ (linkFound m s).state = .working ∧ frame = pendingFrame) :
    readTransaction m a count duration s =
      { observe m 0 s with lnk := { linkFound m s with addressAcked := true, sent := bytesSent frame count } } := by
  have hn : holdPause m a duration s = 0 := by
    refine if_neg (fun hx => ?_)
    obtain ⟨-, -, hready⟩ := hx
    rw [restart_state (m := m) h] at hready
    rcases hs with ⟨hs, -⟩ | ⟨hs, -⟩ <;> rw [hs] at hready <;> cases hready
  rw [readTransaction, hn, restart_observe h]
  refine (if_pos (by rw [observe_pins h]; exact ha)).trans ((if_pos (by rw [observe_sdm h]; exact hp)).trans ?_)
  rcases hs with ⟨hs, rfl⟩ | ⟨hs, rfl⟩ <;> simp only [hs] <;> rfl

/-- In RUN a read of a link with a reply sends it, and the hold timer stands still in it (R191). -/
theorem readTransaction_reply (h : resetHeld s = false) (ha : a = linkAddress m.pins) (hp : s.sdm.power = .run)
    (hs : (linkFound m s).state = .replyReady) :
    readTransaction m a count duration s =
      readReply count
        { observe m 0 s with
          lnk := { linkFound m s with holdTimer := s.lnk.holdTimer.map (· - (m.elapsed - duration)) } } := by
  have hn : holdPause m a duration s = duration := if_pos ⟨ha, hp, (restart_state (m := m) h).trans hs⟩
  rw [readTransaction, hn, restart_observe_paused duration h]
  refine (if_pos (by rw [observe_pins h]; exact ha)).trans ((if_pos (by rw [observe_sdm h]; exact hp)).trans ?_)
  simp only [hs]

end

/-! ## The reply as it is read (R191) -/

section
variable {count : Nat} {s : State}

/-- The link while its reply is read. -/
def linkRead (count : Nat) (x : Lnk) : Lnk := { x with addressAcked := true, sent := bytesSent x.slot count }

theorem readReply_part (h : count < s.lnk.slot.length) :
    readReply count s = s.setLnk { linkRead count s.lnk with readPos := count } := if_pos h

theorem readReply_last (h : s.lnk.slot.length ≤ count) (hr : s.lnk.remainder = []) :
    readReply count s =
      s.setLnk { linkRead count s.lnk with state := .idle, slot := [], readPos := 0, holdTimer := none } :=
  (if_neg (Nat.not_lt.mpr h)).trans (if_pos hr)

theorem readReply_first (h : s.lnk.slot.length ≤ count) (hr : s.lnk.remainder ≠ []) :
    readReply count s =
      s.setLnk
        { linkRead count s.lnk with
          slot := secondFrame s.lnk, remainder := [], readPos := 0, holdTimer := some 2000 } :=
  (if_neg (Nat.not_lt.mpr h)).trans (if_neg hr)

end

/-! ## Writes (R186) -/

section
variable {m : Moment} {s : State} {a : BitVec 7}

theorem exec_writeAddressed (m : Moment) (a : BitVec 7) (s : State) :
    exec (.writeAddressed m a) s = .next (writeAddressed m a s) := rfl

theorem writeAddressed_elsewhere (h : resetHeld s = false) (ha : a ≠ linkAddress m.pins) :
    writeAddressed m a s = { observe m 0 s with lnk := linkFound m s } := by
  rw [writeAddressed, restart_observe h]
  exact if_neg (by rw [observe_pins h]; exact ha)

theorem writeAddressed_refused (h : resetHeld s = false) (ha : a = linkAddress m.pins)
    (hx : ¬(s.sdm.power = .run ∧ ((linkFound m s).state = .idle ∨ (linkFound m s).state = .replyReady))) :
    writeAddressed m a s =
      { observe m 0 s with lnk := { linkFound m s with addressAcked := false, bytesAcked := 0, sent := [] } } := by
  rw [writeAddressed, restart_observe h]
  refine (if_pos (by rw [observe_pins h]; exact ha)).trans ((if_neg ?_).trans rfl)
  rw [observe_sdm h]
  exact hx

theorem writeAddressed_taken (h : resetHeld s = false) (ha : a = linkAddress m.pins) (hp : s.sdm.power = .run)
    (hs : (linkFound m s).state = .idle ∨ (linkFound m s).state = .replyReady) :
    writeAddressed m a s =
      { observe m 0 s with
        lnk :=
          { linkFound m s with
            state := .receiving
            returnReady := (linkFound m s).state == .replyReady
            request := []
            clockLow := if m.pins.scl then none else some 30
            addressAcked := true
            bytesAcked := 0
            sent := [] } } := by
  rw [writeAddressed, restart_observe h]
  refine (if_pos (by rw [observe_pins h]; exact ha)).trans ((if_pos ?_).trans ?_)
  · rw [observe_sdm h]
    exact ⟨hp, hs⟩
  · rw [← observe_pins h]
    rfl

end

/-! ## KEYS with an event among its symbols (R84, R190) -/

theorem symbolsOfBytes_some {p : List Byte} {xs : List Symbol} (h : p.map symbolOfByte = xs.map some) :
    symbolsOfBytes p = some xs := by
  induction p generalizing xs with
  | nil =>
    cases xs with
    | nil => rfl
    | cons x xs => cases h
  | cons b bs ih =>
    cases xs with
    | nil => cases h
    | cons x xs =>
      obtain ⟨hb, hbs⟩ := List.cons.inj h
      simp [symbolsOfBytes, hb, ih hbs]

/-- With no events between them, symbols leave the link as it was. -/
theorem takeSymbols_lnk (xs : List Symbol) (i : Nat) (s : State) : (takeSymbols i xs [] s).state.lnk = s.lnk := by
  induction xs generalizing i s with
  | nil => rfl
  | cons x xs ih =>
    have hx := takeSymbol_frame x s
    obtain ⟨-, -, -, -, -, -, -, hlnk, -⟩ := hx
    cases ht : takeSymbol x s with
    | mk r u =>
      rw [ht] at hlnk
      cases r with
      | none => simpa [takeSymbols, takeEvents, ht, ih] using hlnk
      | some r => simpa [takeSymbols, takeEvents, ht] using hlnk

theorem placeReply_lnk (k : Nat) (a : Answer) (s : State) :
    (placeReply k a s).lnk.state = .replyReady ∧ (placeReply k a s).lnk.holdTimer = some 2000 ∧
      (placeReply k a s).lnk.addressAcked = s.lnk.addressAcked ∧ (placeReply k a s).lnk.sent = s.lnk.sent ∧
      (placeReply k a s).lnk.bytesAcked = s.lnk.bytesAcked := by
  unfold placeReply
  split <;> exact ⟨rfl, rfl, rfl, rfl, rfl⟩

/-- A request of symbols with one event among them: what becomes of the symbols, and when the event comes (R84). -/
theorem exec_keys_event {m : Moment} {s : State} {p : List Byte} {xs : List Symbol} {i : Nat} (e : KeysEvent)
    (hL : Listening s) (hx : p.map symbolOfByte = xs.map some) (h26 : xs.length ≤ 26) (hi : i < xs.length) :
    ∃ l : Lnk, l.state = .working ∧
      let first := takeSymbols 0 (xs.take i) [] (afterFrame m s l)
      let rest := takeSymbols 0 (xs.drop i) [] (takeEvent first.state e)
      (first.refusal = none →
        exec (.keys m p [(i, e)]) s =
          .next (placeReply 0x0F (.ok (keysBytes (i + rest.taken) rest.refusal rest.state)) rest.state)) ∧
      (first.refusal ≠ none →
        exec (.keys m p [(i, e)]) s =
          .next (takeEvent
            (placeReply 0x0F (.ok (keysBytes first.taken first.refusal first.state)) first.state) e)) := by
  have hlen : p.length = xs.length := by simpa using congrArg List.length hx
  have ht : Request.keys.takes p.length = true := by
    simp only [Request.takes, Bool.and_eq_true, decide_eq_true_eq]
    omega
  obtain ⟨l0, hreq, -⟩ := request_reaches (handler := serveKeys [(i, e)]) (m := m) hL (by omega) ht (fun h => nomatch h.1)
  have hexec : exec (.keys m p [(i, e)]) s = .next (serveKeys [(i, e)] p (afterFrame m s l0)) := congrArg _ hreq
  refine ⟨{ l0 with state := .working, returnReady := false }, rfl, ?_⟩
  intro first rest
  obtain ⟨htaken, hrefused⟩ :=
    takeSymbols_one xs i 0 e (afterFrame m s { l0 with state := .working, returnReady := false }) hi
  rw [Nat.zero_add] at htaken hrefused
  have hserve (n : Nat) (r : Option SymbolRefusal) (u : State) (later : List (Nat × KeysEvent))
      (h : takeSymbols 0 xs [(i, e)] (enterWorking (afterFrame m s l0)) = ⟨n, r, u, later⟩) :
      serveKeys [(i, e)] p (afterFrame m s l0) = takeEvents later (placeReply 0x0F (.ok (keysBytes n r u)) u) := by
    simp only [serveKeys, keysTaken, symbolsOfBytes_some hx, h]
    rfl
  exact ⟨fun h => hexec.trans (congrArg _ (hserve _ _ _ _ (htaken h))),
    fun h => hexec.trans (congrArg _ (hserve _ _ _ _ (hrefused h)))⟩

/-- A bus transaction before the first symbol: the answer is placed over what it left of the link (R190). -/
theorem exec_keys_first {m : Moment} {s : State} {p : List Byte} {xs : List Symbol} (e : KeysEvent) (hL : Listening s)
    (hx : p.map symbolOfByte = xs.map some) (h1 : 1 ≤ xs.length) (h26 : xs.length ≤ 26) :
    ∃ l t, l.state = .working ∧ exec (.keys m p [(0, e)]) s = .next t ∧ t.lnk.state = .replyReady ∧
      t.lnk.holdTimer = some 2000 ∧ t.lnk.addressAcked = (takeEvent (afterFrame m s l) e).lnk.addressAcked ∧
      t.lnk.sent = (takeEvent (afterFrame m s l) e).lnk.sent ∧
      t.lnk.bytesAcked = (takeEvent (afterFrame m s l) e).lnk.bytesAcked := by
  obtain ⟨l, hl, hfirst, -⟩ := exec_keys_event (m := m) e hL hx h26 h1
  have hlnk := takeSymbols_lnk xs 0 (takeEvent (afterFrame m s l) e)
  obtain ⟨hstate, htimer, hacked, hsent, hbytes⟩ := placeReply_lnk 0x0F
    (.ok (keysBytes (0 + (takeSymbols 0 xs [] (takeEvent (afterFrame m s l) e)).taken)
      (takeSymbols 0 xs [] (takeEvent (afterFrame m s l) e)).refusal
      (takeSymbols 0 xs [] (takeEvent (afterFrame m s l) e)).state))
    (takeSymbols 0 xs [] (takeEvent (afterFrame m s l) e)).state
  rw [hlnk] at hacked hsent hbytes
  exact ⟨l, _, hl, hfirst rfl, hstate, htimer, hacked, hsent, hbytes⟩

/-- Settles O40, by the state in which a read finds the link, and by the order of the symbols and the event. -/
theorem readFetchesTheReply : Obligations.ReadFetchesTheReply := by
  refine ⟨fun m s a count duration => ?_, fun m m' s p xs count duration hL hx h1 h26 => ?_,
    fun m s p xs i e hL hx h26 hi => exec_keys_event e hL hx h26 hi, fun m s a count duration =>
      ⟨rfl, rfl, rfl, rfl, rfl, rfl, rfl⟩⟩
  · intro own before found paused sends gives
    refine ⟨fun h => congrArg _ (readTransaction_reset h), fun h => ⟨fun ha => congrArg _ (readTransaction_elsewhere h ha),
      fun ha hp => congrArg _ (readTransaction_notRun h ha hp), fun ha hp => ⟨fun hs => ?_, fun hs => ?_, fun hs => ?_⟩⟩⟩
    · exact congrArg _ (readTransaction_noReply h ha hp (.inl ⟨hs, rfl⟩))
    · exact congrArg _ (readTransaction_noReply h ha hp (.inr ⟨hs, rfl⟩))
    · intro read
      have hreads (u : State) (hu : readReply count
          { observe m 0 s with lnk := { linkFound m s with holdTimer := paused } } = u) :
          exec (.readTransaction m a count duration) s = .next u :=
        congrArg _ ((readTransaction_reply h ha hp hs).trans hu)
      have hslot := linkFound_slot (m := m) h
      have hremainder := linkFound_remainder (m := m) h
      have hsent : bytesSent (linkFound m s).slot count = sends s.lnk.slot := congrArg (bytesSent · count) hslot
      have hread : linkRead count { linkFound m s with holdTimer := paused } =
          { read with holdTimer := paused, readPos := (linkFound m s).readPos } :=
        congrArg (fun b => { linkFound m s with holdTimer := paused, addressAcked := true, sent := b }) hsent
      refine ⟨fun hc => hreads _ ?_, fun hc hr => hreads _ ?_, fun hc hr => hreads _ ?_⟩
      · rw [readReply_part (by rw [hslot]; exact hc), hread]
        rfl
      · rw [readReply_last (by rw [hslot]; exact hc) (hremainder.trans hr), hread]
        rfl
      · rw [readReply_first (by rw [hslot]; exact hc) (by rw [hremainder]; exact hr), hread, secondFrame, hslot, hremainder]
        rfl
  · intro own comes
    have hworking (l : Lnk) (hl : l.state = .working) : resetHeld (afterFrame m s l) = false ∧
        (linkFound m' (afterFrame m s l)).state = .working ∧ (afterFrame m s l).sdm.power = .run := by
      have hr : resetHeld (afterFrame m s l) = false :=
        resetHeld_working (.inl (by rw [afterFrame_listening m l hL]; exact hL.1))
      have hl' : (afterFrame m s l).lnk.state = .working := hl
      refine ⟨hr, ?_, by rw [afterFrame_listening m l hL]; exact hL.1⟩
      rw [linkFound_other (by rw [hl']; decide), observe_lnk hr]
      exact hl
    refine ⟨?_, ?_⟩
    · obtain ⟨l, t, hl, ht, hstate, htimer, hacked, hsent, -⟩ :=
        exec_keys_first (m := m) (.readTransaction m' own count duration) hL hx h1 h26
      obtain ⟨hr, hw, hp⟩ := hworking l hl
      have hread : takeEvent (afterFrame m s l) (.readTransaction m' own count duration) = _ :=
        readTransaction_noReply hr rfl hp (.inr ⟨hw, rfl⟩)
      rw [hread] at hacked hsent
      exact ⟨t, ht, hstate, htimer, hacked, hsent⟩
    · obtain ⟨l, t, hl, ht, hstate, htimer, hacked, hsent, hbytes⟩ :=
        exec_keys_first (m := m) (.writeAddressed m' own) hL hx h1 h26
      obtain ⟨hr, hw, hp⟩ := hworking l hl
      have hwrite : takeEvent (afterFrame m s l) (.writeAddressed m' own) = _ :=
        writeAddressed_refused hr rfl (by rw [hw]; exact fun h => nomatch h.2)
      rw [hwrite] at hacked hsent hbytes
      exact ⟨t, ht, hstate, htimer, hacked, hbytes, hsent⟩

end Sys2Proof.Machine
end

