-- ==== Sys2Proof/Proofs/WrittenFrames.lean ====
section
/-! The writes addressed to the part and the frames that they carry (R186, R187, R194), and a decode that ends among the
symbols of KEYS (R84). -/

namespace Sys2Proof.Machine

/-! ## A frame written byte by byte (R187) -/

/-- A request depends on what its handler makes of its own payload. -/
theorem request_congr {r : Request} {h1 h2 : Handler} {p : List Byte} (h : h1 p = h2 p) (s : State) :
    request r h1 p s = request r h2 p s := by
  simp only [request, handRequest, h]

/-- The item byte of a COMMISSION_WRITE finds the item's owner (R194). -/
theorem item_owned {c : Instr} {item : Nat} {owner : Owner} {m : Moment} {v : List Byte}
    (hx : ItemRow c item owner m v) (ho : ownerOfItem (argumentOf (BitVec.ofNat 8 item :: v)) = some owner) (s : State) :
    exec c s = .next (request .commissionWrite (serve .commissionWrite (ownerOf .commissionWrite))
      (BitVec.ofNat 8 item :: v) (observe m 0 s)) := by
  refine (hx s).trans (congrArg _ (request_congr (funext fun u => ?_) _))
  have howner : commissionWriteOwner (BitVec.ofNat 8 item :: v) (enterWorking u) = owner v (enterWorking u) := by
    simp only [commissionWriteOwner, ho]
    rfl
  simp only [serve, ownerOf, howner, List.tail_cons]

/-- The command of a frame hands it to the owner of its kind. -/
theorem exec_request_owned {c : Instr} {m : Moment} {r : Request} {p : List Byte} (h : requestOf c = some (m, r, p))
    (hk : ∀ q between, c = .keys m q between → between = []) (s : State) :
    exec c s = .next (request r (serve r (ownerOf r)) p (observe m 0 s)) := by
  unfold requestOf at h
  split at h <;> cases h
  case h_1 =>
    obtain rfl := hk _ _ rfl
    exact exec_keys _ _ _
  case h_19 | h_20 | h_21 | h_22 | h_23 | h_24 | h_25 | h_26 | h_27 | h_28 | h_29 | h_30 | h_31 =>
    exact item_owned (fun _ => rfl) rfl s
  all_goals rfl

/-- A whole good frame, in whatever state it finds the part, is the request that it spells (R187, R188). -/
theorem exec_frameError_request (r : Request) {m : Moment} {p : List Byte} (hp : p.length ≤ 37) (s : State) :
    exec (.frameError m (requestFrame r.kind p)) s = .next (request r (serve r (ownerOf r)) p (observe m 0 s)) := by
  by_cases hst : (observe m 0 s).lnk.state = .receiving
  · have hlen : p.length + 3 ≤ Config.maxRequest := by unfold Config.maxRequest; omega
    rw [requestFrame_cons, exec_frameError hst, ← requestFrame_cons, storedOf_requestFrame hp, checkFrame_request r hp,
      request, if_pos hst, if_pos hlen]
  · rw [request, if_neg hst]
    exact if_neg hst

/-! ## Items of the wrong length, and of no number (R194) -/

theorem itemOf_length {n : Nat} {owner : Owner} {v : List Byte} (h : v.length ≠ n) (s : State) :
    itemOf n owner v s = refuseArgument s := if_neg h

/-- The lengths of the items, from item 1 on (table of R194). -/
def itemLengths : List Nat := [12, 16, 20, 3, 1, 1, 2, 1, 9, 6, 9, 5, 4]

/-- A value that is not its item's length is refused (R194). -/
theorem item_wrongLength {c : Instr} {m : Moment} {item : Byte} {v : List Byte} {s : State} (hL : Listening s)
    (hl : s.ots.lock = false) (h1 : 1 ≤ v.length) (h20 : v.length ≤ 20)
    (hc : requestOf c = some (m, .commissionWrite, item :: v))
    (hlen : itemLengths[item.toNat - 1]? ≠ some v.length) : AnswersOnly c m s 0x13 .argument [] := by
  have refused {n k : Nat} {c : Instr} {o : Owner} (hx : ItemRow c n (itemOf k o) m v) (hk : some k ≠ some v.length) :
      AnswersOnly c m s 0x13 .argument [] :=
    item_refused hx hL hl h1 h20 fun _ => itemOf_length (fun h => hk (congrArg some h.symm)) _
  unfold requestOf at hc
  split at hc <;> cases hc
  all_goals exact refused (fun _ => rfl) hlen

/-- An item number of no item is refused (R194). -/
theorem frame_unknownItem {m : Moment} {item : Byte} {v : List Byte} {s : State} (hL : Listening s)
    (hl : s.ots.lock = false) (h1 : 1 ≤ v.length) (h20 : v.length ≤ 20) (hi : item.toNat = 0 ∨ 13 < item.toNat) :
    AnswersOnly (.frameError m (requestFrame 0x13 (item :: v))) m s 0x13 .argument [] := by
  have hp : (item :: v).length ≤ 37 := by rw [List.length_cons]; omega
  have hnone : ownerOfItem (argumentOf (item :: v)) = none := by
    show ownerOfItem item.toNat = none
    generalize item.toNat = n at hi
    unfold ownerOfItem
    split
    case h_14 => rfl
    all_goals omega
  refine answersOnly_of_owner (r := .commissionWrite) (a := .bare .argument)
    (exec_frameError_request .commissionWrite hp s) hL hp ?_ (by simp [hl]) (fun l => ?_)
  · simp only [Request.takes, List.length_cons, Bool.and_eq_true, decide_eq_true_eq]
    omega
  · show commissionWriteOwner _ _ = _
    simp only [commissionWriteOwner, hnone]
    rfl

/-! ## A decode that ends among the symbols of KEYS (R84) -/

theorem takeSymbols_refused {x : Symbol} {s : State} {r : SymbolRefusal} (xs : List Symbol) (i : Nat)
    (h : symbolRefusal s = some r) : takeSymbols i (x :: xs) [] s = ⟨0, some r, s, []⟩ := by
  simp only [takeSymbols, takeEvents, List.takeWhile_nil, List.dropWhile_nil, List.foldl_nil, takeSymbol_refused h]

section
variable {m m' : Moment} {s : State} {d : Fin 10}

/-- The bytes of a digit and of two, as symbols. -/
theorem key_symbols (d : Fin 10) :
    [BitVec.ofNat 8 (0x30 + d.val)].map symbolOfByte = [Symbol.digit d].map some ∧
      [BitVec.ofNat 8 (0x30 + d.val), BitVec.ofNat 8 (0x30 + d.val)].map symbolOfByte =
        [Symbol.digit d, .digit d].map some := by
  simp only [List.map_cons, List.map_nil, symbolOfByte_digit, and_self]

/-- The part after a decode that no slot matched, before the fifth in a row (R87). -/
def failedOnce (m : Moment) (s : State) : State :=
  { observe m 0 s with
    cda :=
      { s.cda with
        acceptor := .idle
        buffer := []
        entryTimer := none
        streak := s.cda.streak + 1
        lastResult := some ⟨.checkFailed, none, s.tcu.clock, some (.failure (s.cda.streak + 1) 0)⟩
        resultNumber := if s.cda.resultNumber < 255 then s.cda.resultNumber + 1 else 1 }
    rpu := { s.rpu with notices := s.rpu.notices ||| 4 } }

/-- A decode under way that no slot will match comes to its end in the second of two moments. -/
def DecodeFails (m m' : Moment) (s : State) : Prop :=
  s.cda.acceptor = .decoding ∧ (trySlots (bufferCode s) (enabledSlots s)).1 = none ∧
    s.cda.decodeSince + 10 * (enabledSlots s).length ≤ s.now + m.elapsed + m'.elapsed

theorem decodeEnd_failedOnce (l : Lnk) (hL : Listening s) (hd : DecodeFails m m' s) (hs : s.cda.streak + 1 < 5) :
    takeEvent (afterFrame m s l) (.decodeEnd m') = failedOnce m' (afterFrame m s l) := by
  obtain ⟨ha, ht, he⟩ := hd
  obtain ⟨hfailed, -⟩ := failedDecodes
  refine Host.Outcome.next.inj ((hfailed m' (afterFrame m s l) ?_ ?_ ?_ ?_ ?_ : _ = _))
  all_goals rw [afterFrame_listening m l hL]
  exacts [.inl hL.1, ha, ht, he, hs]

/-- With the fifth failure the lockout begins (R88). -/
theorem decodeEnd_lockout (l : Lnk) (hL : Listening s) (hd : DecodeFails m m' s) (hs : s.cda.streak = 4) :
    let u := takeEvent (afterFrame m s l) (.decodeEnd m')
    u.cda.lockoutLeft = lockoutLength s.cda.lockoutsToday ∧ u.cda.buffer = [] ∧ u.cda.acceptor = .lockout ∧
      u.acu = s.acu ∧ u.ots = s.ots ∧ u.sdm = s.sdm ∧ u.pending = s.pending := by
  obtain ⟨ha, ht, he⟩ := hd
  obtain ⟨-, hfifth⟩ := failedDecodes
  have hf := afterFrame_listening m l hL
  obtain ⟨t, hx, hleft, -, -, hbuffer, hacceptor, -, -, -, -, -, hacu, -, hots, hsdm, -, hpending⟩ :=
    hfifth m' (afterFrame m s l) (by rw [hf]; exact .inl hL.1) (by rw [hf]; exact ha) (by rw [hf]; exact ht)
      (by rw [hf]; exact he) (by rw [hf]; exact hs)
  intro u
  obtain rfl : u = t := Host.Outcome.next.inj hx
  rw [hf] at hleft hacu hots hsdm hpending
  exact ⟨hleft, hbuffer, hacceptor, hacu, hots, hsdm, hpending⟩

/-- A digit with an event before it. -/
theorem exec_keys_digit (e : KeysEvent) (d : Fin 10) (hL : Listening s) :
    ∃ l, ∀ n r u, takeSymbols 0 [.digit d] [] (takeEvent (afterFrame m s l) e) = ⟨n, r, u, []⟩ →
      ∃ l', exec (.keys m [BitVec.ofNat 8 (0x30 + d.val)] [(0, e)]) s = .next { u with lnk := l' } ∧
        Answered 0x0F .ok (keysBytes n r u) l' := by
  obtain ⟨l, -, hexec, -⟩ := exec_keys_event (m := m) e hL (key_symbols d).1 (by simp) Nat.zero_lt_one
  refine ⟨l, fun n r u h => ?_⟩
  have hx := hexec rfl
  have hu : takeSymbols 0 (List.drop 0 [Symbol.digit d]) []
      (takeEvent (takeSymbols 0 (List.take 0 [.digit d]) [] (afterFrame m s l)).state e) = ⟨n, r, u, []⟩ := h
  rw [hu, Nat.zero_add] at hx
  obtain ⟨l', hplace, hanswer⟩ := placeReply_answered 0x0F (.ok (keysBytes n r u)) u
  exact ⟨l', hx.trans (congrArg _ hplace), hanswer⟩

/-- The digit after the decode's end is the first of a new entry (R78, R84). -/
theorem keys_afterFailure (hL : Listening s) (hl : s.ots.lock = true) (hd : DecodeFails m m' s)
    (hs : s.cda.streak + 1 < 5) :
    ∃ l l', exec (.keys m [BitVec.ofNat 8 (0x30 + d.val)] [(0, .decodeEnd m')]) s =
        .next { digitsTaken [d] (failedOnce m' (afterFrame m s l)) with lnk := l' } ∧
      Answered 0x0F .ok ([1, 0, 1, 1] ++ bytesOfNat 2 s.cda.lockoutLeft) l' := by
  obtain ⟨l, hexec⟩ := exec_keys_digit (m := m) (.decodeEnd m') d hL
  have hf := afterFrame_listening m l hL
  have hu : observe m' 0 (afterFrame m s l) = _ := observe_working m' (.inl (by rw [hf]; exact hL.1))
  have htaken : takeSymbols 0 [.digit d] [] (takeEvent (afterFrame m s l) (.decodeEnd m')) =
      ⟨1, none, digitsTaken [d] (failedOnce m' (afterFrame m s l)), []⟩ := by
    rw [decodeEnd_failedOnce l hL hd hs]
    refine takeSymbols_digits [d] 0 ?_ (.inl rfl) ?_ (by simp [failedOnce])
    all_goals rw [failedOnce, hu, hf]
    exacts [hl, hL.1]
  have hbytes : keysBytes 1 none (digitsTaken [d] (failedOnce m' (afterFrame m s l))) =
      [1, 0, 1, 1] ++ bytesOfNat 2 s.cda.lockoutLeft := by
    rw [keysBytes_eq, digitsTaken, if_neg (by simp), failedOnce, hf]
    rfl
  obtain ⟨l', hx, hanswer⟩ := hexec _ _ _ htaken
  rw [hbytes] at hanswer
  exact ⟨l, l', hx, hanswer⟩

/-- A digit that meets the decode is refused, and the decode ends after the answer (R77, R84). -/
theorem keys_beforeFailure (hL : Listening s) (hl : s.ots.lock = true) (hd : DecodeFails m m' s)
    (hs : s.cda.streak + 1 < 5) :
    ∃ l, exec (.keys m [BitVec.ofNat 8 (0x30 + d.val), BitVec.ofNat 8 (0x30 + d.val)] [(1, .decodeEnd m')]) s =
        .next (failedOnce m' (afterFrame m s l)) ∧
      Answered 0x0F .ok ([0, 4, 2, BitVec.ofNat 8 s.cda.buffer.length] ++ bytesOfNat 2 s.cda.lockoutLeft) l := by
  obtain ⟨l, -, -, hexec⟩ := exec_keys_event (m := m) (.decodeEnd m') hL (key_symbols d).2 (by simp) (Nat.lt_succ_self 1)
  have hbusy : symbolRefusal (afterFrame m s l) = some .busy := by
    rw [symbolRefusal_afterFrame m l hL]
    simp [symbolRefusal, hl, hd.1]
  have hrefused : takeSymbols 0 (List.take 1 [Symbol.digit d, .digit d]) [] (afterFrame m s l) =
      ⟨0, some .busy, afterFrame m s l, []⟩ := takeSymbols_refused [] 0 hbusy
  rw [hrefused] at hexec
  obtain ⟨l', hplace, hanswer⟩ := placeReply_answered 0x0F
    (.ok (keysBytes 0 (some .busy) (afterFrame m s l))) (afterFrame m s l)
  refine ⟨l', (hexec (by simp)).trans (congrArg _ ?_), ?_⟩
  · rw [hplace]
    exact decodeEnd_failedOnce l' hL hd hs
  · have hbytes : keysBytes 0 (some .busy) (afterFrame m s l) =
        [0, 4, 2, BitVec.ofNat 8 s.cda.buffer.length] ++ bytesOfNat 2 s.cda.lockoutLeft := by
      rw [keysBytes_eq, afterFrame_listening m l hL]
      simp [refusalCode, hd.1, AcceptorState.code]
    rwa [hbytes] at hanswer

/-- The digit after the fifth failure meets the lockout (R77, R88). -/
theorem keys_afterLockout (hL : Listening s) (hl : s.ots.lock = true) (hd : DecodeFails m m' s)
    (hs : s.cda.streak = 4) :
    ∃ t, exec (.keys m [BitVec.ofNat 8 (0x30 + d.val)] [(0, .decodeEnd m')]) s = .next t ∧
      Answered 0x0F .ok ([0, 3, 3, 0] ++ bytesOfNat 2 (lockoutLength s.cda.lockoutsToday)) t.lnk ∧
      t.cda.acceptor = .lockout ∧ t.cda.lockoutLeft = lockoutLength s.cda.lockoutsToday ∧ t.cda.buffer = [] ∧
      t.acu = s.acu ∧ t.ots = s.ots ∧ t.sdm = s.sdm ∧ t.pending = s.pending := by
  obtain ⟨l, hexec⟩ := exec_keys_digit (m := m) (.decodeEnd m') d hL
  obtain ⟨hleft, hbuffer, hacceptor, hacu, hots, hsdm, hpending⟩ := decodeEnd_lockout l hL hd hs
  have hlocked : symbolRefusal (takeEvent (afterFrame m s l) (.decodeEnd m')) = some .lockedOut := by
    rw [symbolRefusal, hots, hl, hacceptor]
    rfl
  obtain ⟨l', hx, hanswer⟩ := hexec _ _ _ (takeSymbols_refused [] 0 hlocked)
  rw [keysBytes_eq, hleft, hbuffer, hacceptor] at hanswer
  exact ⟨_, hx, hanswer, hacceptor, hleft, hbuffer, hacu, hots, hsdm, hpending⟩

end

/-! ## The obligation -/

/-- Settles O38, by the state in which a write finds the link, by the checks on its frame, and by the order of the
symbols and the decode. -/
theorem writesAndTheirFrames : Obligations.WritesAndTheirFrames := by
  refine ⟨fun m s a h => ?_, fun c m r p s hc hk hp => ?_, fun c m item v s hL hl h1 h20 =>
      ⟨item_wrongLength hL hl h1 h20, frame_unknownItem hL hl h1 h20⟩,
    fun m s b bs hp hs => exec_frameError_faulty (.inr hp) hs, fun m m' s d hL hl ha ht he => ?_⟩
  · intro own before ended low refused taken gives
    have hother (hs : s.lnk.state ≠ .receiving) : linkFound m s = before := linkFound_other hs
    have hended (hs : s.lnk.state = .receiving) : linkFound m s = ended := linkFound_receiving hs
    have hstate (hs : s.lnk.state ≠ .receiving) : (linkFound m s).state = s.lnk.state := by
      rw [linkFound_other hs, observe_lnk h]
    have hready (hs : s.lnk.state = .receiving) :
        (linkFound m s).state = if s.lnk.returnReady then .replyReady else .idle := by rw [hended hs]
    refine ⟨fun ha hp => ⟨fun hs => ?_, fun hs => ?_, fun hs => ?_, fun hs => ?_⟩, fun ha hp => ⟨fun hs => ?_, fun hs => ?_⟩,
      fun ha => ⟨fun hs => ?_, fun hs => ?_⟩, fun count hp hs hready' ha => ?_⟩
    · have hne : s.lnk.state ≠ .receiving := by rw [hs]; decide
      have hx := writeAddressed_taken (m := m) h ha hp (.inl ((hstate hne).trans hs))
      rw [hstate hne, hs, hother hne] at hx
      exact congrArg _ hx
    · have hne : s.lnk.state ≠ .receiving := by rw [hs]; decide
      have hx := writeAddressed_taken (m := m) h ha hp (.inr ((hstate hne).trans hs))
      rw [hstate hne, hs, hother hne] at hx
      exact congrArg _ hx
    · have hne : s.lnk.state ≠ .receiving := by rw [hs]; decide
      have hx := writeAddressed_refused (m := m) h ha (by rw [hstate hne, hs]; exact fun hx => by simp at hx)
      rw [hother hne] at hx
      exact congrArg _ hx
    · have hx := writeAddressed_taken (m := m) h ha hp (by rw [hready hs]; cases s.lnk.returnReady <;> simp)
      have hr : ((linkFound m s).state == .replyReady) = s.lnk.returnReady := by
        rw [hready hs]
        cases s.lnk.returnReady <;> rfl
      rw [hr, hended hs] at hx
      exact congrArg _ hx
    · have hx := writeAddressed_refused (m := m) h ha (fun hx => hp hx.1)
      rw [hother hs] at hx
      exact congrArg _ hx
    · have hx := writeAddressed_refused (m := m) h ha (fun hx => hp hx.1)
      rw [hended hs] at hx
      exact congrArg _ hx
    · have hx := writeAddressed_elsewhere (m := m) h ha
      rw [hother hs] at hx
      exact congrArg _ hx
    · have hx := writeAddressed_elsewhere (m := m) h ha
      rw [hended hs] at hx
      exact congrArg _ hx
    · have hidle : (linkFound m s).state = .idle := by rw [hready hs, hready']; rfl
      have hx := readTransaction_noReply (count := count) (duration := 0) h ha hp (.inl ⟨hidle, rfl⟩)
      rw [hended hs] at hx
      exact congrArg _ hx
  · rw [exec_frameError_request r hp, exec_request_owned hc hk]
  · intro key left
    have hd : DecodeFails m m' s := ⟨ha, ht, he⟩
    refine ⟨fun hs => ⟨?_, ?_⟩, fun hs => ?_⟩
    · obtain ⟨l, l', hx, hanswer⟩ := keys_afterFailure (d := d) hL hl hd hs
      have hf := afterFrame_listening m l hL
      have hu : observe m' 0 (afterFrame m s l) = _ := observe_working m' (.inl (by rw [hf]; exact hL.1))
      refine ⟨_, hx, hanswer, ?_⟩
      rw [digitsTaken, if_neg (by simp), failedOnce, hu, hf]
      exact ⟨rfl, rfl, rfl, rfl, rfl, rfl, rfl, rfl, rfl, rfl, rfl, rfl⟩
    · obtain ⟨l, hx, hanswer⟩ := keys_beforeFailure (d := d) hL hl hd hs
      have hf := afterFrame_listening m l hL
      have hu : observe m' 0 (afterFrame m s l) = _ := observe_working m' (.inl (by rw [hf]; exact hL.1))
      obtain ⟨hstate, -, -, htimer, hslot, -⟩ := hanswer
      refine ⟨_, hx, ?_⟩
      rw [failedOnce, hu, hf]
      refine ⟨hslot, hstate, ?_, rfl, rfl, rfl, rfl, rfl, rfl, rfl, rfl⟩
      exact congrArg (Option.map (· - m'.elapsed)) htimer
    · intro len
      obtain ⟨t, hx, hanswer, hacceptor, hleft, hbuffer, hrest⟩ := keys_afterLockout (d := d) hL hl hd hs
      exact ⟨t, hx, hanswer, hacceptor, hleft, hbuffer, hrest⟩

end Sys2Proof.Machine
end

