-- ==== Sys2Proof/Proofs/EffectsKept.lean ====
section
/-! What the effects of the code classes leave as it was (R94): the meter, the latches and the actions of the Tamper
Monitor, the account, the log, and the key slots. -/

namespace Sys2Proof.Machine

/-! ## The claims and the clock -/

/-- The claim that DEBT and ACCOUNT_SETTING make (R28, R34 to R39). -/
def claimOfCode (f : Fields) : Account → Account :=
  if f.cls = 1 then Account.charge (f.value * Config.hundredth)
  else if f.selector = 0 then Account.setLimit f.value
  else if f.selector = 1 then fun a => { a with threshold := f.value }
  else fun a => { a with cap := f.value }

theorem applyEffect_claims {i : Slot} {f : Fields} (h : f.cls = 1 ∨ f.cls = 2) (s : State) :
    applyEffect i f s = (claim (claimOfCode f) s, none) := by
  rcases h with h | h
  · simp only [applyEffect, h, claimOfCode, if_true, effectDebt]
  · simp only [applyEffect, h, claimOfCode, effectSetting]
    split
    case h_1 hs => rw [hs]; rfl
    case h_2 hs => rw [hs]; rfl
    case h_3 h0 h1 => rw [if_neg (by decide), if_neg h0, if_neg h1]

theorem changeClock_meter (c : Nat) (s : State) :
    ({ s.piu with demand := .waiting } : Piu).SameMeter (changeClock c s).piu :=
  .trans (deliverDue_meter (discardDemand (s.setTcu { s.tcu with clock := c })))
    (evaluateFriendly_meter (deliverDue (discardDemand (s.setTcu { s.tcu with clock := c }))))

theorem changeClock_latches (c : Nat) (s : State) : s.tmp.SameLatches (changeClock c s).tmp :=
  .trans (deliverDue_latches (discardDemand (s.setTcu { s.tcu with clock := c })))
    (evaluateFriendly_latches (deliverDue (discardDemand (s.setTcu { s.tcu with clock := c }))))

theorem validateClock_meter (c : Nat) (s : State) :
    ({ s.piu with demand := .waiting } : Piu).SameMeter (validateClock c s).piu :=
  evaluateFriendly_meter (discardDemand (s.setTcu _))

theorem validateClock_latches (c : Nat) (s : State) : s.tmp.SameLatches (validateClock c s).tmp :=
  evaluateFriendly_latches (discardDemand (s.setTcu _))

/-- A change of the clock, valid or not, leaves the Pulse Input Unit but for the demand window and the stall (R15). -/
theorem effectTimeSet_meter (f : Fields) (s : State) :
    (effectTimeSet f s).piu = s.piu ∨ ({ s.piu with demand := .waiting } : Piu).SameMeter (effectTimeSet f s).piu := by
  unfold effectTimeSet
  dsimp only
  split
  · split
    exacts [.inl rfl, .inr (changeClock_meter _ s)]
  · exact .inr (validateClock_meter _ s)

/-- A change of the clock moves no latch of a tamper condition but as a switch that it moves does (R12, R144). -/
theorem effectTimeSet_latches (f : Fields) (s : State) : s.tmp.SameLatches (effectTimeSet f s).tmp := by
  unfold effectTimeSet
  dsimp only
  split
  · split
    exacts [.refl _, changeClock_latches _ s]
  · exact validateClock_latches _ s

/-! ## SUPPLY_ORDER -/

theorem evaluateCredit_latches (s : State) : s.tmp.SameLatches (evaluateCredit s).tmp := by
  unfold evaluateCredit
  split
  exacts [changeEntry_latches _ _ _, changeEntry_latches _ _ _, .refl _]

theorem effectOrder_meter (f : Fields) (s : State) : s.piu.SameMeter (effectOrder f s).piu := by
  unfold effectOrder orderRelease orderHoldOpen orderOverride orderCancel orderRetry
  split
  · exact changeEntry_meter _ _ _
  · split
    exacts [.refl _, changeEntry_meter _ _ _]
  · exact evaluateCredit_meter (s.setTcu _)
  · exact evaluateCredit_meter (s.setTcu _)
  · split
    exacts [beginOperation_meter _ _, .refl _]

theorem effectOrder_latches (f : Fields) (s : State) : s.tmp.SameLatches (effectOrder f s).tmp := by
  unfold effectOrder orderRelease orderHoldOpen orderOverride orderCancel orderRetry
  split
  · exact changeEntry_latches _ _ _
  · split
    exacts [.refl _, changeEntry_latches _ _ _]
  · exact evaluateCredit_latches (s.setTcu _)
  · exact evaluateCredit_latches (s.setTcu _)
  · split
    exacts [beginOperation_latches _ _, .refl _]

/-! ## The classes together -/

theorem effectClear_meter (i : Slot) (f : Fields) (s : State) : s.piu.SameMeter (effectClear i f s).1.piu := by
  unfold effectClear
  dsimp only
  have h := evaluateTamper_meter ((namedKinds f.value).foldl (fun s k => clearKind ⟨i, f.seq⟩ k s) s)
  rw [(clearKinds_frame ⟨i, f.seq⟩ (namedKinds f.value) s).2.2.2.2.2.1] at h
  split
  · exact h
  · simpa using h

theorem effectAction_meter (f : Fields) (s : State) : s.piu.SameMeter (effectAction f s).piu := by
  unfold effectAction
  split
  exacts [evaluateTamper_meter (s.setTmp _), .refl _]

theorem effectCalendar_meter (f : Fields) (s : State) : s.piu.SameMeter (effectCalendar f s).piu := by
  unfold effectCalendar
  split
  exacts [evaluateFriendly_meter (s.setTcu _), .refl _]

theorem effectReinstate_meter (f : Fields) (s : State) : s.piu.SameMeter (effectReinstate f s).piu := by
  unfold effectReinstate
  dsimp only
  split
  · exact .of_eq (by simp)
  · simpa using hand_meter .rl false none (append .reinstated none none (some ⟨.slot0, f.seq⟩)
      (s.setCda { s.cda with window0 := windowReinstate f.value f.seq, reinstate := false }))

/-- No effect but that of TIME_SET reaches the meter. -/
theorem applyEffect_meter {i : Slot} {f : Fields} {s : State} (h : f.cls ≠ 11) :
    s.piu.SameMeter (applyEffect i f s).1.piu := by
  unfold applyEffect
  split
  case h_1 => exact claim_meter _ _
  case h_2 => exact claim_meter _ _
  case h_3 => unfold effectSetting; split <;> exact claim_meter _ _
  case h_8 => exact effectCalendar_meter f s
  case h_9 => exact effectClear_meter i f s
  case h_10 => exact effectAction_meter f s
  case h_11 => exact effectOrder_meter f s
  case h_12 h11 => exact absurd h11 h
  case h_14 => exact effectReinstate_meter f s
  all_goals exact .of_eq (by simp)

/-- What no code touches of the Pulse Input Unit. -/
theorem applyEffect_counters (i : Slot) (f : Fields) (s : State) :
    let x := (applyEffect i f s).1.piu
    x.imports = s.piu.imports ∧ x.exports = s.piu.exports ∧ x.billedWh = s.piu.billedWh ∧ x.residue = s.piu.residue ∧
      x.weight = s.piu.weight ∧ x.absolute = s.piu.absolute ∧ x.stallTime = s.piu.stallTime ∧
      x.reverseFlag = s.piu.reverseFlag := by
  have hmeter : (∃ d, ({ s.piu with demand := d } : Piu).SameMeter (applyEffect i f s).1.piu) := by
    by_cases h : f.cls = 11
    · simp only [applyEffect, h]
      rcases effectTimeSet_meter f s with h | h
      exacts [⟨s.piu.demand, .of_eq h⟩, ⟨_, h⟩]
    · exact ⟨s.piu.demand, applyEffect_meter h⟩
  obtain ⟨d, h⟩ := hmeter
  obtain ⟨h1, h2, h3, h4, h5, h6, h7, h8, -⟩ := h.fields
  exact ⟨h1, h2, h3, h4, h5, h6, h7, h8⟩

section
variable {i : Slot} {f : Fields} {s : State}

theorem applyEffect_acu (h1 : 1 < f.cls) (h2 : f.cls ≠ 2) (h11 : f.cls ≠ 11) : (applyEffect i f s).1.acu = s.acu := by
  unfold applyEffect
  split
  case h_1 h | h_2 h | h_3 h | h_12 h => omega
  all_goals simp

theorem applyEffect_elg (h8 : f.cls ≠ 8) (h13 : f.cls ≠ 13) : (applyEffect i f s).1.elg = s.elg := by
  unfold applyEffect
  split
  case h_9 h | h_14 h => omega
  all_goals simp

theorem applyEffect_tcu (h : f.cls < 4 ∨ f.cls = 8 ∨ f.cls = 9 ∨ f.cls = 12 ∨ f.cls = 13) :
    (applyEffect i f s).1.tcu = s.tcu := by
  unfold applyEffect
  split
  case h_5 h' | h_6 h' | h_7 h' | h_8 h' | h_11 h' | h_12 h' => omega
  all_goals simp

theorem applyEffect_swc (h : f.cls = 4 ∨ f.cls = 5 ∨ f.cls = 6 ∨ f.cls = 12) : (applyEffect i f s).1.swc = s.swc := by
  rcases h with h | h | h | h <;> simp [applyEffect, h]

theorem applyEffect_tmp (h3 : 3 ≤ f.cls) (h : f.cls ≤ 6 ∨ f.cls = 12) : (applyEffect i f s).1.tmp = s.tmp := by
  unfold applyEffect
  split
  case h_1 h' | h_2 h' | h_3 h' | h_8 h' | h_9 h' | h_10 h' | h_11 h' | h_12 h' | h_14 h' => omega
  all_goals simp

/-- Beside TAMPER_CLEAR, TAMPER_ACTION and REINSTATE a code moves no latch but as a switch that it moves does. -/
theorem applyEffect_sameLatches (h8 : f.cls ≠ 8) (h9 : f.cls ≠ 9) (h13 : f.cls ≠ 13) :
    s.tmp.SameLatches (applyEffect i f s).1.tmp := by
  unfold applyEffect
  split
  case h_1 => exact claim_latches _ _
  case h_2 => exact claim_latches _ _
  case h_3 => unfold effectSetting; split <;> exact claim_latches _ _
  case h_8 =>
    unfold effectCalendar
    split
    exacts [evaluateFriendly_latches (s.setTcu _), .refl _]
  case h_9 h => exact absurd h h8
  case h_10 h => exact absurd h h9
  case h_11 => exact effectOrder_latches f s
  case h_12 => exact effectTimeSet_latches f s
  case h_14 h => exact absurd h h13
  all_goals exact .of_eq (by simp)

end

end Sys2Proof.Machine
end

