-- ==== Sys2Proof/Proofs/TamperClears.lean ====
section
/-! TAMPER_CLEAR (R154, R155, R169): the kinds cleared and refused, one after the other, their records, and the bits of the
detail. -/

namespace Sys2Proof.Machine

/-! ## Sets of kinds -/

theorem mem_kindList (k : Kind) : k ∈ kindList := by cases k <;> decide

theorem nodup_kindList : kindList.Nodup := by decide

theorem kindNumber_inj {j k : Kind} : kindNumber j = kindNumber k ↔ j = k :=
  ⟨fun h => Option.some.inj ((kindOfNumber_eq h).symm.trans (kindOfNumber_eq rfl)), congrArg _⟩

theorem kindNumber_lt (k : Kind) : kindNumber k < 9 := by cases k <;> decide

/-- The bits of a set are its numbers (R198). -/
theorem setOfNumbers_bit {w n : Nat} (ks : List Nat) (h : n < w) : (setOfNumbers w ks).getLsbD n = decide (n ∈ ks) := by
  have hfold (acc : BitVec w) : (ks.foldl (fun acc k => acc ||| BitVec.ofNat w (2 ^ k)) acc).getLsbD n =
      (acc.getLsbD n || decide (n ∈ ks)) := by
    induction ks generalizing acc with
    | nil => simp
    | cons k ks ih =>
      rw [List.foldl_cons, ih, BitVec.getLsbD_or, BitVec.getLsbD_ofNat, Nat.testBit_two_pow]
      simp only [h, decide_true, Bool.true_and, Bool.or_assoc, List.mem_cons, Bool.decide_or, eq_comm (a := k)]
  rw [setOfNumbers, hfold]
  simp

theorem setOfKinds_bit (p : Kind → Bool) (k : Kind) :
    (setOfNumbers 9 ((kindList.filter p).map kindNumber)).getLsbD (kindNumber k) = p k := by
  rw [setOfNumbers_bit _ (kindNumber_lt k)]
  simp [kindNumber_inj, mem_kindList]

/-! ## One kind cleared -/

/-- Whether a clear of a kind would clear it (R155). -/
def clears (s : State) (k : Kind) : Bool := (s.tmp.latches.get k).set.isSome && !clearRefused k s

/-- The log after a kind is cleared in the state `s`: its TAMPER_CLEARED record, and the release of its TAMPER_SET record
(R155, R169). -/
def clearedLog (s : State) (code : RecordCode) (log : Elg) (k : Kind) : Elg :=
  let joined := log.join
    { seq := log.nextSeq, time := s.tcu.clock, timeValid := s.tcu.valid, type := .tamperCleared, kind := some k
      phase := none, code := some code, balance := s.acu.balance, billedWh := s.piu.billedWh, guarded := false }
  { joined with
    records := joined.records.map fun r =>
      if r.type = .tamperSet ∧ r.kind = some k ∧ (s.tmp.latches.get k).set.map (·.record) = some r.seq then
        { r with guarded := false }
      else r }

section
variable {code : RecordCode} {k : Kind} {s : State}

theorem clearKind_stands (h : clears s k = false) : clearKind code k s = s := by
  unfold clearKind
  cases hs : (s.tmp.latches.get k).set with
  | none => simp [hs]
  | some x =>
    have hr : clearRefused k s = true := by simpa [clears, hs] using h
    simp [hs, hr]

theorem clearKind_cleared (h : clears s k = true) :
    (clearKind code k s).elg = clearedLog s code s.elg k ∧
      (clearKind code k s).tmp =
        { s.tmp with latches := s.tmp.latches.set k { s.tmp.latches.get k with set := none, repeats := 0 } } := by
  obtain ⟨hs, hr⟩ : (s.tmp.latches.get k).set.isSome = true ∧ clearRefused k s = false := by simpa [clears] using h
  obtain ⟨x, hx⟩ := Option.isSome_iff_exists.mp hs
  unfold clearKind
  simp only [hx, hr, Bool.false_eq_true, if_false, clearedLog, Option.map_some, Option.some.injEq]
  refine ⟨?_, rfl⟩
  simp only [setLatch, State.setTmp, releaseRecord, State.setElg, append, makeRecord, eq_comm (a := x.record)]
  rfl

end

/-- What a clear of a kind reads of the part but its own latch. -/
theorem clearKind_reads (code : RecordCode) (k : Kind) (s : State) :
    (clearKind code k s).tmp.pwAt = s.tmp.pwAt ∧ (clearKind code k s).tmp.actions = s.tmp.actions ∧
      ∀ j, j ≠ k → (clearKind code k s).tmp.latches.get j = s.tmp.latches.get j := by
  cases h : clears s k with
  | false =>
    rw [clearKind_stands h]
    exact ⟨rfl, rfl, fun _ _ => rfl⟩
  | true =>
    rw [(clearKind_cleared h).2]
    exact ⟨rfl, rfl, fun j hj => by simp [hj]⟩

theorem clears_congr {s t : State} {k : Kind} (hl : t.tmp.latches.get k = s.tmp.latches.get k)
    (hp : t.tmp.pwAt = s.tmp.pwAt) (hn : t.now = s.now) : clears t k = clears s k := by
  simp only [clears, clearRefused, hl, hp, hn]

theorem clearedLog_congr {s t : State} {k : Kind} (hl : t.tmp.latches.get k = s.tmp.latches.get k) (hc : t.tcu = s.tcu)
    (ha : t.acu = s.acu) (hp : t.piu = s.piu) (code : RecordCode) (log : Elg) :
    clearedLog t code log k = clearedLog s code log k := by
  simp only [clearedLog, hl, hc, ha, hp]

/-! ## The kinds of a code, one after the other -/

/-- Kinds cleared in turn: the records of those that a clear clears, in their order, and their latches. -/
theorem clearKinds_lines (code : RecordCode) {ks : List Kind} (hks : ks.Nodup) (s : State) :
    let t := ks.foldl (fun s k => clearKind code k s) s
    t.elg = (ks.filter (clears s)).foldl (clearedLog s code) s.elg ∧ t.tmp.actions = s.tmp.actions ∧
      ∀ j, t.tmp.latches.get j =
        if j ∈ ks ∧ clears s j = true then { s.tmp.latches.get j with set := none, repeats := 0 }
        else s.tmp.latches.get j := by
  induction ks generalizing s with
  | nil => exact ⟨rfl, rfl, fun j => by simp⟩
  | cons k ks ih =>
    obtain ⟨hk, hks⟩ := List.nodup_cons.mp hks
    obtain ⟨hpw, hact, hlatch⟩ := clearKind_reads code k s
    have hframe := clearKind_frame code k s
    obtain ⟨hnow, -, -, -, -, hpiu, hacu, htcu, -⟩ := hframe
    obtain ⟨helg, hactions, hlatches⟩ := ih hks (clearKind code k s)
    have hne (j : Kind) (hj : j ∈ ks) : j ≠ k := fun e => hk (e ▸ hj)
    have hfilter : ks.filter (clears (clearKind code k s)) = ks.filter (clears s) :=
      List.filter_congr fun j hj => clears_congr (hlatch j (hne j hj)) hpw hnow
    have hlog (log : Elg) : (ks.filter (clears s)).foldl (clearedLog (clearKind code k s) code) log =
        (ks.filter (clears s)).foldl (clearedLog s code) log :=
      List.foldl_ext _ _ _ fun log j hj =>
        clearedLog_congr (hlatch j (hne j (List.mem_filter.mp hj).1)) htcu hacu hpiu code log
    dsimp only
    rw [List.foldl_cons]
    refine ⟨?_, hactions.trans hact, fun j => ?_⟩
    · rw [helg, hfilter, hlog]
      cases hc : clears s k with
      | false => rw [clearKind_stands hc, List.filter_cons_of_neg (by simp [hc])]
      | true => rw [(clearKind_cleared hc).1, List.filter_cons_of_pos hc, List.foldl_cons]
    · rw [hlatches]
      by_cases hj : j = k
      · subst hj
        rw [if_neg (fun h => hk h.1)]
        cases hc : clears s j with
        | false => rw [clearKind_stands hc, if_neg (by simp)]
        | true =>
          rw [(clearKind_cleared hc).2]
          simp
      · rw [hlatch j hj, clears_congr (hlatch j hj) hpw hnow]
        simp [hj]

/-- The kinds that a value names (R154). -/
theorem namedKinds_eq (value : Nat) : namedKinds value = kindList.filter fun k => value.testBit (kindNumber k) := by
  refine List.filter_congr fun k _ => ?_
  rw [Nat.testBit_eq_decide_div_mod_eq]
  rfl

/-- The kinds that a code clears. -/
def clearedKinds (value : Nat) (s : State) : List Kind :=
  kindList.filter fun k => value.testBit (kindNumber k) && clears s k

theorem clearable_false (value : Nat) (s : State) : clearable false value s = clearedKinds value s := by
  rw [clearable, namedKinds_eq, List.filter_filter, clearedKinds]
  refine List.filter_congr fun k _ => ?_
  simp [clears, Bool.and_comm]

theorem clearable_true (value : Nat) (s : State) :
    clearable true value s =
      kindList.filter fun k => value.testBit (kindNumber k) && (s.tmp.latches.get k).set.isSome && clearRefused k s := by
  rw [clearable, namedKinds_eq, List.filter_filter]
  refine List.filter_congr fun k _ => ?_
  simp [Bool.and_comm, Bool.and_left_comm]

/-- TAMPER_CLEAR: the latches, the log, the TAMPER cause and the notice (R153, R155). -/
theorem effectClear_lines (i : Slot) (f : Fields) (s : State) :
    let t := (effectClear i f s).1
    t.elg = (clearedKinds f.value s).foldl (clearedLog s ⟨i, f.seq⟩) s.elg ∧ t.tmp.actions = s.tmp.actions ∧
      (∀ k, (t.tmp.latches.get k).set =
          (if (clearedKinds f.value s).contains k then none else (s.tmp.latches.get k).set) ∧
        (t.tmp.latches.get k).repeats =
          (if (clearedKinds f.value s).contains k then 0 else (s.tmp.latches.get k).repeats)) ∧
      t.swc.table.tamper.isSome = tamperRequired t.tmp ∧
      (mainPowered s.sdm.power = true → clearedKinds f.value s ≠ [] → t.rpu.notices.getLsbD 5 = true) := by
  obtain ⟨helg, hactions, hlatches⟩ := clearKinds_lines ⟨i, f.seq⟩ (nodup_kindList.filter _) s
    (ks := kindList.filter fun k => f.value.testBit (kindNumber k))
  have hframe := clearKinds_frame ⟨i, f.seq⟩ (kindList.filter fun k => f.value.testBit (kindNumber k)) s
  obtain ⟨-, -, -, hsdm, -⟩ := hframe
  simp only [effectClear, clearable_false, namedKinds_eq]
  generalize (kindList.filter fun k => f.value.testBit (kindNumber k)).foldl
    (fun s k => clearKind ⟨i, f.seq⟩ k s) s = u at helg hactions hlatches hsdm ⊢
  obtain ⟨hacts, hkept⟩ := evaluateTamper_latches u
  have hrequired := evaluateTamper_required u
  have hfilter : (kindList.filter fun k => f.value.testBit (kindNumber k)).filter (clears s) =
      clearedKinds f.value s := by
    rw [List.filter_filter, clearedKinds]
    exact List.filter_congr fun k _ => Bool.and_comm _ _
  have hmem (k : Kind) : (clearedKinds f.value s).contains k = true ↔
      k ∈ (kindList.filter fun k => f.value.testBit (kindNumber k)) ∧ clears s k = true := by
    rw [← hfilter, List.contains_iff_mem, List.mem_filter]
  have hset (k : Kind) : ((evaluateTamper u).tmp.latches.get k).set =
        (if (clearedKinds f.value s).contains k then none else (s.tmp.latches.get k).set) ∧
      ((evaluateTamper u).tmp.latches.get k).repeats =
        (if (clearedKinds f.value s).contains k then 0 else (s.tmp.latches.get k).repeats) := by
    obtain ⟨h1, h2, -⟩ := hkept k
    rw [h1, h2, hlatches k]
    by_cases hc : (clearedKinds f.value s).contains k = true
    · rw [if_pos ((hmem k).mp hc), if_pos hc, if_pos hc]
      exact ⟨rfl, rfl⟩
    · rw [if_neg (fun h => hc ((hmem k).mpr h)), if_neg hc, if_neg hc]
      exact ⟨rfl, rfl⟩
  rw [hfilter] at helg
  refine ⟨?_, ?_, ?_, ?_, fun hm hne => ?_⟩
  · split <;> simpa using helg
  · split <;> simpa using hacts.trans hactions
  · split <;> simpa using hset
  · split <;> simpa using hrequired
  · rw [if_neg hne]
    exact notify_tamper_bit (by simpa [hsdm] using hm)

/-- The detail of TAMPER_CLEAR, bit by bit (R155). -/
theorem effectClear_detail (i : Slot) (f : Fields) (s : State) :
    ∃ c r, (effectClear i f s).2 = some (.clear c r) ∧
      ∀ k, c.getLsbD (kindNumber k) = (f.value.testBit (kindNumber k) && clears s k) ∧
        r.getLsbD (kindNumber k) =
          (f.value.testBit (kindNumber k) && (s.tmp.latches.get k).set.isSome && clearRefused k s) := by
  refine ⟨_, _, rfl, fun k => ⟨?_, ?_⟩⟩
  · rw [clearable_false, clearedKinds, setOfKinds_bit]
  · rw [clearable_true, setOfKinds_bit]

end Sys2Proof.Machine
end

