-- ==== Sys2Proof/Proofs/CodeEffects.lean ====
section
/-! What each class of accepted code does (R28, R34 to R39, R56, R61 to R63, R65, R98, R100, R109, R124, R128 to R130, R154,
R155, R157, R169). -/

namespace Sys2Proof.Machine

/-! ## The tariff, the calendar and the actions -/

section
variable {i : Slot} {f : Fields} {s : State}

theorem applyEffect_price (h : f.cls = 4) (ha : argumentOk f s = true) :
    ∃ p, writePrice f.selector f.value s.tcu.passive = some p ∧
      (applyEffect i f s).1.tcu = { s.tcu with passive := p } := by
  simp only [argumentOk, h] at ha
  obtain ⟨p, hp⟩ := Option.isSome_iff_exists.mp ha
  exact ⟨p, hp, by simp only [applyEffect, h, effectPrice, hp]; rfl⟩

theorem applyEffect_schedule (h : f.cls = 5) (ha : argumentOk f s = true) :
    ∃ p, writePoint f.selector f.value s.tcu.passive = some p ∧
      (applyEffect i f s).1.tcu = { s.tcu with passive := p } := by
  simp only [argumentOk, h] at ha
  obtain ⟨p, hp⟩ := Option.isSome_iff_exists.mp ha
  exact ⟨p, hp, by simp only [applyEffect, h, effectSchedule, hp]; rfl⟩

theorem applyEffect_activate (h : f.cls = 6) :
    (applyEffect i f s).1.tcu = { s.tcu with actPending := true, actDay := f.value } := by
  simp only [applyEffect, h]
  rfl

theorem applyEffect_calendar (h : f.cls = 7) (ha : argumentOk f s = true) :
    ∃ c, writeCalendar f.selector f.value s.tcu.cal = some c ∧
      (applyEffect i f s).1.tcu =
        { s.tcu with cal := c, lastFriendly := some (friendlyNow { s.tcu with cal := c }) } := by
  simp only [argumentOk, h] at ha
  obtain ⟨c, hc⟩ := Option.isSome_iff_exists.mp ha
  refine ⟨c, hc, ?_⟩
  simp only [applyEffect, h, effectCalendar, hc]
  exact evaluateFriendly_tcu (s.setTcu { s.tcu with cal := c })

theorem applyEffect_loadLimit (h : f.cls = 3) :
    (f.selector = 0 → (applyEffect i f s).1.swc = { s.swc with normalLimit := f.value }) ∧
      (f.selector = 1 → (applyEffect i f s).1.swc = { s.swc with reducedLimit := f.value }) := by
  simp only [applyEffect, h, effectLoadLimit]
  exact ⟨fun hs => by rw [if_pos hs]; rfl, fun hs => by rw [if_neg (by omega)]; rfl⟩

theorem kindNumber_of_kindOfNumber {n : Nat} {k : Kind} (h : kindOfNumber n = some k) : kindNumber k = n := by
  by_cases hn : n < 9
  · interval_cases n <;> cases h <;> rfl
  · rw [kindOfNumber_none (by omega)] at h
    cases h

theorem actionCode_of_actionOfNumber {n : Nat} {a : Action} (h : actionOfNumber n = some a) : a.code = n := by
  unfold actionOfNumber at h
  split at h <;> cases h <;> rfl

theorem applyEffect_action (h : f.cls = 9) (ha : argumentOk f s = true) :
    ∃ k a, kindNumber k = f.selector ∧ Action.code a = f.value ∧
      (applyEffect i f s).1.tmp.actions = s.tmp.actions.set k a ∧
      (applyEffect i f s).1.swc.table.tamper.isSome = tamperRequired (applyEffect i f s).1.tmp := by
  obtain ⟨k, a, hk, hact, -⟩ := (argumentOk_action h).mp ha
  have heffect : (applyEffect i f s).1 = evaluateTamper (s.setTmp { s.tmp with actions := s.tmp.actions.set k a }) := by
    simp only [applyEffect, h, effectAction, hk, hact]
  obtain ⟨hactions, -⟩ := evaluateTamper_latches (s.setTmp { s.tmp with actions := s.tmp.actions.set k a })
  rw [heffect]
  exact ⟨k, a, kindNumber_of_kindOfNumber hk, actionCode_of_actionOfNumber hact, hactions, evaluateTamper_required _⟩

/-! ## SUPPLY_ORDER (R109, R128 to R130) -/

theorem effectOrder_release (h : f.selector = 0) :
    (effectOrder f s).swc.table = { s.swc.table with order := none } ∧ (effectOrder f s).tcu = s.tcu := by
  simp only [effectOrder, h, orderRelease]
  exact ⟨changeEntry_table _ _ _, by simp⟩

theorem effectOrder_holdOpen (h : f.selector = 1) :
    (effectOrder f s).tcu = s.tcu ∧
      (s.swc.table.order.isSome = true → (effectOrder f s).swc.table = s.swc.table) ∧
      (s.swc.table.order = none →
        (effectOrder f s).swc.table = { s.swc.table with order := some ⟨false, s.tcu.clock, none⟩ }) := by
  simp only [effectOrder, h, orderHoldOpen]
  refine ⟨?_, fun ho => by rw [if_pos ho], fun ho => ?_⟩
  · split
    · rfl
    · simp
  · rw [if_neg (by simp [ho]), changeEntry_table]
    rfl

/-- The CREDIT entry after an evaluation (R109). -/
theorem evaluateCredit_entry (s : State) :
    (¬(s.swc.held = .exhausted ∧ s.tcu.untilDay = none) →
      (evaluateCredit s).swc.table = { s.swc.table with credit := none }) ∧
      (s.swc.held = .exhausted → s.tcu.untilDay = none → s.swc.table.credit.isSome = true →
        (evaluateCredit s).swc.table = s.swc.table) ∧
      (s.swc.held = .exhausted → s.tcu.untilDay = none → s.swc.table.credit = none →
        (evaluateCredit s).swc.table = { s.swc.table with credit := some ⟨friendlyNow s.tcu, s.tcu.clock, none⟩ }) := by
  obtain ⟨happears, hleaves, hstands⟩ := evaluateCredit_lines s
  refine ⟨fun h => ?_, fun hh hu hc => ?_, fun hh hu hc => ?_⟩
  · by_cases hc : s.swc.table.credit = none
    · rw [hstands (.inr ⟨h, hc⟩), ← hc]
    · rw [hleaves h hc]
      exact changeEntry_table _ _ _
  · rw [hstands (.inl ⟨⟨hh, hu⟩, Option.isSome_iff_ne_none.mp hc⟩)]
  · rw [happears ⟨hh, hu⟩ hc]
    exact changeEntry_table _ _ _

theorem effectOrder_override (h : f.selector = 2) :
    (effectOrder f s).tcu = { s.tcu with untilDay := some (min 49710 (s.tcu.lastDay + f.value - 1)) } ∧
      (effectOrder f s).swc.table = { s.swc.table with credit := none } := by
  simp only [effectOrder, h, orderOverride]
  obtain ⟨hnone, -⟩ := evaluateCredit_entry
    (s.setTcu { s.tcu with untilDay := some (min Config.maxDay (s.tcu.lastDay + f.value - 1)) })
  exact ⟨by simp [Config.maxDay], hnone fun ⟨_, hx⟩ => nomatch hx⟩

theorem effectOrder_cancel (h : f.selector = 3) :
    (effectOrder f s).tcu = { s.tcu with untilDay := none } ∧
      (s.swc.held ≠ .exhausted → (effectOrder f s).swc.table = { s.swc.table with credit := none }) ∧
      (s.swc.held = .exhausted → s.swc.table.credit.isSome = true → (effectOrder f s).swc.table = s.swc.table) ∧
      (s.swc.held = .exhausted → s.swc.table.credit = none →
        (effectOrder f s).swc.table =
          { s.swc.table with credit := some ⟨friendlyNow s.tcu, s.tcu.clock, none⟩ }) := by
  simp only [effectOrder, h, orderCancel]
  obtain ⟨hnone, hstands, happears⟩ := evaluateCredit_entry (s.setTcu { s.tcu with untilDay := none })
  exact ⟨by simp, fun he => hnone fun hx => he hx.1, fun he => hstands he rfl, fun he => happears he rfl⟩

theorem effectOrder_retry (h : f.selector = 4) :
    (effectOrder f s).tcu = s.tcu ∧
      (s.swc.switch = .fault → (effectOrder f s).swc.table = s.swc.table ∧
        (effectOrder f s).swc.switch = if s.swc.table.anyActive then .opening else .closing) ∧
      (s.swc.switch ≠ .fault → (effectOrder f s).swc = s.swc) := by
  simp only [effectOrder, h, orderRetry]
  refine ⟨?_, fun hf => ?_, fun hf => by rw [if_neg hf]⟩
  · split
    · simp
    · rfl
  · rw [if_pos hf]
    cases hany : s.swc.table.anyActive
    · rw [if_neg (by simp), beginOperation_swc (by rw [hf]; decide)]
      exact ⟨rfl, rfl⟩
    · rw [if_pos rfl, beginOperation_swc (by rw [hf]; decide)]
      exact ⟨rfl, rfl⟩

/-! ## KEY_SLOT_DISABLE and REINSTATE (R98, R100) -/

/-- The codes that only the slot of the part's own key may bring (R91). -/
theorem slot0_of_accepted (hv : verdict i f s = .accepted) (h : f.cls = 12 ∨ f.cls = 13) : i = .slot0 := by
  by_contra hne
  have hauth : (!maskHolds s i f.cls || ((f.cls == 12 || f.cls == 13) && i != .slot0)) = true := by simp [h, hne]
  unfold verdict at hv
  rw [if_pos hauth] at hv
  split_ifs at hv

theorem applyEffect_disable (h : f.cls = 12) (ha : argumentOk f s = true) :
    ∃ j g, slotNumber j = f.selector ∧ s.cda.groups.get j = some g ∧
      (applyEffect i f s).1.cda = { s.cda with groups := s.cda.groups.set j { g with enabled := false } } := by
  simp only [argumentOk, h, Bool.and_eq_true, groupSlotOfNumber_isSome] at ha
  obtain ⟨⟨h1, h3⟩, -⟩ := ha
  simp only [applyEffect, h, effectDisable]
  generalize f.selector = n at h1 h3
  interval_cases n
  exacts [⟨.slot1, _, rfl, rfl, rfl⟩, ⟨.slot2, _, rfl, rfl, rfl⟩, ⟨.slot3, _, rfl, rfl, rfl⟩]

theorem applyEffect_reinstate (h : f.cls = 13) :
    (applyEffect i f s).1.elg = s.elg.join (makeRecord .reinstated none none (some ⟨.slot0, f.seq⟩) s) ∧
      (applyEffect i f s).1.swc = s.swc ∧
      (s.cda.retired = false → (applyEffect i f s).1.tmp =
        { s.tmp with latches := { s.tmp.latches with rl := { s.tmp.latches.rl with condition := false } } }) ∧
      (s.cda.retired = true → (applyEffect i f s).1.tmp = s.tmp) := by
  have hretired : (append .reinstated none none (some ⟨.slot0, f.seq⟩)
      (s.setCda { s.cda with window0 := windowReinstate f.value f.seq, reinstate := false })).cda.retired =
        s.cda.retired := by simp
  simp only [applyEffect, h, effectReinstate, hretired, hand_false]
  cases s.cda.retired
  · exact ⟨rfl, rfl, fun _ => rfl, nofun⟩
  · exact ⟨rfl, rfl, nofun, fun _ => rfl⟩

end

end Sys2Proof.Machine
end

