-- ==== Sys2Proof/Proofs/CodesTakeEffect.lean ====
section
/-! TIME_SET (R53, R56, R57), and the effects of the code classes together. -/

namespace Sys2Proof.Machine

/-! ## TIME_SET -/

theorem boundaryLimit_untilBoundary {e : Entry} (h : e.penalty = some .untilBoundary) : boundaryLimit (some e) = none := by
  simp [boundaryLimit, h]

/-- The trips of the day and the LOAD_LIMIT entry over a change of a valid clock (R126, R127). -/
theorem changeClock_loadLimit (c : Nat) {s : State} (hv : s.tcu.valid = true) :
    (s.tcu.lastDay < c / 86400 → (changeClock c s).swc.tripsToday = 0 ∧
      (changeClock c s).swc.table.loadLimit = boundaryLimit s.swc.table.loadLimit) ∧
    (c / 86400 ≤ s.tcu.lastDay → (changeClock c s).swc.tripsToday = s.swc.tripsToday ∧
      (changeClock c s).swc.table.loadLimit = s.swc.table.loadLimit) := by
  have hmissed : missedDays (discardDemand (s.setTcu { s.tcu with clock := c })).tcu = c / 86400 - s.tcu.lastDay :=
    if_pos hv
  obtain ⟨⟨e, htable⟩, htrips⟩ := evaluateFriendly_table (deliverDue (discardDemand (s.setTcu { s.tcu with clock := c })))
  unfold changeClock
  rw [htable, htrips, deliverDue_eq, hmissed]
  refine ⟨fun h => ?_, fun h => ?_⟩
  · obtain ⟨n, hn⟩ : ∃ n, c / 86400 - s.tcu.lastDay = n + 1 := ⟨c / 86400 - s.tcu.lastDay - 1, by omega⟩
    rw [hn]
    exact deliverBoundaries_swc n _
  · rw [Nat.sub_eq_zero_of_le h]
    exact ⟨rfl, rfl⟩

/-- What a clock that becomes valid leaves beside the calendar (R53). -/
theorem validateClock_rest (c : Nat) (s : State) :
    (validateClock c s).tcu.lastFriendly = some (friendlyNow (validateClock c s).tcu) ∧
      (validateClock c s).swc.tripsToday = s.swc.tripsToday ∧
      (validateClock c s).swc.table.loadLimit = s.swc.table.loadLimit ∧
      QuietNotices s.rpu (validateClock c s).rpu := by
  let x := discardDemand (s.setTcu
    { s.tcu with
      clock := c, valid := true, lastDay := dayOf c, trimUsed := 0
      untilDay := moveOverride s.tcu.lastDay (dayOf c) s.tcu.untilDay })
  have hx : validateClock c s = evaluateFriendly x := rfl
  obtain ⟨⟨e, htable⟩, htrips⟩ := evaluateFriendly_table x
  have hday := evaluateFriendly_sameDay x
  rw [hx, evaluateFriendly_tcu, htable, htrips]
  exact ⟨rfl, rfl, rfl, hday.notices⟩

section
variable {i : Slot} {f : Fields} {s : State}

theorem applyEffect_timeSet (h : f.cls = 11) :
    (s.tcu.valid = true → signedValue f.value = 0 → (applyEffect i f s).1 = s) ∧
      (s.tcu.valid = true → signedValue f.value ≠ 0 →
        (applyEffect i f s).1 = changeClock ((s.tcu.clock : Int) + signedValue f.value).toNat s) ∧
      (s.tcu.valid = false →
        (applyEffect i f s).1 = validateClock ((s.tcu.clock : Int) + signedValue f.value).toNat s) := by
  simp only [applyEffect, h, effectTimeSet]
  exact ⟨fun hv h0 => by rw [if_pos hv, if_pos h0], fun hv h0 => by rw [if_pos hv, if_neg h0],
    fun hv => if_neg (by simp [hv])⟩

/-- A TIME_SET that is accepted keeps the clock in its range (R95). -/
theorem timeSet_range (h : f.cls = 11) (hc : classCondition f s = none) :
    0 ≤ (s.tcu.clock : Int) + signedValue f.value := by
  by_contra hneg
  simp only [classCondition, h] at hc
  rw [if_neg (fun hx => hneg hx.1)] at hc
  cases hc

/-- What an accepted TIME_SET does (R53, R56, R57). -/
theorem timeSet_lines (h : f.cls = 11) (hm : mainPowered s.sdm.power = true)
    (hrange : 0 ≤ (s.tcu.clock : Int) + signedValue f.value) :
    let x := (applyEffect i f s).1
    let day := x.tcu.clock / 86400
    (x.tcu.clock : Int) = (s.tcu.clock : Int) + signedValue f.value ∧ x.tcu.valid = true ∧
      (s.tcu.valid = true → signedValue f.value = 0 → x = s) ∧
      (s.tcu.valid = true → signedValue f.value ≠ 0 →
        BoundariesTaken day s x ∧ x.tcu.lastFriendly = some (friendlyNow x.tcu) ∧
          (s.tcu.lastDay < day → x.swc.tripsToday = 0 ∧
            x.swc.table.loadLimit = boundaryLimit s.swc.table.loadLimit) ∧
          (day ≤ s.tcu.lastDay → x.swc.tripsToday = s.swc.tripsToday ∧
            x.swc.table.loadLimit = s.swc.table.loadLimit)) ∧
      (s.tcu.valid = false →
        x.tcu =
            { s.tcu with
              clock := x.tcu.clock, valid := true, lastDay := day, trimUsed := 0
              untilDay := moveOverride s.tcu.lastDay day s.tcu.untilDay, lastFriendly := x.tcu.lastFriendly } ∧
          x.tcu.lastFriendly = some (friendlyNow x.tcu) ∧ x.acu = s.acu ∧ x.cda = s.cda ∧
          x.swc.tripsToday = s.swc.tripsToday ∧ x.swc.table.loadLimit = s.swc.table.loadLimit ∧
          QuietNotices s.rpu x.rpu) ∧
      (s.tcu.valid = false ∨ signedValue f.value ≠ 0 →
        x.piu.demand = .waiting ∧ x.piu.lastDemand = s.piu.lastDemand) := by
  obtain ⟨hsame, hchanged, hvalidated⟩ := applyEffect_timeSet (i := i) (s := s) h
  have hclock : (((s.tcu.clock : Int) + signedValue f.value).toNat : Int) = (s.tcu.clock : Int) + signedValue f.value :=
    Int.toNat_of_nonneg hrange
  generalize ((s.tcu.clock : Int) + signedValue f.value).toNat = c at hchanged hvalidated hclock
  cases hv : s.tcu.valid with
  | true =>
    by_cases h0 : signedValue f.value = 0
    · rw [hsame hv h0]
      exact ⟨by rw [h0, Int.add_zero], hv, fun _ _ => rfl, fun _ hx => absurd h0 hx, nofun, fun hx => by simp [h0] at hx⟩
    · rw [hchanged hv h0]
      obtain ⟨hc, hvalid, hfriendly⟩ := changeClock_tcu c s
      obtain ⟨hpast, hbefore⟩ := changeClock_loadLimit c hv
      obtain ⟨-, -, -, -, -, -, -, -, -, -, hdemand, hlast⟩ := (changeClock_meter c s).fields
      dsimp only
      rw [hc]
      exact ⟨hclock, hvalid.trans hv, fun _ hx => absurd hx h0,
        fun _ _ => ⟨changeClock_taken c hv hm, hfriendly, hpast, hbefore⟩, nofun, fun _ => ⟨hdemand, hlast⟩⟩
  | false =>
    rw [hvalidated hv]
    obtain ⟨htcu, hdemand, hacu⟩ := validateClock_lines c s
    obtain ⟨hfriendly, htrips, hlimit, hquiet⟩ := validateClock_rest c s
    obtain ⟨-, -, -, -, -, -, -, -, -, -, -, hlast⟩ := (validateClock_meter c s).fields
    have hc : (validateClock c s).tcu.clock = c := by rw [htcu]
    dsimp only
    rw [hc]
    exact ⟨hclock, by rw [htcu], nofun, nofun,
      fun _ => ⟨htcu, hfriendly, hacu, by simp, htrips, hlimit, hquiet⟩, fun _ => ⟨hdemand, hlast⟩⟩

/-! ## Every class -/

/-- The latches set, and their repeats, are TAMPER_CLEAR's alone to change (R155). -/
theorem applyEffect_sets (h8 : f.cls ≠ 8) (k : Kind) :
    ((applyEffect i f s).1.tmp.latches.get k).set = (s.tmp.latches.get k).set ∧
      ((applyEffect i f s).1.tmp.latches.get k).repeats = (s.tmp.latches.get k).repeats := by
  by_cases h9 : f.cls = 9
  · have hact : (applyEffect i f s).1.tmp = (effectAction f s).tmp := by simp only [applyEffect, h9]
    rw [hact]
    unfold effectAction
    split
    · rename_i j a _ _
      obtain ⟨-, hl⟩ := evaluateTamper_latches (s.setTmp { s.tmp with actions := s.tmp.actions.set j a })
      obtain ⟨hset, hrepeats, -⟩ := hl k
      exact ⟨hset, hrepeats⟩
    · exact ⟨rfl, rfl⟩
  by_cases h13 : f.cls = 13
  · obtain ⟨-, -, hfalls, hstands⟩ := applyEffect_reinstate (i := i) (s := s) h13
    cases hr : s.cda.retired
    · rw [hfalls hr]
      cases k <;> exact ⟨rfl, rfl⟩
    · rw [hstands hr]
      exact ⟨rfl, rfl⟩
  · obtain ⟨-, hl⟩ := applyEffect_sameLatches (i := i) (s := s) h8 h9 h13
    obtain ⟨hset, hrepeats, -⟩ := hl k
    exact ⟨hset, hrepeats⟩

theorem applyEffect_clear (h : f.cls = 8) : applyEffect i f s = effectClear i f s := by
  simp only [applyEffect, h]

/-- The actions are TAMPER_ACTION's alone to change (R157). -/
theorem applyEffect_actions (h9 : f.cls ≠ 9) : (applyEffect i f s).1.tmp.actions = s.tmp.actions := by
  by_cases h8 : f.cls = 8
  · obtain ⟨-, hactions, -⟩ := effectClear_lines i f s
    rw [applyEffect_clear h8, hactions]
  by_cases h13 : f.cls = 13
  · obtain ⟨-, -, hfalls, hstands⟩ := applyEffect_reinstate (i := i) (s := s) h13
    cases hr : s.cda.retired
    · rw [hfalls hr]
    · rw [hstands hr]
  · exact (applyEffect_sameLatches (i := i) (s := s) h8 h9 h13).1

/-- What each class but KEY_SLOT_DISABLE leaves of the Code Acceptor. -/
theorem applyEffect_acceptor (i : Slot) (f : Fields) (s : State) :
    let x := (applyEffect i f s).1.cda
    (f.cls ≠ 12 → x.groups = s.cda.groups) ∧ (f.cls ≠ 11 → x.lockoutsToday = s.cda.lockoutsToday) ∧
      (f.cls ≠ 13 → x.reinstate = s.cda.reinstate) ∧ x.lockoutLeft = s.cda.lockoutLeft ∧
      x.retired = s.cda.retired := by
  by_cases h11 : f.cls = 11
  · obtain ⟨_, _, _, _, hc⟩ := effectTimeSet_cda f s
    simp [applyEffect, h11, hc]
  by_cases h12 : f.cls = 12
  · obtain ⟨_, hc⟩ := (effectDisable_cda f s).1
    simp [applyEffect, h12, hc]
  by_cases h13 : f.cls = 13
  · simp [applyEffect, h13, effectReinstate_cda]
  · simp [applyEffect_cda h11 h12 h13]

end

/-- An acceptance changes the window of a group slot alone (R93). -/
theorem accepting_groups (i : Slot) (f : Fields) (s : State) {j : Slot} {g : GroupSlot} (h : s.cda.groups.get j = some g) :
    ∃ w, (accepting i f s).cda.groups.get j = some { g with window := w } := by
  cases i <;> cases j <;> cases h <;> exact ⟨_, rfl⟩

/-- The part's own key has no record among the group slots. -/
theorem accepting_slot0 (f : Fields) (s : State) : (accepting .slot0 f s).cda.groups = s.cda.groups := rfl

/-- An accepted code ends with its effect, but for the entry, the result and its notice (R94, R101). -/
theorem acceptCode_fields (i : Slot) (f : Fields) {s : State} (hm : mainPowered s.sdm.power = true) :
    let r := applyEffect i f (accepting i f s)
    let t := acceptCode i f s
    t.acu = r.1.acu ∧ t.tcu = r.1.tcu ∧ t.swc = r.1.swc ∧ t.tmp = r.1.tmp ∧ t.elg = r.1.elg ∧ t.piu = r.1.piu ∧
      t.cda.groups = r.1.cda.groups ∧ t.cda.lockoutsToday = r.1.cda.lockoutsToday ∧
      t.cda.lockoutLeft = r.1.cda.lockoutLeft ∧ t.cda.reinstate = r.1.cda.reinstate ∧
      t.cda.retired = r.1.cda.retired ∧
      t.cda.lastResult = some ⟨.accepted, some ⟨f.cls, i, f.seq⟩, r.1.tcu.clock, r.2⟩ ∧
      ∀ n, n ≠ 2 → t.rpu.notices.getLsbD n = r.1.rpu.notices.getLsbD n := by
  have hx := acceptCode_eq (i := i) (f := f) hm
  intro r t
  have ht : t = _ := hx
  rw [ht]
  refine ⟨rfl, rfl, rfl, rfl, rfl, rfl, rfl, rfl, rfl, rfl, rfl, rfl, fun n hn => ?_⟩
  have hbit : (4 : NoticeSet).getLsbD n = false := by
    show (BitVec.ofNat _ (2 ^ 2)).getLsbD n = false
    rw [BitVec.getLsbD_ofNat, Nat.testBit_two_pow]
    simp [hn.symm]
  show (_ ||| (4 : NoticeSet)).getLsbD n = _
  rw [BitVec.getLsbD_or, hbit, Bool.or_false]

/-- The boundaries taken depend on the account, the calendar, the lockouts of the day and four notices alone. -/
theorem BoundariesTaken.of_after {day : Nat} {s t t' : State} (h : BoundariesTaken day s t) (hacu : t'.acu = t.acu)
    (htcu : t'.tcu = t.tcu) (hlockouts : t'.cda.lockoutsToday = t.cda.lockoutsToday)
    (hbits : ∀ n, n ≠ 2 → t'.rpu.notices.getLsbD n = t.rpu.notices.getLsbD n) : BoundariesTaken day s t' := by
  simpa only [BoundariesTaken, ClaimNoticed, List.forall_mem_cons, List.not_mem_nil, false_imp_iff,
    implies_true, and_true, hacu, htcu, hlockouts, hbits 0 (by decide), hbits 1 (by decide), hbits 6 (by decide),
    hbits 7 (by decide)] using h

/-- What an effect finds, seen from the state before its moment: the time has passed, and the windows stand as R93 says. -/
structure EffectFinds (m : Moment) (s v : State) : Prop where
  now : v.now = s.now + m.elapsed
  sdm : v.sdm = s.sdm
  ots : v.ots = s.ots
  piu : v.piu = s.piu
  acu : v.acu = s.acu
  tcu : v.tcu = s.tcu
  swc : v.swc = s.swc
  tmp : v.tmp = s.tmp
  elg : v.elg = s.elg
  rpu : v.rpu = s.rpu
  pending : v.pending = s.pending
  lockoutsToday : v.cda.lockoutsToday = s.cda.lockoutsToday
  lockoutLeft : v.cda.lockoutLeft = s.cda.lockoutLeft
  reinstate : v.cda.reinstate = s.cda.reinstate
  retired : v.cda.retired = s.cda.retired

theorem accepting_finds {m : Moment} {s : State} (i : Slot) (f : Fields)
    (hp : s.sdm.power = .run ∨ s.sdm.power = .holdup) : EffectFinds m s (accepting i f (observe m 0 s)) := by
  obtain ⟨w, g, hcda⟩ := accepting_cda i f (observe m 0 s)
  have hobs := observe_working (s := s) m hp
  constructor
  case lockoutsToday | lockoutLeft | reinstate | retired => rw [hcda, hobs]
  all_goals simp [hobs]

theorem EffectFinds.argumentOk {m : Moment} {s v : State} (h : EffectFinds m s v) (f : Fields) :
    argumentOk f v = argumentOk f s := by
  simp only [Machine.argumentOk, h.tcu, h.ots]

section
variable {m : Moment} {s v : State} {i : Slot} {f : Fields}

/-- The kinds that a TAMPER_CLEAR finds ACTIVE (R155; log 41). -/
theorem EffectFinds.clearRefused (h : EffectFinds m s v) (k : Kind) :
    clearRefused k v =
      ((s.tmp.latches.get k).condition || k == .pw && s.tmp.pwAt == some (s.now + m.elapsed)) := by
  simp only [Machine.clearRefused, h.tmp, h.now]

theorem EffectFinds.clears (h : EffectFinds m s v) (k : Kind) :
    clears v k = ((s.tmp.latches.get k).set.isSome &&
      !((s.tmp.latches.get k).condition || k == .pw && s.tmp.pwAt == some (s.now + m.elapsed))) := by
  simp only [Machine.clears, h.clearRefused, h.tmp]

theorem EffectFinds.clearedLog (h : EffectFinds m s v) (code : RecordCode) : clearedLog v code = clearedLog s code := by
  funext log k
  simp only [Machine.clearedLog, h.tmp, h.tcu, h.acu, h.piu]

theorem EffectFinds.makeRecord (h : EffectFinds m s v) (type : RecordType) (code : RecordCode) :
    makeRecord type none none (some code) v = makeRecord type none none (some code) s := by
  simp only [Machine.makeRecord, h.elg, h.tcu, h.acu, h.piu]

end

/-- Settles O22, class by class, and then by what no code touches. -/
theorem codesTakeEffect : Obligations.CodesTakeEffect := by
  intro m s i f k hp hd ht he hv latch active named cleared record
  have hobs := observe_working (s := s) m hp
  have hm : mainPowered (observe m 0 s).sdm.power = true := by rw [hobs]; exact mainPowered_working hp
  obtain ⟨harg, hcond⟩ := checks_of_accepted hv
  have hfinds := accepting_finds (m := m) i f hp
  have hfields := acceptCode_fields i f hm
  have hclaims (h : f.cls = 1 ∨ f.cls = 2) := acceptCode_claims hm fun y _ => applyEffect_claims (i := i) h y
  have hgroups {j : Slot} {g : GroupSlot} (h : s.cda.groups.get j = some g) :=
    accepting_groups i f (observe m 0 s) (j := j) (g := g) (by rw [hobs]; exact h)
  have hslot0 (h : i = .slot0) : (accepting i f (observe m 0 s)).cda.groups = s.cda.groups := by
    subst h
    rw [accepting_slot0, hobs]
  have hacu : (observe m 0 s).acu = s.acu := by rw [hobs]
  have hswc : (observe m 0 s).swc = s.swc := by rw [hobs]
  have htcu : (observe m 0 s).tcu = s.tcu := by rw [hobs]
  have hrpu : (observe m 0 s).rpu = s.rpu := by rw [hobs]
  have hkept : (acceptCode i f (observe m 0 s)).ots = s.ots ∧ (acceptCode i f (observe m 0 s)).sdm = s.sdm ∧
      (acceptCode i f (observe m 0 s)).pending = s.pending := by simp [hobs]
  refine ⟨acceptCode i f (observe m 0 s), exec_accepted hp hd ht he hv, ?_⟩
  generalize acceptCode i f (observe m 0 s) = t at hfields hclaims hkept ⊢
  generalize accepting i f (observe m 0 s) = v at hfinds hfields hgroups hslot0
  obtain ⟨tacu, ttcu, tswc, ttmp, telg, tpiu, tgroups, tlockouts, tleft, treinstate, tretired, tresult, tbits⟩ := hfields
  have hargv : argumentOk f v = true := (hfinds.argumentOk f).trans harg
  obtain ⟨agroups, alockouts, areinstate, aleft, aretired⟩ := applyEffect_acceptor i f v
  obtain ⟨p1, p2, p3, p4, p5, p6, p7, p8⟩ := applyEffect_counters i f v
  rw [← tpiu, hfinds.piu] at p1 p2 p3 p4 p5 p6 p7 p8
  obtain ⟨kots, ksdm, kpending⟩ := hkept
  have hclaim (h : f.cls = 1 ∨ f.cls = 2) : t.acu = s.acu.alarmAfter (claimOfCode f s.acu) := by
    obtain ⟨hx, -⟩ := hclaims h
    rwa [hacu] at hx
  refine ⟨fun h => ?_, fun h => ⟨fun hs => ?_, fun hs => ?_, fun hs => ?_⟩, fun h => ?_, fun h => ?_, fun h => ?_,
    fun h => ?_, fun h => ?_, fun h => ?_, fun h => ?_, fun h => ?_, fun h => ?_, fun h => ?_, fun h => ?_, fun h => ?_,
    fun h1 h2 h11 => ?_, fun h8 h13 => ?_, fun h => ?_, fun h => ?_, fun h3 h => ?_, fun h8 j => ?_, fun h9 => ?_,
    fun h12 j g hg => ?_, fun h11 => ?_, fun h13 => ?_, ?_, ?_, p1, p2, p3, p4, p5, p6, p7, p8, kots, ksdm, kpending⟩
  -- DEBT and ACCOUNT_SETTING
  · rw [hclaim (.inl h), claimOfCode, if_pos h]
    rfl
  · rw [hclaim (.inr h), claimOfCode, if_neg (by omega), if_pos hs]
  · rw [hclaim (.inr h), claimOfCode, if_neg (by omega), if_neg (by omega), if_pos hs]
  · rw [hclaim (.inr h), claimOfCode, if_neg (by omega), if_neg (by omega), if_neg (by omega)]
  · obtain ⟨-, -, hhanded, hnoticed, -⟩ := hclaims h
    exact ⟨hhanded.congr hacu.symm hswc.symm htcu.symm rfl rfl, hnoticed.congr hacu.symm (by simp [hrpu]) rfl (by simp)⟩
  -- LOAD_LIMIT, the tariff and the calendar
  · rw [tswc, ← hfinds.swc]
    exact applyEffect_loadLimit h
  · rw [ttcu, ← hfinds.tcu]
    exact applyEffect_price h hargv
  · rw [ttcu, ← hfinds.tcu]
    exact applyEffect_schedule h hargv
  · rw [ttcu, ← hfinds.tcu]
    exact applyEffect_activate h
  · rw [ttcu, ← hfinds.tcu]
    exact applyEffect_calendar h hargv
  -- TAMPER_CLEAR
  · have hcleared : clearedKinds f.value v = cleared := by
      refine List.filter_congr fun k _ => ?_
      rw [hfinds.clears, ← Bool.and_assoc]
    have hlines := effectClear_lines i f v
    rw [← applyEffect_clear h, hcleared, hfinds.clearedLog, hfinds.elg, hfinds.tmp] at hlines
    obtain ⟨helg, -, hlatches, htamper, hnotice⟩ := hlines
    obtain ⟨c, r, hdetail, hbits⟩ := effectClear_detail i f v
    rw [← applyEffect_clear h] at hdetail
    refine ⟨?_, ?_, ?_, fun hne => ?_, c, r, ?_, fun k => ?_⟩
    · rw [ttmp]
      exact hlatches
    · rw [telg, helg]
      rfl
    · rw [tswc, ttmp]
      exact htamper
    · rw [tbits 5 (by decide)]
      exact hnotice (by rw [hfinds.sdm]; exact mainPowered_working hp) hne
    · rw [tresult, hdetail, applyEffect_clock (by omega), hfinds.tcu, h]
    · obtain ⟨hc, hr⟩ := hbits k
      rw [hc, hr, hfinds.clears, hfinds.clearRefused, hfinds.tmp, ← Bool.and_assoc]
      exact ⟨rfl, rfl⟩
  -- TAMPER_ACTION
  · rw [ttmp, tswc, ← hfinds.tmp]
    exact applyEffect_action h hargv
  -- SUPPLY_ORDER
  · have heffect : (applyEffect i f v).1 = effectOrder f v := by simp only [applyEffect, h]
    rw [ttcu, tswc, heffect, ← hfinds.tcu, ← hfinds.swc]
    refine ⟨effectOrder_release, fun hs => ?_, effectOrder_override, fun hs => ?_, fun hs hf => ?_, fun hs hf => ?_⟩
    · obtain ⟨hcal, hstands, happears⟩ := effectOrder_holdOpen (s := v) hs
      refine ⟨hcal, ?_⟩
      cases ho : v.swc.table.order with
      | none => rw [happears ho]
      | some e =>
        exact (hstands (by rw [ho]; rfl)).trans (congrArg (fun x => { v.swc.table with order := x }) ho)
    · obtain ⟨hcal, hleaves, hstands, happears⟩ := effectOrder_cancel (s := v) hs
      refine ⟨hcal, ?_⟩
      by_cases hh : v.swc.held = .exhausted
      · rw [if_pos hh]
        cases hc : v.swc.table.credit with
        | none => rw [happears hh hc]
        | some e =>
          exact (hstands hh (by rw [hc]; rfl)).trans (congrArg (fun x => { v.swc.table with credit := x }) hc)
      · rw [if_neg hh, hleaves hh]
    · obtain ⟨hcal, hfault, -⟩ := effectOrder_retry (s := v) hs
      exact ⟨hcal, hfault hf⟩
    · obtain ⟨hcal, -, hnone⟩ := effectOrder_retry (s := v) hs
      exact ⟨hcal, hnone hf⟩
  -- TIME_SET
  · intro offset day
    have hrange := timeSet_range h hcond
    obtain ⟨hclock, hvalid, hsame, hchanged, hvalidated, hdemand⟩ := timeSet_lines (i := i) (s := v) h
      (by rw [hfinds.sdm]; exact mainPowered_working hp) (by rw [hfinds.tcu]; exact hrange)
    rw [hfinds.tcu] at hclock hsame hchanged hvalidated hdemand
    refine ⟨by rw [ttcu]; exact hclock, by rw [ttcu]; exact hvalid, fun hv0 h0 => ?_, fun hv0 h0 => ?_, fun hv0 => ?_,
      fun h0 => ?_⟩
    · rw [ttcu, tpiu, tacu, tswc, ttmp, tlockouts, hsame hv0 h0]
      exact ⟨hfinds.tcu, hfinds.piu, hfinds.acu, hfinds.swc, hfinds.tmp, hfinds.lockoutsToday⟩
    · obtain ⟨htaken, hfriendly, hpast, hbefore⟩ := hchanged hv0 h0
      have htaken' := (htaken.of_after tacu ttcu tlockouts tbits).of_alike hfinds.acu hfinds.tcu hfinds.lockoutsToday
        (fun n _ => by rw [hfinds.rpu]) (.refl _)
      rw [← ttcu] at htaken' hfriendly hpast hbefore
      rw [← tswc, hfinds.swc] at hpast hbefore
      refine ⟨htaken', hfriendly, fun hd => ?_, hbefore⟩
      obtain ⟨htrips, hlimit⟩ := hpast hd
      exact ⟨htrips, fun e he hpen => by rw [hlimit, he, boundaryLimit_untilBoundary hpen]⟩
    · obtain ⟨hcal, hfriendly, hacu', hcda, htrips, hlimit, hquiet⟩ := hvalidated hv0
      rw [← ttcu] at hcal hfriendly
      rw [← tswc, hfinds.swc] at htrips hlimit
      refine ⟨by rw [hcal], by rw [hcal], hfriendly, fun hu => ?_, fun u hu => ?_, by rw [hcal], by rw [hcal], by rw [hcal],
        by rw [hcal], by rw [hcal], tacu.trans (hacu'.trans hfinds.acu), ?_, htrips, hlimit, fun n hn => ?_⟩
      · rw [hcal, hu]
        rfl
      · rw [hcal, hu]
        rfl
      · rw [tlockouts, hcda, hfinds.lockoutsToday]
      · have hother : n ≠ 2 ∧ n ≠ 3 ∧ n ≠ 5 := by
          simp only [List.mem_cons, List.not_mem_nil, or_false] at hn
          omega
        obtain ⟨h2, h3, h5⟩ := hother
        rw [tbits n h2, hquiet n h3 h5, hfinds.rpu]
    · rw [tpiu, ← hfinds.piu]
      exact hdemand h0
  -- KEY_SLOT_DISABLE
  · obtain ⟨j, g, hj, hg, hset⟩ := applyEffect_disable (i := i) h hargv
    rw [hslot0 (slot0_of_accepted hv (.inl h))] at hg hset
    exact ⟨j, g, hj, hg, by rw [tgroups, hset]⟩
  -- REINSTATE
  · obtain ⟨helg, -, hfalls, hstands⟩ := applyEffect_reinstate (i := i) (s := v) h
    rw [hfinds.makeRecord, hfinds.elg] at helg
    rw [hfinds.retired, hfinds.tmp] at hfalls hstands
    rw [telg, ttmp]
    exact ⟨helg, hfalls, hstands⟩
  -- what no code touches
  · rw [tacu, applyEffect_acu h1 h2 h11, hfinds.acu]
  · rw [telg, applyEffect_elg h8 h13, hfinds.elg]
  · rw [ttcu, applyEffect_tcu h, hfinds.tcu]
  · rw [tswc, ← hfinds.swc]
    by_cases h13 : f.cls = 13
    · obtain ⟨-, hx, -⟩ := applyEffect_reinstate (i := i) (s := v) h13
      exact hx
    · exact applyEffect_swc (by omega)
  · rw [ttmp, applyEffect_tmp h3 h, hfinds.tmp]
  · have hsets := applyEffect_sets (i := i) (s := v) h8 j
    rwa [← ttmp, hfinds.tmp] at hsets
  · rw [ttmp, applyEffect_actions h9, hfinds.tmp]
  · rw [tgroups, agroups h12]
    exact hgroups hg
  · rw [tlockouts, alockouts h11, hfinds.lockoutsToday]
  · rw [treinstate, areinstate h13, hfinds.reinstate]
  · rw [tleft, aleft, hfinds.lockoutLeft]
  · rw [tretired, aretired, hfinds.retired]

end Sys2Proof.Machine
end
